-- ==== Sys2Proof/Word.lean ====
section
/-! DEFINITION. The word types of the block: the byte of the two streams, the 80-bit command word, the 72-bit
response word, the 32-bit fault register (R5, R25, R26, R50, R52). -/

namespace Sys2Proof

/-- A byte of the source, the sink or a register: `BYTE_W = 8` (R5). -/
abbrev Byte := BitVec 8

/-- The command word written to `CMD`: `CW_W = 80` bits (R25, R50). -/
abbrev CmdWord := BitVec 80

/-- The response word read from `RSP`: 72 bits (R25, R52). -/
abbrev RspWord := BitVec 72

/-- The fault register `FAULT`: 32 bits (R26). -/
abbrev FaultWord := BitVec 32

/-- The wide operand `y` and the response value `r`: `Y_W = 64` bits (R5). -/
abbrev Wide := BitVec 64

/-- `NBITS_MIN`, `NBITS_MAX` (R5): the operand range of `BR.READBITS` and `BW.WRITEBITS`. -/
def nbitsMin : Nat := 1
def nbitsMax : Nat := 32

/-- `CODE_W` (R5, R61): width of an LZW code in a stream. -/
def codeW : Nat := 12

/-- `DICT_CAP` (R5, R21): the most entries an LZW dictionary holds. -/
def dictCap : Nat := 4096

/-- `DICT_INIT` (R5, R130): entries bound to single bytes when a dictionary is seeded. -/
def dictInit : Nat := 256

/-- `LEAF_W` (R5, R63): bits of a leaf value in a serialized tree. -/
def leafW : Nat := 8

end Sys2Proof
end

