-- ==== Sys2Proof/Syntax.lean ====
section
/-! DEFINITION. The commands of the block: one constructor per row of the opcode map (R54). A constructor's arguments
are the operand fields the row uses, as the unsigned integers they spell (R51). -/

namespace Sys2Proof

/-- The 33 commands of R54, with the operand fields each uses. -/
inductive Instr where
  | brOpen
  | brReadBit
  | brReadBits (n : BitVec 8)
  | brClose
  | bwOpen
  | bwWriteBit (bit : BitVec 8)
  | bwWriteBits (n : BitVec 8) (value : BitVec 64)
  | bwClose
  | pqCreate (cmp : BitVec 8)
  | pqInsert (item : BitVec 64)
  | pqExtractMin
  | pqSize
  | pqIsEmpty
  | hufCount
  | hufMkLeaf (byte : BitVec 8) (weight : BitVec 64)
  /-- `upper` is `y[63:32]`, which a word may spell non-zero: the command then faults (R51, V2 of `93`). -/
  | hufMkNode (upper : BitVec 32) (left right : BitVec 16)
  | hufBuild
  | hufDerive
  | hufSerialize
  | hufEncode
  | hufDeserialize
  | hufDecode
  | hufCompress
  | hufDecompress
  | lzwEncReset
  | lzwEncByte (byte : BitVec 64)
  | lzwEncFlush
  | lzwDecReset
  | lzwDecCode
  | lzwCompress
  | lzwDecompress
  | sysReset
  | sysStatus
  deriving DecidableEq, Repr

end Sys2Proof
end

