-- ==== Sys2Proof/Decode.lean ====
section
/-! DEFINITION. Command words (R50 to R55): the fields, the opcode map, the decoder, total on all 80-bit words and
rejecting by name, and the encoder. -/

namespace Sys2Proof

/-- Why a word is not a command. -/
inductive Reject where
  /-- `op` is no row of the opcode map (R55): `IllegalCommand` info 1. -/
  | illegalOpcode
  /-- A field the row marks `-` is not zero (R51): `IllegalCommand` info 2. -/
  | unusedField
  deriving DecidableEq, Repr

/-- `op = CMD[79:72]`. -/
def cmdOp (w : CmdWord) : BitVec 8 := w.extractLsb' 72 8
/-- `x = CMD[71:64]`. -/
def cmdX (w : CmdWord) : BitVec 8 := w.extractLsb' 64 8
/-- `y = CMD[63:0]`. -/
def cmdY (w : CmdWord) : BitVec 64 := w.extractLsb' 0 64

/-- `op ‖ x ‖ y`. -/
def cmdWord (op x : BitVec 8) (y : BitVec 64) : CmdWord := (op ++ x ++ y : BitVec (8 + 8 + 64))

/-- A row that uses neither field. -/
def noFields (x : BitVec 8) (y : BitVec 64) (i : Instr) : Except Reject Instr :=
  if x = 0 ∧ y = 0 then .ok i else .error .unusedField

/-- A row that uses `x` only: `y` must be 0. -/
def onlyX (y : BitVec 64) (i : Instr) : Except Reject Instr :=
  if y = 0 then .ok i else .error .unusedField

/-- A row that uses `y` only: `x` must be 0. -/
def onlyY (x : BitVec 8) (i : Instr) : Except Reject Instr :=
  if x = 0 then .ok i else .error .unusedField

/-- The opcode map of R54: the word is decoded by `op` alone, then its unused fields are checked (R152, steps 2, 3). -/
def decodeFields (op x : BitVec 8) (y : BitVec 64) : Except Reject Instr :=
  match op with
  | 0x00#8 => noFields x y .brOpen
  | 0x01#8 => noFields x y .brReadBit
  | 0x02#8 => onlyX y (.brReadBits x)
  | 0x03#8 => noFields x y .brClose
  | 0x04#8 => noFields x y .bwOpen
  | 0x05#8 => onlyX y (.bwWriteBit x)
  | 0x06#8 => .ok (.bwWriteBits x y)
  | 0x07#8 => noFields x y .bwClose
  | 0x20#8 => onlyX y (.pqCreate x)
  | 0x21#8 => onlyY x (.pqInsert y)
  | 0x22#8 => noFields x y .pqExtractMin
  | 0x23#8 => noFields x y .pqSize
  | 0x24#8 => noFields x y .pqIsEmpty
  | 0x40#8 => noFields x y .hufCount
  | 0x41#8 => .ok (.hufMkLeaf x y)
  | 0x42#8 => onlyY x (.hufMkNode (y.extractLsb' 32 32) (y.extractLsb' 16 16) (y.extractLsb' 0 16))
  | 0x43#8 => noFields x y .hufBuild
  | 0x44#8 => noFields x y .hufDerive
  | 0x45#8 => noFields x y .hufSerialize
  | 0x46#8 => noFields x y .hufEncode
  | 0x47#8 => noFields x y .hufDeserialize
  | 0x48#8 => noFields x y .hufDecode
  | 0x4E#8 => noFields x y .hufCompress
  | 0x4F#8 => noFields x y .hufDecompress
  | 0x60#8 => noFields x y .lzwEncReset
  | 0x61#8 => onlyY x (.lzwEncByte y)
  | 0x62#8 => noFields x y .lzwEncFlush
  | 0x63#8 => noFields x y .lzwDecReset
  | 0x64#8 => noFields x y .lzwDecCode
  | 0x6E#8 => noFields x y .lzwCompress
  | 0x6F#8 => noFields x y .lzwDecompress
  | 0xE0#8 => noFields x y .sysReset
  | 0xE1#8 => noFields x y .sysStatus
  | _ => .error .illegalOpcode

/-- The decoder: total on every command word. -/
def decode (w : CmdWord) : Except Reject Instr := decodeFields (cmdOp w) (cmdX w) (cmdY w)

/-- The opcode of each row of R54. -/
def Instr.opcode : Instr → BitVec 8
  | .brOpen => 0x00
  | .brReadBit => 0x01
  | .brReadBits _ => 0x02
  | .brClose => 0x03
  | .bwOpen => 0x04
  | .bwWriteBit _ => 0x05
  | .bwWriteBits _ _ => 0x06
  | .bwClose => 0x07
  | .pqCreate _ => 0x20
  | .pqInsert _ => 0x21
  | .pqExtractMin => 0x22
  | .pqSize => 0x23
  | .pqIsEmpty => 0x24
  | .hufCount => 0x40
  | .hufMkLeaf _ _ => 0x41
  | .hufMkNode _ _ _ => 0x42
  | .hufBuild => 0x43
  | .hufDerive => 0x44
  | .hufSerialize => 0x45
  | .hufEncode => 0x46
  | .hufDeserialize => 0x47
  | .hufDecode => 0x48
  | .hufCompress => 0x4E
  | .hufDecompress => 0x4F
  | .lzwEncReset => 0x60
  | .lzwEncByte _ => 0x61
  | .lzwEncFlush => 0x62
  | .lzwDecReset => 0x63
  | .lzwDecCode => 0x64
  | .lzwCompress => 0x6E
  | .lzwDecompress => 0x6F
  | .sysReset => 0xE0
  | .sysStatus => 0xE1

/-- The `x` field of each row (R54): the operand, or 0. -/
def Instr.xField : Instr → BitVec 8
  | .brReadBits n => n
  | .bwWriteBit bit => bit
  | .bwWriteBits n _ => n
  | .pqCreate cmp => cmp
  | .hufMkLeaf byte _ => byte
  | .brOpen | .brReadBit | .brClose | .bwOpen | .bwClose | .pqInsert _ | .pqExtractMin | .pqSize | .pqIsEmpty
  | .hufCount | .hufMkNode _ _ _ | .hufBuild | .hufDerive | .hufSerialize | .hufEncode | .hufDeserialize | .hufDecode
  | .hufCompress | .hufDecompress | .lzwEncReset | .lzwEncByte _ | .lzwEncFlush | .lzwDecReset | .lzwDecCode
  | .lzwCompress | .lzwDecompress | .sysReset | .sysStatus => 0

/-- The `y` field of each row (R54): the operand, or 0. -/
def Instr.yField : Instr → BitVec 64
  | .bwWriteBits _ value => value
  | .pqInsert item => item
  | .hufMkLeaf _ weight => weight
  | .hufMkNode upper left right => (upper ++ left ++ right : BitVec (32 + 16 + 16))
  | .lzwEncByte byte => byte
  | .brOpen | .brReadBit | .brReadBits _ | .brClose | .bwOpen | .bwWriteBit _ | .bwClose | .pqCreate _ | .pqExtractMin
  | .pqSize | .pqIsEmpty | .hufCount | .hufBuild | .hufDerive | .hufSerialize | .hufEncode | .hufDeserialize
  | .hufDecode | .hufCompress | .hufDecompress | .lzwEncReset | .lzwEncFlush | .lzwDecReset | .lzwDecCode
  | .lzwCompress | .lzwDecompress | .sysReset | .sysStatus => 0

/-- The encoder: the one word that spells a command (R50, R54). -/
def encode (i : Instr) : CmdWord := cmdWord i.opcode i.xField i.yField

/-- The instruction decoded from an opcode-table word: the table numbers the 80-bit command word with bit 0 its least
significant bit, `op` in bits 79:72, and a command is that one word. -/
def decodeTableWord (nbits w : Nat) : Option Instr :=
  if w % 2 ^ nbits < 2 ^ 80 then (decode (BitVec.ofNat 80 (w % 2 ^ nbits))).toOption else none

end Sys2Proof
end

