-- ==== Sys2Proof/Machine/Bits.lean ====
section
/-! DEFINITION. The bit notation of `00_scope.md` section 4: `val`, `bits_N`, the trailing-ones count `t1`, and the
one-bit shift the two channels use. -/

namespace Sys2Proof.Machine

/-- `(v << 1) | b` on naturals (R74, R156): the bit enters at the low end. -/
def shiftIn (v : Nat) (b : Bool) : Nat := 2 * v + b.toNat

/-- `val(s)`: the unsigned integer whose binary digits, most significant first, are `s`. -/
def val (s : List Bool) : Nat := s.foldl shiftIn 0

/-- `bits_N(v) = [v[N-1], ..., v[0]]`: the `N` low bits of `v`, most significant first. -/
def bitsOf : Nat → Nat → List Bool
  | 0, _ => []
  | n + 1, v => v.testBit n :: bitsOf n v

/-- The bits of a byte, bit 7 first (R34). -/
def byteBits (b : Byte) : List Bool := bitsOf 8 b.toNat

/-- `t1(c)`: the number of consecutive `1` bits of `c` starting at bit 0, 0 to 8. -/
def trailingOnes (c : Byte) : Nat := ((List.range 8).takeWhile c.getLsbD).length

/-- The padded final byte of `k` pending bits held right-aligned in `acc`, `1 ≤ k ≤ 7` (R58, R81):
`((acc << (8-k)) & 0xFF) | (2^(7-k) - 1)`. -/
def finalByte (acc : Byte) (k : Nat) : Byte := (acc <<< (8 - k)) ||| BitVec.ofNat 8 (2 ^ (7 - k) - 1)

/-- The byte an aligned close puts when `PAD_ON_ALIGNED` is true (R58). -/
def alignedPad : Byte := 0x7F#8

end Sys2Proof.Machine
end

