-- ==== Sys2Proof/Machine/Units.lean ====
section
/-! DEFINITION. The register groups of the four units as plain data: the bit writer and the bit reader of BitChannel
(R11, R13), the PriorityQueue (R15), the HuffmanCodec (R17 to R20) and the LZWCodec (R21, R22). -/

namespace Sys2Proof.Machine

/-- The bit writer `BW` (R11): `BW.open`, `BW.acc` (the pending bits, right-aligned), `BW.k` (how many they are). -/
structure BitWriter where
  isOpen : Bool
  acc    : Byte
  k      : BitVec 3
  deriving DecidableEq, Repr, Inhabited

/-- The three values of `BR.la_st` (R13): `NONE`, `BYTE`, `EOF`. -/
inductive LaState where
  | none
  | byte
  | eof
  deriving DecidableEq, Repr, Inhabited

/-- The bit reader `BR` (R13): `BR.open`, `BR.cur`, `BR.pos`, `BR.have` (`hasBits`), `BR.lim`, `BR.la`, `BR.la_st`. -/
structure BitReader where
  isOpen  : Bool
  cur     : Byte
  pos     : BitVec 3
  hasBits : Bool
  lim     : BitVec 4
  la      : Byte
  laSt    : LaState
  deriving DecidableEq, Repr, Inhabited

/-- The PriorityQueue `PQ` (R15). `heap` holds the live elements `PQ.heap[0 .. PQ.size-1]` in index order, each an arena
node index; elements at or beyond `PQ.size` are unspecified and no rule reads them, so they are not held. -/
structure Queue where
  created : Bool
  cmp     : Byte
  heap    : List Nat
  deriving DecidableEq, Repr, Inhabited

/-- What a node of the arena is (R18): a leaf with its byte, or an internal node with its two children's indices. -/
inductive NodeKind where
  | leaf (byte : Byte)
  | internal (left right : Nat)
  deriving DecidableEq, Repr, Inhabited

/-- A record of the arena `HUF.node` (R18). -/
structure Node where
  kind   : NodeKind
  weight : Nat
  deriving DecidableEq, Repr, Inhabited

/-- A table indexed by byte value (`ALPHABET = 256` entries, R5). -/
abbrev Table (α : Type) := Vector α 256

/-- The HuffmanCodec `HUF` (R17 to R20). `nodes` holds the allocated nodes `HUF.node[0 .. HUF.nnodes-1]` in index order;
a code of the table is `none` (the null code) or a bit sequence. -/
structure Huffman where
  freq    : Table Nat
  counted : Bool
  nodes   : List Node
  root    : Nat
  treeOk  : Bool
  code    : Table (Option (List Bool))
  derived : Bool
  deriving DecidableEq, Repr, Inhabited

/-- The LZWCodec `LZW` (R21, R22). `edict` lists the encoder dictionary's keys in the order of their codes: the code of
a key is its place in the list, which is the sequence-to-code map because the assigned codes are exactly `0 .. next-1`
in order of creation and no entry is removed or rebound (R23). `dtab` lists the decoder's entries `0 .. LZW.dnext-1`. -/
structure Lzw where
  edict  : List (List Byte)
  buf    : List Byte
  eready : Bool
  dtab   : List (List Byte)
  prev   : Option (List Byte)
  dready : Bool
  deriving DecidableEq, Repr, Inhabited

/-- All the unit state that R176 names together. -/
structure Units where
  bw  : BitWriter
  br  : BitReader
  pq  : Queue
  huf : Huffman
  lzw : Lzw
  deriving DecidableEq, Repr, Inhabited

end Sys2Proof.Machine
end

