-- ==== Sys2Proof/Config.lean ====
section
/-! DEFINITION. The configuration of the block (R5: the parameters an implementation fixes, OPEN ones among them) and the
free values: constants with no body, standing for what the spec leaves unspecified. -/

namespace Sys2Proof

/-- The parameters of R5 that are not one fixed number. `none` is "unbounded". A record of them is held in State, no
step changes it, and every statement over all states is a statement over all configurations (assumption 2). -/
structure Params where
  /-- `FREQ_W`: width of a frequency counter and of a node weight (D15). -/
  freqW : Option Nat
  /-- `PQ_CAP`: items the heap array can hold (D16). -/
  pqCap : Option Nat
  /-- `NODE_CAP`: nodes the arena can hold (D17). -/
  nodeCap : Option Nat
  /-- `PAD_ON_ALIGNED` (D3): normative value `false`. -/
  padOnAligned : Bool
  /-- Whether the code-length field is the 8 bits of R20, so that a code of more than 255 bits is refused (R105, U6 of
  `93`); `false` is R105's realisation with unbounded codes (assumption 18). -/
  codeLen8 : Bool
  deriving DecidableEq, Repr

/-- The spec's defaults: unbounded counters and stores, no byte at an aligned close (R5), code lengths of 0 to 255 (R20,
U6). -/
def Params.normative : Params :=
  { freqW := none, pqCap := none, nodeCap := none, padOnAligned := false, codeLen8 := true }

/-- The ranges R5 gives the open parameters: `FREQ_W ≥ 1`, `PQ_CAP ≥ 256`, `NODE_CAP ≥ 511`. -/
def Params.wf (p : Params) : Bool :=
  p.freqW.all (1 ≤ ·) && p.pqCap.all (256 ≤ ·) && p.nodeCap.all (511 ≤ ·)

/-- FREE VALUE (assumption 3). The unit state that is unspecified after an execution fault (R176), the `BR` registers
after `BR.CLOSE` (R75) and `BW.acc`, `BW.k` after `BW.CLOSE` (R81), at the n-th draw. -/
opaque Config.freeUnits : Nat → Machine.Units

/-- FREE VALUE (assumption 4). The unspecified weight of a node made by `HUF.DESERIALIZE` (R108), at the n-th draw. -/
opaque Config.freeWeight : Nat → Nat

/-- FREE VALUE (assumption 5). The weight found in arena entry `i` when `i` is not allocated (R18: unspecified), at the
n-th draw. -/
opaque Config.staleWeight : Nat → Nat → Nat

end Sys2Proof
end

