-- ==== Sys2Proof/Machine/State.lean ====
section
/-! DEFINITION. The state of the block as plain data (R10 to R29), the environment's side of the ports (R24, R33), the
host's pending inputs (R10, R25, R180), the model's stops, and the state after reset (R29, R181). -/

namespace Sys2Proof.Machine

/-- The phase register `SEQ.phase` (R27); the reserved values 12 to 15 are never held. -/
inductive Phase where
  | idle
  | hCount
  | hBuild
  | hDerive
  | hSerialize
  | hEncode
  | hDeserialize
  | hDecode
  | lEncode
  | lDecode
  | opening
  | closing
  deriving DecidableEq, Repr, Inhabited

/-- The environment's answer to one port access (R33): `ok`, or `IOFail`. -/
inductive PortAnswer where
  | ok
  | ioFail
  deriving DecidableEq, Repr

/-- One thing the host does to the block between commands: it writes a word to `CMD` (R25), or asserts the external
reset input (R180). -/
inductive HostInput where
  | command (w : CmdWord)
  | reset
  deriving DecidableEq, Repr

/-- The byte ports' side of the launch (R24, R31, R32): this hardware's memory is these two byte streams. -/
structure Memory where
  srcData : List Byte
  srcPos  : Nat
  snkData : List Byte
  deriving DecidableEq, Repr

/-- `0 ≤ SRC.pos ≤ SRC_LEN` (R24). A byte stream held as a list of bytes has one form only; this is the one relation
between the fields. -/
def Memory.wf (m : Memory) : Bool := m.srcPos ≤ m.srcData.length

/-- The whole state. `params` are the open parameters (R5), `answers` the environment's answers to the coming port
accesses in order (an access past the list's end is answered `ok`), `host` the inputs the host will present in order,
`draws` the number of free values drawn so far (the model's own counter). -/
structure State where
  bw       : BitWriter
  br       : BitReader
  pq       : Queue
  huf      : Huffman
  lzw      : Lzw
  phase    : Phase
  faultReg : FaultWord
  rsp      : RspWord
  cmd      : CmdWord
  mem      : Memory
  answers  : List PortAnswer
  host     : List HostInput
  params   : Params
  draws    : Nat
  deriving DecidableEq, Repr

/-- The model's stops. None is an event of the hardware: each is reached only from a state that the invariants of the
spec rule out, and a claim that reaches one proves nothing (all four are safe). -/
inductive Fault where
  /-- Raised by `HUF.DERIVE`, `HUF.SERIALIZE`, `HUF.DECODE` and `HUF.COMPRESS` when `HUF.tree_ok` is 1 and the nodes from
  `HUF.root` are no tree, which R19 rules out. Safe. -/
  | treeIllFormed
  /-- Raised by the LZW commands when a sequence or a code that R134 and R23 say is in the dictionary is not. Safe. -/
  | dictionaryMiss
  /-- Raised by the queue commands and `HUF.BUILD` when `PQ.cmp` names no comparator, which R90 rules out. Safe. -/
  | undefinedComparator
  /-- Raised by the loops over a stream when they have run more often than the stream has bits or bytes, which R154 rules
  out for a reader that meets R14. Safe. -/
  | endlessLoop
  deriving DecidableEq, Repr

/-- The model's refusals. -/
inductive Refusal where
  /-- Raised by an arm of `exec` whose command has no meaning yet; no arm is one now. Safe. -/
  | notModelled (mnemonic : String)
  deriving DecidableEq, Repr

/-- The writer at reset: closed (R29); `acc` and `k` have no stated value and are named 0 (assumption 6). -/
def BitWriter.reset : BitWriter := { isOpen := false, acc := 0, k := 0 }

/-- The reader at reset: closed (R29); the other registers are named (assumption 6). -/
def BitReader.reset : BitReader :=
  { isOpen := false, cur := 0, pos := 0, hasBits := false, lim := 0, la := 0, laSt := .none }

/-- The queue at reset: not created (R29); `cmp` and the heap are named (assumption 6). -/
def Queue.reset : Queue := { created := false, cmp := 0, heap := [] }

/-- The codec at reset: its three flags and `HUF.nnodes` are 0 (R29); the tables and the root are named (assumption 6). -/
def Huffman.reset : Huffman :=
  { freq := Vector.replicate 256 0, counted := false, nodes := [], root := 0, treeOk := false,
    code := Vector.replicate 256 none, derived := false }

/-- LZW at reset: both halves unseeded (R29); the dictionaries and buffers are named (assumption 6). -/
def Lzw.reset : Lzw := { edict := [], buf := [], eready := false, dtab := [], prev := none, dready := false }

/-- The machine right after reset (R29, R181): `FAULT = 0`, `RSP = (OK, 0)`, phase `IDLE`. The source, the sink, the
answers and the host's inputs are the environment's and are empty here (assumption 7); the parameters are the spec's
defaults. -/
def State.reset : State :=
  { bw := BitWriter.reset, br := BitReader.reset, pq := Queue.reset, huf := Huffman.reset, lzw := Lzw.reset,
    phase := .idle, faultReg := 0, rsp := 0, cmd := 0,
    mem := { srcData := [], srcPos := 0, snkData := [] }, answers := [], host := [],
    params := Params.normative, draws := 0 }

end Sys2Proof.Machine
end

