-- ==== Sys2Proof/Machine/Ops.lean ====
section
/-! DEFINITION. The named operations every command is made of: the command's state-and-exception form, the byte ports
(R31 to R33), bit input and output (R71 to R74, R79 to R81), the queue (R92, R93), the arena (R101, R102), the response
(R52), the fault entry (R175) and the reset (R150, R180). -/

namespace Sys2Proof.Machine

/-! ### Status codes, causes, the packed registers -/

/-- The two statuses that are not faults (R53). -/
inductive Status where
  | ok
  | eos
  deriving DecidableEq, Repr

def Status.code : Status → Byte
  | .ok => 0x00
  | .eos => 0x01

/-- The fault causes (R161), with what `info` distinguishes (R162 to R169). -/
inductive CauseKind where
  | ioFailure
  | malformedInput
  | argumentRange
  | emptyInput
  | queueEmpty
  | illegalCommand
  | illegalState
  | capacityExceeded
  deriving DecidableEq, Repr

def CauseKind.code : CauseKind → Byte
  | .ioFailure => 0x81
  | .malformedInput => 0x82
  | .argumentRange => 0x83
  | .emptyInput => 0x84
  | .queueEmpty => 0x85
  | .illegalCommand => 0x86
  | .illegalState => 0x87
  | .capacityExceeded => 0x88

/-- The status `Faulted` of a command issued while the block is held (R53, R170). -/
def faultedCode : Byte := 0x8F

/-- A fault with its `info` byte: `raise F(info)`. -/
structure Cause where
  kind : CauseKind
  info : Byte
  deriving DecidableEq, Repr

/-- `SEQ.phase`'s number (R27). -/
def Phase.code : Phase → BitVec 4
  | .idle => 0
  | .hCount => 1
  | .hBuild => 2
  | .hDerive => 3
  | .hSerialize => 4
  | .hEncode => 5
  | .hDeserialize => 6
  | .hDecode => 7
  | .lEncode => 8
  | .lDecode => 9
  | .opening => 10
  | .closing => 11

/-- `RSP = status[71:64] ‖ r[63:0]` (R25, R52). -/
def packRsp (status : Byte) (r : Wide) : RspWord := (status ++ r : BitVec (8 + 64))
def rspStatus (w : RspWord) : Byte := w.extractLsb' 64 8
def rspValue (w : RspWord) : Wide := w.extractLsb' 0 64

/-- `FAULT = valid ‖ 000 ‖ phase ‖ op ‖ cause ‖ info` with `valid = 1` (R26, R175). -/
def packFault (phase : BitVec 4) (op cause info : Byte) : FaultWord :=
  (1#1 ++ 0#3 ++ phase ++ op ++ cause ++ info : BitVec (1 + 3 + 4 + 8 + 8 + 8))
def faultValid (w : FaultWord) : Bool := w.getLsbD 31
def faultReserved (w : FaultWord) : BitVec 3 := w.extractLsb' 28 3
def faultPhase (w : FaultWord) : BitVec 4 := w.extractLsb' 24 4
def faultOp (w : FaultWord) : Byte := w.extractLsb' 16 8
def faultCause (w : FaultWord) : Byte := w.extractLsb' 8 8
def faultInfo (w : FaultWord) : Byte := w.extractLsb' 0 8

/-- The block is held by an earlier fault: `FAULT.valid = 1` (R170). -/
def State.held (s : State) : Bool := faultValid s.faultReg

/-! ### The form of a command's execution

A command's pseudocode runs from a state and ends with a value, or with a raise; either way the state reached is kept,
since the effects made before a raise stand (R176). -/

/-- Why an execution ends early: a fault of the block, or a stop of the model. -/
inductive Stop where
  | raise (c : Cause)
  | stuck (f : Fault)
  deriving DecidableEq, Repr

/-- The pseudocode of the rules: state in, value or stop and state out. -/
abbrev M (α : Type) := EStateM Stop State α

/-- Read something of the state. -/
def look {α : Type} (f : State → α) : M α := fun s => .ok (f s) s

/-- Write the state. -/
def change (f : State → State) : M Unit := fun s => .ok () (f s)

/-- `raise F(info)`. -/
def raise {α : Type} (kind : CauseKind) (info : Byte) : M α := fun s => .error (.raise ⟨kind, info⟩) s

/-- `if p then m`. -/
def runIf (p : Bool) (m : M Unit) : M Unit := if p then m else pure ()

/-- A stop of the model. -/
def stuck {α : Type} (f : Fault) : M α := fun s => .error (.stuck f) s

/-- A list of preconditions in the order a rule writes them: the condition that must hold, and what is raised when it
does not. -/
abbrev Checks := List (Bool × Cause)

/-- The first precondition that fails (R152, step 4; R174). -/
def firstFailed : Checks → Option Cause
  | [] => none
  | (holds, c) :: rest => if holds then firstFailed rest else some c

/-! ### The byte ports (R31 to R33) -/

/-- One port access: the environment's next answer is taken, and `IOFail` raises `IOFailure(info)` with no other effect
(R33, R162). Past the end of `answers` the access succeeds. -/
def portAccess (info : Byte) : M Unit := fun s =>
  match s.answers with
  | [] => .ok () s
  | .ok :: rest => .ok () { s with answers := rest }
  | .ioFail :: rest => .error (.raise ⟨.ioFailure, info⟩) { s with answers := rest }

/-- `SrcOpen()`. -/
def srcOpen : M Unit := portAccess 1

/-- `SrcClose()`. -/
def srcClose : M Unit := portAccess 1

/-- `SrcRewind()`: the one primitive that cannot fail. -/
def srcRewind : M Unit := change fun s => { s with mem := { s.mem with srcPos := 0 } }

/-- `SrcNext()`: the next byte, or `none` for `EOF`, which changes nothing. -/
def srcNext : M (Option Byte) := do
  portAccess 2
  let next ← look fun s => s.mem.srcData[s.mem.srcPos]?
  match next with
  | none => pure none
  | some b => do
    change fun s => { s with mem := { s.mem with srcPos := s.mem.srcPos + 1 } }
    pure (some b)

/-- `SinkOpen()`: empties the sink. -/
def sinkOpen : M Unit := do
  portAccess 3
  change fun s => { s with mem := { s.mem with snkData := [] } }

/-- `SinkPut(b)`: appends one byte. -/
def sinkPut (b : Byte) : M Unit := do
  portAccess 4
  change fun s => { s with mem := { s.mem with snkData := s.mem.snkData ++ [b] } }

/-- `SinkClose()`. -/
def sinkClose : M Unit := portAccess 3

/-- `SinkPut` of each byte, first to last. -/
def sinkPutAll : List Byte → M Unit
  | [] => pure ()
  | b :: bs => do
    sinkPut b
    sinkPutAll bs

/-- `loop v <- SrcNext(); if v = EOF then exit; f v` (R100, R107, R139), run at most `fuel` times. -/
def forEachSourceByte (f : Byte → M Unit) : Nat → M Unit
  | 0 => stuck .endlessLoop
  | fuel + 1 => do
    let v ← srcNext
    match v with
    | none => pure ()
    | some b => do
      f b
      forEachSourceByte f fuel

/-- How often a loop over the source can run: once for each byte not yet read, and once for the `EOF`. -/
def sourceBudget (s : State) : Nat := s.mem.srcData.length - s.mem.srcPos + 1

/-! ### The bit reader (R71 to R74) -/

/-- `Fetch()` (R71). -/
def fetchLookahead : M Unit := do
  let v ← srcNext
  match v with
  | none => change fun s => { s with br := { s.br with laSt := .eof } }
  | some b => change fun s => { s with br := { s.br with la := b, laSt := .byte } }

/-- `ValidCount(c)` (R72): the valid bits of the last byte; `0xFF` is `MalformedInput(7)`. -/
def validCount (c : Byte) : M Nat :=
  if trailingOnes c = 8 then raise .malformedInput 7 else pure (7 - trailingOnes c)

/-- `lim` of the byte `c` taken as the current byte: 8 for an interior byte, its valid bits for the last one (R71). -/
def limitOf (c : Byte) (st : LaState) : M Nat := if st = .eof then validCount c else pure 8

/-- The part of `Refill()` that takes the lookahead byte as the current byte (R71). -/
def takeLookahead : M Unit := do
  let c ← look fun s => s.br.la
  fetchLookahead
  let st ← look fun s => s.br.laSt
  let lim ← limitOf c st
  runIf (lim != 0)
    (change fun s => { s with br := { s.br with cur := c, lim := BitVec.ofNat 4 lim, pos := 0, hasBits := true } })

/-- `Refill()` (R71). -/
def refill : M Unit := do
  let st ← look fun s => s.br.laSt
  runIf (st == .none) fetchLookahead
  let st ← look fun s => s.br.laSt
  runIf (st != .eof) takeLookahead

/-- The registers after one bit of `BR.cur` has been taken (R73). -/
def BitReader.advance (r : BitReader) : BitReader :=
  if r.pos.toNat + 1 = r.lim.toNat then { r with hasBits := false, pos := 0 } else { r with pos := r.pos + 1 }

/-- The bit `BR.cur[7 - BR.pos]` (R73). -/
def BitReader.bit (r : BitReader) : Bool := r.cur.getLsbD (7 - r.pos.toNat)

/-- `ReadBit()` (R73): a bit, or `none` for `EOS`. -/
def readBit : M (Option Bool) := do
  let has ← look fun s => s.br.hasBits
  runIf (!has) refill
  let r ← look fun s => s.br
  if r.hasBits then do
    change fun s => { s with br := r.advance }
    pure (some r.bit)
  else pure none

/-- What `ReadBits(n)` returns (R74): the value, or end-of-stream after `g` bits. -/
inductive ReadResult where
  | value (v : Nat)
  | eos (g : Nat)
  deriving DecidableEq, Repr

/-- `ReadBits` with `g` bits of value `v` already obtained and `n` still to come (R74). -/
def readBitsFrom : Nat → Nat → Nat → M ReadResult
  | 0, _, v => pure (.value v)
  | n + 1, g, v => do
    let b ← readBit
    match b with
    | none => pure (.eos g)
    | some b => readBitsFrom n (g + 1) (shiftIn v b)

/-- `ReadBits(n)` (R74). -/
def readBits (n : Nat) : M ReadResult := readBitsFrom n 0 0

/-- A number of single-bit reads after which a reader that meets R14 has answered `EOS`: 8 bits of `BR.cur`, 8 of the
lookahead, 8 of each byte not yet fetched, and the read that finds the end. It bounds the loops of R108, R109 and R140,
which take a bit at every turn (R154). -/
def bitBudget (s : State) : Nat := 8 * (s.mem.srcData.length - s.mem.srcPos) + 17

/-! ### The bit writer (R79 to R81) -/

/-- `((BW.acc << 1) | bit) & 0xFF` (R79). -/
def accWith (acc : Byte) (bit : Bool) : Byte := (acc <<< 1) ||| (BitVec.ofBool bit).setWidth 8

/-- `WriteBit(bit)` (R79). -/
def writeBit (bit : Bool) : M Unit := do
  change fun s => { s with bw := { s.bw with acc := accWith s.bw.acc bit } }
  let w ← look fun s => s.bw
  if w.k = 7 then do
    sinkPut w.acc
    change fun s => { s with bw := { s.bw with acc := 0, k := 0 } }
  else change fun s => { s with bw := { s.bw with k := s.bw.k + 1 } }

/-- `WriteBit` of each bit, first to last. -/
def writeBitList : List Bool → M Unit
  | [] => pure ()
  | b :: bs => do
    writeBit b
    writeBitList bs

/-- `WriteBits(n, value)` (R80): bits `n-1` down to 0 of the value. -/
def writeBits (n value : Nat) : M Unit := writeBitList (bitsOf n value)

/-! ### The queue (R91 to R93) -/

/-- A value of `FREQ_W` bits made from a free value (R18). -/
def Params.clipFreq (p : Params) (w : Nat) : Nat :=
  match p.freqW with
  | none => w
  | some n => w % 2 ^ n

/-- The weight found at arena index `i` (R18): of an allocated node its weight; otherwise unspecified, a free value
of `FREQ_W` bits (assumption 5). -/
def weightAt (s : State) (i : Nat) : Nat :=
  match s.huf.nodes[i]? with
  | some n => n.weight
  | none => Params.clipFreq s.params (Config.staleWeight s.draws i)

/-- `CMP_WEIGHT`: `cmp(a, b) = HUF.node[a].weight < HUF.node[b].weight` (R91). -/
def precedes (s : State) (a b : Nat) : Bool := weightAt s a < weightAt s b

/-- The comparator the queue was created with; only id 0 is defined (R91). -/
def comparator : M (Nat → Nat → Bool) := fun s =>
  if s.pq.cmp = 0 then .ok (precedes s) s else .error (.stuck .undefinedComparator) s

/-- `swap heap[i], heap[j]`. -/
def swapAt (h : List Nat) (i j : Nat) : List Nat := (h.set i (h.getD j 0)).set j (h.getD i 0)

/-- The sift-up loop of R92, for at most `fuel` moves. -/
def siftUp (lt : Nat → Nat → Bool) : Nat → Nat → List Nat → List Nat
  | 0, _, h => h
  | fuel + 1, i, h =>
    if 0 < i ∧ lt (h.getD i 0) (h.getD ((i - 1) / 2) 0) then siftUp lt fuel ((i - 1) / 2) (swapAt h i ((i - 1) / 2))
    else h

/-- `if c < PQ.size and cmp(heap[c], heap[s]) then s <- c` (R93). -/
def betterOf (lt : Nat → Nat → Bool) (h : List Nat) (s c : Nat) : Nat :=
  if c < h.length ∧ lt (h.getD c 0) (h.getD s 0) then c else s

/-- The index the sift-down step of R93 chooses at `i`: the left child if it precedes the node, then the right child if
it precedes that choice. -/
def smallestChild (lt : Nat → Nat → Bool) (h : List Nat) (i : Nat) : Nat :=
  betterOf lt h (betterOf lt h i (2 * i + 1)) (2 * i + 2)

/-- The sift-down loop of R93, for at most `fuel` moves. -/
def siftDown (lt : Nat → Nat → Bool) : Nat → Nat → List Nat → List Nat
  | 0, _, h => h
  | fuel + 1, i, h =>
    if smallestChild lt h i = i then h
    else siftDown lt fuel (smallestChild lt h i) (swapAt h i (smallestChild lt h i))

/-- The heap after an insertion (R92): append, then sift up. -/
def heapInsert (lt : Nat → Nat → Bool) (h : List Nat) (item : Nat) : List Nat :=
  siftUp lt h.length h.length (h ++ [item])

/-- The heap after an extraction (R93): the last element moves to the root and sifts down. -/
def heapRemoveRoot (lt : Nat → Nat → Bool) (h : List Nat) : List Nat :=
  match h.dropLast with
  | [] => []
  | _ :: rest => siftDown lt h.length 0 (h.getLastD 0 :: rest)

/-- `PQ.size`: the number of live elements (R15). -/
def Queue.size (q : Queue) : Nat := q.heap.length

/-- Whether a store of capacity `cap` that holds `n` elements takes one more (R92, `Alloc`). -/
def hasRoom (cap : Option Nat) (n : Nat) : Bool :=
  match cap with
  | none => true
  | some c => n < c

/-- `PqInsert(item)` (R92). -/
def pqInsert (item : Nat) : M Unit := do
  let room ← look fun s => hasRoom s.params.pqCap s.pq.size
  if room then do
    let lt ← comparator
    change fun s => { s with pq := { s.pq with heap := heapInsert lt s.pq.heap item } }
  else raise .capacityExceeded 1

/-- `PqExtractMin()` (R93). -/
def pqExtractMin : M Nat := do
  let h ← look fun s => s.pq.heap
  match h with
  | [] => raise .queueEmpty 0
  | m :: _ => do
    let lt ← comparator
    change fun s => { s with pq := { s.pq with heap := heapRemoveRoot lt h } }
    pure m

/-! ### The arena (R18, R101, R102) -/

/-- `HUF.nnodes`: the number of allocated nodes, the next free index (R18). -/
def Huffman.nnodes (h : Huffman) : Nat := h.nodes.length

/-- Whether a count or a weight is one of `FREQ_W` bits (R17, R156). -/
def Params.fitsFreq (p : Params) (w : Nat) : Bool :=
  match p.freqW with
  | none => true
  | some n => w < 2 ^ n

/-- `Alloc(rec)`: the next free index takes the record. -/
def allocNode (n : Node) : M Nat := do
  let i ← look fun s => s.huf.nnodes
  let room ← look fun s => hasRoom s.params.nodeCap s.huf.nnodes
  if room then do
    change fun s => { s with huf := { s.huf with nodes := s.huf.nodes ++ [n] } }
    pure i
  else raise .capacityExceeded 2

/-- `MkLeaf(byte, weight)` (R101). -/
def mkLeaf (byte : Byte) (weight : Nat) : M Nat := allocNode { kind := .leaf byte, weight := weight }

/-- `MkNode(left, right)` (R102): the sum is exact, and one that does not fit is refused. -/
def mkNode (left right : Nat) : M Nat := do
  let w ← look fun s => weightAt s left + weightAt s right
  let fits ← look fun s => Params.fitsFreq s.params w
  if fits then allocNode { kind := .internal left right, weight := w } else raise .capacityExceeded 3

/-- The weight of a deserialized node: unspecified (R108), a free value of `FREQ_W` bits (assumption 4). -/
def freeWeight : M Nat := fun s =>
  .ok (Params.clipFreq s.params (Config.freeWeight s.draws)) { s with draws := s.draws + 1 }

/-! ### Byte tables -/

/-- The entry of a byte. -/
def Table.at {α : Type} (t : Table α) (b : Byte) : α := t[b.toNat]'b.isLt

/-- The table with one entry written. -/
def Table.put {α : Type} (t : Table α) (b : Byte) (v : α) : Table α := t.set b.toNat v b.isLt

/-- The byte values in ascending order. -/
def allBytes : List Byte := (List.range 256).map (BitVec.ofNat 8)

/-! ### Responses, fault entry, reset -/

/-- The register group of each unit takes an unspecified value, both channels closed (R175, R176; assumption 3). -/
def State.forgetUnits (s : State) : State :=
  { s with bw := { (Config.freeUnits s.draws).bw with isOpen := false },
           br := { (Config.freeUnits s.draws).br with isOpen := false },
           pq := (Config.freeUnits s.draws).pq, huf := (Config.freeUnits s.draws).huf,
           lzw := (Config.freeUnits s.draws).lzw, draws := s.draws + 1 }

/-- `if BR.open = 1 then SrcClose()`, `if BW.open = 1 then SinkClose()`, outcomes ignored, nothing flushed (R150, R175):
each of the two accesses only uses up one answer of the environment. -/
def State.releasePorts (s : State) : State :=
  { s with answers := s.answers.drop (s.br.isOpen.toNat + s.bw.isOpen.toNat) }

/-- `RSP <- (status, r)` (R52). -/
def State.respond (s : State) (status : Byte) (r : Wide) : State := { s with rsp := packRsp status r }

/-- Fault entry (R175): `FAULT` takes the first fault only; a raise during execution releases both channels and leaves
the units unspecified (R176); the phase returns to `IDLE`; `RSP` takes the code and the info. -/
def State.faultEntry (s : State) (op : Byte) (c : Cause) (executing : Bool) : State :=
  { (if executing then s.releasePorts.forgetUnits else s) with
    faultReg := if s.held then s.faultReg else packFault s.phase.code op c.kind.code c.info,
    phase := .idle, rsp := packRsp c.kind.code (c.info.setWidth 64) }

/-- Every state element takes its reset value (R29, R150, R181); the environment's side, the parameters and the model's
draw counter are not state elements of the block and stay. -/
def State.resetBlock (s : State) : State :=
  { State.reset with
    mem := s.mem, answers := s.releasePorts.answers, host := s.host, params := s.params, draws := s.draws }

/-! ### The command cycle (R152) -/

/-- The outcome of a command: `(S, v)` of `return (S, v)`. -/
structure Response where
  status : Status
  value  : Wide
  deriving DecidableEq, Repr

/-- `return OK`. -/
def done : Response := ⟨.ok, 0⟩

/-- Steps 4 to 6 of R152 for a command that is not held: the preconditions, then the pseudocode, then the response or the
fault entry. -/
def runCommand (op : Byte) (checks : Checks) (body : M Response) (s : State) : Host.Outcome State Fault Refusal :=
  match firstFailed checks with
  | some c => .next (s.faultEntry op c false)
  | none =>
    match body s with
    | .ok v t => .next (t.respond v.status.code v.value)
    | .error (.raise c) t => .next (t.faultEntry op c true)
    | .error (.stuck f) _ => .fault f

/-- The whole cycle of a command other than `SYS.RESET` and `SYS.STATUS` (R152): step 1 answers `Faulted` while the block
is held (R170), with no other effect. -/
def command (op : Byte) (checks : State → Checks) (body : M Response) (s : State) :
    Host.Outcome State Fault Refusal :=
  if s.held then .next (s.respond faultedCode 0) else runCommand op (checks s) body s

/-- A step of a macro: the primitive's preconditions, then its pseudocode (R152: "with their own step 4 checks"). -/
def substep {α : Type} (phase : Phase) (checks : State → Checks) (body : M α) : M α := do
  change fun s => { s with phase := phase }
  let failed ← look fun s => firstFailed (checks s)
  match failed with
  | some c => raise c.kind c.info
  | none => body

/-- `IDLE`: the end of a macro (R153). -/
def endMacro : M Response := do
  change fun s => { s with phase := .idle }
  pure done

/-- `info` of a rejected word (R167). -/
def rejectInfo : Reject → Byte
  | .illegalOpcode => 1
  | .unusedField => 2

/-- What a word that is no command does (R55, R152 steps 1 to 3): `Faulted` while held, whatever the word's `op` (R150,
R177; assumption 8), else `IllegalCommand`. -/
def rejectWord (w : CmdWord) (why : Reject) (s : State) : State :=
  if s.held then s.respond faultedCode 0
  else s.faultEntry (cmdOp w) ⟨.illegalCommand, rejectInfo why⟩ false

/-- What the host presents next (R10, R25): the input, and the state with the input taken and a command word in `CMD`. -/
def takeInput (s : State) : Option (HostInput × State) :=
  match s.host with
  | [] => none
  | .reset :: rest => some (.reset, { s with host := rest })
  | .command w :: rest => some (.command w, { s with host := rest, cmd := w })

/-- The host's inputs with one command word placed first. -/
def State.present (s : State) (w : CmdWord) : State := { s with host := .command w :: s.host }

end Sys2Proof.Machine
end

