-- ==== Sys2Proof/Machine/Flags.lean ====
section
/-! DEFINITION. The status flags of the block (R28) as the conditions commands test before they run: one precondition per
`info` value of `IllegalState` (R168), and the conditions of `EmptyInput`, `QueueEmpty` and `CapacityExceeded` that are
decided before execution (R152 step 4). The block has no arithmetic condition codes. -/

namespace Sys2Proof.Machine

/-- The reader's end-of-stream condition (R28): no valid bit remains. -/
def State.endOfStream (s : State) : Bool := !s.br.hasBits && s.br.laSt == .eof

def needReaderClosed (s : State) : Bool × Cause := (!s.br.isOpen, ⟨.illegalState, 1⟩)
def needReaderOpen (s : State) : Bool × Cause := (s.br.isOpen, ⟨.illegalState, 2⟩)
def needWriterClosed (s : State) : Bool × Cause := (!s.bw.isOpen, ⟨.illegalState, 3⟩)
def needWriterOpen (s : State) : Bool × Cause := (s.bw.isOpen, ⟨.illegalState, 4⟩)
def needQueue (s : State) : Bool × Cause := (s.pq.created, ⟨.illegalState, 5⟩)
def needCounted (s : State) : Bool × Cause := (s.huf.counted, ⟨.illegalState, 6⟩)
def needTree (s : State) : Bool × Cause := (s.huf.treeOk, ⟨.illegalState, 7⟩)
def needCodes (s : State) : Bool × Cause := (s.huf.derived, ⟨.illegalState, 8⟩)
def needEncoder (s : State) : Bool × Cause := (s.lzw.eready, ⟨.illegalState, 9⟩)
def needDecoder (s : State) : Bool × Cause := (s.lzw.dready, ⟨.illegalState, 10⟩)

/-- Port busy (R168 info 11, R188): a command that reads the source byte-wise needs the reader closed. -/
def needSourceFree (s : State) : Bool × Cause := (!s.br.isOpen, ⟨.illegalState, 11⟩)
/-- Port busy: a command that puts bytes to the sink needs the writer closed. -/
def needSinkFree (s : State) : Bool × Cause := (!s.bw.isOpen, ⟨.illegalState, 11⟩)
/-- The four macros need both channels closed. -/
def needPortsFree (s : State) : Bool × Cause := (!s.br.isOpen && !s.bw.isOpen, ⟨.illegalState, 11⟩)

/-- Some frequency is above 0 (R103, R165). -/
def needInput (s : State) : Bool × Cause := (allBytes.any fun b => 0 < Table.at s.huf.freq b, ⟨.emptyInput, 0⟩)
/-- The queue holds an element (R93, R166). -/
def needElement (s : State) : Bool × Cause := (0 < s.pq.size, ⟨.queueEmpty, 0⟩)
/-- The heap array has room (R92, R169 info 1). -/
def needHeapRoom (s : State) : Bool × Cause := (hasRoom s.params.pqCap s.pq.size, ⟨.capacityExceeded, 1⟩)
/-- The arena has room (R101, R102, R169 info 2). -/
def needArenaRoom (s : State) : Bool × Cause := (hasRoom s.params.nodeCap s.huf.nnodes, ⟨.capacityExceeded, 2⟩)

end Sys2Proof.Machine
end

