-- ==== Sys2Proof/WellFormed.lean ====
section
/-! DEFINITION. Which commands carry operands inside the ranges the rules state for them on the operand alone (R51, R157,
R164). A command outside them is a word the decoder accepts; its meaning raises `ArgumentRange`. -/

namespace Sys2Proof

/-- `1 ≤ n ≤ 32` (R74, R80, D7). -/
def bitCountOk (n : BitVec 8) : Bool := nbitsMin ≤ n.toNat && n.toNat ≤ nbitsMax

/-- `value < 2^n` (R80). -/
def valueFits (n : BitVec 8) (value : BitVec 64) : Bool := value.toNat < 2 ^ n.toNat

/-- The operand ranges of R51 that no state and no parameter enters. -/
def Instr.wellFormed : Instr → Bool
  | .brReadBits n => bitCountOk n
  | .bwWriteBit bit => bit.toNat ≤ 1
  | .bwWriteBits n value => bitCountOk n && valueFits n value
  | .pqCreate cmp => cmp == 0
  | .hufMkNode upper _ _ => upper == 0
  | .lzwEncByte byte => byte.toNat ≤ 255
  | .brOpen | .brReadBit | .brClose | .bwOpen | .bwClose | .pqInsert _ | .pqExtractMin | .pqSize | .pqIsEmpty
  | .hufCount | .hufMkLeaf _ _ | .hufBuild | .hufDerive | .hufSerialize | .hufEncode | .hufDeserialize | .hufDecode
  | .hufCompress | .hufDecompress | .lzwEncReset | .lzwEncFlush | .lzwDecReset | .lzwDecCode | .lzwCompress
  | .lzwDecompress | .sysReset | .sysStatus => true

end Sys2Proof
end

