-- ==== Sys2Proof/Machine/Operands.lean ====
section
/-! DEFINITION. Every operand form of the commands (R51, R54) and its range check (R157, R164): operands are used as the
unsigned integers they spell, and one out of range is refused with `ArgumentRange`, never masked. -/

namespace Sys2Proof.Machine

/-- `bit` is 0 or 1 (R79): `ArgumentRange(1)`. -/
def argBit (bit : BitVec 8) : Bool × Cause := (bit.toNat ≤ 1, ⟨.argumentRange, 1⟩)
/-- `value < 2^n` (R80), on the whole 64-bit `y`: `ArgumentRange(2)`. -/
def argValue (n : BitVec 8) (value : BitVec 64) : Bool × Cause := (valueFits n value, ⟨.argumentRange, 2⟩)
/-- `1 ≤ n ≤ 32` (R74, R80): `ArgumentRange(3)`. -/
def argCount (n : BitVec 8) : Bool × Cause := (bitCountOk n, ⟨.argumentRange, 3⟩)
/-- `y ≤ 255` (R132): `ArgumentRange(4)`. -/
def argByte (y : BitVec 64) : Bool × Cause := (y.toNat ≤ 255, ⟨.argumentRange, 4⟩)
/-- The comparator id is 0, `CMP_WEIGHT` (R90): `ArgumentRange(5)`. -/
def argComparator (cmp : BitVec 8) : Bool × Cause := (cmp == 0, ⟨.argumentRange, 5⟩)
/-- `weight < 2^FREQ_W` (R101): `ArgumentRange(6)`. -/
def argWeight (w : BitVec 64) (s : State) : Bool × Cause := (Params.fitsFreq s.params w.toNat, ⟨.argumentRange, 6⟩)
/-- `y[63:32] = 0` and both indices allocated (R102): `ArgumentRange(7)`. -/
def argChildren (upper : BitVec 32) (left right : BitVec 16) (s : State) : Bool × Cause :=
  (upper == 0 && decide (left.toNat < s.huf.nnodes) && decide (right.toNat < s.huf.nnodes), ⟨.argumentRange, 7⟩)
/-- Under `CMP_WEIGHT` the item is an allocated node index (R92): `ArgumentRange(8)`. -/
def argItem (item : BitVec 64) (s : State) : Bool × Cause :=
  (s.pq.cmp != 0 || decide (item.toNat < s.huf.nnodes), ⟨.argumentRange, 8⟩)
/-- The sum of the children's weights is one of `FREQ_W` bits (R102): `CapacityExceeded(3)`. -/
def argSum (left right : BitVec 16) (s : State) : Bool × Cause :=
  (Params.fitsFreq s.params (weightAt s left.toNat + weightAt s right.toNat), ⟨.capacityExceeded, 3⟩)

/-- A bit operand already checked. -/
def bitOperand (bit : BitVec 8) : Bool := bit.getLsbD 0

/-- The byte operand of `LZW.ENC_BYTE`, already checked to be at most 255. -/
def byteOperand (y : BitVec 64) : Byte := y.setWidth 8

/-- A result as the response value: `zext_64` (R52). -/
def result (v : Nat) : Response := ⟨.ok, BitVec.ofNat 64 v⟩

end Sys2Proof.Machine
end

