-- ==== Sys2Proof/Machine/BitChannel.lean ====
section
/-! DEFINITION. The BitChannel commands: `BR.OPEN`, `BR.READBIT`, `BR.READBITS`, `BR.CLOSE` (R70 to R75), `BW.OPEN`,
`BW.WRITEBIT`, `BW.WRITEBITS`, `BW.CLOSE` (R78 to R81). -/

namespace Sys2Proof.Machine

/-- R70: `BR.open = 0`. -/
def brOpenChecks (s : State) : Checks := [needReaderClosed s]

/-- R70. No byte is fetched. -/
def brOpenBody : M Response := do
  srcOpen
  srcRewind
  change fun s => { s with br := { s.br with hasBits := false, pos := 0, laSt := .none, isOpen := true } }
  pure done

/-- `BR.OPEN` (R70). -/
def execBrOpen (s : State) : Host.Outcome State Fault Refusal := command 0x00 brOpenChecks brOpenBody s

/-- R73: `BR.open = 1`. -/
def brReadBitChecks (s : State) : Checks := [needReaderOpen s]

/-- R73: the bit, or `EOS` with `r = 0`. -/
def brReadBitBody : M Response := do
  let b ← readBit
  match b with
  | none => pure ⟨.eos, 0⟩
  | some b => pure (result b.toNat)

/-- `BR.READBIT` (R73). -/
def execBrReadBit (s : State) : Host.Outcome State Fault Refusal := command 0x01 brReadBitChecks brReadBitBody s

/-- R74: the reader open, then `1 ≤ n ≤ 32`. -/
def brReadBitsChecks (n : BitVec 8) (s : State) : Checks := [needReaderOpen s, argCount n]

/-- R74: the value, or `EOS` with `r = g`. -/
def brReadBitsBody (n : BitVec 8) : M Response := do
  let v ← readBits n.toNat
  match v with
  | .value v => pure (result v)
  | .eos g => pure ⟨.eos, BitVec.ofNat 64 g⟩

/-- `BR.READBITS n` (R74). -/
def execBrReadBits (n : BitVec 8) (s : State) : Host.Outcome State Fault Refusal :=
  command 0x02 (brReadBitsChecks n) (brReadBitsBody n) s

/-- R75: `BR.open = 1`. -/
def brCloseChecks (s : State) : Checks := [needReaderOpen s]

/-- R75. Every other `BR` register is unspecified after close (assumption 3). -/
def brCloseBody : M Response := do
  srcClose
  change fun s => { s with br := { (Config.freeUnits s.draws).br with isOpen := false }, draws := s.draws + 1 }
  pure done

/-- `BR.CLOSE` (R75). -/
def execBrClose (s : State) : Host.Outcome State Fault Refusal := command 0x03 brCloseChecks brCloseBody s

/-- R78: `BW.open = 0`. -/
def bwOpenChecks (s : State) : Checks := [needWriterClosed s]

/-- R78. -/
def bwOpenBody : M Response := do
  sinkOpen
  change fun s => { s with bw := { acc := 0, k := 0, isOpen := true } }
  pure done

/-- `BW.OPEN` (R78). -/
def execBwOpen (s : State) : Host.Outcome State Fault Refusal := command 0x04 bwOpenChecks bwOpenBody s

/-- R79: the writer open, then `bit ≤ 1`. -/
def bwWriteBitChecks (bit : BitVec 8) (s : State) : Checks := [needWriterOpen s, argBit bit]

/-- R79. -/
def bwWriteBitBody (bit : BitVec 8) : M Response := do
  writeBit (bitOperand bit)
  pure done

/-- `BW.WRITEBIT bit` (R79). -/
def execBwWriteBit (bit : BitVec 8) (s : State) : Host.Outcome State Fault Refusal :=
  command 0x05 (bwWriteBitChecks bit) (bwWriteBitBody bit) s

/-- R80: the writer open, then `1 ≤ n ≤ 32`, then `value < 2^n`. -/
def bwWriteBitsChecks (n : BitVec 8) (value : BitVec 64) (s : State) : Checks :=
  [needWriterOpen s, argCount n, argValue n value]

/-- R80. -/
def bwWriteBitsBody (n : BitVec 8) (value : BitVec 64) : M Response := do
  writeBits n.toNat value.toNat
  pure done

/-- `BW.WRITEBITS n, value` (R80). -/
def execBwWriteBits (n : BitVec 8) (value : BitVec 64) (s : State) : Host.Outcome State Fault Refusal :=
  command 0x06 (bwWriteBitsChecks n value) (bwWriteBitsBody n value) s

/-- R81: `BW.open = 1`. -/
def bwCloseChecks (s : State) : Checks := [needWriterOpen s]

/-- The byte a close puts, if any (R58, R81): the padded pending bits, or `0x7F` under `PAD_ON_ALIGNED`, or nothing. -/
def closingBytes (w : BitWriter) (padOnAligned : Bool) : List Byte :=
  if w.k ≠ 0 then [finalByte w.acc w.k.toNat] else if padOnAligned then [alignedPad] else []

/-- R81. `BW.acc` and `BW.k` are unspecified after close (assumption 3). -/
def bwCloseBody : M Response := do
  let last ← look fun s => closingBytes s.bw s.params.padOnAligned
  sinkPutAll last
  sinkClose
  change fun s => { s with bw := { (Config.freeUnits s.draws).bw with isOpen := false }, draws := s.draws + 1 }
  pure done

/-- `BW.CLOSE` (R81). -/
def execBwClose (s : State) : Host.Outcome State Fault Refusal := command 0x07 bwCloseChecks bwCloseBody s

end Sys2Proof.Machine
end

