-- ==== Sys2Proof/Machine/Tree.lean ====
section
/-! DEFINITION. The code tree as a tree (R19): what the nodes reachable from `HUF.root` form, its serialized form (R63) and
the codes of its leaves (R64, R105). -/

namespace Sys2Proof.Machine

/-- A well-formed tree (R19): a single leaf, or an internal node with two well-formed subtrees. -/
inductive Tree where
  | leaf (b : Byte)
  | node (l r : Tree)
  deriving DecidableEq, Repr

/-- The tree at arena index `n`, looking at most `fuel` levels down; `none` when the nodes there are no tree. -/
def treeAt (nodes : List Node) : Nat → Nat → Option Tree
  | 0, _ => none
  | fuel + 1, n =>
    match nodes[n]? with
    | none => none
    | some node =>
      match node.kind with
      | .leaf b => some (.leaf b)
      | .internal l r =>
        match treeAt nodes fuel l, treeAt nodes fuel r with
        | some tl, some tr => some (.node tl tr)
        | _, _ => none

/-- The tree `HUF.root` names; a tree of `n` nodes is at most `n` levels deep. -/
def Huffman.tree (h : Huffman) : Option Tree := treeAt h.nodes h.nodes.length h.root

/-- `ser(T)` (R63): `1` and the leaf's 8 bits; `0`, then left, then right. -/
def Tree.ser : Tree → List Bool
  | .leaf b => true :: byteBits b
  | .node l r => false :: (l.ser ++ r.ser)

/-- The number of leaves. -/
def Tree.leaves : Tree → Nat
  | .leaf _ => 1
  | .node l r => l.leaves + r.leaves

/-- The leaves in pre-order with their paths from the node, left 0 and right 1 (R105). -/
def Tree.paths : Tree → List Bool → List (Byte × List Bool)
  | .leaf b, path => [(b, path)]
  | .node l r, path => l.paths (path ++ [false]) ++ r.paths (path ++ [true])

/-- The codes in the order `HUF.DERIVE` writes them: a single leaf has the one-bit code `[0]` (R105, D13). -/
def Tree.codes : Tree → List (Byte × List Bool)
  | .leaf b => [(b, [false])]
  | .node l r => (Tree.node l r).paths []

end Sys2Proof.Machine
end

