-- ==== Sys2Proof/Machine/HuffmanCodec.lean ====
section
/-! DEFINITION. The HuffmanCodec commands: `HUF.COUNT`, `HUF.MKLEAF`, `HUF.MKNODE`, `HUF.BUILD`, `HUF.DERIVE`,
`HUF.SERIALIZE`, `HUF.ENCODE`, `HUF.DESERIALIZE`, `HUF.DECODE` and the macros `HUF.COMPRESS`, `HUF.DECOMPRESS` (R100 to
R111). -/

namespace Sys2Proof.Machine

/-- Write a field of the codec. -/
def changeHuf (f : Huffman → Huffman) : M Unit := change fun s => { s with huf := f s.huf }

/-! ### Count (R100) -/

/-- `HUF.freq[v]` is at the top of a bounded `FREQ_W` (R100). -/
def counterFull (p : Params) (n : Nat) : Bool :=
  match p.freqW with
  | none => false
  | some w => n = 2 ^ w - 1

/-- The loop body of R100. -/
def countByte (v : Byte) : M Unit := do
  let full ← look fun s => counterFull s.params (Table.at s.huf.freq v)
  if full then raise .capacityExceeded 3
  else changeHuf fun h => { h with freq := Table.put h.freq v (Table.at h.freq v + 1) }

/-- R100: the source is not the reader's. -/
def hufCountChecks (s : State) : Checks := [needSourceFree s]

/-- R100. -/
def hufCountBody : M Response := do
  srcOpen
  srcRewind
  changeHuf fun h => { h with freq := Vector.replicate 256 0 }
  let n ← look sourceBudget
  forEachSourceByte countByte n
  srcClose
  changeHuf fun h => { h with counted := true, treeOk := false, derived := false }
  pure done

/-- `HUF.COUNT` (R100). -/
def execHufCount (s : State) : Host.Outcome State Fault Refusal := command 0x40 hufCountChecks hufCountBody s

/-! ### Nodes by hand (R101, R102) -/

/-- R101: the weight fits, then (decided before execution, assumption 9) the arena has room. -/
def hufMkLeafChecks (weight : BitVec 64) (s : State) : Checks := [argWeight weight s, needArenaRoom s]

/-- R101. -/
def hufMkLeafBody (byte : BitVec 8) (weight : BitVec 64) : M Response := do
  let i ← mkLeaf byte weight.toNat
  pure (result i)

/-- `HUF.MKLEAF byte, weight` (R101). -/
def execHufMkLeaf (byte : BitVec 8) (weight : BitVec 64) (s : State) : Host.Outcome State Fault Refusal :=
  command 0x41 (hufMkLeafChecks weight) (hufMkLeafBody byte weight) s

/-- R102: the children allocated, then the sum fits, then (assumption 9) the arena has room. -/
def hufMkNodeChecks (upper : BitVec 32) (left right : BitVec 16) (s : State) : Checks :=
  [argChildren upper left right s, argSum left right s, needArenaRoom s]

/-- R102. -/
def hufMkNodeBody (left right : BitVec 16) : M Response := do
  let i ← mkNode left.toNat right.toNat
  pure (result i)

/-- `HUF.MKNODE left, right` (R102). -/
def execHufMkNode (upper : BitVec 32) (left right : BitVec 16) (s : State) : Host.Outcome State Fault Refusal :=
  command 0x42 (hufMkNodeChecks upper left right) (hufMkNodeBody left right) s

/-! ### Build (R103) -/

/-- The first loop of R103: one leaf for each byte value with a frequency above 0, in the order given. -/
def insertLeaves : List Byte → M Unit
  | [] => pure ()
  | b :: bs => do
    let f ← look fun s => Table.at s.huf.freq b
    if 0 < f then do
      let i ← mkLeaf b f
      pqInsert i
      insertLeaves bs
    else insertLeaves bs

/-- One turn of the second loop of R103: the first-extracted node is the left child. -/
def mergeTwo : M Unit := do
  let a ← pqExtractMin
  let c ← pqExtractMin
  let n ← mkNode a c
  pqInsert n

/-- The second loop of R103, at most `fuel` turns; each leaves one element fewer. -/
def mergeAll : Nat → M Unit
  | 0 => pure ()
  | fuel + 1 => do
    let n ← look fun s => s.pq.size
    if 1 < n then do
      mergeTwo
      mergeAll fuel
    else pure ()

/-- R103: a completed count, then some frequency above 0. -/
def hufBuildChecks (s : State) : Checks := [needCounted s, needInput s]

/-- R103. -/
def hufBuildBody : M Response := do
  changeHuf fun h => { h with nodes := [], treeOk := false, derived := false }
  change fun s => { s with pq := { created := true, cmp := 0, heap := [] } }
  insertLeaves allBytes
  let n ← look fun s => s.pq.size
  mergeAll n
  let root ← pqExtractMin
  changeHuf fun h => { h with root := root, treeOk := true }
  pure (result root)

/-- `HUF.BUILD` (R103, R104). -/
def execHufBuild (s : State) : Host.Outcome State Fault Refusal := command 0x43 hufBuildChecks hufBuildBody s

/-! ### Derive (R105) -/

/-- The tree held (R19). -/
def heldTree : M Tree := do
  let t ← look fun s => s.huf.tree
  match t with
  | some t => pure t
  | none => stuck .treeIllFormed

/-- `HUF.code[b] <- path`; an 8-bit length field, the default, refuses a code of more than 255 bits (R20, R105, U6). -/
def putCode (b : Byte) (path : List Bool) : M Unit := do
  let tooLong ← look fun s => s.params.codeLen8 && decide (255 < path.length)
  if tooLong then raise .capacityExceeded 2
  else changeHuf fun h => { h with code := Table.put h.code b (some path) }

/-- `visit(n, path)` (R105). -/
def visit : Tree → List Bool → M Unit
  | .leaf b, path => putCode b path
  | .node l r, path => do
    visit l (path ++ [false])
    visit r (path ++ [true])

/-- R105: a tree held. -/
def hufDeriveChecks (s : State) : Checks := [needTree s]

/-- The codes of the tree (R105): a single leaf has the one-bit code `[0]`. -/
def putCodes : Tree → M Unit
  | .leaf b => putCode b [false]
  | .node l r => visit (.node l r) []

/-- R105. -/
def hufDeriveBody : M Response := do
  changeHuf fun h => { h with code := Vector.replicate 256 none }
  let t ← heldTree
  putCodes t
  changeHuf fun h => { h with derived := true }
  pure done

/-- `HUF.DERIVE` (R105). -/
def execHufDerive (s : State) : Host.Outcome State Fault Refusal := command 0x44 hufDeriveChecks hufDeriveBody s

/-! ### Serialize and encode (R106, R107) -/

/-- `ser(n)` (R106). -/
def serialize : Tree → M Unit
  | .leaf b => do
    writeBit true
    writeBits leafW b.toNat
  | .node l r => do
    writeBit false
    serialize l
    serialize r

/-- R106: a tree held, then the writer open. -/
def hufSerializeChecks (s : State) : Checks := [needTree s, needWriterOpen s]

/-- R106. -/
def hufSerializeBody : M Response := do
  let t ← heldTree
  serialize t
  pure done

/-- `HUF.SERIALIZE` (R106). -/
def execHufSerialize (s : State) : Host.Outcome State Fault Refusal :=
  command 0x45 hufSerializeChecks hufSerializeBody s

/-- The loop body of R107: the byte's code, or `IllegalState(12)`. -/
def encodeByte (v : Byte) : M Unit := do
  let code ← look fun s => Table.at s.huf.code v
  match code with
  | none => raise .illegalState 12
  | some bits => writeBitList bits

/-- R107: codes derived, then the writer open, then the source not the reader's. -/
def hufEncodeChecks (s : State) : Checks := [needCodes s, needWriterOpen s, needSourceFree s]

/-- R107. -/
def hufEncodeBody : M Response := do
  srcOpen
  srcRewind
  let n ← look sourceBudget
  forEachSourceByte encodeByte n
  srcClose
  pure done

/-- `HUF.ENCODE` (R107). -/
def execHufEncode (s : State) : Host.Outcome State Fault Refusal := command 0x46 hufEncodeChecks hufEncodeBody s

/-! ### Deserialize and decode (R108, R109) -/

/-- `Alloc` of a deserialized node, whose weight is unspecified (R108; assumption 4). -/
def allocRead (kind : NodeKind) : M Nat := do
  let w ← freeWeight
  allocNode { kind := kind, weight := w }

/-- `des()` (R108), at most `fuel` levels deep. -/
def deserialize : Nat → M Nat
  | 0 => stuck .endlessLoop
  | fuel + 1 => do
    let b ← readBit
    match b with
    | none => raise .malformedInput 4
    | some true => do
      let v ← readBits leafW
      match v with
      | .eos _ => raise .malformedInput 4
      | .value v => allocRead (.leaf (BitVec.ofNat 8 v))
    | some false => do
      let l ← deserialize fuel
      let r ← deserialize fuel
      allocRead (.internal l r)

/-- R108: the reader open. -/
def hufDeserializeChecks (s : State) : Checks := [needReaderOpen s]

/-- R108. -/
def hufDeserializeBody : M Response := do
  changeHuf fun h => { h with nodes := [], treeOk := false, derived := false }
  let n ← look bitBudget
  let root ← deserialize n
  changeHuf fun h => { h with root := root, treeOk := true }
  pure (result root)

/-- `HUF.DESERIALIZE` (R108). -/
def execHufDeserialize (s : State) : Host.Outcome State Fault Refusal :=
  command 0x47 hufDeserializeChecks hufDeserializeBody s

/-- The loop of R109 for a degenerate tree: one byte for each remaining valid bit, whatever its value. -/
def decodeDegenerate (b : Byte) : Nat → M Unit
  | 0 => stuck .endlessLoop
  | fuel + 1 => do
    let bit ← readBit
    match bit with
    | none => pure ()
    | some _ => do
      sinkPut b
      decodeDegenerate b fuel

/-- The loop of R109 for a tree with at least two leaves: `cur` is the subtree at node `n`, and `atRoot` says that `n` is
`HUF.root`. -/
def decodeLoop (root : Tree) : Nat → Tree → Bool → M Unit
  | 0, _, _ => stuck .endlessLoop
  | fuel + 1, cur, atRoot => do
    let bit ← readBit
    match bit with
    | none => if atRoot then pure () else raise .malformedInput 5
    | some bit =>
      match cur with
      | .leaf _ => stuck .treeIllFormed
      | .node l r =>
        match (if bit then r else l) with
        | .leaf v => do
          sinkPut v
          decodeLoop root fuel root true
        | .node l' r' => decodeLoop root fuel (.node l' r') false

/-- The payload of a tree (R109): a single leaf is the degenerate tree. -/
def decodeWith : Tree → Nat → M Unit
  | .leaf b, n => decodeDegenerate b n
  | .node l r, n => decodeLoop (.node l r) n (.node l r) true

/-- R109: a tree held, then the reader open, then the sink not the writer's. -/
def hufDecodeChecks (s : State) : Checks := [needTree s, needReaderOpen s, needSinkFree s]

/-- R109. -/
def hufDecodeBody : M Response := do
  let t ← heldTree
  let n ← look bitBudget
  decodeWith t n
  pure done

/-- `HUF.DECODE` (R109). -/
def execHufDecode (s : State) : Host.Outcome State Fault Refusal := command 0x48 hufDecodeChecks hufDecodeBody s

/-! ### The entry points (R110, R111) -/

/-- R110: both channels closed. -/
def hufCompressChecks (s : State) : Checks := [needPortsFree s]

/-- R110: the expansion, with the phase of each step. -/
def hufCompressBody : M Response := do
  let _ ← substep .hCount hufCountChecks hufCountBody
  let _ ← substep .hBuild hufBuildChecks hufBuildBody
  let _ ← substep .hDerive hufDeriveChecks hufDeriveBody
  let _ ← substep .opening bwOpenChecks bwOpenBody
  let _ ← substep .hSerialize hufSerializeChecks hufSerializeBody
  let _ ← substep .hEncode hufEncodeChecks hufEncodeBody
  let _ ← substep .closing bwCloseChecks bwCloseBody
  endMacro

/-- `HUF.COMPRESS` (R110). -/
def execHufCompress (s : State) : Host.Outcome State Fault Refusal :=
  command 0x4E hufCompressChecks hufCompressBody s

/-- R111: both channels closed. -/
def hufDecompressChecks (s : State) : Checks := [needPortsFree s]

/-- R111: the expansion, with the phase of each step. -/
def hufDecompressBody : M Response := do
  let _ ← substep .opening brOpenChecks brOpenBody
  sinkOpen
  let _ ← substep .hDeserialize hufDeserializeChecks hufDeserializeBody
  let _ ← substep .hDecode hufDecodeChecks hufDecodeBody
  let _ ← substep .closing brCloseChecks brCloseBody
  sinkClose
  endMacro

/-- `HUF.DECOMPRESS` (R111). -/
def execHufDecompress (s : State) : Host.Outcome State Fault Refusal :=
  command 0x4F hufDecompressChecks hufDecompressBody s

end Sys2Proof.Machine
end

