-- ==== Sys2Proof/Machine/LzwCodec.lean ====
section
/-! DEFINITION. The LZWCodec commands: `LZW.ENC_RESET`, `LZW.ENC_BYTE`, `LZW.ENC_FLUSH`, `LZW.DEC_RESET`, `LZW.DEC_CODE`
and the macros `LZW.COMPRESS`, `LZW.DECOMPRESS` (R130 to R140). -/

namespace Sys2Proof.Machine

/-- Write a field of the codec. -/
def changeLzw (f : Lzw → Lzw) : M Unit := change fun s => { s with lzw := f s.lzw }

/-- The 256 single-byte entries both dictionaries start with (R130): code `b` for `[b]`. -/
def seedDictionary : List (List Byte) := allBytes.map fun b => [b]

/-- `LZW.enext`: the number of entries (R21). -/
def Lzw.enext (z : Lzw) : Nat := z.edict.length

/-- `LZW.dnext` (R22). -/
def Lzw.dnext (z : Lzw) : Nat := z.dtab.length

/-- `LZW.edict[t]`: the code of a sequence, when it is a key. -/
def codeOf (dict : List (List Byte)) (t : List Byte) : Option Nat := dict.findIdx? (· == t)

/-! ### Encoder (R131 to R133) -/

/-- R131: no precondition. -/
def lzwEncResetChecks (_ : State) : Checks := []

/-- R131. -/
def lzwEncResetBody : M Response := do
  changeLzw fun z => { z with edict := seedDictionary, buf := [], eready := true }
  pure done

/-- `LZW.ENC_RESET` (R131). -/
def execLzwEncReset (s : State) : Host.Outcome State Fault Refusal :=
  command 0x60 lzwEncResetChecks lzwEncResetBody s

/-- `WriteBits(12, LZW.edict[LZW.buf])`; the look-up never misses between commands (R134 (a)). -/
def emitMatch : M Unit := do
  let code ← look fun s => codeOf s.lzw.edict s.lzw.buf
  match code with
  | some c => writeBits codeW c
  | none => stuck .dictionaryMiss

/-- `EncByte(b)` (R132). -/
def encByte (b : Byte) : M Unit := do
  let known ← look fun s => (codeOf s.lzw.edict (s.lzw.buf ++ [b])).isSome
  if known then changeLzw fun z => { z with buf := z.buf ++ [b] }
  else do
    emitMatch
    changeLzw fun z =>
      { z with edict := if z.enext < dictCap then z.edict ++ [z.buf ++ [b]] else z.edict, buf := [b] }

/-- R132: the encoder seeded, then the writer open, then `y ≤ 255`. -/
def lzwEncByteChecks (y : BitVec 64) (s : State) : Checks := [needEncoder s, needWriterOpen s, argByte y]

/-- R132. -/
def lzwEncByteBody (y : BitVec 64) : M Response := do
  encByte (byteOperand y)
  pure done

/-- `LZW.ENC_BYTE byte` (R132). -/
def execLzwEncByte (y : BitVec 64) (s : State) : Host.Outcome State Fault Refusal :=
  command 0x61 (lzwEncByteChecks y) (lzwEncByteBody y) s

/-- R133: the encoder seeded, then the writer open. -/
def lzwEncFlushChecks (s : State) : Checks := [needEncoder s, needWriterOpen s]

/-- R133. -/
def lzwEncFlushBody : M Response := do
  let buf ← look fun s => s.lzw.buf
  runIf (!buf.isEmpty) emitMatch
  changeLzw fun z => { z with buf := [] }
  pure done

/-- `LZW.ENC_FLUSH` (R133). -/
def execLzwEncFlush (s : State) : Host.Outcome State Fault Refusal :=
  command 0x62 lzwEncFlushChecks lzwEncFlushBody s

/-! ### Decoder (R135, R136) -/

/-- R135: no precondition. -/
def lzwDecResetChecks (_ : State) : Checks := []

/-- R135. -/
def lzwDecResetBody : M Response := do
  changeLzw fun z => { z with dtab := seedDictionary, prev := none, dready := true }
  pure done

/-- `LZW.DEC_RESET` (R135). -/
def execLzwDecReset (s : State) : Host.Outcome State Fault Refusal :=
  command 0x63 lzwDecResetChecks lzwDecResetBody s

/-- What a code stands for, given the table and the previous sequence (R136): its sequence; `none` for a sequence the
table should hold and does not (R23 rules it out); or the `MalformedInput` info. -/
def sequenceOf (dtab : List (List Byte)) (prev : Option (List Byte)) (c : Nat) : Except Byte (Option (List Byte)) :=
  match prev with
  | none => if 256 ≤ c then .error 1 else .ok dtab[c]?
  | some p =>
    if c < dtab.length then .ok dtab[c]?
    else if c = dtab.length then .ok (p.head?.map fun first => p ++ [first])
    else .error 2

/-- The table after the sequence with first byte `first` has been emitted (R136): an entry is registered only when there
is a previous sequence and room. -/
def registerEntry (dtab : List (List Byte)) (prev : Option (List Byte)) (first : Byte) : List (List Byte) :=
  match prev with
  | none => dtab
  | some p => if dtab.length < dictCap then dtab ++ [p ++ [first]] else dtab

/-- Emit a code's sequence and register the new entry (R136). -/
def emitSequence (q : List Byte) : M Unit := do
  match q with
  | [] => stuck .dictionaryMiss
  | first :: _ => do
    sinkPutAll q
    changeLzw fun z => { z with dtab := registerEntry z.dtab z.prev first, prev := some q }

/-- `DecCode()` (R136): the code read, or `none` for end-of-stream at a code boundary. -/
def decCode : M (Option Nat) := do
  let v ← readBits codeW
  match v with
  | .eos g => if g = 0 then pure none else raise .malformedInput 3
  | .value c => do
    let q ← look fun s => sequenceOf s.lzw.dtab s.lzw.prev c
    match q with
    | .error info => raise .malformedInput info
    | .ok none => stuck .dictionaryMiss
    | .ok (some q) => do
      emitSequence q
      pure (some c)

/-- R136: the decoder seeded, then the reader open, then the sink not the writer's. -/
def lzwDecCodeChecks (s : State) : Checks := [needDecoder s, needReaderOpen s, needSinkFree s]

/-- R136: the code, or `EOS` with `r = 0`. -/
def lzwDecCodeBody : M Response := do
  let c ← decCode
  match c with
  | none => pure ⟨.eos, 0⟩
  | some c => pure (result c)

/-- `LZW.DEC_CODE` (R136). -/
def execLzwDecCode (s : State) : Host.Outcome State Fault Refusal :=
  command 0x64 lzwDecCodeChecks lzwDecCodeBody s

/-! ### The entry points (R139, R140) -/

/-- R139: both channels closed. -/
def lzwCompressChecks (s : State) : Checks := [needPortsFree s]

/-- R139: the expansion, with the phase of each step. -/
def lzwCompressBody : M Response := do
  let _ ← substep .opening bwOpenChecks bwOpenBody
  srcOpen
  srcRewind
  let _ ← substep .lEncode lzwEncResetChecks lzwEncResetBody
  let n ← look sourceBudget
  forEachSourceByte encByte n
  let _ ← substep .lEncode lzwEncFlushChecks lzwEncFlushBody
  substep .closing (fun _ => []) srcClose
  let _ ← substep .closing bwCloseChecks bwCloseBody
  endMacro

/-- `LZW.COMPRESS` (R139). -/
def execLzwCompress (s : State) : Host.Outcome State Fault Refusal :=
  command 0x6E lzwCompressChecks lzwCompressBody s

/-- The loop of R140, at most `fuel` turns. -/
def decodeAllCodes : Nat → M Unit
  | 0 => stuck .endlessLoop
  | fuel + 1 => do
    let c ← decCode
    match c with
    | none => pure ()
    | some _ => decodeAllCodes fuel

/-- R140: both channels closed. -/
def lzwDecompressChecks (s : State) : Checks := [needPortsFree s]

/-- R140: the expansion, with the phase of each step. -/
def lzwDecompressBody : M Response := do
  let _ ← substep .opening brOpenChecks brOpenBody
  sinkOpen
  let _ ← substep .lDecode lzwDecResetChecks lzwDecResetBody
  let n ← look bitBudget
  decodeAllCodes n
  let _ ← substep .closing brCloseChecks brCloseBody
  sinkClose
  endMacro

/-- `LZW.DECOMPRESS` (R140). -/
def execLzwDecompress (s : State) : Host.Outcome State Fault Refusal :=
  command 0x6F lzwDecompressChecks lzwDecompressBody s

end Sys2Proof.Machine
end

