-- ==== Sys2Proof/Machine/PriorityQueue.lean ====
section
/-! DEFINITION. The PriorityQueue commands: `PQ.CREATE`, `PQ.INSERT`, `PQ.EXTRACTMIN`, `PQ.SIZE`, `PQ.ISEMPTY` (R90 to
R95). -/

namespace Sys2Proof.Machine

/-- R90: the comparator id is defined. -/
def pqCreateChecks (cmp : BitVec 8) (_ : State) : Checks := [argComparator cmp]

/-- R90: an empty queue with the comparator. -/
def pqCreateBody (cmp : BitVec 8) : M Response := do
  change fun s => { s with pq := { created := true, cmp := cmp, heap := [] } }
  pure done

/-- `PQ.CREATE cmp` (R90). -/
def execPqCreate (cmp : BitVec 8) (s : State) : Host.Outcome State Fault Refusal :=
  command 0x20 (pqCreateChecks cmp) (pqCreateBody cmp) s

/-- R92: the queue created, then the item allocated, then room in the heap. -/
def pqInsertChecks (item : BitVec 64) (s : State) : Checks := [needQueue s, argItem item s, needHeapRoom s]

/-- R92. -/
def pqInsertBody (item : BitVec 64) : M Response := do
  pqInsert item.toNat
  pure done

/-- `PQ.INSERT item` (R92). -/
def execPqInsert (item : BitVec 64) (s : State) : Host.Outcome State Fault Refusal :=
  command 0x21 (pqInsertChecks item) (pqInsertBody item) s

/-- R93: the queue created, then an element held. -/
def pqExtractMinChecks (s : State) : Checks := [needQueue s, needElement s]

/-- R93. -/
def pqExtractMinBody : M Response := do
  let m ← pqExtractMin
  pure (result m)

/-- `PQ.EXTRACTMIN` (R93). -/
def execPqExtractMin (s : State) : Host.Outcome State Fault Refusal :=
  command 0x22 pqExtractMinChecks pqExtractMinBody s

/-- R94: the queue created. -/
def pqSizeChecks (s : State) : Checks := [needQueue s]

/-- R94. -/
def pqSizeBody : M Response := do
  let n ← look fun s => s.pq.size
  pure (result n)

/-- `PQ.SIZE` (R94). -/
def execPqSize (s : State) : Host.Outcome State Fault Refusal := command 0x23 pqSizeChecks pqSizeBody s

/-- R95: the queue created. -/
def pqIsEmptyChecks (s : State) : Checks := [needQueue s]

/-- R95. -/
def pqIsEmptyBody : M Response := do
  let n ← look fun s => s.pq.size
  pure (result (if n = 0 then 1 else 0))

/-- `PQ.ISEMPTY` (R95). -/
def execPqIsEmpty (s : State) : Host.Outcome State Fault Refusal := command 0x24 pqIsEmptyChecks pqIsEmptyBody s

end Sys2Proof.Machine
end

