-- ==== Sys2Proof/Machine/System.lean ====
section
/-! DEFINITION. The system commands `SYS.RESET` (R150) and `SYS.STATUS` (R151), the two that run while the block is held,
and the external reset input (R180). -/

namespace Sys2Proof.Machine

/-- `SYS.RESET` (R150): no precondition; the ports are released, every state element takes its reset value, and
`RSP = (OK, 0)`. -/
def execSysReset (s : State) : Host.Outcome State Fault Refusal :=
  .next (s.resetBlock.respond Status.ok.code 0)

/-- `SYS.STATUS` (R151): `(OK, zext_64(FAULT))`, nothing written but `RSP`. -/
def execSysStatus (s : State) : Host.Outcome State Fault Refusal :=
  .next (s.respond Status.ok.code (s.faultReg.setWidth 64))

/-- The external reset input (R180, R181): the same effect on the block as `SYS.RESET`. -/
def externalReset (s : State) : State := s.resetBlock.respond Status.ok.code 0

end Sys2Proof.Machine
end

