-- ==== Sys2Proof/Machine/Dispatch.lean ====
section
/-! DEFINITION. One arm per command, each one direct call of its meaning. -/

namespace Sys2Proof.Machine

def exec (i : Instr) (s : State) : Host.Outcome State Fault Refusal :=
  match i with
  -- BitChannel
  | .brOpen => Sys2Proof.Machine.execBrOpen s
  | .brReadBit => Sys2Proof.Machine.execBrReadBit s
  | .brReadBits n => Sys2Proof.Machine.execBrReadBits n s
  | .brClose => Sys2Proof.Machine.execBrClose s
  | .bwOpen => Sys2Proof.Machine.execBwOpen s
  | .bwWriteBit bit => Sys2Proof.Machine.execBwWriteBit bit s
  | .bwWriteBits n value => Sys2Proof.Machine.execBwWriteBits n value s
  | .bwClose => Sys2Proof.Machine.execBwClose s
  -- PriorityQueue
  | .pqCreate cmp => Sys2Proof.Machine.execPqCreate cmp s
  | .pqInsert item => Sys2Proof.Machine.execPqInsert item s
  | .pqExtractMin => Sys2Proof.Machine.execPqExtractMin s
  | .pqSize => Sys2Proof.Machine.execPqSize s
  | .pqIsEmpty => Sys2Proof.Machine.execPqIsEmpty s
  -- HuffmanCodec
  | .hufCount => Sys2Proof.Machine.execHufCount s
  | .hufMkLeaf byte weight => Sys2Proof.Machine.execHufMkLeaf byte weight s
  | .hufMkNode upper left right => Sys2Proof.Machine.execHufMkNode upper left right s
  | .hufBuild => Sys2Proof.Machine.execHufBuild s
  | .hufDerive => Sys2Proof.Machine.execHufDerive s
  | .hufSerialize => Sys2Proof.Machine.execHufSerialize s
  | .hufEncode => Sys2Proof.Machine.execHufEncode s
  | .hufDeserialize => Sys2Proof.Machine.execHufDeserialize s
  | .hufDecode => Sys2Proof.Machine.execHufDecode s
  | .hufCompress => Sys2Proof.Machine.execHufCompress s
  | .hufDecompress => Sys2Proof.Machine.execHufDecompress s
  -- LZWCodec
  | .lzwEncReset => Sys2Proof.Machine.execLzwEncReset s
  | .lzwEncByte byte => Sys2Proof.Machine.execLzwEncByte byte s
  | .lzwEncFlush => Sys2Proof.Machine.execLzwEncFlush s
  | .lzwDecReset => Sys2Proof.Machine.execLzwDecReset s
  | .lzwDecCode => Sys2Proof.Machine.execLzwDecCode s
  | .lzwCompress => Sys2Proof.Machine.execLzwCompress s
  | .lzwDecompress => Sys2Proof.Machine.execLzwDecompress s
  -- system
  | .sysReset => Sys2Proof.Machine.execSysReset s
  | .sysStatus => Sys2Proof.Machine.execSysStatus s

end Sys2Proof.Machine
end

