-- ==== Sys2Proof/Machine/Step.lean ====
section
/-! DEFINITION. One step: the block takes what the host presents next and runs it to completion (R10, R152). With
nothing presented the block stays as it is. -/

namespace Sys2Proof.Machine

def step (s : State) : Host.Outcome State Fault Refusal :=
  match takeInput s with
  | none => .next s
  | some (.reset, t) => .next (externalReset t)
  | some (.command w, t) =>
    match decode w with
    | .ok i => exec i t
    | .error why => .next (rejectWord w why t)

/-- The state with one opcode-table word presented as the host's next command. -/
def State.withFetchWord (s : State) (nbits w : Nat) : State := s.present (BitVec.ofNat 80 (w % 2 ^ nbits))

end Sys2Proof.Machine
end

