-- ==== Sys2Proof/Machine/Streams.lean ====
section
/-! DEFINITION. The stream formats and what the channels mean by them: the valid bits `V(S)` of a byte stream (R36), the
packed bytes `P(B)` of a bit sequence (R37), the bits a reader still has to deliver and the bits a writer has accepted. The
machine does not call these; claims are stated with them. -/

namespace Sys2Proof.Machine

/-- `top(c)` (R36, R59): the `7 - t1(c)` most significant bits of the last byte; of `0xFF`, none. -/
def lastByteBits (c : Byte) : List Bool := (byteBits c).take (7 - trailingOnes c)

/-- `V(S)` (R36): every bit of the interior bytes, the valid bits of the last. -/
def validBits : List Byte → List Bool
  | [] => []
  | [c] => lastByteBits c
  | b :: c :: rest => byteBits b ++ validBits (c :: rest)

/-- The last byte is `0xFF`: its padding scan finds no `0` (R36, R72), and the reader faults when it reaches it. -/
def endsCorrupt (bytes : List Byte) : Bool := bytes.getLast? == some 0xFF#8

/-- `P(B)` (R37): the whole bytes, then the pending bits completed, or for none pending the byte `0x7F` under
`PAD_ON_ALIGNED` only. -/
def packBits (padOnAligned : Bool) (bits : List Bool) : List Byte :=
  let q := bits.length / 8
  let k := bits.length % 8
  let whole := (List.range q).map fun j => BitVec.ofNat 8 (val ((bits.drop (8 * j)).take 8))
  if k = 0 then whole ++ (if padOnAligned then [alignedPad] else [])
  else whole ++ [BitVec.ofNat 8 (val (bits.drop (8 * q)) <<< (8 - k) ||| (2 ^ (7 - k) - 1))]

/-- The bits of whole bytes (R34). -/
def streamBits (bytes : List Byte) : List Bool := bytes.flatMap byteBits

/-- The bits the reader has still to deliver: what is left of `BR.cur`, then the valid bits of the lookahead byte and of
the bytes not yet fetched. -/
def State.bitsToRead (s : State) : List Bool :=
  (if s.br.hasBits then ((byteBits s.br.cur).take s.br.lim.toNat).drop s.br.pos.toNat else []) ++
  match s.br.laSt with
  | .none => validBits (s.mem.srcData.drop s.mem.srcPos)
  | .byte => validBits (s.br.la :: s.mem.srcData.drop s.mem.srcPos)
  | .eof => []

/-- The stream the reader has still to take bytes from ends in `0xFF`. -/
def State.readEndsCorrupt (s : State) : Bool :=
  match s.br.laSt with
  | .none => endsCorrupt (s.mem.srcData.drop s.mem.srcPos)
  | .byte => endsCorrupt (s.br.la :: s.mem.srcData.drop s.mem.srcPos)
  | .eof => false

/-- The bits the writer holds back (R11). -/
def BitWriter.pending (w : BitWriter) : List Bool := bitsOf w.k.toNat w.acc.toNat

/-- The bits given out so far through an open writer: those of the bytes put, then those held back. -/
def State.bitsWritten (s : State) : List Bool := streamBits s.mem.snkData ++ s.bw.pending

/-- The codes a table gives a byte sequence, in order (R64); `none` when a byte has no code. -/
def codeBits (code : Table (Option (List Bool))) : List Byte → Option (List Bool)
  | [] => some []
  | b :: bs =>
    match Table.at code b, codeBits code bs with
    | some c, some cs => some (c ++ cs)
    | _, _ => none

/-- The code table `HUF.DERIVE` makes of a tree (R105): the entries written in pre-order, the last one for a byte kept. -/
def codeTable (t : Tree) : Table (Option (List Bool)) :=
  t.codes.foldl (fun table entry => Table.put table entry.1 (some entry.2)) (Vector.replicate 256 none)

/-- The encoder of R131 to R133 as a function: the codes emitted for a byte sequence from a dictionary and a match
buffer, the final flush included. A look-up that misses gives `none`, which R134 rules out. -/
def lzwCodes (dict : List (List Byte)) (buf : List Byte) : List Byte → Option (List Nat)
  | [] => if buf = [] then some [] else (codeOf dict buf).map fun c => [c]
  | b :: bs =>
    if (codeOf dict (buf ++ [b])).isSome then lzwCodes dict (buf ++ [b]) bs
    else
      match codeOf dict buf, lzwCodes (if dict.length < dictCap then dict ++ [buf ++ [b]] else dict) [b] bs with
      | some c, some cs => some (c :: cs)
      | _, _ => none

/-- The LZW bit stream of a code sequence (R60). -/
def codesBits (codes : List Nat) : List Bool := codes.flatMap (bitsOf codeW)

end Sys2Proof.Machine
end

