-- ==== Sys2Proof/Safety.lean ====
section
/-! DEFINITION. What a safe run is: the invariants the spec states of the units between commands (R12, R14, R19, R20, R23,
R26, R27, R134), gathered into one predicate, and the premises claims about a run take. -/

namespace Sys2Proof.Machine

/-- The writer's invariant (R12). -/
def WriterInv (s : State) : Prop := s.bw.isOpen = true → s.bw.acc.toNat < 2 ^ s.bw.k.toNat

/-- The reader's bit cursor (R14). -/
def CursorInv (r : BitReader) : Prop :=
  (r.hasBits = true → r.pos.toNat < r.lim.toNat ∧ r.lim.toNat ≤ 8) ∧ (r.hasBits = false → r.pos = 0)

/-- The reader's lookahead and the source position (R13, R14): nothing fetched yet; or the lookahead byte is the one
before the source position; or the source is at its end. -/
def LookaheadInv (s : State) : Prop :=
  match s.br.laSt with
  | .none => s.br.hasBits = false ∧ s.mem.srcPos = 0
  | .byte => 1 ≤ s.mem.srcPos ∧ s.mem.srcData[s.mem.srcPos - 1]? = some s.br.la
  | .eof => s.mem.srcPos = s.mem.srcData.length

/-- The reader's invariant (R14). -/
def ReaderInv (s : State) : Prop := s.br.isOpen = true → CursorInv s.br ∧ LookaheadInv s

/-- The queue's comparator is the one that is defined (R15, R90). -/
def QueueInv (s : State) : Prop := s.pq.created = true → s.pq.cmp = 0

/-- Heap order (R16): no live element with a parent strictly precedes it. -/
def HeapOrdered (s : State) : Prop :=
  ∀ i, 1 ≤ i → i < s.pq.heap.length →
    precedes s (s.pq.heap.getD i 0) (s.pq.heap.getD ((i - 1) / 2) 0) = false

/-- Children come before their parents in the arena. -/
def ArenaOrdered (nodes : List Node) : Prop :=
  ∀ i l r w, nodes[i]? = some (Node.mk (.internal l r) w) → l < i ∧ r < i

/-- The codec's invariant (R19): a held tree's root is allocated, and codes are of a held tree. With `ArenaOrdered` the
nodes from the root form a tree. -/
def HuffmanInv (h : Huffman) : Prop :=
  ArenaOrdered h.nodes ∧ (h.treeOk = true → h.root < h.nodes.length) ∧ (h.derived = true → h.treeOk = true)

/-- A dictionary's invariant (R23, R134 (b)): 256 to 4096 entries, the first 256 the single bytes. -/
def DictionaryInv (dict : List (List Byte)) : Prop :=
  dictInit ≤ dict.length ∧ dict.length ≤ dictCap ∧ dict.take dictInit = seedDictionary

/-- Every key of two or more bytes has the key without its last byte under a smaller code (R134 (c)). -/
def PrefixClosed (dict : List (List Byte)) : Prop :=
  ∀ (i : Nat) (t : List Byte), dict[i]? = some t → 2 ≤ t.length → ∃ j, j < i ∧ dict[j]? = some t.dropLast

/-- The encoder's invariant (R134 (a) to (c)). -/
def EncoderInv (z : Lzw) : Prop :=
  z.eready = true →
    DictionaryInv z.edict ∧ z.edict.Nodup ∧ PrefixClosed z.edict ∧ (z.buf = [] ∨ z.buf ∈ z.edict)

/-- The decoder's invariant (R22, R23): no entry is empty, nor is the previous sequence. -/
def DecoderInv (z : Lzw) : Prop :=
  z.dready = true → DictionaryInv z.dtab ∧ (∀ q ∈ z.dtab, q ≠ []) ∧ z.prev ≠ some []

/-- The code table's length field (R20): where it is 8 bits wide, as by default, every code held has 0 to 255 bits. -/
def CodesInv (s : State) : Prop :=
  s.params.codeLen8 = true → ∀ b c, Table.at s.huf.code b = some c → c.length ≤ 255

/-- The invariants of the unit state, which is specified while the block is not held (R176). -/
def UnitsInv (s : State) : Prop :=
  WriterInv s ∧ ReaderInv s ∧ QueueInv s ∧ HuffmanInv s.huf ∧ CodesInv s ∧ EncoderInv s.lzw ∧ DecoderInv s.lzw

/-- The fault register (R26): its reserved bits read as 0, and it is 0 until a command ends with a fault. -/
def FaultInv (s : State) : Prop := faultReserved s.faultReg = 0 ∧ (s.held = false → s.faultReg = 0)

/-- The whole invariant, between commands. -/
def Inv (s : State) : Prop :=
  s.phase = .idle ∧ FaultInv s ∧ s.mem.wf = true ∧ (s.held = false → UnitsInv s)

/-- A premise of claims about a run (R33): no port access answers `IOFail`. -/
def NoIoFail (s : State) : Prop := ∀ a ∈ s.answers, a = .ok

/-- The next port access succeeds. -/
def NextAnswerOk (s : State) : Prop := s.answers.head? ≠ some .ioFail

/-- The default stores and counters of R5: unbounded. -/
def Roomy (p : Params) : Prop := p.freqW = none ∧ p.pqCap = none ∧ p.nodeCap = none

/-- A command ended with the status and the value `r`. -/
def Answers (t : State) (status : Byte) (r : Nat) : Prop := t.rsp = packRsp status (BitVec.ofNat 64 r)

/-! ### How commands end, in the terms claims use -/

/-- Between commands and not held by a fault: a command is taken and run (R27, R152, R170). -/
def Ready (s : State) : Prop := s.held = false ∧ s.phase = .idle

/-- The next port access fails. -/
def NextAnswerFails (s : State) : Prop := s.answers.head? = some .ioFail

/-- The state with a precise fault reported: `FAULT` (phase `IDLE`) and `RSP` written, nothing else (R176). -/
def State.refused (s : State) (op cause info : Byte) : State :=
  { s with faultReg := packFault 0 op cause info, rsp := packRsp cause (info.setWidth 64) }

/-- What a fault during execution leaves specified (R175, R176): the record, the response, `IDLE`, both channels closed,
and what no command changes. -/
def FailedDuring (s t : State) (phase : BitVec 4) (op cause info : Byte) : Prop :=
  t.faultReg = packFault phase op cause info ∧ t.rsp = packRsp cause (info.setWidth 64) ∧ t.phase = .idle ∧
  t.br.isOpen = false ∧ t.bw.isOpen = false ∧ t.cmd = s.cmd ∧ t.host = s.host ∧ t.params = s.params ∧
  t.mem.srcData = s.mem.srcData

/-- Commands run one after another, until a stop. -/
def runAll : List Instr → State → Host.Outcome State Fault Refusal
  | [], s => .next s
  | i :: is, s =>
    match exec i s with
    | .next t => runAll is t
    | .fault f => .fault f
    | .refused r => .refused r

/-- The responses of commands run one after another; `none` at a stop. -/
def responses : List Instr → State → Option (List RspWord)
  | [], _ => some []
  | i :: is, s =>
    match exec i s with
    | .next t => (responses is t).map (t.rsp :: ·)
    | .fault _ => none
    | .refused _ => none

/-- The bits a bit-level write command gives the writer, when its operands are in range (R79, R80). -/
def writtenBits : Instr → Option (List Bool)
  | .bwWriteBit bit => if bit.toNat ≤ 1 then some [bit.getLsbD 0] else none
  | .bwWriteBits n value =>
    if 1 ≤ n.toNat ∧ n.toNat ≤ 32 ∧ value.toNat < 2 ^ n.toNat then some (bitsOf n.toNat value.toNat) else none
  | _ => none

/-! ### The spec's tables, written out -/

/-- A row of the opcode map (R54): the opcode and which operand fields the row uses. -/
structure CommandRow where
  op    : Byte
  usesX : Bool
  usesY : Bool
  deriving DecidableEq, Repr

/-- The opcode map of R54. -/
def commandRows : List CommandRow :=
  [⟨0x00, false, false⟩, ⟨0x01, false, false⟩, ⟨0x02, true, false⟩, ⟨0x03, false, false⟩, ⟨0x04, false, false⟩,
   ⟨0x05, true, false⟩, ⟨0x06, true, true⟩, ⟨0x07, false, false⟩] ++
  [⟨0x20, true, false⟩, ⟨0x21, false, true⟩, ⟨0x22, false, false⟩, ⟨0x23, false, false⟩, ⟨0x24, false, false⟩] ++
  [⟨0x40, false, false⟩, ⟨0x41, true, true⟩, ⟨0x42, false, true⟩, ⟨0x43, false, false⟩, ⟨0x44, false, false⟩,
   ⟨0x45, false, false⟩, ⟨0x46, false, false⟩, ⟨0x47, false, false⟩, ⟨0x48, false, false⟩, ⟨0x4E, false, false⟩,
   ⟨0x4F, false, false⟩] ++
  [⟨0x60, false, false⟩, ⟨0x61, false, true⟩, ⟨0x62, false, false⟩, ⟨0x63, false, false⟩, ⟨0x64, false, false⟩,
   ⟨0x6E, false, false⟩, ⟨0x6F, false, false⟩] ++
  [⟨0xE0, false, false⟩, ⟨0xE1, false, false⟩]

/-- A word whose `op` is a row's and that sets a field the row does not use (R51). -/
def SetsUnusedField (row : CommandRow) (w : CmdWord) : Prop :=
  row.op = cmdOp w ∧ (row.usesX = false ∧ cmdX w ≠ 0 ∨ row.usesY = false ∧ cmdY w ≠ 0)

/-- The preconditions of every command in the order they are tested, each with the cause and the `info` reported when it
is the first that fails (R164 to R169, R174, and the command's own rule). -/
def preconditions (i : Instr) (s : State) : List (Bool × Byte × Byte) :=
  match i with
  | .brOpen => [(!s.br.isOpen, 0x87, 1)]
  | .brReadBit => [(s.br.isOpen, 0x87, 2)]
  | .brReadBits n => [(s.br.isOpen, 0x87, 2), (1 ≤ n.toNat && n.toNat ≤ 32, 0x83, 3)]
  | .brClose => [(s.br.isOpen, 0x87, 2)]
  | .bwOpen => [(!s.bw.isOpen, 0x87, 3)]
  | .bwWriteBit bit => [(s.bw.isOpen, 0x87, 4), (bit.toNat ≤ 1, 0x83, 1)]
  | .bwWriteBits n value =>
    [(s.bw.isOpen, 0x87, 4), (1 ≤ n.toNat && n.toNat ≤ 32, 0x83, 3), (value.toNat < 2 ^ n.toNat, 0x83, 2)]
  | .bwClose => [(s.bw.isOpen, 0x87, 4)]
  | .pqCreate cmp => [(cmp.toNat = 0, 0x83, 5)]
  | .pqInsert item =>
    [(s.pq.created, 0x87, 5), (s.pq.cmp ≠ 0 || item.toNat < s.huf.nodes.length, 0x83, 8),
     (s.params.pqCap.all (s.pq.heap.length < ·), 0x88, 1)]
  | .pqExtractMin => [(s.pq.created, 0x87, 5), (0 < s.pq.heap.length, 0x85, 0)]
  | .pqSize => [(s.pq.created, 0x87, 5)]
  | .pqIsEmpty => [(s.pq.created, 0x87, 5)]
  | .hufCount => [(!s.br.isOpen, 0x87, 11)]
  | .hufMkLeaf _ weight =>
    [(s.params.freqW.all (weight.toNat < 2 ^ ·), 0x83, 6), (s.params.nodeCap.all (s.huf.nodes.length < ·), 0x88, 2)]
  | .hufMkNode upper left right =>
    [(upper.toNat = 0 && left.toNat < s.huf.nodes.length && right.toNat < s.huf.nodes.length, 0x83, 7),
     (s.params.freqW.all (weightAt s left.toNat + weightAt s right.toNat < 2 ^ ·), 0x88, 3),
     (s.params.nodeCap.all (s.huf.nodes.length < ·), 0x88, 2)]
  | .hufBuild => [(s.huf.counted, 0x87, 6), (allBytes.any (0 < Table.at s.huf.freq ·), 0x84, 0)]
  | .hufDerive => [(s.huf.treeOk, 0x87, 7)]
  | .hufSerialize => [(s.huf.treeOk, 0x87, 7), (s.bw.isOpen, 0x87, 4)]
  | .hufEncode => [(s.huf.derived, 0x87, 8), (s.bw.isOpen, 0x87, 4), (!s.br.isOpen, 0x87, 11)]
  | .hufDeserialize => [(s.br.isOpen, 0x87, 2)]
  | .hufDecode => [(s.huf.treeOk, 0x87, 7), (s.br.isOpen, 0x87, 2), (!s.bw.isOpen, 0x87, 11)]
  | .hufCompress | .hufDecompress | .lzwCompress | .lzwDecompress => [(!s.br.isOpen && !s.bw.isOpen, 0x87, 11)]
  | .lzwEncReset | .lzwDecReset => []
  | .lzwEncByte byte => [(s.lzw.eready, 0x87, 9), (s.bw.isOpen, 0x87, 4), (byte.toNat ≤ 255, 0x83, 4)]
  | .lzwEncFlush => [(s.lzw.eready, 0x87, 9), (s.bw.isOpen, 0x87, 4)]
  | .lzwDecCode => [(s.lzw.dready, 0x87, 10), (s.br.isOpen, 0x87, 2), (!s.bw.isOpen, 0x87, 11)]
  | .sysReset | .sysStatus => []

/-- What a command that ends with no fault may have written, and that it wrote nothing else: the "State written" line of
its rule, the answers it used up, `RSP`, and the model's own counter of free values. -/
def CommandFrame (i : Instr) (s t : State) : Prop :=
  match i with
  | .brOpen =>
    t = { s with br := t.br, mem := { s.mem with srcPos := t.mem.srcPos }, answers := t.answers, rsp := t.rsp }
  | .brReadBit | .brReadBits _ =>
    t = { s with br := { t.br with isOpen := s.br.isOpen }, mem := { s.mem with srcPos := t.mem.srcPos },
                 answers := t.answers, rsp := t.rsp }
  | .brClose => t = { s with br := t.br, answers := t.answers, rsp := t.rsp, draws := t.draws }
  | .bwOpen =>
    t = { s with bw := t.bw, mem := { s.mem with snkData := t.mem.snkData }, answers := t.answers, rsp := t.rsp }
  | .bwWriteBit _ | .bwWriteBits _ _ | .hufSerialize =>
    t = { s with bw := { t.bw with isOpen := s.bw.isOpen }, mem := { s.mem with snkData := t.mem.snkData },
                 answers := t.answers, rsp := t.rsp }
  | .bwClose =>
    t = { s with bw := t.bw, mem := { s.mem with snkData := t.mem.snkData }, answers := t.answers, rsp := t.rsp,
                 draws := t.draws }
  | .pqCreate _ => t = { s with pq := t.pq, rsp := t.rsp }
  | .pqInsert _ | .pqExtractMin => t = { s with pq := { s.pq with heap := t.pq.heap }, rsp := t.rsp }
  | .pqSize | .pqIsEmpty | .sysStatus => t = { s with rsp := t.rsp }
  | .hufCount =>
    t = { s with huf := { s.huf with freq := t.huf.freq, counted := t.huf.counted, treeOk := t.huf.treeOk,
                                     derived := t.huf.derived },
                 mem := { s.mem with srcPos := t.mem.srcPos }, answers := t.answers, rsp := t.rsp }
  | .hufMkLeaf _ _ | .hufMkNode _ _ _ => t = { s with huf := { s.huf with nodes := t.huf.nodes }, rsp := t.rsp }
  | .hufBuild =>
    t = { s with huf := { s.huf with nodes := t.huf.nodes, root := t.huf.root, treeOk := t.huf.treeOk,
                                     derived := t.huf.derived },
                 pq := t.pq, rsp := t.rsp }
  | .hufDerive => t = { s with huf := { s.huf with code := t.huf.code, derived := t.huf.derived }, rsp := t.rsp }
  | .hufEncode =>
    t = { s with bw := { t.bw with isOpen := s.bw.isOpen },
                 mem := { s.mem with srcPos := t.mem.srcPos, snkData := t.mem.snkData }, answers := t.answers,
                 rsp := t.rsp }
  | .hufDeserialize =>
    t = { s with huf := { s.huf with nodes := t.huf.nodes, root := t.huf.root, treeOk := t.huf.treeOk,
                                     derived := t.huf.derived },
                 br := { t.br with isOpen := s.br.isOpen }, mem := { s.mem with srcPos := t.mem.srcPos },
                 answers := t.answers, rsp := t.rsp, draws := t.draws }
  | .hufDecode =>
    t = { s with br := { t.br with isOpen := s.br.isOpen },
                 mem := { s.mem with srcPos := t.mem.srcPos, snkData := t.mem.snkData }, answers := t.answers,
                 rsp := t.rsp }
  | .hufCompress =>
    t = { s with huf := t.huf, pq := t.pq, bw := { t.bw with isOpen := false },
                 mem := { s.mem with srcPos := t.mem.srcPos, snkData := t.mem.snkData }, answers := t.answers,
                 rsp := t.rsp, draws := t.draws }
  | .hufDecompress =>
    t = { s with huf := { s.huf with nodes := t.huf.nodes, root := t.huf.root, treeOk := t.huf.treeOk,
                                     derived := t.huf.derived },
                 br := { t.br with isOpen := false },
                 mem := { s.mem with srcPos := t.mem.srcPos, snkData := t.mem.snkData }, answers := t.answers,
                 rsp := t.rsp, draws := t.draws }
  | .lzwEncReset =>
    t = { s with lzw := { s.lzw with edict := t.lzw.edict, buf := t.lzw.buf, eready := t.lzw.eready }, rsp := t.rsp }
  | .lzwEncByte _ =>
    t = { s with lzw := { s.lzw with edict := t.lzw.edict, buf := t.lzw.buf },
                 bw := { t.bw with isOpen := s.bw.isOpen }, mem := { s.mem with snkData := t.mem.snkData },
                 answers := t.answers, rsp := t.rsp }
  | .lzwEncFlush =>
    t = { s with lzw := { s.lzw with buf := t.lzw.buf }, bw := { t.bw with isOpen := s.bw.isOpen },
                 mem := { s.mem with snkData := t.mem.snkData }, answers := t.answers, rsp := t.rsp }
  | .lzwDecReset =>
    t = { s with lzw := { s.lzw with dtab := t.lzw.dtab, prev := t.lzw.prev, dready := t.lzw.dready }, rsp := t.rsp }
  | .lzwDecCode =>
    t = { s with lzw := { s.lzw with dtab := t.lzw.dtab, prev := t.lzw.prev },
                 br := { t.br with isOpen := s.br.isOpen },
                 mem := { s.mem with srcPos := t.mem.srcPos, snkData := t.mem.snkData }, answers := t.answers,
                 rsp := t.rsp }
  | .lzwCompress =>
    t = { s with lzw := { s.lzw with edict := t.lzw.edict, buf := t.lzw.buf, eready := t.lzw.eready },
                 bw := { t.bw with isOpen := false },
                 mem := { s.mem with srcPos := t.mem.srcPos, snkData := t.mem.snkData }, answers := t.answers,
                 rsp := t.rsp, draws := t.draws }
  | .lzwDecompress =>
    t = { s with lzw := { s.lzw with dtab := t.lzw.dtab, prev := t.lzw.prev, dready := t.lzw.dready },
                 br := { t.br with isOpen := false },
                 mem := { s.mem with srcPos := t.mem.srcPos, snkData := t.mem.snkData }, answers := t.answers,
                 rsp := t.rsp, draws := t.draws }
  | .sysReset => True

/-! ### The sift loops of R92 and R93 as relations -/

/-- `h'` is `h` with the elements at `i` and `j` exchanged. -/
def Swapped (h : List Nat) (i j : Nat) (h' : List Nat) : Prop :=
  h'.length = h.length ∧ h'[i]? = h[j]? ∧ h'[j]? = h[i]? ∧ ∀ k, k ≠ i → k ≠ j → h'[k]? = h[k]?

/-- The `while` loop of R92 from index `i`, run to its end. -/
inductive SiftsUp (lt : Nat → Nat → Bool) : Nat → List Nat → List Nat → Prop where
  | stop (i : Nat) (h : List Nat) (hs : i = 0 ∨ lt (h.getD i 0) (h.getD ((i - 1) / 2) 0) = false) : SiftsUp lt i h h
  | move (i : Nat) (h h₁ h' : List Nat) (hi : 0 < i) (hlt : lt (h.getD i 0) (h.getD ((i - 1) / 2) 0) = true)
      (hs : Swapped h i ((i - 1) / 2) h₁) (rest : SiftsUp lt ((i - 1) / 2) h₁ h') : SiftsUp lt i h h'

/-- `c` is a live index of the heap whose element precedes the one at `s`. -/
def LivePrecedes (lt : Nat → Nat → Bool) (h : List Nat) (c s : Nat) : Prop :=
  c < h.length ∧ lt (h.getD c 0) (h.getD s 0) = true

/-- The two `if`s of R93 at index `i`: `s₁` is the left child if that precedes the node, else `i`; then `s` is the right
child if that precedes `s₁`, else `s₁`. The left child is compared first. -/
def ChoosesChild (lt : Nat → Nat → Bool) (h : List Nat) (i s : Nat) : Prop :=
  ∃ s₁, (LivePrecedes lt h (2 * i + 1) i → s₁ = 2 * i + 1) ∧ (¬ LivePrecedes lt h (2 * i + 1) i → s₁ = i) ∧
    (LivePrecedes lt h (2 * i + 2) s₁ → s = 2 * i + 2) ∧ (¬ LivePrecedes lt h (2 * i + 2) s₁ → s = s₁)

/-- The `loop` of R93 from index `i`, run to its exit. -/
inductive SiftsDown (lt : Nat → Nat → Bool) : Nat → List Nat → List Nat → Prop where
  | exit (i : Nat) (h : List Nat) (hs : ChoosesChild lt h i i) : SiftsDown lt i h h
  | move (i s : Nat) (h h₁ h' : List Nat) (hc : ChoosesChild lt h i s) (hi : s ≠ i) (hs : Swapped h i s h₁)
      (rest : SiftsDown lt s h₁ h') : SiftsDown lt i h h'

/-! ### Huffman trees in claims -/

/-- The byte values a frequency table counts, in ascending order (R103). -/
def countedBytes (freq : Table Nat) : List Byte := allBytes.filter fun b => 0 < Table.at freq b

/-- The sum of a frequency table. -/
def totalCount (freq : Table Nat) : Nat := (allBytes.map (Table.at freq)).sum

/-- The leaf bytes of a tree in pre-order. -/
def Tree.leafBytes (t : Tree) : List Byte := (t.paths []).map Prod.fst

/-- The arena can hold a tree's nodes (R5, R108). -/
def ArenaHolds (p : Params) (t : Tree) : Prop := p.nodeCap.all (2 * t.leaves - 1 ≤ ·) = true

/-- Node `m` was still in the queue of R103 when node `n` was made: it exists and is no child of an earlier node. -/
def StillQueued (nodes : List Node) (n m : Nat) : Prop :=
  m < n ∧ ∀ k l r w, k < n → nodes[k]? = some (Node.mk (.internal l r) w) → m ≠ l ∧ m ≠ r

end Sys2Proof.Machine
end

