-- ==== Sys2Proof/Certificates/Slice0/Obligations.lean ====
section
/-! DEFINITION. The statements about the model, each from the numbered rules of spec/. Conventions: `Ready s` is "between
commands, not held"; a status is written as its number in R53; `s.refused op cause info` is a precise fault (R176);
`FailedDuring` is what a fault during execution leaves specified (R175, R176); where a claim says `answers := t.answers`
the command used up answers of the environment. No claim rests on the value of the model's draw counter. -/

open Sys2Proof Sys2Proof.Machine

/-! ### Words, decoding, the step -/

/-- R50, R54: every command's word decodes to it, with every operand at every value. -/
def Obligations.DecodeOfEncode : Prop := ∀ i : Instr, decode (encode i) = .ok i

/-- R54: a word that decodes to a command is the word that command encodes to, so each command has one word. -/
def Obligations.EncodeOfDecode : Prop := ∀ (w : CmdWord) (i : Instr), decode w = .ok i → encode i = w

/-- R54, R57: words written out from the opcode map, one for each unit and operand form. -/
def Obligations.WrittenOutWordsDecode : Prop :=
  decode 0x020C0000000000000000#80 = .ok (.brReadBits 12) ∧
  decode 0x060C0000000000000061#80 = .ok (.bwWriteBits 12 0x61) ∧
  decode 0x21000000000000000003#80 = .ok (.pqInsert 3) ∧
  decode 0x41410000000000000004#80 = .ok (.hufMkLeaf 0x41 4) ∧
  decode 0x42000000000000010002#80 = .ok (.hufMkNode 0 1 2) ∧
  decode 0x61000000000000000061#80 = .ok (.lzwEncByte 0x61) ∧
  decode 0xE1000000000000000000#80 = .ok .sysStatus

/-- R10, R152: a step takes the next word the host presents and, if it is a command's, is that command from the state
with the word in `CMD`; with nothing presented the block stays as it is (the model's convention, assumption 12). -/
def Obligations.StepRunsTheCommand : Prop :=
  (∀ (s : State) (w : CmdWord) (rest : List HostInput) (i : Instr), s.host = .command w :: rest → decode w = .ok i →
    step s = exec i { s with host := rest, cmd := w }) ∧
  (∀ (s : State) (i : Instr), step (s.withFetchWord 80 (encode i).toNat) = exec i { s with cmd := encode i }) ∧
  (∀ s : State, s.host = [] → step s = .next s)

/-- R167: a word whose `op` is no row of the map, or that sets an unused field, is refused with `IllegalCommand`, and
nothing but `RSP` and `FAULT` changes. -/
def Obligations.IllegalWordIsRefused : Prop :=
  ∀ (s : State) (w : CmdWord) (rest : List HostInput), Ready s → s.host = .command w :: rest →
    ((∀ row ∈ commandRows, row.op ≠ cmdOp w) →
      step s = .next (State.refused { s with host := rest, cmd := w } (cmdOp w) 0x86 1)) ∧
    ((∃ row ∈ commandRows, SetsUnusedField row w) →
      step s = .next (State.refused { s with host := rest, cmd := w } (cmdOp w) 0x86 2))

/-- R25, R26, R50, R52: where the fields of `CMD`, `RSP` and `FAULT` lie, as numbers. -/
def Obligations.PackedRegisters : Prop :=
  (∀ (op x : Byte) (y : Wide), (cmdWord op x y).toNat = op.toNat * 2 ^ 72 + x.toNat * 2 ^ 64 + y.toNat) ∧
  (∀ (status : Byte) (r : Wide), (packRsp status r).toNat = status.toNat * 2 ^ 64 + r.toNat) ∧
  (∀ (phase : BitVec 4) (op cause info : Byte), (packFault phase op cause info).toNat =
    2 ^ 31 + phase.toNat * 2 ^ 24 + op.toNat * 2 ^ 16 + cause.toNat * 2 ^ 8 + info.toNat)

/-! ### Reset, hold, status -/

/-- R29, R181: the values the spec gives for reset. -/
def Obligations.ResetState : Prop :=
  State.reset.bw.isOpen = false ∧ State.reset.br.isOpen = false ∧ State.reset.pq.created = false ∧
  State.reset.huf.counted = false ∧ State.reset.huf.treeOk = false ∧ State.reset.huf.derived = false ∧
  State.reset.huf.nnodes = 0 ∧ State.reset.lzw.eready = false ∧ State.reset.lzw.dready = false ∧
  State.reset.phase = .idle ∧ State.reset.faultReg = 0 ∧ State.reset.rsp = packRsp 0x00 0

/-- R170: while the block is held every command but `SYS.RESET` and `SYS.STATUS` answers `Faulted` and changes nothing
else, and so does a word that is no command (R177). -/
def Obligations.HeldBlockRefuses : Prop :=
  (∀ (s : State) (i : Instr), s.held = true → i ≠ .sysReset → i ≠ .sysStatus →
    exec i s = .next { s with rsp := packRsp 0x8F 0 }) ∧
  (∀ (s : State) (w : CmdWord) (rest : List HostInput) (why : Reject), s.held = true → s.host = .command w :: rest →
    decode w = .error why → step s = .next { s with host := rest, cmd := w, rsp := packRsp 0x8F 0 })

/-- R150, R180: `SYS.RESET`, held or not, answers `(OK, 0)`, puts every state element R29 gives a value at that value, and
changes nothing of the environment's; the external reset does the same; a `SYS.RESET` word with a non-zero operand field
is refused. -/
def Obligations.ResetCommand : Prop :=
  (∀ s : State, ∃ t, exec .sysReset s = .next t ∧ t.bw.isOpen = false ∧ t.br.isOpen = false ∧ t.pq.created = false ∧
    t.huf.counted = false ∧ t.huf.treeOk = false ∧ t.huf.derived = false ∧ t.huf.nnodes = 0 ∧ t.lzw.eready = false ∧
    t.lzw.dready = false ∧ t.phase = .idle ∧ t.faultReg = 0 ∧ t.rsp = packRsp 0x00 0 ∧
    t.mem = s.mem ∧ t.host = s.host ∧ t.params = s.params ∧ t.answers <:+ s.answers) ∧
  (∀ (s : State) (rest : List HostInput), s.host = .reset :: rest →
    step s = exec .sysReset { s with host := rest }) ∧
  (∀ (s : State) (w : CmdWord) (rest : List HostInput), s.host = .command w :: rest → cmdOp w = 0xE0 →
    (cmdX w ≠ 0 ∨ cmdY w ≠ 0) → s.phase = .idle →
    (s.held = false → step s = .next (State.refused { s with host := rest, cmd := w } 0xE0 0x86 2)) ∧
    (s.held = true → step s = .next { s with host := rest, cmd := w, rsp := packRsp 0x8F 0 }))

/-- R151: `SYS.STATUS`, held or not, answers the zero-extended `FAULT` and writes nothing else; and the rule's example. -/
def Obligations.StatusCommand : Prop :=
  (∀ s : State, exec .sysStatus s = .next { s with rsp := packRsp 0x00 (s.faultReg.setWidth 64) }) ∧
  (∀ s : State, Ready s → s.bw.isOpen = true → ∃ t u, exec (.bwWriteBit 2) s = .next t ∧ exec .sysStatus t = .next u ∧
    Answers u 0x00 0x80058301)

/-! ### Faults -/

/-- R152, R164 to R166, R168, R169, R174: the first precondition that fails, in the order the rules list them, is
reported, before any other state changes. That a full arena is among the preconditions of `HUF.MKLEAF` and `HUF.MKNODE` is
the model's reading (assumption 9, DEDUCED): R101 and R102 write it inside `Alloc`. -/
def Obligations.FirstFailedPrecondition : Prop :=
  ∀ (i : Instr) (s : State) (before after : List (Bool × Byte × Byte)) (cause info : Byte), Ready s →
    preconditions i s = before ++ (false, cause, info) :: after → (∀ p ∈ before, p.1 = true) →
    exec i s = .next (s.refused i.opcode cause info)

/-- R160: a command ends with `OK`, with end-of-stream (three commands only), or with a fault status. -/
def Obligations.CommandEndsThreeWays : Prop :=
  ∀ (s t : State) (w : CmdWord) (rest : List HostInput), s.host = .command w :: rest → step s = .next t →
    rspStatus t.rsp = 0x00 ∨
    (rspStatus t.rsp = 0x01 ∧
      (decode w = .ok .brReadBit ∨ (∃ n, decode w = .ok (.brReadBits n)) ∨ decode w = .ok .lzwDecCode)) ∨
    rspStatus t.rsp ∈ [0x81#8, 0x82#8, 0x83#8, 0x84#8, 0x85#8, 0x86#8, 0x87#8, 0x88#8, 0x8F#8]

/-- R26, R175, R176: a command that ends with no fault leaves `FAULT`; one that ends with a fault while the block is not
held records itself with the phase, its opcode, the cause and the `info` it answers; and then either nothing but `FAULT`
and `RSP` has changed, or both channels are closed. -/
def Obligations.FaultEntry : Prop :=
  ∀ (s t : State) (w : CmdWord) (rest : List HostInput), Ready s → s.host = .command w :: rest → step s = .next t →
    ((rspStatus t.rsp).toNat < 0x80 → decode w ≠ .ok .sysReset → t.faultReg = s.faultReg) ∧
    (0x80 ≤ (rspStatus t.rsp).toNat → ∃ (phase : BitVec 4) (info : Byte),
      phase.toNat ≤ 11 ∧ t.faultReg = packFault phase (cmdOp w) (rspStatus t.rsp) info ∧
      rspValue t.rsp = info.setWidth 64 ∧ t.phase = .idle ∧
      (t = { s with host := rest, cmd := w, faultReg := t.faultReg, rsp := t.rsp } ∨
        t.br.isOpen = false ∧ t.bw.isOpen = false))

/-- R33, R162: `IOFailure` is reported only when the environment answers a port access with `IOFail`; with no such answer
to come, none is reported and none is to come afterwards. -/
def Obligations.IoFailureNeedsIoFail : Prop :=
  ∀ s t : State, NoIoFail s → step s = .next t → NoIoFail t ∧ (s.host ≠ [] → rspStatus t.rsp ≠ 0x81)

/-! ### Invariants and whole-machine rules -/

/-- R12, R14, R19, R20, R23, R26, R27, R134: every step keeps the invariants between commands. -/
def Obligations.EveryStepKeepsInv : Prop := ∀ s t : State, Inv s → step s = .next t → Inv t

/-- R154: from a state that meets the invariants every step ends with a next state: no command runs for ever or meets a
state the rules do not cover. -/
def Obligations.EveryCommandEnds : Prop := ∀ s : State, Inv s → ∃ t, step s = .next t

/-- The reset state meets the invariants. This rests on values the model chose as well as on R29: the code table all null
(assumption 6, which `CodesInv` needs with the default length field), and the launch's empty source with `SRC.pos` 0
(assumption 7, which `Memory.wf` needs). -/
def Obligations.InvAtReset : Prop := Inv State.reset

/-- R5, R24, R31: no step changes the source's content or the parameters; the position stays inside the source; one host
input and a first part of the answers are used up. -/
def Obligations.EnvironmentKept : Prop :=
  ∀ s t : State, step s = .next t → t.params = s.params ∧ t.mem.srcData = s.mem.srcData ∧
    (s.mem.wf = true → t.mem.wf = true) ∧ t.host = s.host.tail ∧ t.answers <:+ s.answers

/-- R32: only `BW.OPEN` and the macros, which open the sink, may take bytes out of it; every other command leaves the
sink's bytes and may only append, whether it ends with a fault or not. -/
def Obligations.SinkOnlyGrows : Prop :=
  ∀ (i : Instr) (s t : State), exec i s = .next t →
    i ≠ .bwOpen → i ≠ .hufCompress → i ≠ .hufDecompress → i ≠ .lzwCompress → i ≠ .lzwDecompress →
    s.mem.snkData <+: t.mem.snkData

/-- The "State written" lines of R70 to R140: what each command may have written when it ends with no fault, and that
everything else is as it was. -/
def Obligations.CommandsWriteOnlyTheirState : Prop :=
  ∀ (i : Instr) (s t : State), Ready s → exec i s = .next t → (rspStatus t.rsp).toNat < 0x80 → CommandFrame i s t

/-! ### The bit reader -/

/-- R70: `BR.OPEN` rewinds the source and leaves the reader open with nothing fetched; an open that fails is
`IOFailure(1)`; the first read from an empty source is end-of-stream. What a failing open leaves is the model's choice
(assumption 3, DEDUCED): R70 remarks "(state unchanged)", and the model follows R175 and R176, which close both channels
and leave the units unspecified. -/
def Obligations.OpenReader : Prop :=
  (∀ s : State, Ready s → s.br.isOpen = false → NextAnswerOk s →
    exec .brOpen s =
      .next { s with br := { s.br with isOpen := true, hasBits := false, pos := 0, laSt := .none },
                     mem := { s.mem with srcPos := 0 }, answers := s.answers.tail, rsp := packRsp 0x00 0 }) ∧
  (∀ s : State, Ready s → s.br.isOpen = false → NextAnswerFails s →
    ∃ t, exec .brOpen s = .next t ∧ FailedDuring s t 0 0x00 0x81 1 ∧ t.mem = s.mem) ∧
  (∀ s : State, Ready s → s.br.isOpen = false → NoIoFail s → s.mem.srcData = [] →
    ∃ t u, exec .brOpen s = .next t ∧ exec .brReadBit t = .next u ∧ Answers u 0x01 0)

/-- R71 to R73, R76: `BR.READBIT` answers the first of the valid bits still to deliver and consumes it; with none left
it answers end-of-stream, or `MalformedInput(7)` when the last byte is `0xFF`. A fetch that fails is `IOFailure(2)` (R162):
the first the read makes, or, when no byte was fetched since the open, the second. -/
def Obligations.ReadBitDelivers : Prop :=
  (∀ s : State, Ready s → s.br.isOpen = true → CursorInv s.br → NoIoFail s →
    (∀ (b : Bool) (rest : List Bool), s.bitsToRead = b :: rest →
      ∃ t, exec .brReadBit s = .next t ∧ Answers t 0x00 b.toNat ∧ t.bitsToRead = rest ∧
        t.readEndsCorrupt = s.readEndsCorrupt ∧ CursorInv t.br ∧ CommandFrame .brReadBit s t) ∧
    (s.bitsToRead = [] → s.readEndsCorrupt = false →
      ∃ t, exec .brReadBit s = .next t ∧ Answers t 0x01 0 ∧ t.bitsToRead = [] ∧ t.br.hasBits = false ∧
        t.br.laSt = .eof ∧ CursorInv t.br ∧ CommandFrame .brReadBit s t) ∧
    (s.bitsToRead = [] → s.readEndsCorrupt = true →
      ∃ t, exec .brReadBit s = .next t ∧ FailedDuring s t 0 0x01 0x82 7 ∧ t.mem.snkData = s.mem.snkData)) ∧
  (∀ s : State, Ready s → s.br.isOpen = true → s.br.hasBits = false → s.br.laSt ≠ .eof → NextAnswerFails s →
    ∃ t, exec .brReadBit s = .next t ∧ FailedDuring s t 0 0x01 0x81 2 ∧ t.mem = s.mem) ∧
  (∀ (s : State) (rest : List PortAnswer), Ready s → s.br.isOpen = true → s.br.hasBits = false → s.br.laSt = .none →
    s.mem.srcPos < s.mem.srcData.length → s.answers = .ok :: .ioFail :: rest →
    ∃ t, exec .brReadBit s = .next t ∧ FailedDuring s t 0 0x01 0x81 2 ∧
      t.mem = { s.mem with srcPos := s.mem.srcPos + 1 })

/-- R35, R74: `BR.READBITS n` answers `val` of the next `n` valid bits; when only `g < n` remain they are consumed and it
answers end-of-stream with `g`, or `MalformedInput(7)` when the last byte is `0xFF`. A fetch that fails is `IOFailure(2)`
(R162): the one after `j` bytes were fetched, when the bits at hand and 8 for each byte taken as the current one are fewer
than `n`. -/
def Obligations.ReadBitsDelivers : Prop :=
  (∀ (s : State) (n : BitVec 8), Ready s → s.br.isOpen = true → CursorInv s.br → NoIoFail s → 1 ≤ n.toNat →
    n.toNat ≤ 32 →
    (n.toNat ≤ s.bitsToRead.length →
      ∃ t, exec (.brReadBits n) s = .next t ∧ Answers t 0x00 (val (s.bitsToRead.take n.toNat)) ∧
        t.bitsToRead = s.bitsToRead.drop n.toNat ∧ t.readEndsCorrupt = s.readEndsCorrupt ∧ CursorInv t.br ∧
        CommandFrame (.brReadBits n) s t) ∧
    (s.bitsToRead.length < n.toNat → s.readEndsCorrupt = false →
      ∃ t, exec (.brReadBits n) s = .next t ∧ Answers t 0x01 s.bitsToRead.length ∧ t.bitsToRead = [] ∧
        t.br.hasBits = false ∧ t.br.laSt = .eof ∧ CursorInv t.br ∧ CommandFrame (.brReadBits n) s t) ∧
    (s.bitsToRead.length < n.toNat → s.readEndsCorrupt = true →
      ∃ t, exec (.brReadBits n) s = .next t ∧ FailedDuring s t 0 0x02 0x82 7 ∧ t.mem.snkData = s.mem.snkData)) ∧
  (∀ (s : State) (n : BitVec 8) (j : Nat) (rest : List PortAnswer), Ready s → s.br.isOpen = true → CursorInv s.br →
    1 ≤ n.toNat → n.toNat ≤ 32 → s.br.laSt ≠ .eof → s.answers = List.replicate j .ok ++ .ioFail :: rest →
    s.mem.srcPos + j ≤ s.mem.srcData.length →
    (if s.br.hasBits then s.br.lim.toNat - s.br.pos.toNat else 0) + 8 * (if s.br.laSt = .none then j - 1 else j) <
      n.toNat →
    ∃ t, exec (.brReadBits n) s = .next t ∧ FailedDuring s t 0 0x02 0x81 2 ∧
      t.mem = { s.mem with srcPos := s.mem.srcPos + j })

/-- R77: once a read has returned end-of-stream the reader has `have = 0` and `la_st = EOF`, and from there every read
answers end-of-stream with `g = 0` and changes nothing but `RSP`; the block is not held. -/
def Obligations.EndOfStreamPersists : Prop :=
  (∀ s t : State, Ready s → exec .brReadBit s = .next t → rspStatus t.rsp = 0x01 →
    t.br.hasBits = false ∧ t.br.laSt = .eof ∧ t.faultReg = s.faultReg ∧ Ready t) ∧
  (∀ (s t : State) (n : BitVec 8), Ready s → exec (.brReadBits n) s = .next t → rspStatus t.rsp = 0x01 →
    t.br.hasBits = false ∧ t.br.laSt = .eof ∧ t.faultReg = s.faultReg ∧ Ready t) ∧
  (∀ s : State, Ready s → s.br.isOpen = true → s.br.hasBits = false → s.br.laSt = .eof →
    exec .brReadBit s = .next { s with rsp := packRsp 0x01 0 } ∧
    ∀ n : BitVec 8, 1 ≤ n.toNat → n.toNat ≤ 32 → exec (.brReadBits n) s = .next { s with rsp := packRsp 0x01 0 })

/-- R75: `BR.CLOSE` closes an open reader and leaves `SRC.pos`; nothing is said of the other `BR` registers; a closed
reader is `IllegalState(2)` and a close that fails is `IOFailure(1)`. -/
def Obligations.CloseReader : Prop :=
  (∀ s : State, Ready s → s.br.isOpen = false → exec .brClose s = .next (s.refused 0x03 0x87 2)) ∧
  (∀ s : State, Ready s → s.br.isOpen = true → NextAnswerOk s →
    ∃ t, exec .brClose s = .next t ∧ t.br.isOpen = false ∧
      t = { s with br := t.br, answers := s.answers.tail, rsp := packRsp 0x00 0, draws := t.draws }) ∧
  (∀ s : State, Ready s → s.br.isOpen = true → NextAnswerFails s →
    ∃ t, exec .brClose s = .next t ∧ FailedDuring s t 0 0x03 0x81 1 ∧ t.mem = s.mem)

/-- R36, R76: what a reader delivers: after `BR.OPEN`, single-bit reads answer exactly the bits of `V(S)` in order, and
the next one end-of-stream, or `MalformedInput(7)` when the source ends in `0xFF`. -/
def Obligations.ReaderDeliversValidBits : Prop :=
  ∀ s : State, Ready s → s.br.isOpen = false → NoIoFail s →
    responses (.brOpen :: List.replicate ((validBits s.mem.srcData).length + 1) .brReadBit) s =
      some (packRsp 0x00 0 :: ((validBits s.mem.srcData).map fun b => packRsp 0x00 (BitVec.ofNat 64 b.toNat)) ++
        [if endsCorrupt s.mem.srcData then packRsp 0x82 7 else packRsp 0x01 0])

/-! ### The bit writer -/

/-- R78: `BW.OPEN` empties the sink and the writer's registers; an open that fails is `IOFailure(3)`. What a failing open
leaves is the model's choice (assumption 3, DEDUCED): R78 remarks "(state unchanged)", and the model follows R175 and R176,
which close both channels and leave the units unspecified. -/
def Obligations.OpenWriter : Prop :=
  (∀ s : State, Ready s → s.bw.isOpen = false → NextAnswerOk s →
    exec .bwOpen s =
      .next { s with bw := { isOpen := true, acc := 0, k := 0 }, mem := { s.mem with snkData := [] },
                     answers := s.answers.tail, rsp := packRsp 0x00 0 }) ∧
  (∀ s : State, Ready s → s.bw.isOpen = false → NextAnswerFails s →
    ∃ t, exec .bwOpen s = .next t ∧ FailedDuring s t 0 0x04 0x81 3 ∧ t.mem = s.mem)

/-- R79: `BW.WRITEBIT`: the checks, the shift into `BW.acc`, the cursor, and the byte put on every eighth bit. -/
def Obligations.WriteBitShiftsIn : Prop :=
  (∀ (s : State) (bit : BitVec 8), Ready s → s.bw.isOpen = false →
    exec (.bwWriteBit bit) s = .next (s.refused 0x05 0x87 4)) ∧
  (∀ (s : State) (bit : BitVec 8), Ready s → s.bw.isOpen = true → 2 ≤ bit.toNat →
    exec (.bwWriteBit bit) s = .next (s.refused 0x05 0x83 1)) ∧
  (∀ (s : State) (bit : BitVec 8), Ready s → s.bw.isOpen = true → bit.toNat ≤ 1 → s.bw.k ≠ 7 →
    exec (.bwWriteBit bit) s =
      .next { s with bw := { s.bw with acc := BitVec.ofNat 8 (2 * s.bw.acc.toNat + bit.toNat), k := s.bw.k + 1 },
                     rsp := packRsp 0x00 0 }) ∧
  (∀ (s : State) (bit : BitVec 8), Ready s → s.bw.isOpen = true → bit.toNat ≤ 1 → s.bw.k = 7 → NextAnswerOk s →
    exec (.bwWriteBit bit) s =
      .next { s with bw := { s.bw with acc := 0, k := 0 }, answers := s.answers.tail, rsp := packRsp 0x00 0,
                     mem := { s.mem with snkData :=
                       s.mem.snkData ++ [BitVec.ofNat 8 (2 * s.bw.acc.toNat + bit.toNat)] } }) ∧
  (∀ (s : State) (bit : BitVec 8), Ready s → s.bw.isOpen = true → bit.toNat ≤ 1 → s.bw.k = 7 → NextAnswerFails s →
    ∃ t, exec (.bwWriteBit bit) s = .next t ∧ FailedDuring s t 0 0x05 0x81 4 ∧ t.mem = s.mem)

/-- R35, R80: `BW.WRITEBITS n, value` appends `bits_n(value)` to the bits written. -/
def Obligations.WriteBitsAppends : Prop :=
  ∀ (s : State) (n : BitVec 8) (value : BitVec 64), Ready s → s.bw.isOpen = true → WriterInv s → NoIoFail s →
    1 ≤ n.toNat → n.toNat ≤ 32 → value.toNat < 2 ^ n.toNat →
    ∃ t, exec (.bwWriteBits n value) s = .next t ∧ Answers t 0x00 0 ∧ WriterInv t ∧
      t.bitsWritten = s.bitsWritten ++ bitsOf n.toNat value.toNat ∧ CommandFrame (.bwWriteBits n value) s t

/-- R81: `BW.CLOSE`: pending bits are completed by a `0` and `1`s to a byte; none pending puts nothing, or `0x7F` under
`PAD_ON_ALIGNED`; the writer is closed; the failures. -/
def Obligations.CloseWriter : Prop :=
  (∀ s : State, Ready s → s.bw.isOpen = false → exec .bwClose s = .next (s.refused 0x07 0x87 4)) ∧
  (∀ s : State, Ready s → s.bw.isOpen = true → NoIoFail s →
    ∃ t, exec .bwClose s = .next t ∧ t.bw.isOpen = false ∧
      t.mem.snkData = s.mem.snkData ++
        (if s.bw.k ≠ 0 then
          [BitVec.ofNat 8 (s.bw.acc.toNat <<< (8 - s.bw.k.toNat)) ||| BitVec.ofNat 8 (2 ^ (7 - s.bw.k.toNat) - 1)]
        else if s.params.padOnAligned then [0x7F#8] else []) ∧
      t = { s with bw := t.bw, mem := { s.mem with snkData := t.mem.snkData }, answers := t.answers,
                   rsp := packRsp 0x00 0, draws := t.draws }) ∧
  (∀ s : State, Ready s → s.bw.isOpen = true → (s.bw.k ≠ 0 ∨ s.params.padOnAligned = true) → NextAnswerFails s →
    ∃ t, exec .bwClose s = .next t ∧ FailedDuring s t 0 0x07 0x81 4 ∧ t.mem = s.mem) ∧
  (∀ s : State, Ready s → s.bw.isOpen = true → s.bw.k = 0 → s.params.padOnAligned = false → NextAnswerFails s →
    ∃ t, exec .bwClose s = .next t ∧ FailedDuring s t 0 0x07 0x81 3 ∧ t.mem = s.mem) ∧
  (∀ (s : State) (rest : List PortAnswer), Ready s → s.bw.isOpen = true →
    (s.bw.k ≠ 0 ∨ s.params.padOnAligned = true) → s.answers = .ok :: .ioFail :: rest →
    ∃ t, exec .bwClose s = .next t ∧ FailedDuring s t 0 0x07 0x81 3 ∧
      t.mem.snkData = s.mem.snkData ++ [if s.bw.k ≠ 0 then finalByte s.bw.acc s.bw.k.toNat else 0x7F])

/-- R82: the final byte of `k` pending bits as a number and as bits; its trailing-ones count is `7 - k`, so a reader
finds exactly the pending bits in it. -/
def Obligations.FinalByteReadsBack : Prop :=
  ∀ (acc : Byte) (k : Nat), 1 ≤ k → k ≤ 7 → acc.toNat < 2 ^ k →
    (finalByte acc k).toNat = val (bitsOf k acc.toNat ++ false :: List.replicate (7 - k) true) ∧
    (finalByte acc k).toNat = acc.toNat <<< (8 - k) + 2 ^ (7 - k) - 1 ∧
    trailingOnes (finalByte acc k) = 7 - k ∧ lastByteBits (finalByte acc k) = bitsOf k acc.toNat

/-- R38: the round-trip law of the bit level and its limit. -/
def Obligations.PackedBitsReadBack : Prop :=
  (∀ B : List Bool, B.length % 8 ≠ 0 ∨ B = [] → validBits (packBits false B) = B ∧ endsCorrupt (packBits false B) = false) ∧
  (∀ B : List Bool, B.length % 8 = 0 → B ≠ [] → ∃ c, (packBits false B).getLast? = some c ∧
    (c ≠ 0xFF → endsCorrupt (packBits false B) = false ∧ trailingOnes c ≤ 7 ∧
      validBits (packBits false B) = B.take (B.length - (1 + trailingOnes c))) ∧
    (c = 0xFF → endsCorrupt (packBits false B) = true)) ∧
  (∀ B : List Bool, validBits (packBits true B) = B ∧ endsCorrupt (packBits true B) = false)

/-- R37, R83: what a writer produces: after `BW.OPEN`, in-range bit writes in any number and a `BW.CLOSE`, the sink is
`P(B)` of the bits written, and every command answered `OK`. -/
def Obligations.WriterProducesPackedBits : Prop :=
  ∀ (s : State) (writes : List Instr), Ready s → s.bw.isOpen = false → NoIoFail s →
    (∀ i ∈ writes, (writtenBits i).isSome) →
    ∃ t, runAll (.bwOpen :: writes ++ [.bwClose]) s = .next t ∧
      t.mem.snkData = packBits s.params.padOnAligned (writes.flatMap fun i => (writtenBits i).getD []) ∧
      responses (.bwOpen :: writes ++ [.bwClose]) s = some (List.replicate (writes.length + 2) (packRsp 0x00 0))

/-! ### The queue -/

/-- R90: `PQ.CREATE` makes an empty queue, discarding an old one; an undefined comparator is refused. -/
def Obligations.CreateQueue : Prop :=
  (∀ (s : State) (cmp : BitVec 8), Ready s → cmp ≠ 0 → exec (.pqCreate cmp) s = .next (s.refused 0x20 0x83 5)) ∧
  (∀ s : State, Ready s →
    exec (.pqCreate 0) s = .next { s with pq := { created := true, cmp := 0, heap := [] }, rsp := packRsp 0x00 0 })

/-- R92, R93: an insertion adds exactly its item and an extraction removes exactly the root it answers; nothing but the
heap and `RSP` changes. -/
def Obligations.QueueAddsAndRemoves : Prop :=
  (∀ (s : State) (item : BitVec 64), Ready s → s.pq.created = true → s.pq.cmp = 0 →
    item.toNat < s.huf.nodes.length → s.params.pqCap.all (s.pq.heap.length < ·) = true →
    ∃ t, exec (.pqInsert item) s = .next t ∧ t.pq.heap.Perm (item.toNat :: s.pq.heap) ∧
      t = { s with pq := { s.pq with heap := t.pq.heap }, rsp := packRsp 0x00 0 }) ∧
  (∀ (s : State) (m : Nat) (rest : List Nat), Ready s → s.pq.created = true → s.pq.cmp = 0 →
    s.pq.heap = m :: rest →
    ∃ t, exec .pqExtractMin s = .next t ∧ t.pq.heap.Perm rest ∧
      t = { s with pq := { s.pq with heap := t.pq.heap }, rsp := packRsp 0x00 (BitVec.ofNat 64 m) })

/-- R96: insertion and extraction keep the heap order; the item extracted is a minimum, and repeated extraction yields
items in non-decreasing priority. -/
def Obligations.HeapOrderIsKept : Prop :=
  (∀ (s t : State) (item : BitVec 64), Ready s → s.pq.cmp = 0 → HeapOrdered s → exec (.pqInsert item) s = .next t →
    HeapOrdered t) ∧
  (∀ s t : State, Ready s → s.pq.cmp = 0 → HeapOrdered s → exec .pqExtractMin s = .next t →
    HeapOrdered t ∧ ∀ m rest, s.pq.heap = m :: rest → s.pq.created = true →
      (∀ x ∈ s.pq.heap, precedes s x m = false) ∧
      (∀ m' rest', t.pq.heap = m' :: rest' → precedes t m' m = false))

/-- R94, R95: `PQ.SIZE` answers the number of live elements, `PQ.ISEMPTY` whether there are none; neither writes state;
both need a queue. -/
def Obligations.QueueSize : Prop :=
  (∀ s : State, Ready s → s.pq.created = true →
    exec .pqSize s = .next { s with rsp := packRsp 0x00 (BitVec.ofNat 64 s.pq.heap.length) }) ∧
  (∀ s : State, Ready s → s.pq.created = true → s.pq.heap = [] →
    exec .pqIsEmpty s = .next { s with rsp := packRsp 0x00 1 }) ∧
  (∀ s : State, Ready s → s.pq.created = true → s.pq.heap ≠ [] →
    exec .pqIsEmpty s = .next { s with rsp := packRsp 0x00 0 }) ∧
  (∀ s : State, Ready s → s.pq.created = false →
    exec .pqSize s = .next (s.refused 0x23 0x87 5) ∧ exec .pqIsEmpty s = .next (s.refused 0x24 0x87 5))

/-- R92, R93: the heap `PQ.INSERT` leaves is the sift-up loop run to its end from the appended item, and the one
`PQ.EXTRACTMIN` leaves is the sift-down loop run to its exit from the last element placed at the root, the left child
compared first (R97); the same of the two heap functions, which `HUF.BUILD` uses too, for any comparison. -/
def Obligations.SiftLoopsRunToTheirEnd : Prop :=
  (∀ (s : State) (item : BitVec 64), Ready s → s.pq.created = true → s.pq.cmp = 0 →
    item.toNat < s.huf.nodes.length → s.params.pqCap.all (s.pq.heap.length < ·) = true →
    ∃ t, exec (.pqInsert item) s = .next t ∧ Answers t 0x00 0 ∧
      SiftsUp (precedes s) s.pq.heap.length (s.pq.heap ++ [item.toNat]) t.pq.heap) ∧
  (∀ (s : State) (m last : Nat) (mid : List Nat), Ready s → s.pq.created = true → s.pq.cmp = 0 →
    s.pq.heap = m :: (mid ++ [last]) →
    ∃ t, exec .pqExtractMin s = .next t ∧ Answers t 0x00 m ∧ SiftsDown (precedes s) 0 (last :: mid) t.pq.heap) ∧
  (∀ (s : State) (m : Nat), Ready s → s.pq.created = true → s.pq.cmp = 0 → s.pq.heap = [m] →
    ∃ t, exec .pqExtractMin s = .next t ∧ Answers t 0x00 m ∧ t.pq.heap = []) ∧
  (∀ (lt : Nat → Nat → Bool) (h : List Nat) (item : Nat),
    SiftsUp lt h.length (h ++ [item]) (heapInsert lt h item)) ∧
  (∀ (lt : Nat → Nat → Bool) (m last : Nat) (mid : List Nat),
    SiftsDown lt 0 (last :: mid) (heapRemoveRoot lt (m :: (mid ++ [last]))))

/-! ### Huffman: the table, the nodes, the tree -/

/-- R100: `HUF.COUNT` leaves in each entry the number of times the byte occurs in the source, marks the table counted and
the tree and codes not held; a count that does not fit `FREQ_W` is `CapacityExceeded(3)`. -/
def Obligations.CountCountsBytes : Prop :=
  ∀ s : State, Ready s → s.br.isOpen = false → NoIoFail s →
    ((∀ b : Byte, s.params.freqW.all (s.mem.srcData.count b < 2 ^ ·) = true) →
      ∃ t, exec .hufCount s = .next t ∧ (∀ b : Byte, Table.at t.huf.freq b = s.mem.srcData.count b) ∧
        t = { s with huf := { s.huf with freq := t.huf.freq, counted := true, treeOk := false, derived := false },
                     mem := { s.mem with srcPos := s.mem.srcData.length }, answers := t.answers,
                     rsp := packRsp 0x00 0 }) ∧
    (∀ b : Byte, s.params.freqW.all (s.mem.srcData.count b < 2 ^ ·) = false →
      ∃ t, exec .hufCount s = .next t ∧ FailedDuring s t 0 0x40 0x88 3 ∧ t.mem.snkData = s.mem.snkData)

/-- R101, R102: `HUF.MKLEAF` and `HUF.MKNODE` allocate the next index for a leaf, or for an internal node whose weight is
the exact sum, and change nothing else; the refusals. That a full arena is refused before execution, with nothing else
changed, is the model's reading (assumption 9, DEDUCED): the rules raise it inside `Alloc`. -/
def Obligations.MakeNodesByHand : Prop :=
  (∀ (s : State) (byte : BitVec 8) (weight : BitVec 64), Ready s →
    (s.params.freqW.all (weight.toNat < 2 ^ ·) = false →
      exec (.hufMkLeaf byte weight) s = .next (s.refused 0x41 0x83 6)) ∧
    (s.params.freqW.all (weight.toNat < 2 ^ ·) = true → s.params.nodeCap.all (s.huf.nodes.length < ·) = false →
      exec (.hufMkLeaf byte weight) s = .next (s.refused 0x41 0x88 2)) ∧
    (s.params.freqW.all (weight.toNat < 2 ^ ·) = true → s.params.nodeCap.all (s.huf.nodes.length < ·) = true →
      exec (.hufMkLeaf byte weight) s =
        .next { s with huf := { s.huf with nodes := s.huf.nodes ++ [Node.mk (.leaf byte) weight.toNat] },
                       rsp := packRsp 0x00 (BitVec.ofNat 64 s.huf.nodes.length) })) ∧
  (∀ (s : State) (upper : BitVec 32) (left right : BitVec 16), Ready s →
    ((upper ≠ 0 ∨ s.huf.nodes.length ≤ left.toNat ∨ s.huf.nodes.length ≤ right.toNat) →
      exec (.hufMkNode upper left right) s = .next (s.refused 0x42 0x83 7)) ∧
    (∀ nl nr : Node, upper = 0 → s.huf.nodes[left.toNat]? = some nl → s.huf.nodes[right.toNat]? = some nr →
      (s.params.freqW.all (nl.weight + nr.weight < 2 ^ ·) = false →
        exec (.hufMkNode upper left right) s = .next (s.refused 0x42 0x88 3)) ∧
      (s.params.freqW.all (nl.weight + nr.weight < 2 ^ ·) = true →
        s.params.nodeCap.all (s.huf.nodes.length < ·) = false →
        exec (.hufMkNode upper left right) s = .next (s.refused 0x42 0x88 2)) ∧
      (s.params.freqW.all (nl.weight + nr.weight < 2 ^ ·) = true →
        s.params.nodeCap.all (s.huf.nodes.length < ·) = true →
        exec (.hufMkNode upper left right) s =
          .next { s with huf := { s.huf with nodes := s.huf.nodes ++
                                    [Node.mk (.internal left.toNat right.toNat) (nl.weight + nr.weight)] },
                         rsp := packRsp 0x00 (BitVec.ofNat 64 s.huf.nodes.length) })))

/-- R103, R104: `HUF.BUILD` makes a tree whose leaves are exactly the counted bytes, once each, in an arena of `2L - 1`
nodes with the leaves first in ascending byte order and the root last, every internal weight the sum of its children's,
and leaves the queue empty; one counted byte gives a single leaf. -/
def Obligations.BuildMakesTheTree : Prop :=
  ∀ s : State, Ready s → s.huf.counted = true → Params.wf s.params = true →
    Params.fitsFreq s.params (totalCount s.huf.freq) = true → countedBytes s.huf.freq ≠ [] →
    ∃ t T, exec .hufBuild s = .next t ∧ t.huf.tree = some T ∧ T.leafBytes.Perm (countedBytes s.huf.freq) ∧
      t.huf.nodes.length = 2 * (countedBytes s.huf.freq).length - 1 ∧ t.huf.root + 1 = t.huf.nodes.length ∧
      (∀ (k : Nat) (b : Byte), (countedBytes s.huf.freq)[k]? = some b →
        t.huf.nodes[k]? = some (Node.mk (.leaf b) (Table.at s.huf.freq b))) ∧
      (∀ n l r w : Nat, t.huf.nodes[n]? = some (Node.mk (.internal l r) w) → w = weightAt t l + weightAt t r) ∧
      (∀ b, countedBytes s.huf.freq = [b] → T = .leaf b) ∧
      t = { s with huf := { s.huf with nodes := t.huf.nodes, root := t.huf.root, treeOk := true, derived := false },
                   pq := { created := true, cmp := 0, heap := [] },
                   rsp := packRsp 0x00 (BitVec.ofNat 64 t.huf.root) }

/-- R103: every internal node `HUF.BUILD` makes has as left child a lightest of the nodes then in the queue and as right
child a lightest of the others. -/
def Obligations.BuildMergesTheLightest : Prop :=
  ∀ s t : State, Ready s → s.huf.counted = true → Params.wf s.params = true →
    Params.fitsFreq s.params (totalCount s.huf.freq) = true → countedBytes s.huf.freq ≠ [] →
    exec .hufBuild s = .next t →
    ∀ n l r w : Nat, t.huf.nodes[n]? = some (Node.mk (.internal l r) w) →
      StillQueued t.huf.nodes n l ∧ StillQueued t.huf.nodes n r ∧ l ≠ r ∧
      (∀ m, StillQueued t.huf.nodes n m → weightAt t l ≤ weightAt t m) ∧
      (∀ m, StillQueued t.huf.nodes n m → m ≠ l → weightAt t r ≤ weightAt t m)

/-- R112: after `HUF.COUNT`, `HUF.BUILD`, `HUF.DERIVE` on a non-empty source every byte of the source is in exactly one
leaf and the code table is non-null for exactly those bytes. -/
def Obligations.LeavesAreTheSourceBytes : Prop :=
  ∀ s : State, Ready s → s.br.isOpen = false → NoIoFail s → Params.wf s.params = true →
    Params.fitsFreq s.params s.mem.srcData.length = true → s.mem.srcData ≠ [] →
    ∃ t T, runAll [.hufCount, .hufBuild, .hufDerive] s = .next t ∧ t.rsp = packRsp 0x00 0 ∧ t.huf.tree = some T ∧
      T.leafBytes.Nodup ∧ (∀ b, b ∈ T.leafBytes ↔ b ∈ s.mem.srcData) ∧
      (∀ b, Table.at t.huf.code b ≠ none ↔ b ∈ s.mem.srcData)

/-- R105: `HUF.DERIVE` writes each leaf's path as its byte's code, `[0]` for a single leaf, the last leaf in pre-order
for a byte held twice, null elsewhere; a code over 255 bits is refused where lengths are 8 bits. -/
def Obligations.DeriveWritesThePaths : Prop :=
  ∀ (s : State) (T : Tree), Ready s → s.huf.treeOk = true → s.huf.tree = some T →
    ((s.params.codeLen8 = true → ∀ p ∈ T.codes, p.2.length ≤ 255) →
      exec .hufDerive s =
        .next { s with huf := { s.huf with code := codeTable T, derived := true }, rsp := packRsp 0x00 0 }) ∧
    (s.params.codeLen8 = true → (∃ p ∈ T.codes, 255 < p.2.length) →
      ∃ t, exec .hufDerive s = .next t ∧ FailedDuring s t 0 0x44 0x88 2 ∧ t.mem = s.mem)

/-- R64, R105: the codes of a tree with at least two leaves are non-empty and prefix-free, and exist for exactly its leaf
bytes. -/
def Obligations.CodesArePrefixFree : Prop :=
  ∀ T : Tree, 2 ≤ T.leaves →
    (∀ b, Table.at (codeTable T) b ≠ none ↔ b ∈ T.leafBytes) ∧
    (∀ b c, Table.at (codeTable T) b = some c → c ≠ []) ∧
    (∀ b b' c c', b ≠ b' → Table.at (codeTable T) b = some c → Table.at (codeTable T) b' = some c' → ¬ c <+: c')

/-- R63, R106: `HUF.SERIALIZE` appends the pre-order serialization of the tree, `10 L - 1` bits for `L` leaves. -/
def Obligations.SerializeAppendsTheTree : Prop :=
  (∀ (s : State) (T : Tree), Ready s → s.huf.treeOk = true → s.huf.tree = some T → s.bw.isOpen = true → WriterInv s →
    NoIoFail s →
    ∃ t, exec .hufSerialize s = .next t ∧ Answers t 0x00 0 ∧ WriterInv t ∧ t.bitsWritten = s.bitsWritten ++ T.ser ∧
      CommandFrame .hufSerialize s t) ∧
  (∀ T : Tree, T.ser.length + 1 = 10 * T.leaves)

/-- R107: `HUF.ENCODE` appends the codes of the source's bytes in order; a byte with no code is `IllegalState(12)`, met
after the bytes before it were encoded. -/
def Obligations.EncodeAppendsTheCodes : Prop :=
  ∀ s : State, Ready s → s.huf.derived = true → s.bw.isOpen = true → s.br.isOpen = false → WriterInv s → NoIoFail s →
    (∀ bits, codeBits s.huf.code s.mem.srcData = some bits →
      ∃ t, exec .hufEncode s = .next t ∧ Answers t 0x00 0 ∧ WriterInv t ∧ t.bitsWritten = s.bitsWritten ++ bits ∧
        t.mem.srcPos = s.mem.srcData.length ∧ CommandFrame .hufEncode s t) ∧
    (codeBits s.huf.code s.mem.srcData = none →
      ∃ t, exec .hufEncode s = .next t ∧ FailedDuring s t 0 0x46 0x87 12 ∧ s.mem.snkData <+: t.mem.snkData)

/-! ### Huffman: reading -/

/-- R108: `HUF.DESERIALIZE` rebuilds the tree whose serialization the reader delivers and leaves the reader just after
it; more nodes than the arena holds is `CapacityExceeded(2)`; a stream with no whole tree is `MalformedInput(4)`, or `(7)`
when its last byte is `0xFF`. The nodes' weights are free. -/
def Obligations.DeserializeRebuildsTheTree : Prop :=
  ∀ s : State, Ready s → s.br.isOpen = true → CursorInv s.br → NoIoFail s →
    (∀ (T : Tree) (rest : List Bool), s.bitsToRead = T.ser ++ rest → ArenaHolds s.params T →
      ∃ t, exec .hufDeserialize s = .next t ∧ t.huf.tree = some T ∧ t.huf.treeOk = true ∧ t.huf.derived = false ∧
        t.huf.nodes.length + 1 = 2 * T.leaves ∧ Answers t 0x00 t.huf.root ∧ t.bitsToRead = rest ∧
        t.readEndsCorrupt = s.readEndsCorrupt ∧ CursorInv t.br ∧ CommandFrame .hufDeserialize s t) ∧
    (∀ (T : Tree) (rest : List Bool), s.bitsToRead = T.ser ++ rest → ¬ ArenaHolds s.params T →
      ∃ t, exec .hufDeserialize s = .next t ∧ FailedDuring s t 0 0x47 0x88 2 ∧ t.mem.snkData = s.mem.snkData) ∧
    ((∀ (T : Tree) (rest : List Bool), s.bitsToRead ≠ T.ser ++ rest) → s.params.nodeCap = none →
      ∃ t, exec .hufDeserialize s = .next t ∧
        FailedDuring s t 0 0x47 0x82 (if s.readEndsCorrupt then 7 else 4) ∧ t.mem.snkData = s.mem.snkData)

/-- R109: `HUF.DECODE` of a tree with at least two leaves emits the bytes of the leaves the bits lead to; bits left over
inside a code are `MalformedInput(5)`, and `(7)` is reported when the last byte is `0xFF`; a single leaf emits its byte once
for each bit, and `(7)` is reported after them when the last byte is `0xFF`. What was put before a fault stands. -/
def Obligations.DecodeEmitsTheLeaves : Prop :=
  ∀ (s : State) (T : Tree), Ready s → s.huf.treeOk = true → s.huf.tree = some T → s.br.isOpen = true →
    s.bw.isOpen = false → CursorInv s.br → NoIoFail s →
    (∀ b, T = .leaf b → s.readEndsCorrupt = false →
      ∃ t, exec .hufDecode s = .next t ∧ Answers t 0x00 0 ∧ t.bitsToRead = [] ∧
        t.mem.snkData = s.mem.snkData ++ List.replicate s.bitsToRead.length b ∧ CommandFrame .hufDecode s t) ∧
    (∀ b, T = .leaf b → s.readEndsCorrupt = true →
      ∃ t, exec .hufDecode s = .next t ∧ FailedDuring s t 0 0x48 0x82 7 ∧
        t.mem.snkData = s.mem.snkData ++ List.replicate s.bitsToRead.length b) ∧
    (∀ (syms : List (Byte × List Bool)) (left : List Bool), 2 ≤ T.leaves → (∀ p ∈ syms, p ∈ T.paths []) →
      s.bitsToRead = syms.flatMap Prod.snd ++ left → (left = [] ∨ ∃ p ∈ T.paths [], left <+: p.2 ∧ left ≠ p.2) →
      (left = [] → s.readEndsCorrupt = false →
        ∃ t, exec .hufDecode s = .next t ∧ Answers t 0x00 0 ∧ t.bitsToRead = [] ∧
          t.mem.snkData = s.mem.snkData ++ syms.map Prod.fst ∧ CommandFrame .hufDecode s t) ∧
      (left ≠ [] → s.readEndsCorrupt = false →
        ∃ t, exec .hufDecode s = .next t ∧ FailedDuring s t 0 0x48 0x82 5 ∧
          t.mem.snkData = s.mem.snkData ++ syms.map Prod.fst) ∧
      (s.readEndsCorrupt = true →
        ∃ t, exec .hufDecode s = .next t ∧ FailedDuring s t 0 0x48 0x82 7 ∧
          t.mem.snkData = s.mem.snkData ++ syms.map Prod.fst))

/-- R113: decoding inverts encoding at the bit level, the degenerate tree included. -/
def Obligations.DecodingInvertsEncoding : Prop :=
  ∀ (s : State) (T : Tree) (bytes : List Byte) (bits : List Bool), Ready s → s.br.isOpen = true → s.bw.isOpen = false →
    CursorInv s.br → NoIoFail s → ArenaHolds s.params T → T.leafBytes.Nodup →
    codeBits (codeTable T) bytes = some bits → s.bitsToRead = T.ser ++ bits → s.readEndsCorrupt = false →
    ∃ t u, exec .hufDeserialize s = .next t ∧ t.huf.tree = some T ∧ exec .hufDecode t = .next u ∧ Answers u 0x00 0 ∧
      u.huf.tree = some T ∧ u.mem.snkData = s.mem.snkData ++ bytes

/-! ### Huffman: the entry points -/

/-- R110: `HUF.COMPRESS` leaves `P(ser(T) ++ codes)` in the sink for the tree `T` that `HUF.COUNT` and `HUF.BUILD` make,
both channels closed and the phase `IDLE`; an empty source is `EmptyInput` in phase `H_BUILD` with the sink untouched. -/
def Obligations.HuffmanCompress : Prop :=
  ∀ s : State, Ready s → s.br.isOpen = false → s.bw.isOpen = false → NoIoFail s → Params.wf s.params = true →
    Params.fitsFreq s.params s.mem.srcData.length = true →
    (s.mem.srcData ≠ [] →
      ∃ t u v T bits, exec .hufCompress s = .next t ∧ Answers t 0x00 0 ∧ exec .hufCount s = .next u ∧
        exec .hufBuild u = .next v ∧ v.huf.tree = some T ∧ codeBits (codeTable T) s.mem.srcData = some bits ∧
        t.mem.snkData = packBits s.params.padOnAligned (T.ser ++ bits) ∧
        t.huf = { v.huf with code := codeTable T, derived := true } ∧ t.pq = v.pq ∧ t.bw.isOpen = false ∧
        t.mem.srcPos = s.mem.srcData.length ∧ CommandFrame .hufCompress s t) ∧
    (s.mem.srcData = [] →
      ∃ t, exec .hufCompress s = .next t ∧ FailedDuring s t 2 0x4E 0x84 0 ∧ t.mem.snkData = s.mem.snkData)

/-- R111: `HUF.DECOMPRESS` empties the sink and leaves the decoded bytes in it, both channels closed and the phase
`IDLE`; an empty source is `MalformedInput(4)` in phase `H_DESERIALIZE`. -/
def Obligations.HuffmanDecompress : Prop :=
  ∀ s : State, Ready s → s.br.isOpen = false → s.bw.isOpen = false → NoIoFail s →
    (∀ (T : Tree) (syms : List (Byte × List Bool)), 2 ≤ T.leaves → ArenaHolds s.params T →
      (∀ p ∈ syms, p ∈ T.paths []) → validBits s.mem.srcData = T.ser ++ syms.flatMap Prod.snd →
      endsCorrupt s.mem.srcData = false →
      ∃ t, exec .hufDecompress s = .next t ∧ Answers t 0x00 0 ∧ t.huf.tree = some T ∧
        t.mem.snkData = syms.map Prod.fst ∧ t.br.isOpen = false ∧ CommandFrame .hufDecompress s t) ∧
    (∀ (b : Byte) (payload : List Bool), ArenaHolds s.params (.leaf b) →
      validBits s.mem.srcData = (Tree.leaf b).ser ++ payload → endsCorrupt s.mem.srcData = false →
      ∃ t, exec .hufDecompress s = .next t ∧ Answers t 0x00 0 ∧ t.huf.tree = some (.leaf b) ∧
        t.mem.snkData = List.replicate payload.length b ∧ t.br.isOpen = false ∧ CommandFrame .hufDecompress s t) ∧
    (s.mem.srcData = [] →
      ∃ t, exec .hufDecompress s = .next t ∧ FailedDuring s t 6 0x4F 0x82 4 ∧ t.mem.snkData = [])

/-- R114: the round trip of the Huffman entry points, with its limits: with `W` bits written, the source comes back when
`W mod 8 ≠ 0` or `PAD_ON_ALIGNED`; otherwise `MalformedInput(7)` when the last byte is `0xFF`, `(4)` when the cut falls
inside the tree, a proper prefix of the source with `OK` when it falls at a code boundary, and `(5)` when inside a code; an
empty source fails to compress. -/
def Obligations.HuffmanRoundTrip : Prop :=
  ∀ s : State, Ready s → s.br.isOpen = false → s.bw.isOpen = false → NoIoFail s → Params.wf s.params = true →
    Params.fitsFreq s.params s.mem.srcData.length = true →
    (s.mem.srcData = [] → ∃ t, exec .hufCompress s = .next t ∧ Answers t 0x84 0) ∧
    (s.mem.srcData ≠ [] →
      ∃ t T bits, exec .hufCompress s = .next t ∧ t.huf.tree = some T ∧
        codeBits (codeTable T) s.mem.srcData = some bits ∧
        ∀ u : State, Ready u → u.br.isOpen = false → u.bw.isOpen = false → NoIoFail u → Params.wf u.params = true →
          u.mem.srcData = t.mem.snkData →
          ∃ v, exec .hufDecompress u = .next v ∧
            ((10 * T.leaves - 1 + bits.length) % 8 ≠ 0 ∨ s.params.padOnAligned = true →
              Answers v 0x00 0 ∧ v.mem.snkData = s.mem.srcData) ∧
            ((10 * T.leaves - 1 + bits.length) % 8 = 0 → s.params.padOnAligned = false →
              if endsCorrupt t.mem.snkData then Answers v 0x82 7
              else if (validBits t.mem.snkData).length < 10 * T.leaves - 1 then Answers v 0x82 4
              else
                (Answers v 0x00 0 ∧ v.mem.snkData <+: s.mem.srcData ∧ v.mem.snkData ≠ s.mem.srcData ∧
                  ∃ cut, codeBits (codeTable T) v.mem.snkData = some cut ∧
                    validBits t.mem.snkData = T.ser ++ cut) ∨
                (Answers v 0x82 5 ∧ ∀ p cut, codeBits (codeTable T) p = some cut →
                  validBits t.mem.snkData ≠ T.ser ++ cut)))

/-! ### LZW -/

/-- R130, R131, R135: the two seeding commands bind exactly the 256 single-byte sequences, and drop the match buffer or
the previous sequence. -/
def Obligations.SeedDictionaries : Prop :=
  (∀ s : State, Ready s →
    exec .lzwEncReset s =
      .next { s with lzw := { s.lzw with edict := seedDictionary, buf := [], eready := true },
                     rsp := packRsp 0x00 0 } ∧
    exec .lzwDecReset s =
      .next { s with lzw := { s.lzw with dtab := seedDictionary, prev := none, dready := true },
                     rsp := packRsp 0x00 0 }) ∧
  seedDictionary.length = 256 ∧ (∀ b : Byte, seedDictionary[b.toNat]? = some [b])

/-- R132: `LZW.ENC_BYTE` extends the match buffer while it is in the dictionary; else it emits the code of the buffer,
binds the longer sequence under the next code when there is room, and restarts the buffer. -/
def Obligations.EncodeOneByte : Prop :=
  ∀ (s : State) (b : Byte), Ready s → s.lzw.eready = true → EncoderInv s.lzw → s.bw.isOpen = true → WriterInv s →
    NoIoFail s →
    (s.lzw.buf ++ [b] ∈ s.lzw.edict →
      exec (.lzwEncByte (b.setWidth 64)) s =
        .next { s with lzw := { s.lzw with buf := s.lzw.buf ++ [b] }, rsp := packRsp 0x00 0 }) ∧
    (s.lzw.buf ++ [b] ∉ s.lzw.edict →
      ∃ t c, exec (.lzwEncByte (b.setWidth 64)) s = .next t ∧ Answers t 0x00 0 ∧ s.lzw.edict[c]? = some s.lzw.buf ∧
        WriterInv t ∧ t.bitsWritten = s.bitsWritten ++ bitsOf 12 c ∧
        t.lzw = { s.lzw with
          edict := if s.lzw.edict.length < 4096 then s.lzw.edict ++ [s.lzw.buf ++ [b]] else s.lzw.edict,
          buf := [b] } ∧
        CommandFrame (.lzwEncByte (b.setWidth 64)) s t)

/-- R133: `LZW.ENC_FLUSH` emits the code of a non-empty match buffer and empties it; the dictionary is kept. -/
def Obligations.FlushTheMatch : Prop :=
  ∀ s : State, Ready s → s.lzw.eready = true → EncoderInv s.lzw → s.bw.isOpen = true → WriterInv s → NoIoFail s →
    (s.lzw.buf = [] → exec .lzwEncFlush s = .next { s with rsp := packRsp 0x00 0 }) ∧
    (s.lzw.buf ≠ [] →
      ∃ t c, exec .lzwEncFlush s = .next t ∧ Answers t 0x00 0 ∧ s.lzw.edict[c]? = some s.lzw.buf ∧ WriterInv t ∧
        t.bitsWritten = s.bitsWritten ++ bitsOf 12 c ∧ t.lzw = { s.lzw with buf := [] } ∧
        CommandFrame .lzwEncFlush s t)

/-- R136: `LZW.DEC_CODE`: the first code, a code in the table, the self-referential code, the entry registered, the codes
refused, and the ends of the stream. -/
def Obligations.DecodeOneCode : Prop :=
  ∀ s : State, Ready s → s.lzw.dready = true → DecoderInv s.lzw → s.br.isOpen = true → s.bw.isOpen = false →
    CursorInv s.br → NoIoFail s →
    (∀ (c : Nat) (q : List Byte), 12 ≤ s.bitsToRead.length → c = val (s.bitsToRead.take 12) →
      (s.lzw.prev = none ∧ c < 256 ∧ s.lzw.dtab[c]? = some q ∨
        (∃ p, s.lzw.prev = some p ∧ (s.lzw.dtab[c]? = some q ∨
          c = s.lzw.dtab.length ∧ ∃ first, p.head? = some first ∧ q = p ++ [first]))) →
      ∃ t, exec .lzwDecCode s = .next t ∧ Answers t 0x00 c ∧ t.mem.snkData = s.mem.snkData ++ q ∧
        t.bitsToRead = s.bitsToRead.drop 12 ∧ t.readEndsCorrupt = s.readEndsCorrupt ∧ CursorInv t.br ∧
        t.lzw.prev = some q ∧ (s.lzw.prev = none → t.lzw.dtab = s.lzw.dtab) ∧
        (∀ p first, s.lzw.prev = some p → q.head? = some first →
          t.lzw.dtab = if s.lzw.dtab.length < 4096 then s.lzw.dtab ++ [p ++ [first]] else s.lzw.dtab) ∧
        CommandFrame .lzwDecCode s t) ∧
    (∀ c : Nat, 12 ≤ s.bitsToRead.length → c = val (s.bitsToRead.take 12) →
      (s.lzw.prev = none → 256 ≤ c →
        ∃ t, exec .lzwDecCode s = .next t ∧ FailedDuring s t 0 0x64 0x82 1 ∧ t.mem.snkData = s.mem.snkData) ∧
      (s.lzw.prev ≠ none → s.lzw.dtab.length < c →
        ∃ t, exec .lzwDecCode s = .next t ∧ FailedDuring s t 0 0x64 0x82 2 ∧ t.mem.snkData = s.mem.snkData)) ∧
    (s.bitsToRead.length < 12 → s.readEndsCorrupt = true →
      ∃ t, exec .lzwDecCode s = .next t ∧ FailedDuring s t 0 0x64 0x82 7 ∧ t.mem.snkData = s.mem.snkData) ∧
    (s.bitsToRead = [] → s.readEndsCorrupt = false →
      ∃ t, exec .lzwDecCode s = .next t ∧ Answers t 0x01 0 ∧ t.lzw = s.lzw ∧ t.mem.snkData = s.mem.snkData ∧
        CommandFrame .lzwDecCode s t) ∧
    (1 ≤ s.bitsToRead.length → s.bitsToRead.length < 12 → s.readEndsCorrupt = false →
      ∃ t, exec .lzwDecCode s = .next t ∧ FailedDuring s t 0 0x64 0x82 3 ∧ t.mem.snkData = s.mem.snkData)

/-- R139: `LZW.COMPRESS` leaves `P` of the 12-bit codes of the source in the sink, both channels closed and the phase
`IDLE`. -/
def Obligations.LzwCompress : Prop :=
  ∀ s : State, Ready s → s.br.isOpen = false → s.bw.isOpen = false → NoIoFail s →
    ∃ t codes, exec .lzwCompress s = .next t ∧ Answers t 0x00 0 ∧
      lzwCodes seedDictionary [] s.mem.srcData = some codes ∧ (∀ c ∈ codes, c < 4096) ∧
      t.mem.snkData = packBits s.params.padOnAligned (codesBits codes) ∧ t.bw.isOpen = false ∧
      t.mem.srcPos = s.mem.srcData.length ∧ CommandFrame .lzwCompress s t

/-- R138, R140: the decoder mirrors the encoder: `LZW.DECOMPRESS` of the codes of any byte sequence emits exactly that
sequence and never faults. -/
def Obligations.LzwDecoderMirrorsEncoder : Prop :=
  ∀ (s : State) (bytes : List Byte) (codes : List Nat), Ready s → s.br.isOpen = false → s.bw.isOpen = false →
    NoIoFail s → lzwCodes seedDictionary [] bytes = some codes → validBits s.mem.srcData = codesBits codes →
    endsCorrupt s.mem.srcData = false →
    ∃ t, exec .lzwDecompress s = .next t ∧ Answers t 0x00 0 ∧ t.mem.snkData = bytes ∧ t.br.isOpen = false ∧
      CommandFrame .lzwDecompress s t

/-- R141: the round trip of the LZW entry points, with its limits: `12 m` bits for `m` codes; an odd `m`, or none, or
`PAD_ON_ALIGNED` gives the source back; an even, positive `m` without it leaves 4 to 11 bits of the last code and ends with
`MalformedInput(3)`, or with `(7)` when the last byte is `0xFF`, never with `OK`; "ababab" has `m = 4`. -/
def Obligations.LzwRoundTrip : Prop :=
  (∀ s : State, Ready s → s.br.isOpen = false → s.bw.isOpen = false → NoIoFail s →
    ∃ t codes, exec .lzwCompress s = .next t ∧ lzwCodes seedDictionary [] s.mem.srcData = some codes ∧
      t.mem.snkData = packBits s.params.padOnAligned (codesBits codes) ∧
      (codesBits codes).length = 12 * codes.length ∧
      (codes.length % 2 = 0 → codes ≠ [] → s.params.padOnAligned = false → endsCorrupt t.mem.snkData = false →
        4 ≤ (validBits t.mem.snkData).length % 12) ∧
      ∀ u : State, Ready u → u.br.isOpen = false → u.bw.isOpen = false → NoIoFail u →
        u.mem.srcData = t.mem.snkData →
        ∃ v, exec .lzwDecompress u = .next v ∧
          (codes.length % 2 = 1 ∨ codes = [] ∨ s.params.padOnAligned = true →
            Answers v 0x00 0 ∧ v.mem.snkData = s.mem.srcData) ∧
          (codes.length % 2 = 0 → codes ≠ [] → s.params.padOnAligned = false →
            FailedDuring u v 9 0x6F 0x82 (if endsCorrupt t.mem.snkData then 7 else 3))) ∧
  (lzwCodes seedDictionary [] [0x61, 0x62, 0x61, 0x62, 0x61, 0x62]).map List.length = some 4
end

