-- ==== Sys2Proof/Laws/Bits.lean ====
section
/-! SUPPORT. The bit notation's laws: `bits_N` and `val` are inverse, and the byte operations of the two channels as
operations on bit sequences (R34, R35, R79, R82). -/

namespace Sys2Proof.Machine

@[simp] theorem bitsOf_length (n v : Nat) : (bitsOf n v).length = n := by
  induction n with
  | zero => rfl
  | succ n ih => simp [bitsOf, ih]

theorem bitsOf_getElem (n v i : Nat) (h : i < (bitsOf n v).length) : (bitsOf n v)[i] = v.testBit (n - 1 - i) := by
  induction n generalizing i with
  | zero => simp at h
  | succ n ih =>
    cases i with
    | zero => simp [bitsOf]
    | succ i =>
      simp only [bitsOf, List.getElem_cons_succ]
      rw [ih]
      congr 1
      omega

/-- `bits_N` sees the low `N` bits only. -/
theorem bitsOf_congr {n v w : Nat} (h : ∀ i, i < n → v.testBit i = w.testBit i) : bitsOf n v = bitsOf n w := by
  induction n with
  | zero => rfl
  | succ n ih => rw [bitsOf, bitsOf, h n (by omega), ih fun i hi => h i (by omega)]

theorem bitsOf_mod (n v : Nat) : bitsOf n (v % 2 ^ n) = bitsOf n v :=
  bitsOf_congr fun i hi => by simp [Nat.testBit_mod_two_pow, hi]

theorem foldl_shiftIn (s : List Bool) (v : Nat) : s.foldl shiftIn v = v * 2 ^ s.length + val s := by
  induction s generalizing v with
  | nil => simp [val]
  | cons b s ih =>
    simp only [List.foldl_cons, List.length_cons, val]
    rw [ih, ih (shiftIn 0 b)]
    simp only [shiftIn]
    ring

theorem val_append (a b : List Bool) : val (a ++ b) = val a * 2 ^ b.length + val b := by
  rw [val, List.foldl_append, foldl_shiftIn]
  rfl

theorem val_cons (b : Bool) (s : List Bool) : val (b :: s) = b.toNat * 2 ^ s.length + val s := by
  rw [val, List.foldl_cons, foldl_shiftIn]
  simp [shiftIn]

theorem val_lt (s : List Bool) : val s < 2 ^ s.length := by
  induction s with
  | nil => simp [val]
  | cons b s ih =>
    rw [val_cons, List.length_cons, pow_succ]
    cases b <;> simp <;> omega

theorem val_bitsOf (n v : Nat) : val (bitsOf n v) = v % 2 ^ n := by
  induction n with
  | zero => simp [bitsOf, val, Nat.mod_one]
  | succ n ih =>
    rw [bitsOf, val_cons, bitsOf_length, ih, Nat.toNat_testBit, Nat.mod_pow_succ]
    ring

theorem testBit_val_cons (b : Bool) (s : List Bool) (i : Nat) :
    (val (b :: s)).testBit i = if i < s.length then (val s).testBit i else b.toNat.testBit (i - s.length) := by
  rw [val_cons, Nat.mul_comm, Nat.testBit_two_pow_mul_add _ (val_lt s)]

/-- `bits_N(val(s)) = s` for a sequence of `N` bits. -/
theorem bitsOf_val (s : List Bool) : bitsOf s.length (val s) = s := by
  induction s with
  | nil => rfl
  | cons b s ih =>
    rw [List.length_cons, bitsOf, testBit_val_cons, if_neg (Nat.lt_irrefl _), Nat.sub_self]
    congr 1
    · cases b <;> rfl
    · exact (bitsOf_congr fun i hi => by rw [testBit_val_cons, if_pos hi]).trans ih

/-- A value of `N` bits is its bits. -/
theorem ofNat_val_bitsOf (n : Nat) (v : BitVec n) : BitVec.ofNat n (val (bitsOf n v.toNat)) = v := by
  rw [val_bitsOf, Nat.mod_eq_of_lt v.isLt, BitVec.ofNat_toNat, BitVec.setWidth_eq]

@[simp] theorem byteBits_length (b : Byte) : (byteBits b).length = 8 := bitsOf_length 8 _

theorem byteBits_getElem (b : Byte) (i : Nat) (h : i < (byteBits b).length) : (byteBits b)[i] = b.getLsbD (7 - i) := by
  simp only [byteBits, bitsOf_getElem, BitVec.testBit_toNat]

/-- The byte of eight bits, and its bits. -/
theorem byteBits_ofNat_val (s : List Bool) (h : s.length = 8) : byteBits (BitVec.ofNat 8 (val s)) = s := by
  rw [byteBits, BitVec.toNat_ofNat, bitsOf_mod, ← h, bitsOf_val]

/-- What is left of a byte's first `lim` bits after `pos` of them begins with the bit at `pos` (R73). -/
theorem byteBits_drop (b : Byte) {pos lim : Nat} (h : pos < lim) (hl : lim ≤ 8) :
    ((byteBits b).take lim).drop pos = b.getLsbD (7 - pos) :: ((byteBits b).take lim).drop (pos + 1) := by
  rw [List.drop_eq_getElem_cons (by simp; omega), List.getElem_take, byteBits_getElem]

theorem accWith_getLsbD (acc : Byte) (b : Bool) (i : Nat) (h : i < 8) :
    (accWith acc b).getLsbD i = if i = 0 then b else acc.getLsbD (i - 1) := by
  unfold accWith
  rcases i with _ | i
  · cases b <;> simp
  · have h8 : decide (i + 1 < 8) = true := by simpa using h
    cases b <;> simp [h8]

/-- A bit shifted into the accumulator comes after the bits already there (R11, R79). -/
theorem bitsOf_accWith (acc : Byte) (b : Bool) (k : Nat) (h : k < 8) :
    bitsOf (k + 1) (accWith acc b).toNat = bitsOf k acc.toNat ++ [b] := by
  apply List.ext_getElem (by simp)
  intro i h₁ h₂
  simp only [bitsOf_length] at h₁
  rw [bitsOf_getElem, BitVec.testBit_toNat, accWith_getLsbD _ _ _ (by omega)]
  rcases Nat.lt_or_ge i k with hi | hi
  · rw [if_neg (by omega), List.getElem_append_left (by simpa using hi), bitsOf_getElem, BitVec.testBit_toNat]
    congr 1
    omega
  · obtain rfl : i = k := by omega
    rw [if_pos (by omega), List.getElem_append_right (by simp)]
    simp

/-- The accumulator keeps to its `k` low bits (R12). -/
theorem accWith_lt (acc : Byte) (b : Bool) (k : Nat) (h : acc.toNat < 2 ^ k) :
    (accWith acc b).toNat < 2 ^ (k + 1) := by
  refine Nat.lt_pow_two_of_testBit _ fun i hi => ?_
  rw [BitVec.testBit_toNat]
  rcases Nat.lt_or_ge i 8 with h8 | h8
  · rw [accWith_getLsbD _ _ _ h8, if_neg (by omega), ← BitVec.testBit_toNat]
    exact Nat.testBit_lt_two_pow (lt_of_lt_of_le h (Nat.pow_le_pow_right (by omega) (by omega)))
  · exact BitVec.getLsbD_of_ge _ _ h8

end Sys2Proof.Machine
end

