-- ==== Sys2Proof/Laws/State.lean ====
section
/-! SUPPORT. One lemma per field per named update of the state, so that later proofs unfold no record update. -/

namespace Sys2Proof.Machine


/-! ### `State.respond` -/

@[simp] theorem State.respond_bw (s : State) (c : Byte) (r : Wide) : (s.respond c r).bw = s.bw := rfl
@[simp] theorem State.respond_br (s : State) (c : Byte) (r : Wide) : (s.respond c r).br = s.br := rfl
@[simp] theorem State.respond_pq (s : State) (c : Byte) (r : Wide) : (s.respond c r).pq = s.pq := rfl
@[simp] theorem State.respond_huf (s : State) (c : Byte) (r : Wide) : (s.respond c r).huf = s.huf := rfl
@[simp] theorem State.respond_lzw (s : State) (c : Byte) (r : Wide) : (s.respond c r).lzw = s.lzw := rfl
@[simp] theorem State.respond_phase (s : State) (c : Byte) (r : Wide) : (s.respond c r).phase = s.phase := rfl
@[simp] theorem State.respond_faultReg (s : State) (c : Byte) (r : Wide) : (s.respond c r).faultReg = s.faultReg := rfl
@[simp] theorem State.respond_rsp (s : State) (c : Byte) (r : Wide) : (s.respond c r).rsp = packRsp c r := rfl
@[simp] theorem State.respond_cmd (s : State) (c : Byte) (r : Wide) : (s.respond c r).cmd = s.cmd := rfl
@[simp] theorem State.respond_mem (s : State) (c : Byte) (r : Wide) : (s.respond c r).mem = s.mem := rfl
@[simp] theorem State.respond_answers (s : State) (c : Byte) (r : Wide) : (s.respond c r).answers = s.answers := rfl
@[simp] theorem State.respond_host (s : State) (c : Byte) (r : Wide) : (s.respond c r).host = s.host := rfl
@[simp] theorem State.respond_params (s : State) (c : Byte) (r : Wide) : (s.respond c r).params = s.params := rfl
@[simp] theorem State.respond_draws (s : State) (c : Byte) (r : Wide) : (s.respond c r).draws = s.draws := rfl

/-! ### `State.present` -/

@[simp] theorem State.present_bw (s : State) (w : CmdWord) : (s.present w).bw = s.bw := rfl
@[simp] theorem State.present_br (s : State) (w : CmdWord) : (s.present w).br = s.br := rfl
@[simp] theorem State.present_pq (s : State) (w : CmdWord) : (s.present w).pq = s.pq := rfl
@[simp] theorem State.present_huf (s : State) (w : CmdWord) : (s.present w).huf = s.huf := rfl
@[simp] theorem State.present_lzw (s : State) (w : CmdWord) : (s.present w).lzw = s.lzw := rfl
@[simp] theorem State.present_phase (s : State) (w : CmdWord) : (s.present w).phase = s.phase := rfl
@[simp] theorem State.present_faultReg (s : State) (w : CmdWord) : (s.present w).faultReg = s.faultReg := rfl
@[simp] theorem State.present_rsp (s : State) (w : CmdWord) : (s.present w).rsp = s.rsp := rfl
@[simp] theorem State.present_cmd (s : State) (w : CmdWord) : (s.present w).cmd = s.cmd := rfl
@[simp] theorem State.present_mem (s : State) (w : CmdWord) : (s.present w).mem = s.mem := rfl
@[simp] theorem State.present_answers (s : State) (w : CmdWord) : (s.present w).answers = s.answers := rfl
@[simp] theorem State.present_host (s : State) (w : CmdWord) : (s.present w).host = .command w :: s.host := rfl
@[simp] theorem State.present_params (s : State) (w : CmdWord) : (s.present w).params = s.params := rfl
@[simp] theorem State.present_draws (s : State) (w : CmdWord) : (s.present w).draws = s.draws := rfl

/-! ### `State.forgetUnits` -/

@[simp] theorem State.forgetUnits_bw (s : State) : s.forgetUnits.bw = { (Config.freeUnits s.draws).bw with isOpen := false } := rfl
@[simp] theorem State.forgetUnits_br (s : State) : s.forgetUnits.br = { (Config.freeUnits s.draws).br with isOpen := false } := rfl
@[simp] theorem State.forgetUnits_pq (s : State) : s.forgetUnits.pq = (Config.freeUnits s.draws).pq := rfl
@[simp] theorem State.forgetUnits_huf (s : State) : s.forgetUnits.huf = (Config.freeUnits s.draws).huf := rfl
@[simp] theorem State.forgetUnits_lzw (s : State) : s.forgetUnits.lzw = (Config.freeUnits s.draws).lzw := rfl
@[simp] theorem State.forgetUnits_phase (s : State) : s.forgetUnits.phase = s.phase := rfl
@[simp] theorem State.forgetUnits_faultReg (s : State) : s.forgetUnits.faultReg = s.faultReg := rfl
@[simp] theorem State.forgetUnits_rsp (s : State) : s.forgetUnits.rsp = s.rsp := rfl
@[simp] theorem State.forgetUnits_cmd (s : State) : s.forgetUnits.cmd = s.cmd := rfl
@[simp] theorem State.forgetUnits_mem (s : State) : s.forgetUnits.mem = s.mem := rfl
@[simp] theorem State.forgetUnits_answers (s : State) : s.forgetUnits.answers = s.answers := rfl
@[simp] theorem State.forgetUnits_host (s : State) : s.forgetUnits.host = s.host := rfl
@[simp] theorem State.forgetUnits_params (s : State) : s.forgetUnits.params = s.params := rfl
@[simp] theorem State.forgetUnits_draws (s : State) : s.forgetUnits.draws = s.draws + 1 := rfl

/-! ### `State.releasePorts`: only answers are used up -/

@[simp] theorem State.releasePorts_bw (s : State) : s.releasePorts.bw = s.bw := rfl
@[simp] theorem State.releasePorts_br (s : State) : s.releasePorts.br = s.br := rfl
@[simp] theorem State.releasePorts_pq (s : State) : s.releasePorts.pq = s.pq := rfl
@[simp] theorem State.releasePorts_huf (s : State) : s.releasePorts.huf = s.huf := rfl
@[simp] theorem State.releasePorts_lzw (s : State) : s.releasePorts.lzw = s.lzw := rfl
@[simp] theorem State.releasePorts_phase (s : State) : s.releasePorts.phase = s.phase := rfl
@[simp] theorem State.releasePorts_faultReg (s : State) : s.releasePorts.faultReg = s.faultReg := rfl
@[simp] theorem State.releasePorts_rsp (s : State) : s.releasePorts.rsp = s.rsp := rfl
@[simp] theorem State.releasePorts_cmd (s : State) : s.releasePorts.cmd = s.cmd := rfl
@[simp] theorem State.releasePorts_mem (s : State) : s.releasePorts.mem = s.mem := rfl
@[simp] theorem State.releasePorts_host (s : State) : s.releasePorts.host = s.host := rfl
@[simp] theorem State.releasePorts_params (s : State) : s.releasePorts.params = s.params := rfl
@[simp] theorem State.releasePorts_draws (s : State) : s.releasePorts.draws = s.draws := rfl

/-! ### `State.resetBlock`: the reset values, and what is the environment's -/

@[simp] theorem State.resetBlock_bw (s : State) : s.resetBlock.bw = State.reset.bw := rfl
@[simp] theorem State.resetBlock_br (s : State) : s.resetBlock.br = State.reset.br := rfl
@[simp] theorem State.resetBlock_pq (s : State) : s.resetBlock.pq = State.reset.pq := rfl
@[simp] theorem State.resetBlock_huf (s : State) : s.resetBlock.huf = State.reset.huf := rfl
@[simp] theorem State.resetBlock_lzw (s : State) : s.resetBlock.lzw = State.reset.lzw := rfl
@[simp] theorem State.resetBlock_phase (s : State) : s.resetBlock.phase = State.reset.phase := rfl
@[simp] theorem State.resetBlock_faultReg (s : State) : s.resetBlock.faultReg = State.reset.faultReg := rfl
@[simp] theorem State.resetBlock_rsp (s : State) : s.resetBlock.rsp = State.reset.rsp := rfl
@[simp] theorem State.resetBlock_cmd (s : State) : s.resetBlock.cmd = State.reset.cmd := rfl
@[simp] theorem State.resetBlock_mem (s : State) : s.resetBlock.mem = s.mem := rfl
@[simp] theorem State.resetBlock_answers (s : State) : s.resetBlock.answers = s.releasePorts.answers := rfl
@[simp] theorem State.resetBlock_host (s : State) : s.resetBlock.host = s.host := rfl
@[simp] theorem State.resetBlock_params (s : State) : s.resetBlock.params = s.params := rfl
@[simp] theorem State.resetBlock_draws (s : State) : s.resetBlock.draws = s.draws := rfl

/-! ### `State.faultEntry` (R175) -/

@[simp] theorem State.faultEntry_phase (s : State) (op : Byte) (c : Cause) (e : Bool) : (s.faultEntry op c e).phase = .idle := rfl
@[simp] theorem State.faultEntry_rsp (s : State) (op : Byte) (c : Cause) (e : Bool) : (s.faultEntry op c e).rsp = packRsp c.kind.code (c.info.setWidth 64) := rfl
@[simp] theorem State.faultEntry_cmd (s : State) (op : Byte) (c : Cause) (e : Bool) : (s.faultEntry op c e).cmd = s.cmd := by
  cases e <;> rfl
@[simp] theorem State.faultEntry_mem (s : State) (op : Byte) (c : Cause) (e : Bool) : (s.faultEntry op c e).mem = s.mem := by
  cases e <;> rfl
@[simp] theorem State.faultEntry_host (s : State) (op : Byte) (c : Cause) (e : Bool) : (s.faultEntry op c e).host = s.host := by
  cases e <;> rfl
@[simp] theorem State.faultEntry_params (s : State) (op : Byte) (c : Cause) (e : Bool) : (s.faultEntry op c e).params = s.params := by
  cases e <;> rfl
@[simp] theorem State.faultEntry_faultReg (s : State) (op : Byte) (c : Cause) (e : Bool) : (s.faultEntry op c e).faultReg =
    if s.held then s.faultReg else packFault s.phase.code op c.kind.code c.info := rfl

/-- A precise fault entry (R176): from a block that is not held nothing but `FAULT`, the phase and `RSP` changes. -/
theorem State.faultEntry_precise (s : State) (op : Byte) (c : Cause) (h : s.held = false) :
    s.faultEntry op c false =
      { s with faultReg := packFault s.phase.code op c.kind.code c.info, phase := .idle,
               rsp := packRsp c.kind.code (c.info.setWidth 64) } := by
  simp [State.faultEntry, h]

/-- An execution fault entry closes both channels (R175). -/
theorem State.faultEntry_closes (s : State) (op : Byte) (c : Cause) :
    (s.faultEntry op c true).br.isOpen = false ∧ (s.faultEntry op c true).bw.isOpen = false := ⟨rfl, rfl⟩

end Sys2Proof.Machine
end

