-- ==== Sys2Proof/Laws/Words.lean ====
section
/-! SUPPORT. The fields of the packed words read back: `CMD` (R50), `RSP` (R52), `FAULT` (R26). -/

namespace Sys2Proof

/-- A slice above the low part of a concatenation is a slice of the high part. -/
theorem slice_append {n m : Nat} (x : BitVec n) (y : BitVec m) (i k : Nat) (h : m ≤ i) :
    (x ++ y).extractLsb' i k = x.extractLsb' (i - m) k := by
  apply BitVec.eq_of_getLsbD_eq
  intro j hj
  rw [BitVec.getLsbD_extractLsb', BitVec.getLsbD_extractLsb', BitVec.getLsbD_append, if_neg (by omega)]
  congr 2
  omega

/-- A slice inside the low part of a concatenation is a slice of it. -/
theorem slice_low {n m : Nat} (x : BitVec n) (y : BitVec m) (i k : Nat) (h : i + k ≤ m) :
    (x ++ y).extractLsb' i k = y.extractLsb' i k := by
  apply BitVec.eq_of_getLsbD_eq
  intro j hj
  rw [BitVec.getLsbD_extractLsb', BitVec.getLsbD_extractLsb', BitVec.getLsbD_append, if_pos (by omega)]

theorem slice_whole {n : Nat} (x : BitVec n) : x.extractLsb' 0 n = x := by simp

@[simp] theorem cmdOp_cmdWord (op x : BitVec 8) (y : BitVec 64) : cmdOp (cmdWord op x y) = op := by
  show (op ++ x ++ y).extractLsb' 72 8 = op
  rw [slice_append, slice_append, slice_whole] <;> decide

@[simp] theorem cmdX_cmdWord (op x : BitVec 8) (y : BitVec 64) : cmdX (cmdWord op x y) = x := by
  show (op ++ x ++ y).extractLsb' 64 8 = x
  rw [slice_append, slice_low, slice_whole] <;> decide

@[simp] theorem cmdY_cmdWord (op x : BitVec 8) (y : BitVec 64) : cmdY (cmdWord op x y) = y := by
  show (op ++ x ++ y).extractLsb' 0 64 = y
  rw [slice_low, slice_whole]
  decide

/-- A command word is its three fields. -/
theorem cmdWord_fields (w : CmdWord) : cmdWord (cmdOp w) (cmdX w) (cmdY w) = w := by
  apply BitVec.eq_of_getLsbD_eq
  intro i hi
  show (w.extractLsb' 72 8 ++ w.extractLsb' 64 8 ++ w.extractLsb' 0 64).getLsbD i = w.getLsbD i
  rw [BitVec.getLsbD_append, BitVec.getLsbD_append]
  simp only [BitVec.getLsbD_extractLsb']
  split
  · simp [*]
  · split
    · rw [show 64 + (i - 64) = i by omega, show decide (i - 64 < 8) = true by simp; omega, Bool.true_and]
    · rw [show 72 + (i - 64 - 8) = i by omega, show decide (i - 64 - 8 < 8) = true by simp; omega, Bool.true_and]

/-- The three parts of `HUF.MKNODE`'s `y` field (R102). -/
theorem childFields (upper : BitVec 32) (left right : BitVec 16) :
    (Instr.hufMkNode upper left right).yField.extractLsb' 32 32 = upper ∧
    (Instr.hufMkNode upper left right).yField.extractLsb' 16 16 = left ∧
    (Instr.hufMkNode upper left right).yField.extractLsb' 0 16 = right := by
  refine ⟨?_, ?_, ?_⟩
  · show (upper ++ left ++ right).extractLsb' 32 32 = upper
    rw [slice_append, slice_append, slice_whole] <;> decide
  · show (upper ++ left ++ right).extractLsb' 16 16 = left
    rw [slice_append, slice_low, slice_whole] <;> decide
  · show (upper ++ left ++ right).extractLsb' 0 16 = right
    rw [slice_low, slice_whole]
    decide

namespace Machine

@[simp] theorem rspStatus_packRsp (c : Byte) (r : Wide) : rspStatus (packRsp c r) = c := by
  show (c ++ r).extractLsb' 64 8 = c
  rw [slice_append, slice_whole]
  decide

@[simp] theorem rspValue_packRsp (c : Byte) (r : Wide) : rspValue (packRsp c r) = r := by
  show (c ++ r).extractLsb' 0 64 = r
  rw [slice_low, slice_whole]
  decide

@[simp] theorem faultValid_packFault (p : BitVec 4) (o c i : Byte) : faultValid (packFault p o c i) = true := by
  show (1#1 ++ 0#3 ++ p ++ o ++ c ++ i).getLsbD 31 = true
  repeat rw [BitVec.getLsbD_append]
  rfl

@[simp] theorem faultReserved_packFault (p : BitVec 4) (o c i : Byte) : faultReserved (packFault p o c i) = 0 := by
  show (1#1 ++ 0#3 ++ p ++ o ++ c ++ i).extractLsb' 28 3 = 0
  rw [slice_append, slice_append, slice_append, slice_append, slice_low, slice_whole] <;> decide

@[simp] theorem faultPhase_packFault (p : BitVec 4) (o c i : Byte) : faultPhase (packFault p o c i) = p := by
  show (1#1 ++ 0#3 ++ p ++ o ++ c ++ i).extractLsb' 24 4 = p
  rw [slice_append, slice_append, slice_append, slice_low, slice_whole] <;> decide

@[simp] theorem faultOp_packFault (p : BitVec 4) (o c i : Byte) : faultOp (packFault p o c i) = o := by
  show (1#1 ++ 0#3 ++ p ++ o ++ c ++ i).extractLsb' 16 8 = o
  rw [slice_append, slice_append, slice_low, slice_whole] <;> decide

@[simp] theorem faultCause_packFault (p : BitVec 4) (o c i : Byte) : faultCause (packFault p o c i) = c := by
  show (1#1 ++ 0#3 ++ p ++ o ++ c ++ i).extractLsb' 8 8 = c
  rw [slice_append, slice_low, slice_whole] <;> decide

@[simp] theorem faultInfo_packFault (p : BitVec 4) (o c i : Byte) : faultInfo (packFault p o c i) = i := by
  show (1#1 ++ 0#3 ++ p ++ o ++ c ++ i).extractLsb' 0 8 = i
  rw [slice_low, slice_whole]
  decide

end Machine

end Sys2Proof
end

