-- ==== Sys2Proof/Laws/Ops.lean ====
section
/-! SUPPORT. How the pseudocode form runs, what one port access can do, and relations between states that every
operation keeps: the source's content and the parameters never change, and the source position stays inside the source
(R24, R31). -/

namespace Sys2Proof.Machine

/-! ### Running the pseudocode -/

@[simp] theorem pure_apply {α : Type} (a : α) (s : State) : (pure a : M α) s = .ok a s := rfl

@[simp] theorem bind_apply {α β : Type} (m : M α) (f : α → M β) (s : State) :
    (m >>= f) s = match m s with
      | .ok a t => f a t
      | .error e t => .error e t := by
  show EStateM.bind m f s = _
  unfold EStateM.bind
  cases m s <;> rfl

@[simp] theorem map_apply {α β : Type} (f : α → β) (m : M α) (s : State) :
    (f <$> m) s = match m s with
      | .ok a t => .ok (f a) t
      | .error e t => .error e t := by
  show EStateM.map f m s = _
  unfold EStateM.map
  cases m s <;> rfl

@[simp] theorem look_apply {α : Type} (f : State → α) (s : State) : look f s = .ok (f s) s := rfl

@[simp] theorem change_apply (f : State → State) (s : State) : change f s = .ok () (f s) := rfl

@[simp] theorem raise_apply {α : Type} (k : CauseKind) (i : Byte) (s : State) :
    (raise k i : M α) s = .error (.raise ⟨k, i⟩) s := rfl

@[simp] theorem stuck_apply {α : Type} (f : Fault) (s : State) : (stuck f : M α) s = .error (.stuck f) s := rfl

theorem bind_ok {α β : Type} {m : M α} {f : α → M β} {s t : State} {a : α} (h : m s = .ok a t) :
    (m >>= f) s = f a t := by simp [h]

theorem bind_error {α β : Type} {m : M α} {f : α → M β} {s t : State} {e : Stop} (h : m s = .error e t) :
    (m >>= f) s = .error e t := by simp [h]

/-! ### One port access (R33) -/

theorem portAccess_ok (info : Byte) {s : State} (h : NextAnswerOk s) :
    portAccess info s = .ok () { s with answers := s.answers.tail } := by
  unfold portAccess
  split <;> rename_i ha
  · rw [ha, List.tail_nil, ← ha]
  · rw [ha, List.tail_cons]
  · exact absurd (by rw [ha]; rfl) h

theorem portAccess_fail (info : Byte) {s : State} (h : s.answers.head? = some .ioFail) :
    portAccess info s = .error (.raise ⟨.ioFailure, info⟩) { s with answers := s.answers.tail } := by
  unfold portAccess
  split <;> simp_all

theorem NoIoFail.next {s : State} (h : NoIoFail s) : NextAnswerOk s := by
  unfold NextAnswerOk
  cases ha : s.answers with
  | nil => simp
  | cons a rest => simp [h a (by simp [ha])]

/-- A state whose answers are a tail of those of a state without failures is without failures. -/
theorem NoIoFail.mono {s t : State} (h : NoIoFail s) (ht : t.answers <:+ s.answers) : NoIoFail t :=
  fun a ha => h a (ht.subset ha)

theorem srcNext_eof {s : State} (h : NextAnswerOk s) (hd : s.mem.srcData[s.mem.srcPos]? = none) :
    srcNext s = .ok none { s with answers := s.answers.tail } := by
  simp [srcNext, portAccess_ok _ h, hd]

theorem srcNext_fail {s : State} (h : NextAnswerFails s) :
    srcNext s = .error (.raise ⟨.ioFailure, 2⟩) { s with answers := s.answers.tail } := by
  simp [srcNext, portAccess_fail _ h]

theorem srcNext_byte {s : State} {b : Byte} (h : NextAnswerOk s) (hd : s.mem.srcData[s.mem.srcPos]? = some b) :
    srcNext s = .ok (some b) { s with answers := s.answers.tail, mem := { s.mem with srcPos := s.mem.srcPos + 1 } } := by
  simp [srcNext, portAccess_ok _ h, hd]

theorem sinkPut_ok (b : Byte) {s : State} (h : NextAnswerOk s) :
    sinkPut b s =
      .ok () { s with answers := s.answers.tail, mem := { s.mem with snkData := s.mem.snkData ++ [b] } } := by
  simp [sinkPut, portAccess_ok _ h]

/-! ### Relations every operation keeps -/

/-- Whatever way `m` ends, the state it reaches stands in `R` to the one it began in. -/
def Keeps {α : Type} (R : State → State → Prop) (m : M α) : Prop :=
  ∀ s, match m s with
    | .ok _ t => R s t
    | .error _ t => R s t

theorem Keeps.bind {α β : Type} {R : State → State → Prop} (trans : ∀ {a b c}, R a b → R b c → R a c)
    {m : M α} {f : α → M β} (hm : Keeps R m) (hf : ∀ a, Keeps R (f a)) : Keeps R (m >>= f) := by
  intro s
  have h := hm s
  simp only [bind_apply]
  cases hms : m s with
  | ok a t =>
    rw [hms] at h
    have h' := hf a t
    dsimp only
    cases hft : f a t <;> (rw [hft] at h'; exact trans h h')
  | error e t => rw [hms] at h; exact h

/-- A relation between states that sees only the byte ports and the parameters, and that reading, rewinding and putting a
byte keep. -/
structure EnvRelation (R : State → State → Prop) : Prop where
  trans : ∀ {a b c}, R a b → R b c → R a c
  block : ∀ s t : State, t.mem = s.mem → t.params = s.params → R s t
  rewind : ∀ s : State, R s { s with mem := { s.mem with srcPos := 0 } }
  next : ∀ s : State, s.mem.srcPos < s.mem.srcData.length →
    R s { s with mem := { s.mem with srcPos := s.mem.srcPos + 1 } }
  put : ∀ (s : State) (b : Byte), R s { s with mem := { s.mem with snkData := s.mem.snkData ++ [b] } }

/-- Such a relation that emptying the sink keeps too. -/
structure OpenRelation (R : State → State → Prop) : Prop extends EnvRelation R where
  emptied : ∀ s : State, R s { s with mem := { s.mem with snkData := [] } }

namespace EnvRelation

variable {R : State → State → Prop} (E : EnvRelation R)

include E

theorem refl (s : State) : R s s := E.block s s rfl rfl

theorem bind {α β : Type} {m : M α} {f : α → M β} (hm : Keeps R m) (hf : ∀ a, Keeps R (f a)) : Keeps R (m >>= f) :=
  Keeps.bind (R := R) (fun h₁ h₂ => E.trans h₁ h₂) hm hf

theorem pure {α : Type} (a : α) : Keeps R (pure a : M α) := fun s => E.refl s

theorem look {α : Type} (f : State → α) : Keeps R (look f) := fun s => E.refl s

theorem raise {α : Type} (k : CauseKind) (i : Byte) : Keeps R (raise k i : M α) := fun s => E.refl s

theorem stuck {α : Type} (f : Fault) : Keeps R (stuck f : M α) := fun s => E.refl s

/-- A write of units, phase or draws. -/
theorem change {f : State → State} (hm : ∀ s, (f s).mem = s.mem) (hp : ∀ s, (f s).params = s.params) :
    Keeps R (change f) := fun s => E.block s (f s) (hm s) (hp s)

theorem runIf (p : Bool) {m : M Unit} (hm : Keeps R m) : Keeps R (runIf p m) := by
  unfold Machine.runIf
  split
  · exact hm
  · exact E.pure ()

omit E in
theorem ite {α : Type} {p : Prop} [Decidable p] {a b : M α} (ha : Keeps R a) (hb : Keeps R b) :
    Keeps R (if p then a else b) := by
  split
  · exact ha
  · exact hb

theorem portAccess (info : Byte) : Keeps R (portAccess info) := by
  intro s
  unfold Machine.portAccess
  rcases s.answers with _ | ⟨_ | _, rest⟩
  · exact E.refl s
  · exact E.block s _ rfl rfl
  · exact E.block s _ rfl rfl

theorem srcRewind : Keeps R srcRewind := fun s => E.rewind s

theorem srcNext : Keeps R srcNext := by
  refine E.bind (E.portAccess 2) fun _ => ?_
  intro s
  rcases hd : s.mem.srcData[s.mem.srcPos]? with _ | b
  · simpa [hd] using E.refl s
  · simpa [hd] using E.next s (List.getElem?_eq_some_iff.mp hd).1

theorem sinkPut (b : Byte) : Keeps R (sinkPut b) := E.bind (E.portAccess 4) fun _ => fun s => E.put s b

theorem sinkPutAll (bs : List Byte) : Keeps R (sinkPutAll bs) := by
  induction bs with
  | nil => exact E.pure ()
  | cons b bs ih => exact E.bind (E.sinkPut b) fun _ => ih

theorem forEachSourceByte {f : Byte → M Unit} (hf : ∀ b, Keeps R (f b)) (n : Nat) :
    Keeps R (forEachSourceByte f n) := by
  induction n with
  | zero => exact E.stuck _
  | succ n ih =>
    refine E.bind E.srcNext fun v => ?_
    cases v with
    | none => exact E.pure ()
    | some b => exact E.bind (hf b) fun _ => ih

theorem fetchLookahead : Keeps R fetchLookahead := by
  refine E.bind E.srcNext fun v => ?_
  cases v <;> exact E.change (fun _ => rfl) (fun _ => rfl)

theorem validCount (c : Byte) : Keeps R (validCount c) := ite (E.raise _ _) (E.pure _)

theorem takeLookahead : Keeps R takeLookahead :=
  E.bind (E.look _) fun c => E.bind E.fetchLookahead fun _ => E.bind (E.look _) fun _ =>
    E.bind (ite (E.validCount c) (E.pure _)) fun _ => E.runIf _ (E.change (fun _ => rfl) (fun _ => rfl))

theorem refill : Keeps R refill :=
  E.bind (E.look _) fun _ => E.bind (E.runIf _ E.fetchLookahead) fun _ => E.bind (E.look _) fun _ =>
    E.runIf _ E.takeLookahead

theorem readBit : Keeps R readBit :=
  E.bind (E.look _) fun _ => E.bind (E.runIf _ E.refill) fun _ => E.bind (E.look _) fun _ =>
    ite (E.bind (E.change (fun _ => rfl) (fun _ => rfl)) fun _ => E.pure _) (E.pure _)

theorem readBitsFrom (n g v : Nat) : Keeps R (readBitsFrom n g v) := by
  induction n generalizing g v with
  | zero => exact E.pure _
  | succ n ih =>
    refine E.bind E.readBit fun b => ?_
    cases b with
    | none => exact E.pure _
    | some b => exact ih _ _

theorem readBits (n : Nat) : Keeps R (readBits n) := E.readBitsFrom n 0 0

theorem writeBit (bit : Bool) : Keeps R (writeBit bit) :=
  E.bind (E.change (fun _ => rfl) (fun _ => rfl)) fun _ => E.bind (E.look _) fun w =>
    ite (E.bind (E.sinkPut w.acc) fun _ => E.change (fun _ => rfl) (fun _ => rfl))
      (E.change (fun _ => rfl) (fun _ => rfl))

theorem writeBitList (bs : List Bool) : Keeps R (writeBitList bs) := by
  induction bs with
  | nil => exact E.pure ()
  | cons b bs ih => exact E.bind (E.writeBit b) fun _ => ih

theorem writeBits (n v : Nat) : Keeps R (writeBits n v) := E.writeBitList _

theorem comparator : Keeps R comparator := by
  intro s
  unfold Machine.comparator
  by_cases h : s.pq.cmp = 0
  · rw [if_pos h]
    exact E.refl s
  · rw [if_neg h]
    exact E.refl s

theorem pqInsert (item : Nat) : Keeps R (pqInsert item) :=
  E.bind (E.look _) fun _ => ite
    (E.bind E.comparator fun _ => E.change (fun _ => rfl) (fun _ => rfl)) (E.raise _ _)

theorem pqExtractMin : Keeps R pqExtractMin := by
  refine E.bind (E.look _) fun h => ?_
  cases h with
  | nil => exact E.raise _ _
  | cons m rest => exact E.bind E.comparator fun _ => E.bind (E.change (fun _ => rfl) (fun _ => rfl)) fun _ => E.pure _

theorem allocNode (n : Node) : Keeps R (allocNode n) :=
  E.bind (E.look _) fun _ => E.bind (E.look _) fun _ => ite
    (E.bind (E.change (fun _ => rfl) (fun _ => rfl)) fun _ => E.pure _) (E.raise _ _)

theorem mkLeaf (b : Byte) (w : Nat) : Keeps R (mkLeaf b w) := E.allocNode _

theorem mkNode (l r : Nat) : Keeps R (mkNode l r) :=
  E.bind (E.look _) fun _ => E.bind (E.look _) fun _ => ite (E.allocNode _) (E.raise _ _)

theorem freeWeight : Keeps R freeWeight := fun s => E.block s _ rfl rfl

theorem changeHuf (f : Huffman → Huffman) : Keeps R (changeHuf f) := E.change (fun _ => rfl) (fun _ => rfl)

theorem changeLzw (f : Lzw → Lzw) : Keeps R (changeLzw f) := E.change (fun _ => rfl) (fun _ => rfl)

theorem substep {α : Type} (p : Phase) (checks : State → Checks) {m : M α} (hm : Keeps R m) :
    Keeps R (substep p checks m) := by
  refine E.bind (E.change (fun _ => rfl) (fun _ => rfl)) fun _ => E.bind (E.look _) fun c => ?_
  cases c with
  | none => exact hm
  | some c => exact E.raise _ _

theorem endMacro : Keeps R endMacro := E.bind (E.change (fun _ => rfl) (fun _ => rfl)) fun _ => E.pure _

end EnvRelation

theorem OpenRelation.sinkOpen {R : State → State → Prop} (E : OpenRelation R) : Keeps R sinkOpen :=
  E.bind (E.portAccess 3) fun _ => fun s => E.emptied s

/-! ### The relations kept -/

/-- The source's content and the parameters are the same (R5, R24, R31). -/
def SameSource (s t : State) : Prop := t.mem.srcData = s.mem.srcData ∧ t.params = s.params

theorem sameSource_open : OpenRelation SameSource where
  trans h₁ h₂ := ⟨h₂.1.trans h₁.1, h₂.2.trans h₁.2⟩
  block _ _ hm hp := ⟨by rw [hm], hp⟩
  rewind _ := ⟨rfl, rfl⟩
  next _ _ := ⟨rfl, rfl⟩
  put _ _ := ⟨rfl, rfl⟩
  emptied _ := ⟨rfl, rfl⟩

/-- The port memory's form is kept (R24): if the source position was inside the source, it still is. -/
def KeepsWf (s t : State) : Prop := s.mem.wf = true → t.mem.wf = true

theorem keepsWf_open : OpenRelation KeepsWf where
  trans h₁ h₂ := fun h => h₂ (h₁ h)
  block _ _ hm _ := fun h => by rw [hm]; exact h
  rewind _ := fun _ => by simp [Memory.wf]
  next _ hlt := fun _ => by simpa [Memory.wf] using hlt
  put _ _ := fun h => h
  emptied _ := fun h => h

/-- The sink only grows (R32). -/
def SinkGrows (s t : State) : Prop := s.mem.snkData <+: t.mem.snkData

theorem sinkGrows_env : EnvRelation SinkGrows where
  trans h₁ h₂ := h₁.trans h₂
  block _ _ hm _ := by simp [SinkGrows, hm]
  rewind _ := List.prefix_refl _
  next _ _ := List.prefix_refl _
  put s b := List.prefix_append _ _

/-- The empty port memory of reset has the form. -/
theorem reset_mem_wf : State.reset.mem.wf = true := by decide

end Sys2Proof.Machine
end

