-- ==== Sys2Proof/Laws/Channel.lean ====
section
/-! SUPPORT. What one bit of reading and one bit of writing do (R71 to R74, R79, R80), said once: reading delivers the
valid bits in order and then end-of-stream or the fault of a final `0xFF`; writing appends to the bits written. -/

namespace Sys2Proof.Machine

/-! ### The reader -/

/-- All that reading may change: the reader's registers, the source position, the environment's answers. -/
def ReaderFrame (s t : State) : Prop :=
  t = { s with br := { t.br with isOpen := s.br.isOpen }, mem := { s.mem with srcPos := t.mem.srcPos },
               answers := t.answers } ∧ t.answers <:+ s.answers

theorem ReaderFrame.refl (s : State) : ReaderFrame s s := ⟨rfl, List.suffix_refl _⟩

theorem ReaderFrame.trans {s t u : State} (h₁ : ReaderFrame s t) (h₂ : ReaderFrame t u) : ReaderFrame s u := by
  obtain ⟨h₁, a₁⟩ := h₁
  obtain ⟨h₂, a₂⟩ := h₂
  refine ⟨?_, a₂.trans a₁⟩
  rw [h₂]
  rw [h₁]

theorem trailingOnes_le (c : Byte) : trailingOnes c ≤ 8 := by
  simpa [trailingOnes] using (List.takeWhile_sublist (l := List.range 8) c.getLsbD).length_le

/-- Only `0xFF` has no `0` bit (R72). -/
theorem trailingOnes_eq_eight (c : Byte) : trailingOnes c = 8 ↔ c = 0xFF#8 := by
  revert c
  decide +kernel

theorem drop_of_getElem? {α : Type} {l : List α} {i : Nat} {b : α} (h : l[i]? = some b) :
    l.drop i = b :: l.drop (i + 1) := by
  obtain ⟨hi, rfl⟩ := List.getElem?_eq_some_iff.mp h
  exact List.drop_eq_getElem_cons hi

theorem drop_of_getElem?_none {α : Type} {l : List α} {i : Nat} (h : l[i]? = none) : l.drop i = [] :=
  List.drop_eq_nil_of_le (List.getElem?_eq_none_iff.mp h)

/-- What a refill leaves (R71): the bits still to read are the same, and a byte is at hand exactly when there is a bit;
or the last byte is `0xFF` and the reader faults (R72). -/
structure Refilled (s : State) (r : EStateM.Result Stop State Unit) : Prop where
  ok : s.readEndsCorrupt = false ∨ s.bitsToRead ≠ [] →
    ∃ t, r = .ok () t ∧ ReaderFrame s t ∧ CursorInv t.br ∧ t.bitsToRead = s.bitsToRead ∧
      t.readEndsCorrupt = s.readEndsCorrupt ∧ (t.br.hasBits = true ↔ s.bitsToRead ≠ []) ∧
      (t.br.hasBits = false → t.br.laSt = .eof)
  corrupt : s.readEndsCorrupt = true → s.bitsToRead = [] →
    ∃ t, r = .error (.raise ⟨.malformedInput, 7⟩) t ∧ ReaderFrame s t

theorem fetch_eof {s : State} (h : NextAnswerOk s) (hd : s.mem.srcData[s.mem.srcPos]? = none) :
    fetchLookahead s = .ok () { s with answers := s.answers.tail, br := { s.br with laSt := .eof } } := by
  simp [fetchLookahead, srcNext_eof h hd]

theorem fetch_byte {s : State} {b : Byte} (h : NextAnswerOk s) (hd : s.mem.srcData[s.mem.srcPos]? = some b) :
    fetchLookahead s = .ok () { s with answers := s.answers.tail, mem := { s.mem with srcPos := s.mem.srcPos + 1 },
                                       br := { s.br with la := b, laSt := .byte } } := by
  simp [fetchLookahead, srcNext_byte h hd]

/-- A fetch that fails (R33, R162): nothing is fetched. -/
theorem fetch_fail {s : State} (h : NextAnswerFails s) :
    fetchLookahead s = .error (.raise ⟨.ioFailure, 2⟩) { s with answers := s.answers.tail } := by
  simp [fetchLookahead, srcNext_fail h]

theorem lastByteBits_nil (c : Byte) : lastByteBits c = [] ↔ 7 ≤ trailingOnes c := by
  rw [lastByteBits, ← List.length_eq_zero_iff]
  simp
  omega

/-- A refill from a lookahead byte (R71). -/
theorem takeLookahead_refills {s : State} (hn : NextAnswerOk s) (hb : s.br.laSt = .byte)
    (hc : s.br.hasBits = false) (hp : s.br.pos = 0) : Refilled s (takeLookahead s) := by
  rcases hd : s.mem.srcData[s.mem.srcPos]? with _ | b
  · -- the lookahead byte is the last
    have hdrop := drop_of_getElem?_none hd
    have hbits : s.bitsToRead = lastByteBits s.br.la := by
      simp [State.bitsToRead, hc, hb, hdrop, validBits]
    have hcor : s.readEndsCorrupt = (s.br.la == 0xFF#8) := by
      simp [State.readEndsCorrupt, hb, hdrop, endsCorrupt]
    by_cases ht : trailingOnes s.br.la = 8
    · have hff := (trailingOnes_eq_eight _).mp ht
      constructor
      · intro h
        rw [hcor, hbits] at h
        rcases h with h | h
        · rw [hff] at h
          exact absurd h (by decide)
        · exact absurd ((lastByteBits_nil _).mpr (by omega)) h
      · intro _ _
        refine ⟨{ s with answers := s.answers.tail, br := { s.br with laSt := .eof } }, ?_, rfl, List.tail_suffix _⟩
        simp [takeLookahead, fetch_eof hn hd, limitOf, validCount, ht]
    · have hle := trailingOnes_le s.br.la
      have hnff : (s.br.la == 0xFF#8) = false := by
        rw [beq_eq_false_iff_ne]
        exact fun h => ht ((trailingOnes_eq_eight _).mpr h)
      constructor
      · intro _
        by_cases h7 : trailingOnes s.br.la = 7
        · refine ⟨{ s with answers := s.answers.tail, br := { s.br with laSt := .eof } }, ?_, ⟨rfl, List.tail_suffix _⟩,
            ?_, ?_, ?_, ?_, ?_⟩
          · simp [takeLookahead, fetch_eof hn hd, limitOf, validCount, h7, runIf]
          · simp [CursorInv, hc, hp]
          · rw [hbits, (lastByteBits_nil _).mpr (by omega)]
            simp [State.bitsToRead, hc]
          · rw [hcor, hnff]
            rfl
          · rw [hbits, (lastByteBits_nil _).mpr (by omega)]
            simp [hc]
          · intro _
            rfl
        · have hlim : (BitVec.ofNat 4 (7 - trailingOnes s.br.la)).toNat = 7 - trailingOnes s.br.la := by
            rw [BitVec.toNat_ofNat]
            omega
          refine ⟨{ s with answers := s.answers.tail,
                           br := { s.br with laSt := .eof, cur := s.br.la, pos := 0, hasBits := true,
                                             lim := BitVec.ofNat 4 (7 - trailingOnes s.br.la) } },
            ?_, ⟨rfl, List.tail_suffix _⟩, ?_, ?_, ?_, ?_, ?_⟩
          · have hne : ¬ 7 - trailingOnes s.br.la = 0 := by omega
            simp [takeLookahead, fetch_eof hn hd, limitOf, validCount, ht, runIf, hne]
          · simp only [CursorInv, hlim]
            refine ⟨fun _ => ⟨?_, by omega⟩, by simp⟩
            simp
            omega
          · rw [hbits]
            simp only [State.bitsToRead, hlim, lastByteBits]
            simp
          · rw [hcor, hnff]
            rfl
          · rw [hbits, ne_eq, lastByteBits_nil]
            simp
            omega
          · simp
      · intro h _
        rw [hcor, hnff] at h
        exact absurd h (by decide)
  · -- an interior byte
    have hdrop := drop_of_getElem? hd
    have hbits : s.bitsToRead = byteBits s.br.la ++ validBits (b :: s.mem.srcData.drop (s.mem.srcPos + 1)) := by
      simp [State.bitsToRead, hc, hb, hdrop, validBits]
    have hne : s.bitsToRead ≠ [] := by
      rw [hbits]
      intro h
      have := congrArg List.length (List.append_eq_nil_iff.mp h).1
      simp at this
    have hcor : s.readEndsCorrupt = endsCorrupt (b :: s.mem.srcData.drop (s.mem.srcPos + 1)) := by
      simp [State.readEndsCorrupt, hb, hdrop, endsCorrupt]
    constructor
    · intro _
      refine ⟨{ s with answers := s.answers.tail, mem := { s.mem with srcPos := s.mem.srcPos + 1 },
                       br := { s.br with la := b, laSt := .byte, cur := s.br.la, pos := 0, hasBits := true,
                                         lim := 8 } }, ?_, ⟨rfl, List.tail_suffix _⟩, ?_, ?_, ?_, ?_, ?_⟩
      · simp [takeLookahead, fetch_byte hn hd, limitOf, runIf]
      · simp [CursorInv]
      · rw [hbits]
        simp only [State.bitsToRead]
        simp [List.take_of_length_le]
      · rw [hcor]
        rfl
      · simp [hne]
      · simp
    · intro _ h
      exact absurd h hne

/-- A refill (R71). -/
theorem refill_refills {s : State} (hn : NoIoFail s) (hcur : CursorInv s.br) (hc : s.br.hasBits = false) :
    Refilled s (refill s) := by
  have hp := hcur.2 hc
  cases hb : s.br.laSt with
  | byte =>
    have : refill s = takeLookahead s := by simp [refill, hb, runIf]
    rw [this]
    exact takeLookahead_refills hn.next hb hc hp
  | eof =>
    have hr : refill s = .ok () s := by simp [refill, hb, runIf]
    rw [hr]
    have hbits : s.bitsToRead = [] := by simp [State.bitsToRead, hc, hb]
    have hcor : s.readEndsCorrupt = false := by simp [State.readEndsCorrupt, hb]
    refine ⟨fun _ => ⟨s, rfl, ReaderFrame.refl s, hcur, rfl, rfl, ?_, fun _ => hb⟩, fun h _ => ?_⟩
    · simp [hc, hbits]
    · rw [hcor] at h
      exact absurd h (by decide)
  | none =>
    rcases hd : s.mem.srcData[s.mem.srcPos]? with _ | b
    · -- an empty source
      have hdrop := drop_of_getElem?_none hd
      have hbits : s.bitsToRead = [] := by simp [State.bitsToRead, hc, hb, hdrop, validBits]
      have hcor : s.readEndsCorrupt = false := by simp [State.readEndsCorrupt, hb, hdrop, endsCorrupt]
      refine ⟨fun _ => ⟨{ s with answers := s.answers.tail, br := { s.br with laSt := .eof } }, ?_,
        ⟨rfl, List.tail_suffix _⟩, hcur, ?_, ?_, ?_, fun _ => rfl⟩, fun h _ => ?_⟩
      · simp [refill, hb, runIf, fetch_eof hn.next hd]
      · rw [hbits]
        simp [State.bitsToRead, hc]
      · rw [hcor]
        rfl
      · simp [hc, hbits]
      · rw [hcor] at h
        exact absurd h (by decide)
    · -- the first byte becomes the lookahead
      have hdrop := drop_of_getElem? hd
      let u : State := { s with answers := s.answers.tail, mem := { s.mem with srcPos := s.mem.srcPos + 1 },
                                br := { s.br with la := b, laSt := .byte } }
      have hu : refill s = takeLookahead u := by
        simp [refill, hb, runIf, fetch_byte hn.next hd, u]
      have hfr : ReaderFrame s u := ⟨rfl, List.tail_suffix _⟩
      have hbits : u.bitsToRead = s.bitsToRead := by
        simp [State.bitsToRead, hc, hb, hdrop, u]
      have hcor : u.readEndsCorrupt = s.readEndsCorrupt := by
        simp [State.readEndsCorrupt, hb, hdrop, u]
      have h := takeLookahead_refills (s := u) (hn.mono hfr.2).next rfl hc hp
      rw [hu]
      constructor
      · intro hh
        obtain ⟨t, h₁, h₂, h₃, h₄, h₅, h₆, h₇⟩ := h.ok (by rw [hcor, hbits]; exact hh)
        exact ⟨t, h₁, hfr.trans h₂, h₃, h₄.trans hbits, h₅.trans hcor, by rw [← hbits]; exact h₆, h₇⟩
      · intro h₁ h₂
        obtain ⟨t, h₃, h₄⟩ := h.corrupt (hcor.trans h₁) (hbits.trans h₂)
        exact ⟨t, h₃, hfr.trans h₄⟩

/-- The register update after a bit (R73): the bits to read lose their first. -/
theorem advance_bits {s : State} (hcur : CursorInv s.br) (hh : s.br.hasBits = true) :
    s.bitsToRead = s.br.bit :: ({ s with br := s.br.advance } : State).bitsToRead ∧
    CursorInv s.br.advance ∧ s.br.advance.laSt = s.br.laSt ∧ s.br.advance.la = s.br.la ∧
    s.br.advance.isOpen = s.br.isOpen := by
  obtain ⟨hlt, hle⟩ := hcur.1 hh
  have hb := byteBits_drop s.br.cur hlt hle
  unfold BitReader.advance
  split
  · rename_i heq
    refine ⟨?_, by simp [CursorInv], rfl, rfl, rfl⟩
    have hnil : ((byteBits s.br.cur).take s.br.lim.toNat).drop (s.br.pos.toNat + 1) = [] := by
      rw [heq]
      simp
    simp only [State.bitsToRead, hh, if_true, hb, hnil]
    simp [BitReader.bit]
  · rename_i hne
    have hpos : (s.br.pos + 1).toNat = s.br.pos.toNat + 1 := by
      rw [BitVec.toNat_add]
      simp
      omega
    refine ⟨?_, ⟨fun _ => ⟨?_, hle⟩, fun h => ?_⟩, rfl, rfl, rfl⟩
    · simp only [State.bitsToRead, hh, if_true, hb, hpos]
      simp [BitReader.bit]
    · simp only [hpos]
      omega
    · exact absurd (hh.symm.trans h) (by decide)

/-- `ReadBit()` (R73, R76) from a reader whose cursor is right, with no port access failing: the next valid bit; or
end-of-stream; or the fault of a final `0xFF`. -/
theorem readBit_spec {s : State} (hn : NoIoFail s) (hcur : CursorInv s.br) :
    match s.bitsToRead with
    | b :: rest => ∃ t, readBit s = .ok (some b) t ∧ ReaderFrame s t ∧ CursorInv t.br ∧ t.bitsToRead = rest ∧
        t.readEndsCorrupt = s.readEndsCorrupt
    | [] =>
      if s.readEndsCorrupt then ∃ t, readBit s = .error (.raise ⟨.malformedInput, 7⟩) t ∧ ReaderFrame s t
      else ∃ t, readBit s = .ok none t ∧ ReaderFrame s t ∧ CursorInv t.br ∧ t.bitsToRead = [] ∧
        t.readEndsCorrupt = false ∧ t.br.hasBits = false ∧ t.br.laSt = .eof := by
  by_cases hh : s.br.hasBits = true
  · obtain ⟨hbits, hc', hla, hla', ho⟩ := advance_bits hcur hh
    rw [hbits]
    refine ⟨{ s with br := s.br.advance }, ?_, ⟨?_, List.suffix_refl _⟩, hc', rfl, ?_⟩
    · simp [readBit, hh, runIf]
    · simp [← ho]
    · simp [State.readEndsCorrupt, hla, hla']
  · have hh' : s.br.hasBits = false := by simpa using hh
    have hr := refill_refills hn hcur hh'
    have hread : ∀ t, refill s = .ok () t → readBit s =
        if t.br.hasBits then .ok (some t.br.bit) { t with br := t.br.advance } else .ok none t := by
      intro t ht
      simp only [readBit, bind_apply, look_apply, hh', runIf, Bool.not_false, if_true, ht]
      split <;> simp_all
    cases hb : s.bitsToRead with
    | nil =>
      dsimp only
      split
      · rename_i hcor
        obtain ⟨t, ht, hf⟩ := hr.corrupt hcor hb
        exact ⟨t, by simp [readBit, hh', runIf, ht], hf⟩
      · rename_i hcor
        have hcor' : s.readEndsCorrupt = false := by simpa using hcor
        obtain ⟨t, ht, hf, hc, hbt, hct, hiff, heof⟩ := hr.ok (.inl hcor')
        have hnone : t.br.hasBits = false := by
          rcases h : t.br.hasBits with _ | _
          · rfl
          · exact absurd hb (hiff.mp h)
        refine ⟨t, ?_, hf, hc, hbt.trans hb, hct.trans hcor', hnone, heof hnone⟩
        rw [hread t ht, hnone]
        rfl
    | cons b rest =>
      dsimp only
      obtain ⟨t, ht, hf, hc, hbt, hct, hiff, -⟩ := hr.ok (.inr (by rw [hb]; exact List.cons_ne_nil _ _))
      have hsome : t.br.hasBits = true := hiff.mpr (by rw [hb]; exact List.cons_ne_nil _ _)
      obtain ⟨hbits, hc', hla, hla', ho⟩ := advance_bits hc hsome
      rw [hbt, hb] at hbits
      obtain ⟨h₁, h₂⟩ := List.cons_eq_cons.mp hbits
      refine ⟨{ t with br := t.br.advance }, ?_, hf.trans ⟨?_, List.suffix_refl _⟩, hc', h₂.symm, ?_⟩
      · rw [hread t ht, hsome, if_pos rfl, h₁]
      · simp [← ho]
      · rw [← hct]
        simp [State.readEndsCorrupt, hla, hla']

/-- `ReadBits` (R74, R76): the value of the next `n` valid bits; or, when fewer remain, end-of-stream with their count, or
the fault of a final `0xFF`. -/
theorem readBitsFrom_spec (n : Nat) {s : State} (g v : Nat) (hn : NoIoFail s) (hcur : CursorInv s.br) :
    (n ≤ s.bitsToRead.length → ∃ t, readBitsFrom n g v s = .ok (.value ((s.bitsToRead.take n).foldl shiftIn v)) t ∧
      ReaderFrame s t ∧ CursorInv t.br ∧ t.bitsToRead = s.bitsToRead.drop n ∧
      t.readEndsCorrupt = s.readEndsCorrupt) ∧
    (s.bitsToRead.length < n → s.readEndsCorrupt = false →
      ∃ t, readBitsFrom n g v s = .ok (.eos (g + s.bitsToRead.length)) t ∧
      ReaderFrame s t ∧ CursorInv t.br ∧ t.bitsToRead = [] ∧ t.readEndsCorrupt = false ∧
      t.br.hasBits = false ∧ t.br.laSt = .eof) ∧
    (s.bitsToRead.length < n → s.readEndsCorrupt = true →
      ∃ t, readBitsFrom n g v s = .error (.raise ⟨.malformedInput, 7⟩) t ∧ ReaderFrame s t) := by
  induction n generalizing s g v with
  | zero =>
    refine ⟨fun _ => ⟨s, by simp [readBitsFrom], ReaderFrame.refl s, hcur, by simp, rfl⟩, ?_, ?_⟩ <;>
      exact fun h => absurd h (by omega)
  | succ n ih =>
    have hr := readBit_spec hn hcur
    cases hb : s.bitsToRead with
    | nil =>
      rw [hb] at hr
      refine ⟨fun h => absurd h (by simp), fun _ hc => ?_, fun _ hc => ?_⟩
      · simp only [hc, Bool.false_eq_true, if_false] at hr
        obtain ⟨t, ht, hf, hcur', hbt, hct, hh, hl⟩ := hr
        exact ⟨t, by simp [readBitsFrom, ht], hf, hcur', hbt, hct, hh, hl⟩
      · simp only [hc, if_true] at hr
        obtain ⟨t, ht, hf⟩ := hr
        exact ⟨t, by simp [readBitsFrom, ht], hf⟩
    | cons b rest =>
      rw [hb] at hr
      obtain ⟨u, hu, hf, hcur', hbu, hcu⟩ := hr
      have hstep : readBitsFrom (n + 1) g v s = readBitsFrom n (g + 1) (shiftIn v b) u := by
        simp [readBitsFrom, hu]
      obtain ⟨h₁, h₂, h₃⟩ := ih (g + 1) (shiftIn v b) (hn.mono hf.2) hcur'
      rw [hbu, hcu] at h₁ h₂
      rw [hbu, hcu] at h₃
      rw [hstep]
      refine ⟨fun h => ?_, fun h hc => ?_, fun h hc => ?_⟩
      · obtain ⟨t, ht, hft, hct, hbt, hcc⟩ := h₁ (by simpa using h)
        exact ⟨t, by simpa using ht, hf.trans hft, hct, by simpa using hbt, hcc⟩
      · obtain ⟨t, ht, hft, rest'⟩ := h₂ (by simpa using h) hc
        exact ⟨t, by rw [ht, List.length_cons]; congr 2; omega, hf.trans hft, rest'⟩
      · obtain ⟨t, ht, hft⟩ := h₃ (by simpa using h) hc
        exact ⟨t, ht, hf.trans hft⟩

/-- `ReadBits(n)` from the start (R35, R74): the value is `val` of the next `n` bits. -/
theorem readBits_value {n : Nat} {s : State} (hn : NoIoFail s) (hcur : CursorInv s.br)
    (h : n ≤ s.bitsToRead.length) :
    ∃ t, readBits n s = .ok (.value (val (s.bitsToRead.take n))) t ∧ ReaderFrame s t ∧ CursorInv t.br ∧
      t.bitsToRead = s.bitsToRead.drop n ∧ t.readEndsCorrupt = s.readEndsCorrupt :=
  (readBitsFrom_spec n 0 0 hn hcur).1 h

theorem readBits_eos {n : Nat} {s : State} (hn : NoIoFail s) (hcur : CursorInv s.br)
    (h : s.bitsToRead.length < n) (hc : s.readEndsCorrupt = false) :
    ∃ t, readBits n s = .ok (.eos s.bitsToRead.length) t ∧ ReaderFrame s t ∧ CursorInv t.br ∧ t.bitsToRead = [] ∧
      t.readEndsCorrupt = false ∧ t.br.hasBits = false ∧ t.br.laSt = .eof := by
  simpa [readBits] using (readBitsFrom_spec n 0 0 hn hcur).2.1 h hc

theorem readBits_corrupt {n : Nat} {s : State} (hn : NoIoFail s) (hcur : CursorInv s.br)
    (h : s.bitsToRead.length < n) (hc : s.readEndsCorrupt = true) :
    ∃ t, readBits n s = .error (.raise ⟨.malformedInput, 7⟩) t ∧ ReaderFrame s t :=
  (readBitsFrom_spec n 0 0 hn hcur).2.2 h hc

/-! ### The writer -/

/-- All that writing bits may change: the writer's accumulator and cursor, the sink's content, the environment's
answers. -/
def WriterFrame (s t : State) : Prop :=
  t = { s with bw := { t.bw with isOpen := s.bw.isOpen }, mem := { s.mem with snkData := t.mem.snkData },
               answers := t.answers } ∧ t.answers <:+ s.answers

theorem WriterFrame.refl (s : State) : WriterFrame s s := ⟨rfl, List.suffix_refl _⟩

theorem WriterFrame.trans {s t u : State} (h₁ : WriterFrame s t) (h₂ : WriterFrame t u) : WriterFrame s u := by
  obtain ⟨h₁, a₁⟩ := h₁
  obtain ⟨h₂, a₂⟩ := h₂
  refine ⟨?_, a₂.trans a₁⟩
  rw [h₂]
  rw [h₁]

/-- The accumulator holds the pending bits and nothing above them (R11, R12). -/
def AccInv (w : BitWriter) : Prop := w.acc.toNat < 2 ^ w.k.toNat

theorem streamBits_append (a b : List Byte) : streamBits (a ++ b) = streamBits a ++ streamBits b :=
  List.flatMap_append

/-- `WriteBit(bit)` (R79) with no port access failing: the bit follows the bits written before. -/
theorem writeBit_spec (b : Bool) {s : State} (hn : NoIoFail s) (hw : AccInv s.bw) :
    ∃ t, writeBit b s = .ok () t ∧ WriterFrame s t ∧ AccInv t.bw ∧ t.bitsWritten = s.bitsWritten ++ [b] := by
  have hk := s.bw.k.isLt
  have hacc := bitsOf_accWith s.bw.acc b s.bw.k.toNat (by omega)
  by_cases h7 : s.bw.k = 7
  · refine ⟨{ s with bw := { s.bw with acc := 0, k := 0 }, answers := s.answers.tail,
                     mem := { s.mem with snkData := s.mem.snkData ++ [accWith s.bw.acc b] } },
      ?_, ⟨rfl, List.tail_suffix _⟩, ?_, ?_⟩
    · have hs : NextAnswerOk { s with bw := { s.bw with acc := accWith s.bw.acc b } } := hn.next
      simp only [writeBit, bind_apply, change_apply, look_apply, h7, if_true]
      rw [sinkPut_ok _ (by exact hs)]
    · simp [AccInv]
    · rw [h7] at hacc
      have h8 : byteBits (accWith s.bw.acc b) = bitsOf 7 s.bw.acc.toNat ++ [b] := hacc
      simp only [State.bitsWritten, BitWriter.pending, streamBits_append, h7]
      simp [streamBits, h8, bitsOf]
  · have hlt : s.bw.k.toNat < 7 := by
      have : s.bw.k.toNat ≠ 7 := fun h => h7 (BitVec.eq_of_toNat_eq h)
      omega
    have hk1 : (s.bw.k + 1).toNat = s.bw.k.toNat + 1 := by
      rw [BitVec.toNat_add]
      simp
      omega
    refine ⟨{ s with bw := { s.bw with acc := accWith s.bw.acc b, k := s.bw.k + 1 } }, ?_,
      ⟨rfl, List.suffix_refl _⟩, ?_, ?_⟩
    · simp only [writeBit, bind_apply, change_apply, look_apply, h7, if_false]
    · simp only [AccInv, hk1]
      exact accWith_lt _ _ _ hw
    · simp only [State.bitsWritten, BitWriter.pending, hk1, hacc]
      simp

/-- Writing a list of bits (R80). -/
theorem writeBitList_spec (bs : List Bool) {s : State} (hn : NoIoFail s) (hw : AccInv s.bw) :
    ∃ t, writeBitList bs s = .ok () t ∧ WriterFrame s t ∧ AccInv t.bw ∧ t.bitsWritten = s.bitsWritten ++ bs := by
  induction bs generalizing s with
  | nil => exact ⟨s, rfl, WriterFrame.refl s, hw, by simp⟩
  | cons b bs ih =>
    obtain ⟨t, ht, hf, hwt, hbt⟩ := writeBit_spec b hn hw
    obtain ⟨u, hu, hf', hwu, hbu⟩ := ih (hn.mono hf.2) hwt
    exact ⟨u, by simp [writeBitList, ht, hu], hf.trans hf', hwu, by rw [hbu, hbt]; simp⟩

/-- `WriteBits(n, value)` appends `bits_n(value)` (R35, R80). -/
theorem writeBits_spec (n value : Nat) {s : State} (hn : NoIoFail s) (hw : AccInv s.bw) :
    ∃ t, writeBits n value s = .ok () t ∧ WriterFrame s t ∧ AccInv t.bw ∧
      t.bitsWritten = s.bitsWritten ++ bitsOf n value :=
  writeBitList_spec (bitsOf n value) hn hw

/-- Putting bytes to the sink (R32). -/
theorem sinkPutAll_ok (bs : List Byte) {s : State} (hn : NoIoFail s) :
    sinkPutAll bs s = .ok () { s with answers := s.answers.drop bs.length,
                                      mem := { s.mem with snkData := s.mem.snkData ++ bs } } := by
  induction bs generalizing s with
  | nil => simp [sinkPutAll]
  | cons b bs ih =>
    have hn' : NoIoFail { s with answers := s.answers.tail,
                                 mem := { s.mem with snkData := s.mem.snkData ++ [b] } } :=
      hn.mono (List.tail_suffix _)
    simp only [sinkPutAll, bind_apply, sinkPut_ok b hn.next]
    rw [ih hn']
    simp [← List.drop_one, List.drop_drop, Nat.add_comm]

end Sys2Proof.Machine
end

