-- ==== Sys2Proof/Laws/Commands.lean ====
section
/-! SUPPORT. The command cycle (R152) said once: the four ways a command other than `SYS.RESET` and `SYS.STATUS` ends,
from what its preconditions and its pseudocode answer. -/

namespace Sys2Proof.Machine

variable {op : Byte} {checks : State → Checks} {body : M Response} {s : State}

/-- Step 1 of R152 (R170). -/
theorem command_held (h : s.held = true) : command op checks body s = .next (s.respond faultedCode 0) := by
  simp [command, h]

/-- Step 4 of R152: the first precondition that fails (R174). -/
theorem command_refused {c : Cause} (h : s.held = false) (hc : firstFailed (checks s) = some c) :
    command op checks body s = .next (s.faultEntry op c false) := by
  simp [command, h, runCommand, hc]

/-- Steps 5 and 6 of R152: `return (S, v)`. -/
theorem command_returns {v : Response} {t : State} (h : s.held = false) (hc : firstFailed (checks s) = none)
    (hb : body s = .ok v t) : command op checks body s = .next (t.respond v.status.code v.value) := by
  simp [command, h, runCommand, hc, hb]

/-- Steps 5 and 6 of R152: `raise F(info)`. -/
theorem command_raises {c : Cause} {t : State} (h : s.held = false) (hc : firstFailed (checks s) = none)
    (hb : body s = .error (.raise c) t) : command op checks body s = .next (t.faultEntry op c true) := by
  simp [command, h, runCommand, hc, hb]

@[simp] theorem firstFailed_nil : firstFailed [] = none := rfl

theorem firstFailed_cons (p : Bool) (c : Cause) (rest : Checks) :
    firstFailed ((p, c) :: rest) = if p then firstFailed rest else some c := rfl

/-- No precondition fails exactly when all hold. -/
theorem firstFailed_eq_none (cs : Checks) : firstFailed cs = none ↔ ∀ c ∈ cs, c.1 = true := by
  induction cs with
  | nil => simp
  | cons c cs ih =>
    rw [firstFailed_cons]
    split <;> simp_all

end Sys2Proof.Machine
end

