-- ==== Sys2Proof/Laws/PerInstr.lean ====
section
/-! SUPPORT. Per-command laws over the syntax: the word each command encodes to carries its opcode and its operands in the
fields the opcode map gives them (R50, R54), so encoding loses no operand. -/

namespace Sys2Proof.Laws.EncodeFields

/-- The three fields of the encoded word are the row's. -/
def Statement (i : Instr) : Prop :=
  cmdOp (encode i) = i.opcode ∧ cmdX (encode i) = i.xField ∧ cmdY (encode i) = i.yField

theorem fields (i : Instr) : Statement i :=
  ⟨cmdOp_cmdWord _ _ _, cmdX_cmdWord _ _ _, cmdY_cmdWord _ _ _⟩

theorem brOpen : Statement .brOpen := fields _

theorem brReadBit : Statement .brReadBit := fields _

theorem brReadBits (n : BitVec 8) : Statement (.brReadBits n) := fields _

theorem brClose : Statement .brClose := fields _

theorem bwOpen : Statement .bwOpen := fields _

theorem bwWriteBit (bit : BitVec 8) : Statement (.bwWriteBit bit) := fields _

theorem bwWriteBits (n : BitVec 8) (value : BitVec 64) : Statement (.bwWriteBits n value) := fields _

theorem bwClose : Statement .bwClose := fields _

theorem pqCreate (cmp : BitVec 8) : Statement (.pqCreate cmp) := fields _

theorem pqInsert (item : BitVec 64) : Statement (.pqInsert item) := fields _

theorem pqExtractMin : Statement .pqExtractMin := fields _

theorem pqSize : Statement .pqSize := fields _

theorem pqIsEmpty : Statement .pqIsEmpty := fields _

theorem hufCount : Statement .hufCount := fields _

theorem hufMkLeaf (byte : BitVec 8) (weight : BitVec 64) : Statement (.hufMkLeaf byte weight) := fields _

theorem hufMkNode (upper : BitVec 32) (left right : BitVec 16) : Statement (.hufMkNode upper left right) := fields _

theorem hufBuild : Statement .hufBuild := fields _

theorem hufDerive : Statement .hufDerive := fields _

theorem hufSerialize : Statement .hufSerialize := fields _

theorem hufEncode : Statement .hufEncode := fields _

theorem hufDeserialize : Statement .hufDeserialize := fields _

theorem hufDecode : Statement .hufDecode := fields _

theorem hufCompress : Statement .hufCompress := fields _

theorem hufDecompress : Statement .hufDecompress := fields _

theorem lzwEncReset : Statement .lzwEncReset := fields _

theorem lzwEncByte (byte : BitVec 64) : Statement (.lzwEncByte byte) := fields _

theorem lzwEncFlush : Statement .lzwEncFlush := fields _

theorem lzwDecReset : Statement .lzwDecReset := fields _

theorem lzwDecCode : Statement .lzwDecCode := fields _

theorem lzwCompress : Statement .lzwCompress := fields _

theorem lzwDecompress : Statement .lzwDecompress := fields _

theorem sysReset : Statement .sysReset := fields _

theorem sysStatus : Statement .sysStatus := fields _

end Sys2Proof.Laws.EncodeFields
end

