-- ==== Sys2Proof/Laws/Queue.lean ====
section
/-! SUPPORT. What the heap operations of R92 and R93 do to the array as a collection: they rearrange the elements, and
keep their number; and what `PqInsert` and `PqExtractMin` answer. -/

namespace Sys2Proof.Machine

theorem swapAt_perm {h : List Nat} {i j : Nat} (hi : i < h.length) (hj : j < h.length) : (swapAt h i j).Perm h := by
  have hgi : h.getD i 0 = h[i] := by simp [hi]
  have hgj : h.getD j 0 = h[j] := by simp [hj]
  rw [swapAt, hgi, hgj]
  exact List.set_set_perm hi hj

@[simp] theorem swapAt_length (h : List Nat) (i j : Nat) : (swapAt h i j).length = h.length := by simp [swapAt]

/-- What a swap does, place by place. -/
theorem swapAt_swapped {h : List Nat} {i j : Nat} (hi : i < h.length) (hj : j < h.length) :
    Swapped h i j (swapAt h i j) := by
  refine ⟨swapAt_length h i j, ?_, ?_, fun k hki hkj => ?_⟩ <;> simp only [swapAt, List.getElem?_set]
  · by_cases hij : j = i <;> simp [hij, hi, hj]
  · simp [hi, hj]
  · simp [Ne.symm hki, Ne.symm hkj]

/-- Sifting up rearranges the elements (R92). -/
theorem siftUp_perm (lt : Nat → Nat → Bool) (fuel i : Nat) (h : List Nat) (hi : i < h.length) :
    (siftUp lt fuel i h).Perm h := by
  induction fuel generalizing i h with
  | zero => exact List.Perm.refl h
  | succ fuel ih =>
    unfold siftUp
    split
    · exact (ih _ _ (by rw [swapAt_length]; omega)).trans (swapAt_perm hi (by omega))
    · exact List.Perm.refl h

/-- The index R93 chooses is the node itself or a live child of it. -/
theorem smallestChild_cases (lt : Nat → Nat → Bool) (h : List Nat) (i : Nat) :
    smallestChild lt h i = i ∨ smallestChild lt h i = 2 * i + 1 ∧ 2 * i + 1 < h.length ∨
      smallestChild lt h i = 2 * i + 2 ∧ 2 * i + 2 < h.length := by
  unfold smallestChild betterOf
  split <;> rename_i h₁ <;> split <;> rename_i h₂ <;> simp_all

/-- The index chosen is the one R93's two `if`s give. -/
theorem smallestChild_chooses (lt : Nat → Nat → Bool) (h : List Nat) (i : Nat) :
    ChoosesChild lt h i (smallestChild lt h i) :=
  ⟨betterOf lt h i (2 * i + 1), fun hp => if_pos hp, fun hn => if_neg hn, fun hp => if_pos hp, fun hn => if_neg hn⟩

theorem smallestChild_lt {lt : Nat → Nat → Bool} {h : List Nat} {i : Nat} (hi : i < h.length) :
    smallestChild lt h i < h.length := by
  rcases smallestChild_cases lt h i with h' | ⟨h', hl⟩ | ⟨h', hl⟩ <;> omega

/-- Sifting down rearranges the elements (R93). -/
theorem siftDown_perm (lt : Nat → Nat → Bool) (fuel i : Nat) (h : List Nat) (hi : i < h.length) :
    (siftDown lt fuel i h).Perm h := by
  induction fuel generalizing i h with
  | zero => exact List.Perm.refl h
  | succ fuel ih =>
    unfold siftDown
    split
    · exact List.Perm.refl h
    · have hc := smallestChild_lt (lt := lt) hi
      exact (ih _ _ (by rw [swapAt_length]; exact hc)).trans (swapAt_perm hi hc)

/-- An insertion adds one element (R92). -/
theorem heapInsert_perm (lt : Nat → Nat → Bool) (h : List Nat) (item : Nat) :
    (heapInsert lt h item).Perm (item :: h) :=
  (siftUp_perm lt _ _ _ (by simp)).trans (List.perm_append_singleton item h)

/-- An extraction removes the root (R93). -/
theorem heapRemoveRoot_perm (lt : Nat → Nat → Bool) (m : Nat) (rest : List Nat) :
    (heapRemoveRoot lt (m :: rest)).Perm rest := by
  rcases List.eq_nil_or_concat rest with rfl | ⟨init, last, rfl⟩
  · exact List.Perm.refl _
  · have hd : (m :: init ++ [last]).dropLast = m :: init := List.dropLast_concat
    have hl : (m :: init ++ [last]).getLastD 0 = last := by
      rw [List.getLastD_eq_getLast?, List.getLast?_concat]
      rfl
    have hc : (m :: init.concat last) = m :: init ++ [last] := by simp
    rw [hc, heapRemoveRoot, hd, hl, List.concat_eq_append]
    exact (siftDown_perm lt _ 0 _ (by simp)).trans (List.perm_append_singleton last init).symm

theorem comparator_ok {s : State} (h : s.pq.cmp = 0) : comparator s = .ok (precedes s) s := by
  unfold comparator
  rw [if_pos h]

/-- `PqInsert(item)` with room (R92). -/
theorem pqInsert_ok (item : Nat) {s : State} (hc : s.pq.cmp = 0)
    (hr : hasRoom s.params.pqCap s.pq.heap.length = true) :
    pqInsert item s =
      .ok () { s with pq := { s.pq with heap := heapInsert (precedes s) s.pq.heap item } } := by
  simp only [pqInsert, bind_apply, look_apply, Queue.size, hr, if_true, comparator_ok hc, change_apply]

/-- `PqExtractMin()` of a queue that holds an element (R93). -/
theorem pqExtractMin_ok {s : State} {m : Nat} {rest : List Nat} (hc : s.pq.cmp = 0) (hh : s.pq.heap = m :: rest) :
    pqExtractMin s =
      .ok m { s with pq := { s.pq with heap := heapRemoveRoot (precedes s) (m :: rest) } } := by
  simp only [pqExtractMin, bind_apply, look_apply, hh, comparator_ok hc, change_apply, pure_apply]

/-- `Alloc(rec)` with room. -/
theorem allocNode_ok (n : Node) {s : State} (hr : hasRoom s.params.nodeCap s.huf.nodes.length = true) :
    allocNode n s = .ok s.huf.nodes.length { s with huf := { s.huf with nodes := s.huf.nodes ++ [n] } } := by
  simp only [allocNode, bind_apply, look_apply, Huffman.nnodes, hr, if_true, change_apply, pure_apply]

end Sys2Proof.Machine
end

