-- ==== Sys2Proof/Machine/Assembler.lean ====
section
/-! DEFINITION. The assembler syntax of R57: a command is its mnemonic and its operands in the order `x`, `y`, separated by
commas, decimal or `0x` hexadecimal; the assembled word is written as 20 hexadecimal digits, `op` first. -/

namespace Sys2Proof.Machine

/-- Which operands a row of R54 takes, and where they go. -/
inductive OperandForm where
  | none
  | x
  | y
  | xy
  /-- `HUF.MKNODE left, right`: `y = (left << 16) | right`. -/
  | pair
  deriving DecidableEq, Repr

/-- A row of R54: its mnemonic, its opcode, the operands it takes. -/
structure MnemonicRow where
  name : String
  op   : BitVec 8
  form : OperandForm
  deriving DecidableEq, Repr

/-- The BitChannel rows of R54. -/
def channelRows : List MnemonicRow :=
  [MnemonicRow.mk "BR.OPEN" 0x00 .none,
   MnemonicRow.mk "BR.READBIT" 0x01 .none,
   MnemonicRow.mk "BR.READBITS" 0x02 .x,
   MnemonicRow.mk "BR.CLOSE" 0x03 .none,
   MnemonicRow.mk "BW.OPEN" 0x04 .none,
   MnemonicRow.mk "BW.WRITEBIT" 0x05 .x,
   MnemonicRow.mk "BW.WRITEBITS" 0x06 .xy,
   MnemonicRow.mk "BW.CLOSE" 0x07 .none]

/-- The PriorityQueue rows of R54. -/
def queueRows : List MnemonicRow :=
  [MnemonicRow.mk "PQ.CREATE" 0x20 .x,
   MnemonicRow.mk "PQ.INSERT" 0x21 .y,
   MnemonicRow.mk "PQ.EXTRACTMIN" 0x22 .none,
   MnemonicRow.mk "PQ.SIZE" 0x23 .none,
   MnemonicRow.mk "PQ.ISEMPTY" 0x24 .none]

/-- The HuffmanCodec rows of R54. -/
def huffmanRows : List MnemonicRow :=
  [MnemonicRow.mk "HUF.COUNT" 0x40 .none,
   MnemonicRow.mk "HUF.MKLEAF" 0x41 .xy,
   MnemonicRow.mk "HUF.MKNODE" 0x42 .pair,
   MnemonicRow.mk "HUF.BUILD" 0x43 .none,
   MnemonicRow.mk "HUF.DERIVE" 0x44 .none,
   MnemonicRow.mk "HUF.SERIALIZE" 0x45 .none,
   MnemonicRow.mk "HUF.ENCODE" 0x46 .none,
   MnemonicRow.mk "HUF.DESERIALIZE" 0x47 .none,
   MnemonicRow.mk "HUF.DECODE" 0x48 .none,
   MnemonicRow.mk "HUF.COMPRESS" 0x4E .none,
   MnemonicRow.mk "HUF.DECOMPRESS" 0x4F .none]

/-- The LZWCodec rows of R54. -/
def lzwRows : List MnemonicRow :=
  [MnemonicRow.mk "LZW.ENC_RESET" 0x60 .none,
   MnemonicRow.mk "LZW.ENC_BYTE" 0x61 .y,
   MnemonicRow.mk "LZW.ENC_FLUSH" 0x62 .none,
   MnemonicRow.mk "LZW.DEC_RESET" 0x63 .none,
   MnemonicRow.mk "LZW.DEC_CODE" 0x64 .none,
   MnemonicRow.mk "LZW.COMPRESS" 0x6E .none,
   MnemonicRow.mk "LZW.DECOMPRESS" 0x6F .none]

/-- The system rows of R54. -/
def systemRows : List MnemonicRow :=
  [MnemonicRow.mk "SYS.RESET" 0xE0 .none,
   MnemonicRow.mk "SYS.STATUS" 0xE1 .none]

/-- The rows of R54. -/
def mnemonicTable : List MnemonicRow := channelRows ++ queueRows ++ huffmanRows ++ lzwRows ++ systemRows

/-- The fields a row's operands make, when they are as many as the row takes and each fits its field. DESIGN CHOICE
(assumption 24): R57 does not say what the assembler does with an operand too wide for its field (`x` of `2^8` or more,
`y` of `2^64` or more, a node index of `2^16` or more); the model refuses to assemble the line. -/
def operandFields : OperandForm → List Nat → Option (BitVec 8 × BitVec 64)
  | .none, [] => some (0, 0)
  | .x, [x] => if x < 2 ^ 8 then some (BitVec.ofNat 8 x, 0) else Option.none
  | .y, [y] => if y < 2 ^ 64 then some (0, BitVec.ofNat 64 y) else Option.none
  | .xy, [x, y] => if x < 2 ^ 8 ∧ y < 2 ^ 64 then some (BitVec.ofNat 8 x, BitVec.ofNat 64 y) else Option.none
  | .pair, [l, r] =>
    if l < 2 ^ 16 ∧ r < 2 ^ 16 then some (0, BitVec.ofNat 64 (l * 2 ^ 16 + r)) else Option.none
  | _, _ => Option.none

/-- The word of a mnemonic and its operands. -/
def assemble (mnemonic : List Char) (operands : List Nat) : Option CmdWord := do
  let row ← mnemonicTable.find? fun row => row.name.toList == mnemonic
  let fields ← operandFields row.form operands
  pure (cmdWord row.op fields.1 fields.2)

/-- The value of a digit, when it is one of the base; a hexadecimal digit in either case (DESIGN CHOICE, assumption 24). -/
def digitValue (base : Nat) (c : Char) : Option Nat :=
  let v :=
    if '0'.toNat ≤ c.toNat ∧ c.toNat ≤ '9'.toNat then some (c.toNat - '0'.toNat)
    else if 'a'.toNat ≤ c.toNat ∧ c.toNat ≤ 'f'.toNat then some (c.toNat - 'a'.toNat + 10)
    else if 'A'.toNat ≤ c.toNat ∧ c.toNat ≤ 'F'.toNat then some (c.toNat - 'A'.toNat + 10)
    else none
  v.filter (· < base)

/-- Digits of a base after the value `v`. -/
def digitsFrom (base : Nat) : List Char → Nat → Option Nat
  | [], v => some v
  | c :: cs, v =>
    match digitValue base c with
    | some d => digitsFrom base cs (base * v + d)
    | none => none

/-- A decimal or `0x` hexadecimal numeral. -/
def numeral : List Char → Option Nat
  | [] => none
  | ['0', 'x'] => none
  | '0' :: 'x' :: cs => digitsFrom 16 cs 0
  | cs => digitsFrom 10 cs 0

/-- The pieces between blanks and commas: the piece being read comes first in `acc`, reversed. DESIGN CHOICE (assumption
24): blanks separate as commas do and empty pieces are dropped, so a line with a blank in place of a comma, with repeated,
leading or trailing commas, or with a comma after the mnemonic assembles too. -/
def splitLine : List Char → List Char → List (List Char)
  | [], acc => if acc = [] then [] else [acc.reverse]
  | c :: cs, acc =>
    if c = ' ' ∨ c = ',' then (if acc = [] then splitLine cs [] else acc.reverse :: splitLine cs [])
    else splitLine cs (c :: acc)

/-- A line of assembler: the mnemonic and its operands. -/
def assembleLine (line : List Char) : Option CmdWord :=
  match splitLine line [] with
  | [] => none
  | m :: operands => (operands.mapM numeral).bind (assemble m)

/-- One hexadecimal digit. -/
def hexDigit (n : Nat) : Char := if n < 10 then Char.ofNat ('0'.toNat + n) else Char.ofNat ('A'.toNat + (n - 10))

/-- `d` hexadecimal digits of a number, most significant first. -/
def hexDigits : Nat → Nat → List Char
  | 0, _ => []
  | d + 1, n => hexDigit (n / 16 ^ d % 16) :: hexDigits d n

/-- The assembled word as R57 writes it: 20 hexadecimal digits, `op` first, the fields set apart by blanks. -/
def hexWord (w : CmdWord) : List Char :=
  hexDigits 2 (cmdOp w).toNat ++ [' '] ++ hexDigits 2 (cmdX w).toNat ++ [' '] ++ hexDigits 16 (cmdY w).toNat

end Sys2Proof.Machine
end

