-- ==== Sys2Proof/Tests/Slice0.lean ====
section
/-! SUPPORT. Tests: ill-formed commands refused by WellFormed; every row's word written out from R54 and decoded; single
steps on small states with results from the spec's examples and test vectors (95_test_vectors.md); and, for every statement
with hypotheses, concrete states and operands that meet them, each clause, with what the command then does. -/

set_option maxRecDepth 100000
set_option Elab.async false

namespace Sys2Proof.Tests

open Sys2Proof Sys2Proof.Machine

/-! ### Builders -/

/-- A state with a source and a sink that already holds a byte. -/
def src (bytes : List Byte) : State := { State.reset with mem := { srcData := bytes, srcPos := 0, snkData := [0xEE] } }

/-- With an open reader that has fetched nothing. -/
def reading (bytes : List Byte) : State := { src bytes with br := { BitReader.reset with isOpen := true } }

/-- With an open writer holding `k` bits. -/
def writing (acc : Byte) (k : BitVec 3) : State := { src [] with bw := { isOpen := true, acc := acc, k := k } }

/-- With the given port answers to come. -/
def answering (s : State) (as : List PortAnswer) : State := { s with answers := as }

/-- A state the block is held in, by `HUF.BUILD`'s `IllegalState(6)`. -/
def holding : State := { src [] with faultReg := packFault 0 0x43 0x87 6 }

/-- Something holds of the next state. -/
def after (o : Host.Outcome State Fault Refusal) (p : State → Bool) : Bool :=
  match o with
  | .next t => p t
  | .fault _ => false
  | .refused _ => false

theorem of_after {o : Host.Outcome State Fault Refusal} {p : State → Bool} (h : after o p = true) :
    ∃ t, o = .next t ∧ p t = true := by
  cases o with
  | next t => exact ⟨t, rfl, h⟩
  | fault f => exact absurd h (by simp [after])
  | refused r => exact absurd h (by simp [after])

/-- The step that runs one command word. -/
def run (s : State) (w : CmdWord) : Host.Outcome State Fault Refusal := step (s.present w)

/-- A command word from its opcode and operands. -/
def W (op x : Byte) (y : Wide) : CmdWord := cmdWord op x y

/-! ### WellFormed: one ill-formed command for each check, refused -/

theorem test_wf_count_zero : (Instr.brReadBits 0).wellFormed = false := by decide
theorem test_wf_count_33 : (Instr.brReadBits 33).wellFormed = false := by decide
theorem test_wf_bit_two : (Instr.bwWriteBit 2).wellFormed = false := by decide
theorem test_wf_write_count : (Instr.bwWriteBits 0 0).wellFormed = false := by decide
theorem test_wf_value_too_wide : (Instr.bwWriteBits 12 4096).wellFormed = false := by decide
theorem test_wf_comparator : (Instr.pqCreate 1).wellFormed = false := by decide
theorem test_wf_upper_half : (Instr.hufMkNode 1 0 0).wellFormed = false := by decide
theorem test_wf_byte_256 : (Instr.lzwEncByte 256).wellFormed = false := by decide
theorem test_wf_edges : (Instr.brReadBits 32).wellFormed = true ∧ (Instr.bwWriteBits 12 4095).wellFormed = true ∧
    (Instr.lzwEncByte 255).wellFormed = true := by decide

/-! ### Decoding: every row's word, written out from R54 -/

theorem test_decode_br :
    decode 0x00000000000000000000#80 = .ok .brOpen ∧ decode 0x01000000000000000000#80 = .ok .brReadBit ∧
    decode 0x020C0000000000000000#80 = .ok (.brReadBits 12) ∧ decode 0x03000000000000000000#80 = .ok .brClose := by
  decide
theorem test_decode_bw :
    decode 0x04000000000000000000#80 = .ok .bwOpen ∧ decode 0x05010000000000000000#80 = .ok (.bwWriteBit 1) ∧
    decode 0x060C0000000000000061#80 = .ok (.bwWriteBits 12 0x61) ∧ decode 0x07000000000000000000#80 = .ok .bwClose := by
  decide
theorem test_decode_pq :
    decode 0x20000000000000000000#80 = .ok (.pqCreate 0) ∧ decode 0x21000000000000000003#80 = .ok (.pqInsert 3) ∧
    decode 0x22000000000000000000#80 = .ok .pqExtractMin ∧ decode 0x23000000000000000000#80 = .ok .pqSize ∧
    decode 0x24000000000000000000#80 = .ok .pqIsEmpty := by
  decide
theorem test_decode_huf_build :
    decode 0x40000000000000000000#80 = .ok .hufCount ∧ decode 0x41410000000000000004#80 = .ok (.hufMkLeaf 0x41 4) ∧
    decode 0x42000000000000010002#80 = .ok (.hufMkNode 0 1 2) ∧
    decode 0x42000000000180000001#80 = .ok (.hufMkNode 1 0x8000 1) ∧
    decode 0x43000000000000000000#80 = .ok .hufBuild ∧ decode 0x44000000000000000000#80 = .ok .hufDerive := by
  decide
theorem test_decode_huf_stream :
    decode 0x45000000000000000000#80 = .ok .hufSerialize ∧ decode 0x46000000000000000000#80 = .ok .hufEncode ∧
    decode 0x47000000000000000000#80 = .ok .hufDeserialize ∧ decode 0x48000000000000000000#80 = .ok .hufDecode ∧
    decode 0x4E000000000000000000#80 = .ok .hufCompress ∧ decode 0x4F000000000000000000#80 = .ok .hufDecompress := by
  decide
theorem test_decode_lzw :
    decode 0x60000000000000000000#80 = .ok .lzwEncReset ∧ decode 0x61000000000000000061#80 = .ok (.lzwEncByte 0x61) ∧
    decode 0x62000000000000000000#80 = .ok .lzwEncFlush ∧ decode 0x63000000000000000000#80 = .ok .lzwDecReset ∧
    decode 0x64000000000000000000#80 = .ok .lzwDecCode ∧ decode 0x6E000000000000000000#80 = .ok .lzwCompress ∧
    decode 0x6F000000000000000000#80 = .ok .lzwDecompress := by
  decide
theorem test_decode_sys :
    decode 0xE0000000000000000000#80 = .ok .sysReset ∧ decode 0xE1000000000000000000#80 = .ok .sysStatus := by
  decide
/-- R55: the first and last opcodes of the gaps; R51: an unused field. -/
theorem test_decode_rejects :
    decode 0x08000000000000000000#80 = .error .illegalOpcode ∧ decode 0x49000000000000000000#80 = .error .illegalOpcode ∧
    decode 0x80000000000000000000#80 = .error .illegalOpcode ∧ decode 0xFF000000000000000000#80 = .error .illegalOpcode ∧
    decode 0x00010000000000000000#80 = .error .unusedField ∧ decode 0x05010000000000000001#80 = .error .unusedField ∧
    decode 0x61010000000000000061#80 = .error .unusedField := by
  decide
theorem test_table_word : decodeTableWord 80 0x060C0000000000000061 = some (.bwWriteBits 12 0x61) := by decide
/-- R57: the assembler's examples. -/
theorem test_assemble :
    assembleLine "BW.WRITEBITS 12, 0x061".toList = some 0x060C0000000000000061#80 ∧
    assembleLine "HUF.MKNODE 1, 2".toList = some 0x42000000000000010002#80 ∧ assembleLine "SYS.STATUS".toList = some (W 0xE1 0 0) := by
  decide

/-! ### Single steps: the spec's examples -/

/-- R70. -/
theorem test_br_open : after (run (src [0x37]) (W 0x00 0 0)) (fun t => t.br.isOpen && t.mem.srcPos == 0 && t.rsp == 0) = true := by
  decide +kernel
/-- V-BC-5: the first read of `[06 17]`. -/
theorem test_first_read : after (run (reading [0x06, 0x17]) (W 0x01 0 0)) (fun t =>
    t.br == { isOpen := true, cur := 0x06, pos := 1, hasBits := true, lim := 8, la := 0x17, laSt := .byte } &&
    t.mem.srcPos == 2 && t.rsp == packRsp 0 0) = true := by
  decide +kernel
/-- R74: 12 bits of `06 17` are 97; of `37` only 4 of 8 are there. -/
theorem test_read_code : after (run (reading [0x06, 0x17]) (W 0x02 12 0)) (fun t => t.rsp == packRsp 0 97) = true := by
  decide +kernel
theorem test_read_short : after (run (reading [0x37]) (W 0x02 8 0)) (fun t => t.rsp == packRsp 1 4) = true := by
  decide +kernel
/-- V-BC-3: a source `FF` faults at the first read. -/
theorem test_read_ff : after (run (reading [0xFF]) (W 0x01 0 0)) (fun t =>
    t.rsp == packRsp 0x82 7 && t.faultReg == packFault 0 0x01 0x82 7 && !t.br.isOpen) = true := by
  decide +kernel
/-- R79, R80, R81. -/
theorem test_write_bits : after (run (writing 0 0) (W 0x06 12 97)) (fun t =>
    t.mem.snkData == [0xEE, 0x06] && t.bw == { isOpen := true, acc := 0x01, k := 4 }) = true := by
  decide +kernel
theorem test_eighth_bit : after (run (writing 0x59 7) (W 0x05 0 0)) (fun t =>
    t.mem.snkData == [0xEE, 0xB2] && t.bw == { isOpen := true, acc := 0, k := 0 }) = true := by
  decide +kernel
theorem test_close_pads : after (run (writing 0x03 4) (W 0x07 0 0)) (fun t =>
    t.mem.snkData == [0xEE, 0x37] && !t.bw.isOpen) = true := by
  decide +kernel
theorem test_close_seven_bits : after (run (writing 0x7F 7) (W 0x07 0 0)) (fun t => t.mem.snkData == [0xEE, 0xFE]) = true := by
  decide +kernel
theorem test_close_aligned : after (run (writing 0 0) (W 0x07 0 0)) (fun t => t.mem.snkData == [0xEE]) = true := by
  decide +kernel
theorem test_close_aligned_padded :
    after (run { writing 0 0 with params := { Params.normative with padOnAligned := true } } (W 0x07 0 0))
      (fun t => t.mem.snkData == [0xEE, 0x7F]) = true := by
  decide +kernel

/-- Six leaves of weights 5, 3, 8, 3, 1, 5 (V-PQ-1). -/
def leaves : List Node :=
  [⟨.leaf 0x61, 5⟩, ⟨.leaf 0x62, 3⟩, ⟨.leaf 0x63, 8⟩, ⟨.leaf 0x64, 3⟩, ⟨.leaf 0x65, 1⟩, ⟨.leaf 0x66, 5⟩]

/-- A queue over them. -/
def queued (heap : List Nat) : State :=
  { src [] with huf := { Huffman.reset with nodes := leaves }, pq := { created := true, cmp := 0, heap := heap } }

/-- V-PQ-1. -/
theorem test_insert : after (run (queued [1, 3, 2, 0]) (W 0x21 0 4)) (fun t =>
    t.pq.heap == [4, 1, 2, 0, 3] && t.rsp == packRsp 0 0) = true := by
  decide +kernel
theorem test_insert_tie : after (run (queued [1, 0, 2]) (W 0x21 0 3)) (fun t => t.pq.heap == [1, 3, 2, 0]) = true := by
  decide +kernel
theorem test_extract : after (run (queued [4, 1, 5, 0, 3, 2]) (W 0x22 0 0)) (fun t =>
    t.pq.heap == [1, 3, 5, 0, 2] && t.rsp == packRsp 0 4) = true := by
  decide +kernel
/-- V-PQ-3. -/
theorem test_extract_empty : after (run (queued []) (W 0x22 0 0)) (fun t =>
    t.rsp == packRsp 0x85 0 && t.pq.created) = true := by
  decide +kernel
theorem test_size : after (run (queued [1, 3, 2]) (W 0x23 0 0)) (fun t => t.rsp == packRsp 0 3) = true := by decide +kernel
theorem test_is_empty : after (run (queued []) (W 0x24 0 0)) (fun t => t.rsp == packRsp 0 1) = true := by decide +kernel

/-- R100 on "abac". -/
theorem test_count : after (run (src [0x61, 0x62, 0x61, 0x63]) (W 0x40 0 0)) (fun t =>
    Table.at t.huf.freq 0x61 == 2 && Table.at t.huf.freq 0x63 == 1 && Table.at t.huf.freq 0x64 == 0 && t.huf.counted &&
    t.mem.srcPos == 4) = true := by
  decide +kernel
theorem test_mkleaf : after (run (src []) (W 0x41 0x41 4)) (fun t =>
    t.rsp == packRsp 0 0 && t.huf.nodes == [⟨.leaf 0x41, 4⟩]) = true := by
  decide +kernel
theorem test_mknode : after (run (queued []) (W 0x42 0 0x00010002)) (fun t =>
    t.rsp == packRsp 0 6 && t.huf.nodes[6]? == some ⟨.internal 1 2, 11⟩) = true := by
  decide +kernel

/-- The table of "abac" as counted. -/
def counted : State :=
  { src [0x61, 0x62, 0x61, 0x63] with
    huf := { Huffman.reset with
      counted := true,
      freq := Table.put (Table.put (Table.put Huffman.reset.freq 0x61 2) 0x62 1) 0x63 1 } }

/-- V-HUF-2: the nodes of "abac". -/
def abacNodes : List Node :=
  [⟨.leaf 0x61, 2⟩, ⟨.leaf 0x62, 1⟩, ⟨.leaf 0x63, 1⟩, ⟨.internal 1 2, 2⟩, ⟨.internal 0 3, 4⟩]

/-- A state that holds the tree of "abac" and its codes. -/
def treed : State :=
  { src [0x61, 0x62, 0x61, 0x63] with
    huf := { Huffman.reset with
      nodes := abacNodes, root := 4, treeOk := true, derived := true,
      code := Table.put (Table.put (Table.put Huffman.reset.code 0x61 (some [false])) 0x62 (some [true, false])) 0x63
        (some [true, true]) } }

def abacTree : Tree := .node (.leaf 0x61) (.node (.leaf 0x62) (.leaf 0x63))

theorem test_build : after (run counted (W 0x43 0 0)) (fun t =>
    t.rsp == packRsp 0 4 && t.huf.nodes == abacNodes && t.huf.treeOk && t.pq.heap == []) = true := by
  decide +kernel
theorem test_derive : after (run treed (W 0x44 0 0)) (fun t =>
    Table.at t.huf.code 0x61 == some [false] && Table.at t.huf.code 0x62 == some [true, false] &&
    Table.at t.huf.code 0x63 == some [true, true] && Table.at t.huf.code 0x64 == none) = true := by
  decide +kernel
/-- R106: 29 bits. -/
theorem test_serialize : after (run { treed with bw := { isOpen := true, acc := 0, k := 0 } } (W 0x45 0 0)) (fun t =>
    t.mem.snkData == [0xEE, 0x58, 0x56, 0x2B] && t.bw.acc == 0x03 && t.bw.k == 5) = true := by
  decide +kernel
/-- R107: `0 10 0 11`. -/
theorem test_encode : after (run { treed with bw := { isOpen := true, acc := 0, k := 0 } } (W 0x46 0 0)) (fun t =>
    t.mem.snkData == [0xEE] && t.bw.acc == 0x13 && t.bw.k == 6 && t.mem.srcPos == 4) = true := by
  decide +kernel
/-- R108: `[58 56 2B 1A 6F]` begins with the tree of "abac" (V-HUF-2), in post-order. -/
theorem test_deserialize : after (run (reading [0x58, 0x56, 0x2B, 0x1A, 0x6F]) (W 0x47 0 0)) (fun t =>
    t.huf.tree == some abacTree && t.huf.root == 4 && t.rsp == packRsp 0 4 && t.huf.treeOk) = true := by
  decide +kernel
/-- R109: bits `0 1 0 0 1 1` emit `a b a c`. -/
theorem test_decode : after (run { treed with
      br := { BitReader.reset with isOpen := true },
      mem := { srcData := [0x4D], srcPos := 0, snkData := [] } } (W 0x48 0 0)) (fun t =>
    t.mem.snkData == [0x61, 0x62, 0x61, 0x63] && t.rsp == packRsp 0 0) = true := by
  decide +kernel
/-- V-HUF-1. -/
theorem test_huf_compress : after (run (src [0x41, 0x41, 0x41, 0x41]) (W 0x4E 0 0)) (fun t =>
    t.mem.snkData == [0xA0, 0x83] && t.rsp == packRsp 0 0) = true := by
  decide +kernel
theorem test_huf_decompress : after (run (src [0xA0, 0xFB]) (W 0x4F 0 0)) (fun t =>
    t.mem.snkData == [0x41, 0x41, 0x41, 0x41] && t.rsp == packRsp 0 0) = true := by
  decide +kernel

/-- A seeded encoder with an open writer and a match buffer. -/
def encoding (buf : List Byte) : State :=
  { writing 0 0 with lzw := { Lzw.reset with edict := seedDictionary, buf := buf, eready := true } }

/-- A seeded decoder with an open reader and the previous sequence. -/
def decoding (bytes : List Byte) (prev : Option (List Byte)) : State :=
  { reading bytes with lzw := { Lzw.reset with dtab := seedDictionary, prev := prev, dready := true } }

theorem test_enc_reset : after (run (src []) (W 0x60 0 0)) (fun t =>
    t.lzw.enext == 256 && codeOf t.lzw.edict [0x61] == some 97 && t.lzw.eready && t.lzw.buf == []) = true := by
  decide +kernel
/-- R132: `ab` absent: 97 is emitted and `ab` is bound to 256. -/
theorem test_enc_byte : after (run (encoding [0x61]) (W 0x61 0 0x62)) (fun t =>
    t.lzw.enext == 257 && codeOf t.lzw.edict [0x61, 0x62] == some 256 && t.lzw.buf == [0x62] &&
    t.mem.snkData == [0xEE, 0x06] && t.bw.acc == 1 && t.bw.k == 4) = true := by
  decide +kernel
theorem test_enc_flush : after (run (encoding [0x61]) (W 0x62 0 0)) (fun t =>
    t.lzw.buf == [] && t.mem.snkData == [0xEE, 0x06] && t.lzw.enext == 256) = true := by
  decide +kernel
theorem test_dec_reset : after (run (src []) (W 0x63 0 0)) (fun t =>
    t.lzw.dtab[97]? == some [0x61] && t.lzw.dnext == 256 && t.lzw.prev == none && t.lzw.dready) = true := by
  decide +kernel
/-- R137: code 256 while `dnext = 256`. `100` then a nibble of padding is `[10 07]`. -/
theorem test_dec_self : after (run (decoding [0x10, 0x07] (some [0x61])) (W 0x64 0 0)) (fun t =>
    t.mem.snkData == [0xEE, 0x61, 0x61] && t.lzw.dtab[256]? == some [0x61, 0x61] && t.rsp == packRsp 0 256) = true := by
  decide +kernel
theorem test_dec_first_code : after (run (decoding [0x10, 0x07] none) (W 0x64 0 0)) (fun t =>
    t.rsp == packRsp 0x82 1 && t.mem.snkData == [0xEE]) = true := by
  decide +kernel
/-- R139, R140. -/
theorem test_lzw_compress : after (run (src [0x61]) (W 0x6E 0 0)) (fun t =>
    t.mem.snkData == [0x06, 0x17] && t.rsp == packRsp 0 0 && t.phase == .idle) = true := by
  decide +kernel
theorem test_lzw_decompress : after (run (src [0x06, 0x11, 0x00, 0x06, 0x17]) (W 0x6F 0 0)) (fun t =>
    t.mem.snkData == [0x61, 0x61, 0x61, 0x61] && t.rsp == packRsp 0 0) = true := by
  decide +kernel

/-- R170: held, a command does nothing; `SYS.RESET` frees the block. -/
theorem test_held : after (run holding (W 0x04 0 0)) (fun t =>
    t.rsp == packRsp 0x8F 0 && t.faultReg == holding.faultReg && !t.bw.isOpen) = true := by
  decide +kernel
theorem test_reset_frees : after (run holding (W 0xE0 0 0)) (fun t => t.faultReg == 0 && t.rsp == packRsp 0 0) = true := by
  decide +kernel
theorem test_status : after (run holding (W 0xE1 0 0)) (fun t => t.rsp == packRsp 0 0x80438706) = true := by decide +kernel
/-- V-BC-6: state before range. -/
theorem test_state_before_range : after (run (src []) (W 0x06 0 5)) (fun t => t.rsp == packRsp 0x87 4) = true := by
  decide +kernel
theorem test_illegal : after (run (src []) (W 0x08 0 0)) (fun t => t.rsp == packRsp 0x86 1) = true := by decide +kernel
/-- R33: a port access that fails. -/
theorem test_io_fail : after (run (answering (src []) [.ioFail]) (W 0x00 0 0)) (fun t =>
    t.rsp == packRsp 0x81 1 && t.faultReg == packFault 0 0x00 0x81 1 && !t.br.isOpen) = true := by
  decide +kernel
/-- The step runs a table word as the first instruction after reset. -/
theorem test_fetch : after (step (State.reset.withFetchWord 80 0x04000000000000000000)) (fun t => t.bw.isOpen) = true := by
  decide +kernel

/-! ### Witnesses: states and operands that meet the hypotheses of the statements, clause by clause -/

theorem ready {s : State} (hf : s.faultReg = 0) (hp : s.phase = .idle) : Ready s :=
  ⟨by rw [State.held, hf]; decide, hp⟩

theorem noFail {s : State} (h : s.answers = []) : NoIoFail s := fun a ha => by
  rw [h] at ha
  exact absurd ha List.not_mem_nil

/-- A host about to write one command word. -/
def writes (s : State) (w : CmdWord) : State := { s with host := [.command w] }

/-- A reader inside the byte `B2` with 3 of its 7 valid bits taken, the last byte of the stream. -/
def inLastByte : State :=
  { src [0xB2] with
    mem := { srcData := [0xB2], srcPos := 1, snkData := [] },
    br := { isOpen := true, cur := 0xB2, pos := 3, hasBits := true, lim := 7, la := 0xB2, laSt := .eof } }

/-- A reader at end-of-stream. -/
def atEnd : State :=
  { src [0xB2] with
    mem := { srcData := [0xB2], srcPos := 1, snkData := [] },
    br := { isOpen := true, cur := 0xB2, pos := 0, hasBits := false, lim := 7, la := 0xB2, laSt := .eof } }

theorem cursor_reading (bytes : List Byte) : CursorInv (reading bytes).br :=
  ⟨fun h => absurd (show false = true from h) (by decide), fun _ => rfl⟩

theorem cursor_inLastByte : CursorInv inLastByte.br := ⟨fun _ => by decide, fun h => absurd h (by decide)⟩

theorem cursor_atEnd : CursorInv atEnd.br := ⟨fun h => absurd h (by decide), fun _ => rfl⟩

theorem seed_length_one : ∀ t ∈ seedDictionary, t.length = 1 := by decide +kernel

theorem seed_prefixClosed : PrefixClosed seedDictionary := fun i t h hl => by
  have := seed_length_one t (List.mem_of_getElem? h)
  omega

theorem seed_dictionary : DictionaryInv seedDictionary := by
  refine ⟨?_, ?_, ?_⟩ <;> decide +kernel

theorem seed_nodup : seedDictionary.Nodup := by decide +kernel

theorem encoder_encoding {buf : List Byte} (h : buf = [] ∨ buf ∈ seedDictionary) : EncoderInv (encoding buf).lzw :=
  fun _ => ⟨seed_dictionary, seed_nodup, seed_prefixClosed, h⟩

theorem decoder_decoding (bytes : List Byte) {prev : Option (List Byte)} (h : prev ≠ some []) :
    DecoderInv (decoding bytes prev).lzw :=
  fun _ => ⟨seed_dictionary, fun q hq e => by have := seed_length_one q hq; rw [e] at this; exact absurd this (by decide), h⟩

/-! Decoding, the step -/

theorem witness_EncodeOfDecode : decode 0x060C0000000000000061#80 = .ok (.bwWriteBits 12 0x61) := by decide

theorem witness_StepRunsTheCommand_command :
    (writes (src []) (W 0x04 0 0)).host = .command (W 0x04 0 0) :: [] ∧ decode (W 0x04 0 0) = .ok .bwOpen :=
  ⟨rfl, by decide⟩

theorem witness_StepRunsTheCommand_idle : (src []).host = [] := rfl

theorem witness_IllegalWordIsRefused_opcode :
    Ready (writes (src []) (W 0x25 0 0)) ∧ (writes (src []) (W 0x25 0 0)).host = .command (W 0x25 0 0) :: [] ∧
    (∀ row ∈ commandRows, row.op ≠ cmdOp (W 0x25 0 0)) :=
  ⟨ready rfl rfl, rfl, by decide⟩

theorem witness_IllegalWordIsRefused_field :
    Ready (writes (src []) (W 0x21 1 0)) ∧ (writes (src []) (W 0x21 1 0)).host = .command (W 0x21 1 0) :: [] ∧
    (∃ row ∈ commandRows, SetsUnusedField row (W 0x21 1 0)) :=
  ⟨ready rfl rfl, rfl, ⟨0x21, false, true⟩, by decide, by decide, .inl ⟨rfl, by decide⟩⟩

/-! Reset, hold, status -/

theorem witness_HeldBlockRefuses_command :
    holding.held = true ∧ Instr.bwOpen ≠ .sysReset ∧ Instr.bwOpen ≠ .sysStatus := by decide

theorem witness_HeldBlockRefuses_word :
    (writes holding (W 0xE1 1 0)).held = true ∧ (writes holding (W 0xE1 1 0)).host = .command (W 0xE1 1 0) :: [] ∧
    decode (W 0xE1 1 0) = .error .unusedField :=
  ⟨by decide, rfl, by decide⟩

theorem witness_ResetCommand_external : ({ holding with host := [.reset] } : State).host = .reset :: [] := rfl

theorem witness_ResetCommand_word :
    (writes (src []) (W 0xE0 0 1)).host = .command (W 0xE0 0 1) :: [] ∧ cmdOp (W 0xE0 0 1) = 0xE0 ∧
    (cmdX (W 0xE0 0 1) ≠ 0 ∨ cmdY (W 0xE0 0 1) ≠ 0) ∧ (writes (src []) (W 0xE0 0 1)).phase = .idle ∧
    (writes (src []) (W 0xE0 0 1)).held = false ∧ (writes holding (W 0xE0 0 1)).held = true :=
  ⟨rfl, by decide, .inr (by decide), rfl, by decide, by decide⟩

theorem witness_StatusCommand : Ready (writing 0 0) ∧ (writing 0 0).bw.isOpen = true := ⟨ready rfl rfl, rfl⟩

/-! Faults -/

/-- The second of three preconditions: `BW.WRITEBITS 0, 5` on an open writer. -/
theorem witness_FirstFailedPrecondition :
    Ready (writing 0 0) ∧ preconditions (.bwWriteBits 0 5) (writing 0 0) =
      [(true, 0x87, 4)] ++ (false, 0x83, 3) :: [(false, 0x83, 2)] ∧
    (∀ p ∈ [((true, 0x87, 4) : Bool × Byte × Byte)], p.1 = true) :=
  ⟨ready rfl rfl, by simp only [preconditions]; decide +kernel, by simp⟩

/-- A step with a command, ending with `OK`, with `EOS`, with a fault. -/
theorem witness_CommandEndsThreeWays :
    (∃ t, step (writes (src []) (W 0x04 0 0)) = .next t ∧ (rspStatus t.rsp == 0x00) = true) ∧
    (∃ t, step (writes atEnd (W 0x01 0 0)) = .next t ∧ (rspStatus t.rsp == 0x01) = true) ∧
    (∃ t, step (writes (src []) (W 0x01 0 0)) = .next t ∧ (rspStatus t.rsp == 0x87) = true) :=
  ⟨of_after (p := fun t => rspStatus t.rsp == 0x00) (by decide +kernel),
   of_after (p := fun t => rspStatus t.rsp == 0x01) (by decide +kernel),
   of_after (p := fun t => rspStatus t.rsp == 0x87) (by decide +kernel)⟩

theorem witness_FaultEntry_none :
    Ready (writes atEnd (W 0x01 0 0)) ∧ decode (W 0x01 0 0) ≠ .ok .sysReset ∧
    (∃ t, step (writes atEnd (W 0x01 0 0)) = .next t ∧ decide ((rspStatus t.rsp).toNat < 0x80) = true) :=
  ⟨ready rfl rfl, by decide, of_after (p := fun t => decide ((rspStatus t.rsp).toNat < 0x80)) (by decide +kernel)⟩

/-- A precise fault, and one during execution. -/
theorem witness_FaultEntry_fault :
    Ready (writes (src []) (W 0x03 0 0)) ∧
    (∃ t, step (writes (src []) (W 0x03 0 0)) = .next t ∧ decide (0x80 ≤ (rspStatus t.rsp).toNat) = true) ∧
    Ready (writes (reading [0xFF]) (W 0x01 0 0)) ∧
    (∃ t, step (writes (reading [0xFF]) (W 0x01 0 0)) = .next t ∧ decide (0x80 ≤ (rspStatus t.rsp).toNat) = true) :=
  ⟨ready rfl rfl, of_after (p := fun t => decide (0x80 ≤ (rspStatus t.rsp).toNat)) (by decide +kernel),
   ready rfl rfl, of_after (p := fun t => decide (0x80 ≤ (rspStatus t.rsp).toNat)) (by decide +kernel)⟩

theorem witness_IoFailureNeedsIoFail :
    NoIoFail (writes (reading [0xFF]) (W 0x01 0 0)) ∧ (writes (reading [0xFF]) (W 0x01 0 0)).host ≠ [] ∧
    (∃ t, step (writes (reading [0xFF]) (W 0x01 0 0)) = .next t ∧ (rspStatus t.rsp != 0x81) = true) :=
  ⟨noFail rfl, by decide, of_after (p := fun t => rspStatus t.rsp != 0x81) (by decide +kernel)⟩

/-! Invariants -/

/-- An open reader inside its last byte, an open writer with pending bits, the tree of "abac", a seeded encoder. -/
def busy : State :=
  { inLastByte with
    bw := { isOpen := true, acc := 0x03, k := 4 }, pq := { created := true, cmp := 0, heap := [1, 0] }, huf := treed.huf,
    lzw := { Lzw.reset with edict := seedDictionary, buf := [0x61], eready := true }, host := [.command (W 0x01 0 0)] }

/-- R20: the codes of "abac" in a block with the default parameters. -/
theorem test_codes_bounded : treed.params.codeLen8 = true ∧ CodesInv treed := by
  have : ∀ b : Byte, ((Table.at treed.huf.code b).getD []).length ≤ 255 := by decide +kernel
  refine ⟨rfl, fun _ b c h => ?_⟩
  have hb := this b
  rw [show Table.at treed.huf.code b = some c from h] at hb
  exact hb

theorem busy_inv : Inv busy := by
  refine ⟨rfl, ⟨by decide, fun _ => rfl⟩, by decide, fun _ => ⟨fun _ => by decide, fun _ => ⟨cursor_inLastByte, rfl⟩,
    fun _ => rfl, ⟨?_, fun _ => by decide, fun _ => rfl⟩, fun _ => test_codes_bounded.2 rfl,
    encoder_encoding (.inr (by decide +kernel)),
    fun h => absurd h (by decide)⟩⟩
  intro i l r w h
  have hi : i < 5 := (List.getElem?_eq_some_iff.mp h).1
  have h' : abacNodes[i]? = some (Node.mk (.internal l r) w) := h
  interval_cases i <;> simp [abacNodes] at h' <;> omega

theorem witness_EveryStepKeepsInv : Inv busy ∧ ∃ t, step busy = .next t ∧ (t.br.pos == 4) = true :=
  ⟨busy_inv, of_after (p := fun t => t.br.pos == 4) (by decide +kernel)⟩

theorem witness_EveryCommandEnds : Inv busy := busy_inv

theorem witness_EnvironmentKept : busy.mem.wf = true ∧ ∃ t, step busy = .next t ∧ t.mem.wf = true :=
  ⟨by decide, of_after (p := fun t => t.mem.wf) (by decide +kernel)⟩

theorem witness_SinkOnlyGrows :
    (∃ t, exec .bwClose (writing 0x03 4) = .next t ∧ (t.mem.snkData == [0xEE, 0x37]) = true) ∧
    Instr.bwClose ≠ .bwOpen ∧ Instr.bwClose ≠ .hufCompress ∧ Instr.bwClose ≠ .hufDecompress ∧
    Instr.bwClose ≠ .lzwCompress ∧ Instr.bwClose ≠ .lzwDecompress :=
  ⟨of_after (p := fun t => t.mem.snkData == [0xEE, 0x37]) (by decide +kernel), by decide⟩

theorem witness_CommandsWriteOnlyTheirState :
    Ready (src [0x61]) ∧ ∃ t, exec .lzwCompress (src [0x61]) = .next t ∧ decide ((rspStatus t.rsp).toNat < 0x80) = true :=
  ⟨ready rfl rfl, of_after (p := fun t => decide ((rspStatus t.rsp).toNat < 0x80)) (by decide +kernel)⟩

/-! The reader -/

theorem witness_OpenReader_ok : Ready (src [0x37]) ∧ (src [0x37]).br.isOpen = false ∧ NextAnswerOk (src [0x37]) ∧
    Ready (src []) ∧ (src []).br.isOpen = false ∧ NoIoFail (src []) ∧ (src []).mem.srcData = [] :=
  ⟨ready rfl rfl, rfl, by unfold NextAnswerOk; decide, ready rfl rfl, rfl, noFail rfl, rfl⟩

theorem witness_OpenReader_fails :
    Ready (answering (src []) [.ioFail]) ∧ (answering (src []) [.ioFail]).br.isOpen = false ∧
    NextAnswerFails (answering (src []) [.ioFail]) :=
  ⟨ready rfl rfl, rfl, rfl⟩

/-- The last bit of a byte, end-of-stream, and a final `FF`. -/
theorem witness_ReadBitDelivers_bit :
    Ready inLastByte ∧ inLastByte.br.isOpen = true ∧ CursorInv inLastByte.br ∧ NoIoFail inLastByte ∧
    inLastByte.bitsToRead = true :: [false, false, true] :=
  ⟨ready rfl rfl, rfl, cursor_inLastByte, noFail rfl, by decide⟩

theorem witness_ReadBitDelivers_end :
    Ready atEnd ∧ atEnd.br.isOpen = true ∧ CursorInv atEnd.br ∧ NoIoFail atEnd ∧ atEnd.bitsToRead = [] ∧
    atEnd.readEndsCorrupt = false :=
  ⟨ready rfl rfl, rfl, cursor_atEnd, noFail rfl, by decide, by decide⟩

theorem witness_ReadBitDelivers_corrupt :
    Ready (reading [0xFF]) ∧ (reading [0xFF]).br.isOpen = true ∧ CursorInv (reading [0xFF]).br ∧
    NoIoFail (reading [0xFF]) ∧ (reading [0xFF]).bitsToRead = [] ∧ (reading [0xFF]).readEndsCorrupt = true :=
  ⟨ready rfl rfl, rfl, cursor_reading _, noFail rfl, by decide, by decide⟩

/-- The first fetch fails; the second after an open; a byte at hand as lookahead and the fetch after it. -/
theorem witness_ReadBitDelivers_fetch :
    (Ready (answering (reading [0xAB]) [.ioFail]) ∧ (answering (reading [0xAB]) [.ioFail]).br.isOpen = true ∧
      (answering (reading [0xAB]) [.ioFail]).br.hasBits = false ∧
      (answering (reading [0xAB]) [.ioFail]).br.laSt ≠ .eof ∧ NextAnswerFails (answering (reading [0xAB]) [.ioFail])) ∧
    ((answering (reading [0xAB]) [.ok, .ioFail]).br.laSt = .none ∧
      (answering (reading [0xAB]) [.ok, .ioFail]).mem.srcPos <
        (answering (reading [0xAB]) [.ok, .ioFail]).mem.srcData.length ∧
      (answering (reading [0xAB]) [.ok, .ioFail]).answers = .ok :: .ioFail :: []) :=
  ⟨⟨ready rfl rfl, rfl, rfl, by decide, rfl⟩, rfl, by decide, rfl⟩

/-- `n = 1` and `n = 32` at the ends of the range; exactly enough bits, one too few. -/
theorem witness_ReadBitsDelivers_value :
    Ready (reading [0xDE, 0xAD, 0xBE, 0xEF, 0x7F]) ∧ CursorInv (reading [0xDE, 0xAD, 0xBE, 0xEF, 0x7F]).br ∧
    NoIoFail (reading [0xDE, 0xAD, 0xBE, 0xEF, 0x7F]) ∧ 1 ≤ (32 : BitVec 8).toNat ∧ (32 : BitVec 8).toNat ≤ 32 ∧
    (32 : BitVec 8).toNat ≤ (reading [0xDE, 0xAD, 0xBE, 0xEF, 0x7F]).bitsToRead.length :=
  ⟨ready rfl rfl, cursor_reading _, noFail rfl, by decide, by decide, by decide⟩

theorem witness_ReadBitsDelivers_short :
    Ready inLastByte ∧ CursorInv inLastByte.br ∧ NoIoFail inLastByte ∧ inLastByte.bitsToRead.length < (5 : BitVec 8).toNat ∧
    inLastByte.readEndsCorrupt = false ∧ atEnd.bitsToRead.length < (1 : BitVec 8).toNat :=
  ⟨ready rfl rfl, cursor_inLastByte, noFail rfl, by decide, by decide, by decide⟩

theorem witness_ReadBitsDelivers_corrupt :
    Ready (reading [0xAB, 0xFF]) ∧ CursorInv (reading [0xAB, 0xFF]).br ∧ NoIoFail (reading [0xAB, 0xFF]) ∧
    (reading [0xAB, 0xFF]).bitsToRead.length < (9 : BitVec 8).toNat ∧ (reading [0xAB, 0xFF]).readEndsCorrupt = true :=
  ⟨ready rfl rfl, cursor_reading _, noFail rfl, by decide, by decide⟩

/-- One bit more than the one byte taken holds, at the end of the source; and with a part of a byte still to deliver. -/
theorem witness_ReadBitsDelivers_fetch :
    (Ready (answering (reading [0xAB, 0xCD]) [.ok, .ok, .ioFail]) ∧
      CursorInv (answering (reading [0xAB, 0xCD]) [.ok, .ok, .ioFail]).br ∧
      (answering (reading [0xAB, 0xCD]) [.ok, .ok, .ioFail]).br.laSt ≠ .eof ∧
      (answering (reading [0xAB, 0xCD]) [.ok, .ok, .ioFail]).answers = List.replicate 2 .ok ++ .ioFail :: [] ∧
      0 + 2 ≤ [0xAB#8, 0xCD#8].length ∧ 0 + 8 * (2 - 1) < (9 : BitVec 8).toNat) ∧
    (CursorInv { inLastByte.br with laSt := .byte } ∧
      (inLastByte.br.lim.toNat - inLastByte.br.pos.toNat) + 8 * 0 < (5 : BitVec 8).toNat) :=
  ⟨⟨ready rfl rfl, cursor_reading [], by decide, rfl, by decide, by decide⟩,
   ⟨fun _ => by decide, fun h => absurd h (by decide)⟩, by decide⟩

/-- What it then does (R73, R162): the byte fetched before the failure stays fetched. -/
theorem test_fetch_fails :
    after (exec (.brReadBits 9) (answering (reading [0xAB, 0xCD]) [.ok, .ok, .ioFail])) (fun t =>
      t.rsp == packRsp 0x81 2 && t.mem.srcPos == 2 && !t.br.isOpen) = true := by
  decide +kernel

theorem witness_EndOfStreamPersists_read :
    (∃ t, exec .brReadBit (reading []) = .next t ∧ (rspStatus t.rsp == 0x01) = true) ∧
    (∃ t, exec (.brReadBits 8) (reading [0x37]) = .next t ∧ (rspStatus t.rsp == 0x01) = true) ∧ Ready (reading []) ∧
    Ready (reading [0x37]) :=
  ⟨of_after (p := fun t => rspStatus t.rsp == 0x01) (by decide +kernel),
   of_after (p := fun t => rspStatus t.rsp == 0x01) (by decide +kernel), ready rfl rfl, ready rfl rfl⟩

theorem witness_EndOfStreamPersists_again :
    Ready atEnd ∧ atEnd.br.isOpen = true ∧ atEnd.br.hasBits = false ∧ atEnd.br.laSt = .eof ∧
    1 ≤ (32 : BitVec 8).toNat ∧ (32 : BitVec 8).toNat ≤ 32 :=
  ⟨ready rfl rfl, rfl, rfl, rfl, by decide, by decide⟩

theorem witness_CloseReader :
    (Ready (src []) ∧ (src []).br.isOpen = false) ∧
    (Ready atEnd ∧ atEnd.br.isOpen = true ∧ NextAnswerOk atEnd) ∧
    (Ready (answering atEnd [.ioFail]) ∧ (answering atEnd [.ioFail]).br.isOpen = true ∧
      NextAnswerFails (answering atEnd [.ioFail])) :=
  ⟨⟨ready rfl rfl, rfl⟩, ⟨ready rfl rfl, rfl, by unfold NextAnswerOk; decide⟩, ready rfl rfl, rfl, rfl⟩

theorem witness_ReaderDeliversValidBits :
    Ready (src [0xAB, 0xFE]) ∧ (src [0xAB, 0xFE]).br.isOpen = false ∧ NoIoFail (src [0xAB, 0xFE]) ∧
    validBits (src [0xAB, 0xFE]).mem.srcData =
      [true, false, true, false, true, false, true, true, true, true, true, true, true, true, true] :=
  ⟨ready rfl rfl, rfl, noFail rfl, by decide⟩

/-! The writer -/

theorem witness_OpenWriter :
    (Ready (src []) ∧ (src []).bw.isOpen = false ∧ NextAnswerOk (src [])) ∧
    (Ready (answering (src []) [.ioFail]) ∧ (answering (src []) [.ioFail]).bw.isOpen = false ∧
      NextAnswerFails (answering (src []) [.ioFail])) :=
  ⟨⟨ready rfl rfl, rfl, by unfold NextAnswerOk; decide⟩, ready rfl rfl, rfl, rfl⟩

theorem witness_WriteBitShiftsIn :
    (Ready (src []) ∧ (src []).bw.isOpen = false) ∧
    (Ready (writing 0 0) ∧ (writing 0 0).bw.isOpen = true ∧ 2 ≤ (2 : BitVec 8).toNat) ∧
    ((1 : BitVec 8).toNat ≤ 1 ∧ (writing 0x2C 6).bw.k ≠ 7 ∧ Ready (writing 0x2C 6)) ∧
    ((writing 0x59 7).bw.k = 7 ∧ NextAnswerOk (writing 0x59 7) ∧ Ready (writing 0x59 7)) ∧
    ((answering (writing 0x59 7) [.ioFail]).bw.k = 7 ∧ NextAnswerFails (answering (writing 0x59 7) [.ioFail]) ∧
      Ready (answering (writing 0x59 7) [.ioFail])) :=
  ⟨⟨ready rfl rfl, rfl⟩, ⟨ready rfl rfl, rfl, by decide⟩, ⟨by decide, by decide, ready rfl rfl⟩,
   ⟨rfl, by unfold NextAnswerOk; decide, ready rfl rfl⟩, rfl, rfl, ready rfl rfl⟩

/-- `n = 32` with the largest value, and `n = 1`. -/
theorem witness_WriteBitsAppends :
    Ready (writing 0x59 7) ∧ (writing 0x59 7).bw.isOpen = true ∧ WriterInv (writing 0x59 7) ∧ NoIoFail (writing 0x59 7) ∧
    (1 ≤ (32 : BitVec 8).toNat ∧ (32 : BitVec 8).toNat ≤ 32 ∧
      (0xFFFFFFFF : BitVec 64).toNat < 2 ^ (32 : BitVec 8).toNat) ∧
    (1 ≤ (1 : BitVec 8).toNat ∧ (1 : BitVec 64).toNat < 2 ^ (1 : BitVec 8).toNat) :=
  ⟨ready rfl rfl, rfl, fun _ => by decide, noFail rfl, by decide, by decide⟩

theorem witness_CloseWriter :
    (Ready (src []) ∧ (src []).bw.isOpen = false) ∧
    (Ready (writing 0x03 4) ∧ (writing 0x03 4).bw.isOpen = true ∧ NoIoFail (writing 0x03 4)) ∧
    (Ready (answering (writing 0x01 1) [.ioFail]) ∧ (answering (writing 0x01 1) [.ioFail]).bw.k ≠ 0 ∧
      NextAnswerFails (answering (writing 0x01 1) [.ioFail])) ∧
    (Ready (answering (writing 0 0) [.ioFail]) ∧ (answering (writing 0 0) [.ioFail]).bw.k = 0 ∧
      (answering (writing 0 0) [.ioFail]).params.padOnAligned = false ∧
      NextAnswerFails (answering (writing 0 0) [.ioFail])) ∧
    (Ready (answering (writing 0x7F 7) [.ok, .ioFail]) ∧ (answering (writing 0x7F 7) [.ok, .ioFail]).bw.k ≠ 0 ∧
      (answering (writing 0x7F 7) [.ok, .ioFail]).answers = .ok :: .ioFail :: []) ∧
    ({ writing 0 0 with params := { Params.normative with padOnAligned := true } } : State).params.padOnAligned = true :=
  ⟨⟨ready rfl rfl, rfl⟩, ⟨ready rfl rfl, rfl, noFail rfl⟩, ⟨ready rfl rfl, by decide, rfl⟩,
   ⟨ready rfl rfl, rfl, rfl, rfl⟩, ⟨ready rfl rfl, by decide, rfl⟩, rfl⟩

/-- What the failing closes do (R81, R162): `info` 4 with no byte put, 3 after the byte was put. -/
theorem test_close_failures :
    after (exec .bwClose (answering (writing 0x01 1) [.ioFail])) (fun t =>
      t.rsp == packRsp 0x81 4 && t.mem.snkData == [0xEE]) = true ∧
    after (exec .bwClose (answering (writing 0x03 4) [.ok, .ioFail])) (fun t =>
      t.rsp == packRsp 0x81 3 && t.mem.snkData == [0xEE, 0x37]) = true := by
  decide +kernel

theorem witness_FinalByteReadsBack :
    (1 ≤ 1 ∧ 1 ≤ 7 ∧ (0x01#8).toNat < 2 ^ 1) ∧ (1 ≤ 7 ∧ 7 ≤ 7 ∧ (0x7F#8).toNat < 2 ^ 7) := by decide

theorem witness_PackedBitsReadBack :
    ([true, false, true] : List Bool).length % 8 ≠ 0 ∧
    (List.replicate 8 true).length % 8 = 0 ∧ List.replicate 8 true ≠ [] ∧
    (packBits false (List.replicate 8 true)).getLast? = some 0xFF ∧
    (packBits false (List.replicate 16 false)).getLast? = some 0x00 := by
  decide

theorem witness_WriterProducesPackedBits :
    Ready (src []) ∧ (src []).bw.isOpen = false ∧ NoIoFail (src []) ∧
    (∀ i ∈ [Instr.bwWriteBit 1, .bwWriteBits 32 0xDEADBEEF, .bwWriteBits 1 0], (writtenBits i).isSome) :=
  ⟨ready rfl rfl, rfl, noFail rfl, by decide⟩

/-! The queue -/

theorem witness_CreateQueue : Ready (queued [1, 0]) ∧ (1 : BitVec 8) ≠ 0 ∧ Ready (src []) :=
  ⟨ready rfl rfl, by decide, ready rfl rfl⟩

/-- The last allocated index, and the last place in a bounded heap; one element and several. -/
theorem witness_QueueAddsAndRemoves :
    (Ready (queued [4, 1]) ∧ (queued [4, 1]).pq.created = true ∧ (queued [4, 1]).pq.cmp = 0 ∧
      (5 : BitVec 64).toNat < (queued [4, 1]).huf.nodes.length ∧
      (queued [4, 1]).params.pqCap.all ((queued [4, 1]).pq.heap.length < ·) = true) ∧
    (queued [4, 1]).pq.heap = 4 :: [1] ∧ (queued [4]).pq.heap = 4 :: [] :=
  ⟨⟨ready rfl rfl, rfl, rfl, by decide, by decide⟩, rfl, rfl⟩

/-- Both children precede the node and tie (V-PQ-2): the left one moves up; and a queue of one element. -/
theorem witness_SiftLoopsRunToTheirEnd :
    Ready (queued [4, 1, 3, 2]) ∧ (queued [4, 1, 3, 2]).pq.created = true ∧ (queued [4, 1, 3, 2]).pq.cmp = 0 ∧
    (queued [4, 1, 3, 2]).pq.heap = 4 :: ([1, 3] ++ [2]) ∧ (queued [4]).pq.heap = [4] ∧
    (5 : BitVec 64).toNat < (queued [4, 1, 3, 2]).huf.nodes.length ∧
    (queued [4, 1, 3, 2]).params.pqCap.all ((queued [4, 1, 3, 2]).pq.heap.length < ·) = true :=
  ⟨ready rfl rfl, rfl, rfl, rfl, rfl, by decide, by decide⟩

theorem test_extract_tie : after (exec .pqExtractMin (queued [4, 1, 3, 2])) (fun t => t.pq.heap == [1, 2, 3]) = true := by
  decide +kernel

theorem heapOrdered_queued : HeapOrdered (queued [4, 1, 5]) := by
  intro i h₁ h₂
  have : i < 3 := h₂
  interval_cases i <;> decide

theorem witness_HeapOrderIsKept :
    Ready (queued [4, 1, 5]) ∧ (queued [4, 1, 5]).pq.cmp = 0 ∧ HeapOrdered (queued [4, 1, 5]) ∧
    (∃ t, exec (.pqInsert 3) (queued [4, 1, 5]) = .next t ∧ (t.pq.heap == [4, 1, 5, 3]) = true) ∧
    (∃ t, exec .pqExtractMin (queued [4, 1, 5]) = .next t ∧ (t.pq.heap == [1, 5]) = true) ∧
    (queued [4, 1, 5]).pq.heap = 4 :: [1, 5] ∧ (queued [4, 1, 5]).pq.created = true :=
  ⟨ready rfl rfl, rfl, heapOrdered_queued, of_after (p := fun t => t.pq.heap == [4, 1, 5, 3]) (by decide +kernel),
   of_after (p := fun t => t.pq.heap == [1, 5]) (by decide +kernel), rfl, rfl⟩

theorem witness_QueueSize :
    (Ready (queued [1]) ∧ (queued [1]).pq.created = true ∧ (queued [1]).pq.heap ≠ []) ∧
    (Ready (queued []) ∧ (queued []).pq.created = true ∧ (queued []).pq.heap = []) ∧
    (Ready (src []) ∧ (src []).pq.created = false) :=
  ⟨⟨ready rfl rfl, rfl, by decide⟩, ⟨ready rfl rfl, rfl, rfl⟩, ready rfl rfl, rfl⟩

/-! Huffman -/

/-- A block whose counters are 2 bits wide, so that a count of 3 fits and one of 4 does not. -/
def narrow (bytes : List Byte) : State := { src bytes with params := { Params.normative with freqW := some 2 } }

theorem count_le {b : Byte} {n : Nat} {l : List Byte} (h : l.length ≤ n) : l.count b ≤ n :=
  le_trans List.count_le_length h

theorem witness_CountCountsBytes :
    (Ready (narrow [0x41, 0x41, 0x41]) ∧ (narrow [0x41, 0x41, 0x41]).br.isOpen = false ∧
      NoIoFail (narrow [0x41, 0x41, 0x41]) ∧ (∀ b : Byte, (narrow [0x41, 0x41, 0x41]).params.freqW.all
        ((narrow [0x41, 0x41, 0x41]).mem.srcData.count b < 2 ^ ·) = true)) ∧
    (Ready (narrow [0x41, 0x41, 0x41, 0x41]) ∧ (narrow [0x41, 0x41, 0x41, 0x41]).params.freqW.all
        ((narrow [0x41, 0x41, 0x41, 0x41]).mem.srcData.count 0x41 < 2 ^ ·) = false) := by
  refine ⟨⟨ready rfl rfl, rfl, noFail rfl, fun b => ?_⟩, ready rfl rfl, by decide⟩
  have : ([0x41, 0x41, 0x41] : List Byte).count b ≤ 3 := count_le (by decide)
  show decide (List.count b [0x41, 0x41, 0x41] < 2 ^ 2) = true
  exact decide_eq_true (by omega)

/-- A count that does not fit fails (R100). -/
theorem test_count_full : after (exec .hufCount (narrow [0x41, 0x41, 0x41, 0x41])) (fun t =>
    t.rsp == packRsp 0x88 3) = true := by
  decide +kernel

/-- Counters of 4 bits and an arena of 7 nodes, six of them allocated. -/
def tight : State := { queued [] with params := { Params.normative with freqW := some 4, nodeCap := some 7 } }

/-- The same with the arena full. -/
def full : State := { queued [] with params := { Params.normative with freqW := some 4, nodeCap := some 6 } }

theorem witness_MakeNodesByHand_leaf :
    (Ready tight ∧ tight.params.freqW.all ((16 : BitVec 64).toNat < 2 ^ ·) = false) ∧
    (Ready full ∧ full.params.freqW.all ((15 : BitVec 64).toNat < 2 ^ ·) = true ∧
      full.params.nodeCap.all (full.huf.nodes.length < ·) = false) ∧
    (tight.params.freqW.all ((15 : BitVec 64).toNat < 2 ^ ·) = true ∧
      tight.params.nodeCap.all (tight.huf.nodes.length < ·) = true) :=
  ⟨⟨ready rfl rfl, by decide⟩, ⟨ready rfl rfl, by decide, by decide⟩, by decide, by decide⟩

/-- Children 2 and 5 of weights 8 and 5 fit 4 bits; 2 and 2 do not; 6 is not allocated. -/
theorem witness_MakeNodesByHand_node :
    ((1 : BitVec 32) ≠ 0 ∧ tight.huf.nodes.length ≤ (6 : BitVec 16).toNat) ∧
    (tight.huf.nodes[(2 : BitVec 16).toNat]? = some ⟨.leaf 0x63, 8⟩ ∧
      tight.huf.nodes[(5 : BitVec 16).toNat]? = some ⟨.leaf 0x66, 5⟩ ∧
      tight.params.freqW.all (8 + 8 < 2 ^ ·) = false ∧ tight.params.freqW.all (8 + 5 < 2 ^ ·) = true ∧
      full.params.nodeCap.all (full.huf.nodes.length < ·) = false ∧
      tight.params.nodeCap.all (tight.huf.nodes.length < ·) = true) := by
  decide

theorem counted_ready : Ready counted ∧ counted.huf.counted = true ∧ Params.wf counted.params = true ∧
    Params.fitsFreq counted.params (totalCount counted.huf.freq) = true ∧ countedBytes counted.huf.freq ≠ [] :=
  ⟨ready rfl rfl, rfl, by decide, by decide, by decide +kernel⟩

theorem witness_BuildMakesTheTree : Ready counted ∧ counted.huf.counted = true ∧ Params.wf counted.params = true ∧
    Params.fitsFreq counted.params (totalCount counted.huf.freq) = true ∧ countedBytes counted.huf.freq ≠ [] ∧
    (countedBytes counted.huf.freq)[2]? = some 0x63 :=
  ⟨counted_ready.1, counted_ready.2.1, counted_ready.2.2.1, counted_ready.2.2.2.1, counted_ready.2.2.2.2,
   by decide +kernel⟩

/-- One counted byte (R104). -/
theorem witness_BuildMakesTheTree_single :
    countedBytes (Table.put Huffman.reset.freq 0x41 4) = [0x41] := by
  decide +kernel

theorem witness_BuildMergesTheLightest :
    Ready counted ∧ (∃ t, exec .hufBuild counted = .next t ∧ (t.huf.nodes == abacNodes) = true) ∧
    abacNodes[3]? = some (Node.mk (.internal 1 2) 2) :=
  ⟨ready rfl rfl, of_after (p := fun t => t.huf.nodes == abacNodes) (by decide +kernel), rfl⟩

theorem witness_BuildMergesTheLightest_queued : StillQueued abacNodes 4 0 ∧ StillQueued abacNodes 4 3 := by
  constructor <;> refine ⟨by decide, fun k l r w hk h => ?_⟩ <;> interval_cases k <;> simp [abacNodes] at h <;> omega

theorem witness_LeavesAreTheSourceBytes :
    Ready (src [0x61, 0x62, 0x61, 0x63]) ∧ (src [0x61, 0x62, 0x61, 0x63]).br.isOpen = false ∧
    NoIoFail (src [0x61, 0x62, 0x61, 0x63]) ∧ Params.wf (src [0x61, 0x62, 0x61, 0x63]).params = true ∧
    Params.fitsFreq (src [0x61, 0x62, 0x61, 0x63]).params (src [0x61, 0x62, 0x61, 0x63]).mem.srcData.length = true ∧
    (src [0x61, 0x62, 0x61, 0x63]).mem.srcData ≠ [] :=
  ⟨ready rfl rfl, rfl, noFail rfl, by decide, by decide, by decide⟩

/-- A tree of the given depth, all leaves the byte 0: its longest code has `depth` bits. -/
def spine : Nat → Tree
  | 0 => .leaf 0
  | n + 1 => .node (.leaf 0) (spine n)

/-- The arena of a spine: leaf and node in turn, from the bottom up. -/
def spineNodes : Nat → List Node
  | 0 => [⟨.leaf 0, 0⟩]
  | n + 1 => spineNodes n ++ [⟨.leaf 0, 0⟩, ⟨.internal (2 * n + 1) (2 * n), 0⟩]

/-- A block with the default parameters that holds a spine. -/
def deep (n : Nat) : State :=
  { src [] with
    huf := { Huffman.reset with nodes := spineNodes n, root := 2 * n, treeOk := true } }

/-- 255 bits fit the 8-bit length; 256 do not (R105). -/
theorem witness_DeriveWritesThePaths :
    (Ready (deep 255) ∧ (deep 255).huf.treeOk = true ∧ (deep 255).huf.tree = some (spine 255) ∧
      ∀ p ∈ (spine 255).codes, p.2.length ≤ 255) ∧
    (Ready (deep 256) ∧ (deep 256).huf.tree = some (spine 256) ∧ (deep 256).params.codeLen8 = true ∧
      ∃ p ∈ (spine 256).codes, 255 < p.2.length) :=
  ⟨⟨ready rfl rfl, rfl, by decide +kernel, by decide +kernel⟩, ready rfl rfl, by decide +kernel, rfl, by decide +kernel⟩

theorem witness_CodesArePrefixFree : 2 ≤ abacTree.leaves ∧
    Table.at (codeTable abacTree) 0x62 = some [true, false] ∧ Table.at (codeTable abacTree) 0x63 = some [true, true] := by
  decide +kernel

/-- The tree of "abac" with an open writer that holds 7 bits. -/
def treedWriting : State := { treed with bw := { isOpen := true, acc := 0x59, k := 7 } }

theorem witness_SerializeAppendsTheTree :
    Ready treedWriting ∧ treedWriting.huf.treeOk = true ∧ treedWriting.huf.tree = some abacTree ∧
    treedWriting.bw.isOpen = true ∧ WriterInv treedWriting ∧ NoIoFail treedWriting :=
  ⟨ready rfl rfl, rfl, by decide +kernel, rfl, fun _ => by decide, noFail rfl⟩

theorem witness_EncodeAppendsTheCodes :
    Ready treedWriting ∧ treedWriting.huf.derived = true ∧ treedWriting.br.isOpen = false ∧
    codeBits treedWriting.huf.code treedWriting.mem.srcData = some [false, true, false, false, true, true] ∧
    codeBits treedWriting.huf.code [0x61, 0x7A] = none :=
  ⟨ready rfl rfl, rfl, rfl, by decide +kernel, by decide +kernel⟩

theorem test_encode_no_code :
    after (exec .hufEncode { treedWriting with mem := { srcData := [0x61, 0x7A], srcPos := 0, snkData := [] } }) (fun t =>
      t.rsp == packRsp 0x87 12 && t.mem.snkData == [0xB2]) = true := by
  decide +kernel

/-- The stream of "abac" in a reader, with arenas that just hold and just do not hold its 5 nodes. -/
def abacStream (cap : Option Nat) : State :=
  { reading [0x58, 0x56, 0x2B, 0x1A, 0x6F] with params := { Params.normative with nodeCap := cap } }

theorem witness_DeserializeRebuildsTheTree :
    (Ready (abacStream (some 5)) ∧ (abacStream (some 5)).br.isOpen = true ∧ CursorInv (abacStream (some 5)).br ∧
      NoIoFail (abacStream (some 5)) ∧
      (abacStream (some 5)).bitsToRead = abacTree.ser ++ [false, true, false, false, true, true] ∧
      ArenaHolds (abacStream (some 5)).params abacTree) ∧
    ((abacStream (some 4)).bitsToRead = abacTree.ser ++ [false, true, false, false, true, true] ∧
      ¬ ArenaHolds (abacStream (some 4)).params abacTree) :=
  ⟨⟨ready rfl rfl, rfl, cursor_reading [], noFail rfl, by decide +kernel, by unfold ArenaHolds; decide⟩,
   by decide +kernel, by unfold ArenaHolds; decide⟩

/-- No tree: an empty stream, and a leaf cut one bit short (with a final `FF` too). -/
theorem witness_DeserializeRebuildsTheTree_none :
    (∀ (T : Tree) (rest : List Bool), (reading []).bitsToRead ≠ T.ser ++ rest) ∧ (reading []).params.nodeCap = none ∧
    (reading []).readEndsCorrupt = false ∧
    (∀ (T : Tree) (rest : List Bool), (reading [0xFF]).bitsToRead ≠ T.ser ++ rest) ∧
    (reading [0xFF]).readEndsCorrupt = true := by
  have hser : ∀ T : Tree, T.ser ≠ [] := by
    intro T
    cases T <;> simp [Tree.ser]
  refine ⟨fun T rest h => ?_, rfl, by decide, fun T rest h => ?_, by decide⟩
  · have : ([] : List Bool) = T.ser ++ rest := h
    exact hser T (List.append_eq_nil_iff.mp this.symm).1
  · have : ([] : List Bool) = T.ser ++ rest := h
    exact hser T (List.append_eq_nil_iff.mp this.symm).1

/-- The tree of "abac" and a reader on `4D` (bits `0 1 0 0 1 1`), on `2F` (bits `0 0 1`, ending inside a code), on
`40 FF`. -/
def payload (bytes : List Byte) : State := { reading bytes with huf := treed.huf }

theorem cursor_payload (bytes : List Byte) : CursorInv (payload bytes).br :=
  cursor_reading bytes

def abacSyms : List (Byte × List Bool) :=
  [(0x61, [false]), (0x62, [true, false]), (0x61, [false]), (0x63, [true, true])]

theorem witness_DecodeEmitsTheLeaves :
    (Ready (payload [0x4D]) ∧ (payload [0x4D]).huf.treeOk = true ∧ (payload [0x4D]).huf.tree = some abacTree ∧
      (payload [0x4D]).br.isOpen = true ∧ (payload [0x4D]).bw.isOpen = false ∧ CursorInv (payload [0x4D]).br ∧
      NoIoFail (payload [0x4D])) ∧
    (2 ≤ abacTree.leaves ∧ (∀ p ∈ abacSyms, p ∈ abacTree.paths []) ∧
      (payload [0x4D]).bitsToRead = abacSyms.flatMap Prod.snd ++ [] ∧ (payload [0x4D]).readEndsCorrupt = false) ∧
    ((payload [0x2F]).bitsToRead = ([(0x61, [false]), (0x61, [false])] : List (Byte × List Bool)).flatMap Prod.snd ++ [true] ∧
      (∃ p ∈ abacTree.paths [], [true] <+: p.2 ∧ [true] ≠ p.2) ∧ (payload [0x2F]).readEndsCorrupt = false) ∧
    (payload [0xFF]).readEndsCorrupt = true ∧ (payload [0xFF]).bitsToRead = [] :=
  ⟨⟨ready rfl rfl, rfl, by decide +kernel, rfl, rfl, cursor_payload [0x4D], noFail rfl⟩,
   ⟨by decide, by decide +kernel, by decide +kernel, by decide⟩,
   ⟨by decide +kernel, ⟨(0x62, [true, false]), by decide +kernel, ⟨[false], rfl⟩, by decide⟩, by decide⟩,
   by decide, by decide⟩

theorem witness_DecodeEmitsTheLeaves_single_corrupt :
    ({ reading [0x07, 0xFF] with huf := { Huffman.reset with nodes := [⟨.leaf 0x41, 4⟩], treeOk := true } } :
      State).huf.tree = some (.leaf 0x41) ∧ (reading [0x07, 0xFF]).readEndsCorrupt = true ∧
    (reading [0x07, 0xFF]).bitsToRead.length = 8 := by
  decide +kernel

theorem witness_DecodeEmitsTheLeaves_single :
    ({ reading [0x07] with huf := { Huffman.reset with nodes := [⟨.leaf 0x41, 4⟩], treeOk := true } } : State).huf.tree =
      some (.leaf 0x41) ∧ (reading [0x07]).readEndsCorrupt = false := by
  decide +kernel

theorem test_decode_ends :
    after (exec .hufDecode (payload [0x2F])) (fun t => t.rsp == packRsp 0x82 5 && t.mem.snkData == [0xEE, 0x61, 0x61]) =
      true ∧
    after (exec .hufDecode (payload [0x80, 0xFF])) (fun t => t.rsp == packRsp 0x82 7) = true := by
  decide +kernel

theorem witness_DecodingInvertsEncoding :
    Ready (abacStream none) ∧ (abacStream none).br.isOpen = true ∧ (abacStream none).bw.isOpen = false ∧
    CursorInv (abacStream none).br ∧ NoIoFail (abacStream none) ∧ ArenaHolds (abacStream none).params abacTree ∧
    abacTree.leafBytes.Nodup ∧
    codeBits (codeTable abacTree) [0x61, 0x62, 0x61, 0x63] = some [false, true, false, false, true, true] ∧
    (abacStream none).bitsToRead = abacTree.ser ++ [false, true, false, false, true, true] ∧
    (abacStream none).readEndsCorrupt = false :=
  ⟨ready rfl rfl, rfl, rfl, cursor_reading [], noFail rfl, rfl, by decide, by decide +kernel, by decide +kernel,
   by decide⟩

theorem witness_HuffmanCompress :
    Ready (src [0x41]) ∧ (src [0x41]).br.isOpen = false ∧ (src [0x41]).bw.isOpen = false ∧ NoIoFail (src [0x41]) ∧
    Params.wf (src [0x41]).params = true ∧ Params.fitsFreq (src [0x41]).params (src [0x41]).mem.srcData.length = true ∧
    (src [0x41]).mem.srcData ≠ [] ∧ (src []).mem.srcData = [] :=
  ⟨ready rfl rfl, rfl, rfl, noFail rfl, by decide, by decide, by decide, rfl⟩

theorem test_compress_empty : after (exec .hufCompress (src [])) (fun t =>
    t.rsp == packRsp 0x84 0 && t.faultReg == packFault 2 0x4E 0x84 0 && t.mem.snkData == [0xEE]) = true := by
  decide +kernel

theorem witness_HuffmanDecompress :
    (Ready (src [0x58, 0x56, 0x2B, 0x1A, 0x6F]) ∧ ArenaHolds (src [0x58, 0x56, 0x2B, 0x1A, 0x6F]).params abacTree ∧
      (∀ p ∈ abacSyms, p ∈ abacTree.paths []) ∧
      validBits [0x58, 0x56, 0x2B, 0x1A, 0x6F] = abacTree.ser ++ abacSyms.flatMap Prod.snd ∧
      endsCorrupt [0x58, 0x56, 0x2B, 0x1A, 0x6F] = false) ∧
    (validBits [0xA0, 0x83] = (Tree.leaf 0x41).ser ++ [false, false, false, false] ∧ endsCorrupt [0xA0, 0x83] = false) ∧
    (src []).mem.srcData = [] :=
  ⟨⟨ready rfl rfl, rfl, by decide +kernel, by decide +kernel, by decide⟩, ⟨by decide +kernel, by decide⟩, rfl⟩

/-- A source whose stream is padded, and one whose stream is aligned: 9 bits of tree and 7 of payload. -/
theorem witness_HuffmanRoundTrip :
    (∃ t, exec .hufCompress (src [0x41]) = .next t ∧ (t.mem.snkData == [0xA0, 0x9F]) = true) ∧
    (∃ t, exec .hufCompress (src (List.replicate 7 0x41)) = .next t ∧ (t.mem.snkData == [0xA0, 0x80]) = true) ∧
    Ready (src [0xA0, 0x9F]) ∧ Ready (src [0xA0, 0x80]) ∧ NoIoFail (src [0xA0, 0x80]) ∧
    Params.wf (src [0xA0, 0x80]).params = true ∧ (10 * (Tree.leaf 0x41).leaves - 1 + 7) % 8 = 0 :=
  ⟨of_after (p := fun t => t.mem.snkData == [0xA0, 0x9F]) (by decide +kernel),
   of_after (p := fun t => t.mem.snkData == [0xA0, 0x80]) (by decide +kernel), ready rfl rfl, ready rfl rfl, noFail rfl,
   by decide, by decide⟩

/-! LZW -/

theorem witness_SeedDictionaries : Ready (encoding [0x61]) ∧ Ready (decoding [] (some [0x61])) :=
  ⟨ready rfl rfl, ready rfl rfl⟩

theorem witness_EncodeOneByte :
    (Ready (encoding []) ∧ (encoding []).lzw.eready = true ∧ EncoderInv (encoding []).lzw ∧
      (encoding []).bw.isOpen = true ∧ WriterInv (encoding []) ∧ NoIoFail (encoding []) ∧
      (encoding []).lzw.buf ++ [0xFF] ∈ (encoding []).lzw.edict) ∧
    (EncoderInv (encoding [0xFF]).lzw ∧ (encoding [0xFF]).lzw.buf ++ [0xFF] ∉ (encoding [0xFF]).lzw.edict) :=
  ⟨⟨ready rfl rfl, rfl, encoder_encoding (.inl rfl), rfl, fun _ => by decide, noFail rfl, by decide +kernel⟩,
   encoder_encoding (.inr (by decide +kernel)), by decide +kernel⟩

theorem witness_FlushTheMatch :
    (EncoderInv (encoding []).lzw ∧ (encoding []).lzw.buf = []) ∧
    (Ready (encoding [0x61]) ∧ EncoderInv (encoding [0x61]).lzw ∧ (encoding [0x61]).lzw.buf ≠ []) :=
  ⟨⟨encoder_encoding (.inl rfl), rfl⟩, ready rfl rfl, encoder_encoding (.inr (by decide +kernel)), by decide⟩

theorem cursor_decoding (bytes : List Byte) (prev : Option (List Byte)) : CursorInv (decoding bytes prev).br :=
  ⟨fun h => absurd (show false = true from h) (by decide), fun _ => rfl⟩

/-- The largest first code; a code in the table; the code equal to `dnext`. -/
theorem witness_DecodeOneCode_emits :
    (Ready (decoding [0x0F, 0xF7] none) ∧ DecoderInv (decoding [0x0F, 0xF7] none).lzw ∧
      CursorInv (decoding [0x0F, 0xF7] none).br ∧ NoIoFail (decoding [0x0F, 0xF7] none) ∧
      12 ≤ (decoding [0x0F, 0xF7] none).bitsToRead.length ∧
      val ((decoding [0x0F, 0xF7] none).bitsToRead.take 12) = 255 ∧ seedDictionary[255]? = some [0xFF]) ∧
    (DecoderInv (decoding [0x06, 0x17] (some [0x62])).lzw ∧
      val ((decoding [0x06, 0x17] (some [0x62])).bitsToRead.take 12) = 97 ∧ seedDictionary[97]? = some [0x61]) ∧
    (val ((decoding [0x10, 0x07] (some [0x61])).bitsToRead.take 12) = 256 ∧
      256 = (decoding [0x10, 0x07] (some [0x61])).lzw.dtab.length ∧ ([0x61] : List Byte).head? = some 0x61) :=
  ⟨⟨ready rfl rfl, decoder_decoding _ (by decide), cursor_decoding _ _, noFail rfl, by decide +kernel, by decide +kernel,
    by decide +kernel⟩,
   ⟨decoder_decoding _ (by decide), by decide +kernel, by decide +kernel⟩, by decide +kernel, by decide +kernel, rfl⟩

/-- The smallest codes refused: 256 first, 257 later; and the ends of the stream. -/
theorem witness_DecodeOneCode_stops :
    val ((decoding [0x10, 0x07] none).bitsToRead.take 12) = 256 ∧
    (val ((decoding [0x10, 0x17] (some [0x61])).bitsToRead.take 12) = 257 ∧
      (decoding [0x10, 0x17] (some [0x61])).lzw.dtab.length < 257) ∧
    ((decoding [0x06, 0xFF] none).bitsToRead.length < 12 ∧ (decoding [0x06, 0xFF] none).readEndsCorrupt = true) ∧
    ((decoding [] none).bitsToRead = [] ∧ (decoding [] none).readEndsCorrupt = false) ∧
    (1 ≤ (decoding [0x3F] none).bitsToRead.length ∧ (decoding [0x06, 0x2F] none).bitsToRead.length < 12 ∧
      (decoding [0x06, 0x2F] none).readEndsCorrupt = false) := by
  decide +kernel

theorem test_code_range :
    after (exec .lzwDecCode (decoding [0x10, 0x17] (some [0x61]))) (fun t => t.rsp == packRsp 0x82 2) = true ∧
    after (exec .lzwDecCode (decoding [0x06, 0x2F] none)) (fun t => t.rsp == packRsp 0x82 3) = true ∧
    after (exec .lzwDecCode (decoding [] none)) (fun t => t.rsp == packRsp 0x01 0) = true := by
  decide +kernel

theorem witness_LzwCompress : Ready (src [0x61]) ∧ (src [0x61]).br.isOpen = false ∧ (src [0x61]).bw.isOpen = false ∧
    NoIoFail (src [0x61]) :=
  ⟨ready rfl rfl, rfl, rfl, noFail rfl⟩

theorem witness_LzwDecoderMirrorsEncoder :
    Ready (src [0x06, 0x11, 0x00, 0x06, 0x17]) ∧ NoIoFail (src [0x06, 0x11, 0x00, 0x06, 0x17]) ∧
    lzwCodes seedDictionary [] [0x61, 0x61, 0x61, 0x61] = some [97, 256, 97] ∧
    validBits [0x06, 0x11, 0x00, 0x06, 0x17] = codesBits [97, 256, 97] ∧
    endsCorrupt [0x06, 0x11, 0x00, 0x06, 0x17] = false :=
  ⟨ready rfl rfl, noFail rfl, by decide +kernel, by decide +kernel, by decide⟩

/-- One code, and two. -/
theorem witness_LzwRoundTrip :
    (∃ t, exec .lzwCompress (src [0x61]) = .next t ∧ (t.mem.snkData == [0x06, 0x17]) = true) ∧
    (∃ t, exec .lzwCompress (src [0x61, 0x62]) = .next t ∧ (t.mem.snkData == [0x06, 0x10, 0x62]) = true) ∧
    lzwCodes seedDictionary [] [0x61] = some [97] ∧ lzwCodes seedDictionary [] [0x61, 0x62] = some [97, 98] ∧
    Ready (src [0x06, 0x10, 0x62]) ∧ NoIoFail (src [0x06, 0x10, 0x62]) :=
  ⟨of_after (p := fun t => t.mem.snkData == [0x06, 0x17]) (by decide +kernel),
   of_after (p := fun t => t.mem.snkData == [0x06, 0x10, 0x62]) (by decide +kernel), by decide +kernel, by decide +kernel,
   ready rfl rfl, noFail rfl⟩

theorem test_lzw_aligned : after (exec .lzwDecompress (src [0x06, 0x10, 0x62])) (fun t =>
    t.rsp == packRsp 0x82 3 && t.faultReg == packFault 9 0x6F 0x82 3) = true := by
  decide +kernel

end Sys2Proof.Tests
end

