-- ==== Sys2Proof/Proofs/PackedBits.lean ====
section
/-! PROOF. `P(B)` and `V(S)` (R36, R37) as operations on bit sequences, and the round-trip law of the bit level (R38). The
idea: a packed stream is `w ++ [c]`, its valid bits are the bits of `w` and the valid bits of `c`, and the bits of the whole
bytes are those packed; so only the last byte is looked at. -/

namespace Sys2Proof.Machine

/-! ### The last byte -/

/-- The trailing ones of a byte are the ones its bits end in. -/
theorem trailingOnes_eq_takeWhile_reverse (c : Byte) :
    trailingOnes c = ((byteBits c).reverse.takeWhile id).length := by
  have hbits : (byteBits c).reverse = (List.range 8).map c.getLsbD := by
    apply List.ext_getElem (by simp)
    intro i hi _
    have h8 : i < 8 := by simpa using hi
    simp only [List.getElem_reverse, byteBits_getElem, byteBits_length, List.getElem_map, List.getElem_range]
    congr 1
    omega
  rw [hbits, List.takeWhile_map, List.length_map]
  rfl

theorem trailingOnes_of_byteBits {c : Byte} {s : List Bool} {m : Nat}
    (h : byteBits c = s ++ false :: List.replicate m true) : trailingOnes c = m := by
  rw [trailingOnes_eq_takeWhile_reverse, h]
  simp [List.takeWhile_append_of_pos]

/-- A byte that is `s`, a `0` and ones only has the valid bits `s` (R36). -/
theorem lastByteBits_of_byteBits {c : Byte} {s : List Bool} {m : Nat}
    (h : byteBits c = s ++ false :: List.replicate m true) : lastByteBits c = s := by
  have hlen : s.length = 7 - m := by
    have h8 := congrArg List.length h
    simp only [byteBits_length, List.length_append, List.length_cons, List.length_replicate] at h8
    omega
  rw [lastByteBits, trailingOnes_of_byteBits h, h, ← hlen, List.take_left]

/-- The final byte of `k` pending bits is those bits, a `0` and ones (R82). -/
theorem byteBits_finalByte (acc : Byte) {k : Nat} (h₁ : 1 ≤ k) (h₇ : k ≤ 7) :
    byteBits (finalByte acc k) = bitsOf k acc.toNat ++ false :: List.replicate (7 - k) true := by
  apply List.ext_getElem (by simp; omega)
  intro i hi _
  have h8 : i < 8 := by simpa using hi
  rw [byteBits_getElem, finalByte, BitVec.getLsbD_or, BitVec.getLsbD_shiftLeft, BitVec.getLsbD_ofNat,
    Nat.testBit_two_pow_sub_one]
  rcases Nat.lt_trichotomy i k with hlt | rfl | hgt
  · rw [List.getElem_append_left (by simpa using hlt), bitsOf_getElem, BitVec.testBit_toNat]
    have hpos : 7 - i - (8 - k) = k - 1 - i := by omega
    have hpend : ¬ 7 - i < 8 - k := by omega
    have hones : ¬ 7 - i < 7 - k := by omega
    simp [hpos, hpend, hones, Nat.sub_lt_succ 7 i]
  · rw [List.getElem_append_right (by simp)]
    simp
    omega
  · obtain ⟨j, rfl⟩ : ∃ j, i = k + 1 + j := ⟨i - (k + 1), by omega⟩
    rw [List.getElem_append_right (by simp; omega)]
    have hpos : k + 1 + j - k = j + 1 := by omega
    simp [hpos]
    omega

theorem trailingOnes_finalByte (acc : Byte) {k : Nat} (h₁ : 1 ≤ k) (h₇ : k ≤ 7) :
    trailingOnes (finalByte acc k) = 7 - k :=
  trailingOnes_of_byteBits (byteBits_finalByte acc h₁ h₇)

theorem lastByteBits_finalByte (acc : Byte) {k : Nat} (h₁ : 1 ≤ k) (h₇ : k ≤ 7) :
    lastByteBits (finalByte acc k) = bitsOf k acc.toNat :=
  lastByteBits_of_byteBits (byteBits_finalByte acc h₁ h₇)

/-- The writer's final byte is the number R37 writes for the pending bits. -/
theorem finalByte_ofNat (v k : Nat) :
    finalByte (BitVec.ofNat 8 v) k = BitVec.ofNat 8 (v <<< (8 - k) ||| (2 ^ (7 - k) - 1)) := by
  have hshift : BitVec.ofNat 8 (v <<< (8 - k)) = BitVec.ofNat 8 v <<< (8 - k) :=
    BitVec.eq_of_toNat_eq (by simp [Nat.shiftLeft_eq])
  rw [finalByte, BitVec.ofNat_or, hshift]

theorem finalByte_ne_ff (acc : Byte) {k : Nat} (h₁ : 1 ≤ k) (h₇ : k ≤ 7) : finalByte acc k ≠ 0xFF#8 := by
  rw [Ne, ← trailingOnes_eq_eight, trailingOnes_finalByte acc h₁ h₇]
  omega

/-! ### The streams -/

theorem streamBits_singleton (c : Byte) : streamBits [c] = byteBits c := List.flatMap_singleton ..

theorem validBits_append_singleton (w : List Byte) (c : Byte) :
    validBits (w ++ [c]) = streamBits w ++ lastByteBits c := by
  induction w with
  | nil => rfl
  | cons b w ih =>
    have hcons : validBits (b :: (w ++ [c])) = byteBits b ++ validBits (w ++ [c]) := by cases w <;> rfl
    rw [List.cons_append, hcons, ih, streamBits, streamBits, List.flatMap_cons, List.append_assoc]

theorem endsCorrupt_append_singleton (w : List Byte) (c : Byte) : endsCorrupt (w ++ [c]) = (c == 0xFF#8) := by
  rw [endsCorrupt, List.getLast?_concat, Option.some_beq_some]

/-- The first `q` bytes of a bit sequence, as `packBits` makes them (R37). -/
def wholeBytes (q : Nat) (bits : List Bool) : List Byte :=
  (List.range q).map fun j => BitVec.ofNat 8 (val ((bits.drop (8 * j)).take 8))

theorem streamBits_wholeBytes {q : Nat} {bits : List Bool} (h : 8 * q ≤ bits.length) :
    streamBits (wholeBytes q bits) = bits.take (8 * q) := by
  induction q with
  | zero => rfl
  | succ q ih =>
    have hchunk : ((bits.drop (8 * q)).take 8).length = 8 := by simp; omega
    have hsplit : wholeBytes (q + 1) bits =
        wholeBytes q bits ++ [BitVec.ofNat 8 (val ((bits.drop (8 * q)).take 8))] := by
      simp [wholeBytes, List.range_succ]
    rw [hsplit, streamBits_append, ih (by omega), streamBits_singleton,
      byteBits_ofNat_val _ hchunk, Nat.mul_succ, List.take_add]

theorem packBits_aligned (padOnAligned : Bool) {bits : List Bool} (h : bits.length % 8 = 0) :
    packBits padOnAligned bits =
      wholeBytes (bits.length / 8) bits ++ (if padOnAligned then [alignedPad] else []) := by
  simp only [packBits, if_pos h, wholeBytes]

/-- The last byte of a packed sequence of no aligned length is the writer's final byte of the bits left over (R37, R81). -/
theorem packBits_unaligned (padOnAligned : Bool) {bits : List Bool} (h : bits.length % 8 ≠ 0) :
    packBits padOnAligned bits = wholeBytes (bits.length / 8) bits ++
      [finalByte (BitVec.ofNat 8 (val (bits.drop (8 * (bits.length / 8))))) (bits.length % 8)] := by
  simp only [packBits, if_neg h, wholeBytes, finalByte_ofNat]

/-! ### The round-trip law -/

theorem streamBits_wholeBytes_of_aligned {bits : List Bool} (h : bits.length % 8 = 0) :
    streamBits (wholeBytes (bits.length / 8) bits) = bits := by
  rw [streamBits_wholeBytes (by omega), List.take_of_length_le (by omega)]

/-- The bits left over are read back from the final byte, with or without `PAD_ON_ALIGNED`. -/
theorem packBits_readBack_of_unaligned (padOnAligned : Bool) {bits : List Bool} (h : bits.length % 8 ≠ 0) :
    validBits (packBits padOnAligned bits) = bits ∧ endsCorrupt (packBits padOnAligned bits) = false := by
  have h₁ : 1 ≤ bits.length % 8 := by omega
  have h₇ : bits.length % 8 ≤ 7 := by omega
  rw [packBits_unaligned _ h, endsCorrupt_append_singleton, validBits_append_singleton,
    streamBits_wholeBytes (by omega), lastByteBits_finalByte _ h₁ h₇]
  refine ⟨?_, beq_false_of_ne (finalByte_ne_ff _ h₁ h₇)⟩
  have hrest : (bits.drop (8 * (bits.length / 8))).length = bits.length % 8 := by simp; omega
  have hval : val (bits.drop (8 * (bits.length / 8))) < 2 ^ 8 :=
    (val_lt _).trans_le (Nat.pow_le_pow_right (by omega) (by omega))
  rw [BitVec.toNat_ofNat, Nat.mod_eq_of_lt hval, ← hrest, bitsOf_val, List.take_append_drop]

/-- Under `PAD_ON_ALIGNED` an aligned sequence is followed by the byte `0x7F`, which has no valid bits (R58). -/
theorem packBits_true_readBack_of_aligned {bits : List Bool} (h : bits.length % 8 = 0) :
    validBits (packBits true bits) = bits ∧ endsCorrupt (packBits true bits) = false := by
  rw [packBits_aligned _ h, if_pos rfl, endsCorrupt_append_singleton, validBits_append_singleton,
    streamBits_wholeBytes_of_aligned h]
  have hpad : lastByteBits alignedPad = [] := by decide
  exact ⟨by rw [hpad, List.append_nil], by decide⟩

/-- Without it the last whole byte is taken for a padded one: an aligned sequence is the bits of bytes `w ++ [c]`, and of
`c` only the valid bits are read back. -/
theorem packBits_false_of_aligned {bits : List Bool} (h : bits.length % 8 = 0) (hne : bits ≠ []) :
    ∃ w c, packBits false bits = w ++ [c] ∧ bits = streamBits w ++ byteBits c := by
  have hpack : packBits false bits = wholeBytes (bits.length / 8) bits := by simp [packBits_aligned _ h]
  have hbits := streamBits_wholeBytes_of_aligned h
  rcases List.eq_nil_or_concat' (wholeBytes (bits.length / 8) bits) with hw | ⟨w, c, hw⟩
  · rw [hw] at hbits
    exact absurd hbits.symm hne
  · rw [hw, streamBits_append, streamBits_singleton] at hbits
    exact ⟨w, c, hpack.trans hw, hbits.symm⟩

/-- `V` of a stream leaves out the last `0` and the ones after it (R36). -/
theorem validBits_append_singleton_eq_take (w : List Byte) {c : Byte} (h : trailingOnes c ≤ 7) :
    validBits (w ++ [c]) =
      (streamBits w ++ byteBits c).take ((streamBits w ++ byteBits c).length - (1 + trailingOnes c)) := by
  have hlen : (streamBits w ++ byteBits c).length - (1 + trailingOnes c) =
      (streamBits w).length + (7 - trailingOnes c) := by
    rw [List.length_append, byteBits_length]
    omega
  rw [hlen, List.take_length_add_append, validBits_append_singleton, lastByteBits]

theorem trailingOnes_le_seven {c : Byte} (h : c ≠ 0xFF#8) : trailingOnes c ≤ 7 := by
  have hle := trailingOnes_le c
  have hne := mt (trailingOnes_eq_eight c).mp h
  omega

/-- Settles O32, by the last byte of the packed stream: the final byte of the bits left over, the byte `0x7F`, or the last
whole byte. -/
theorem packedBitsReadBack : Obligations.PackedBitsReadBack := by
  refine ⟨fun B hB => ?_, fun B h hne => ?_, fun B => ?_⟩
  · rcases hB with h | rfl
    · exact packBits_readBack_of_unaligned false h
    · exact ⟨rfl, rfl⟩
  · obtain ⟨w, c, hpack, hbits⟩ := packBits_false_of_aligned h hne
    rw [hpack, endsCorrupt_append_singleton]
    refine ⟨c, List.getLast?_concat, fun hc => ?_, fun hc => beq_iff_eq.mpr hc⟩
    have hones := trailingOnes_le_seven hc
    exact ⟨beq_false_of_ne hc, hones, hbits ▸ validBits_append_singleton_eq_take w hones⟩
  · rcases Nat.eq_zero_or_pos (B.length % 8) with h | h
    · exact packBits_true_readBack_of_aligned h
    · exact packBits_readBack_of_unaligned true h.ne'

end Sys2Proof.Machine
end

