-- ==== Sys2Proof/Proofs/CommandEnds.lean ====
section
/-! PROOF. How a command of a ready block ends (R152, R174 to R176), in the terms the claims use: refused by its first
failed precondition, failed during execution, or answered end-of-stream. -/

namespace Sys2Proof.Machine

theorem bind_eq_ok {α β : Type} {m : M α} {f : α → M β} {s u : State} {b : β} :
    (m >>= f) s = .ok b u ↔ ∃ a t, m s = .ok a t ∧ f a t = .ok b u := by
  rw [bind_apply]
  cases m s <;> simp

theorem State.faultEntry_of_ready {s : State} (op : Byte) (c : Cause) (h : Ready s) :
    s.faultEntry op c false = s.refused op c.kind.code c.info := by
  obtain ⟨hheld, hphase⟩ := h
  simp only [State.faultEntry_precise _ _ _ hheld, hphase, Phase.code, State.refused]

/-- What the execution of a primitive command leaves until a fault of it is recorded (R175): `FAULT`, the phase, the
command word, the host's inputs, the parameters, the source's content. -/
def SameRecord (s t : State) : Prop :=
  t.faultReg = s.faultReg ∧ t.phase = s.phase ∧ t.cmd = s.cmd ∧ t.host = s.host ∧ t.params = s.params ∧
  t.mem.srcData = s.mem.srcData

section
variable {op : Byte} {checks : State → Checks} {body : M Response} {s t : State}

theorem command_refused_of_ready {c : Cause} (h : Ready s) (hc : firstFailed (checks s) = some c) :
    command op checks body s = .next (s.refused op c.kind.code c.info) := by
  rw [command_refused h.1 hc, State.faultEntry_of_ready op c h]

/-- A raise during execution (R175, R176): it is recorded, and the bytes put and taken before it stand. -/
theorem command_fails {c : Cause} {u : State} (h : Ready s) (hc : firstFailed (checks s) = none)
    (hb : body s = .error (.raise c) u) (hu : SameRecord s u) :
    ∃ t, command op checks body s = .next t ∧ FailedDuring s t 0 op c.kind.code c.info ∧ t.mem = u.mem := by
  obtain ⟨hheld, hphase⟩ := h
  obtain ⟨hfault, hph, hcmd, hhost, hparams, hsrc⟩ := hu
  have hu' : u.held = false := by rw [State.held, hfault]; exact hheld
  obtain ⟨hbr, hbw⟩ := u.faultEntry_closes op c
  refine ⟨u.faultEntry op c true, command_raises hheld hc hb, ⟨?_, rfl, rfl, hbr, hbw, ?_⟩, u.faultEntry_mem op c true⟩
  · simp [hu', hph, hphase, Phase.code]
  · simp [hcmd, hhost, hparams, hsrc]

/-- The ways a command of a block that is not held can end (R152, steps 4 to 6). -/
theorem command_next_cases (h : s.held = false) (hx : command op checks body s = .next t) :
    (∃ c, firstFailed (checks s) = some c ∧ t = s.faultEntry op c false) ∨
    (∃ v u, firstFailed (checks s) = none ∧ body s = .ok v u ∧ t = u.respond v.status.code v.value) ∨
    (∃ c u, firstFailed (checks s) = none ∧ body s = .error (.raise c) u ∧ t = u.faultEntry op c true) := by
  cases hc : firstFailed (checks s) with
  | some c =>
    rw [command_refused h hc, Host.Outcome.next.injEq] at hx
    exact .inl ⟨c, rfl, hx.symm⟩
  | none =>
    rcases hb : body s with ⟨v, u⟩ | ⟨c | f, u⟩
    · rw [command_returns h hc hb, Host.Outcome.next.injEq] at hx
      exact .inr (.inl ⟨v, u, rfl, rfl, hx.symm⟩)
    · rw [command_raises h hc hb, Host.Outcome.next.injEq] at hx
      exact .inr (.inr ⟨c, u, rfl, rfl, hx.symm⟩)
    · simp [command, runCommand, h, hc, hb] at hx

theorem CauseKind.code_ne_eos (k : CauseKind) : k.code ≠ 0x01 := by
  cases k <;> decide

/-- No fault has the status of end-of-stream (R53): a command that answers it has returned it. -/
theorem command_answers_eos (h : s.held = false) (hx : command op checks body s = .next t)
    (heos : rspStatus t.rsp = 0x01) : ∃ r u, body s = .ok ⟨.eos, r⟩ u ∧ t = u.respond 0x01 r := by
  rcases command_next_cases h hx with ⟨c, -, rfl⟩ | ⟨⟨_ | _, r⟩, u, -, hb, rfl⟩ | ⟨c, u, -, -, rfl⟩
  · exact absurd heos (by simpa using c.kind.code_ne_eos)
  · exact absurd heos (by simp [Status.code])
  · exact ⟨r, u, hb, rfl⟩
  · exact absurd heos (by simpa using c.kind.code_ne_eos)

end

end Sys2Proof.Machine
end

