-- ==== Sys2Proof/Proofs/BitReader.lean ====
section
/-! PROOF. The reader's end-of-stream (R77) and its close (R75). The idea for the end: a refill that leaves no bit at hand
has found the end of the source, since an interior byte has eight bits; so whichever read answers end-of-stream leaves the
lookahead at `EOF`, where the next read changes nothing. -/

namespace Sys2Proof.Machine

/-! ### What reading changes, whatever the ports answer -/

namespace ReaderFrame

theorem keeps_bind {α β : Type} {m : M α} {f : α → M β} (hm : Keeps ReaderFrame m)
    (hf : ∀ a, Keeps ReaderFrame (f a)) : Keeps ReaderFrame (m >>= f) :=
  Keeps.bind (R := ReaderFrame) (fun h₁ h₂ => ReaderFrame.trans h₁ h₂) hm hf

theorem keeps_pure {α : Type} (a : α) : Keeps ReaderFrame (pure a : M α) := ReaderFrame.refl

theorem keeps_look {α : Type} (f : State → α) : Keeps ReaderFrame (look f) := ReaderFrame.refl

theorem keeps_change {f : State → State} (h : ∀ s, ReaderFrame s (f s)) : Keeps ReaderFrame (change f) := h

theorem keeps_runIf (p : Bool) {m : M Unit} (hm : Keeps ReaderFrame m) : Keeps ReaderFrame (runIf p m) :=
  EnvRelation.ite hm (keeps_pure ())

theorem keeps_portAccess (info : Byte) : Keeps ReaderFrame (portAccess info) := by
  intro s
  unfold portAccess
  rcases ha : s.answers with _ | ⟨_ | _, rest⟩
  · exact ReaderFrame.refl s
  · exact ⟨rfl, ha ▸ List.suffix_cons _ rest⟩
  · exact ⟨rfl, ha ▸ List.suffix_cons _ rest⟩

theorem keeps_srcNext : Keeps ReaderFrame srcNext := by
  refine keeps_bind (keeps_portAccess 2) fun _ => keeps_bind (keeps_look _) fun v => ?_
  cases v with
  | none => exact keeps_pure _
  | some b => exact keeps_bind (keeps_change fun _ => ⟨rfl, List.suffix_refl _⟩) fun _ => keeps_pure _

theorem keeps_fetchLookahead : Keeps ReaderFrame fetchLookahead := by
  refine keeps_bind keeps_srcNext fun v => ?_
  cases v <;> exact keeps_change fun _ => ⟨rfl, List.suffix_refl _⟩

theorem keeps_limitOf (c : Byte) (st : LaState) : Keeps ReaderFrame (limitOf c st) :=
  EnvRelation.ite (EnvRelation.ite ReaderFrame.refl (keeps_pure _)) (keeps_pure _)

theorem keeps_takeLookahead : Keeps ReaderFrame takeLookahead :=
  keeps_bind (keeps_look _) fun _ => keeps_bind keeps_fetchLookahead fun _ => keeps_bind (keeps_look _) fun _ =>
    keeps_bind (keeps_limitOf _ _) fun _ => keeps_runIf _ (keeps_change fun _ => ⟨rfl, List.suffix_refl _⟩)

theorem keeps_refill : Keeps ReaderFrame refill :=
  keeps_bind (keeps_look _) fun _ => keeps_bind (keeps_runIf _ keeps_fetchLookahead) fun _ =>
    keeps_bind (keeps_look _) fun _ => keeps_runIf _ keeps_takeLookahead

theorem advance (s : State) : ReaderFrame s { s with br := s.br.advance } := by
  have hopen : s.br.advance.isOpen = s.br.isOpen := by
    unfold BitReader.advance
    split <;> rfl
  exact ⟨by rw [← hopen], List.suffix_refl _⟩

theorem keeps_readBit : Keeps ReaderFrame readBit := by
  refine keeps_bind (keeps_look _) fun _ => keeps_bind (keeps_runIf _ keeps_refill) fun _ => ?_
  intro s
  by_cases hbits : s.br.hasBits = true
  · simpa [hbits] using ReaderFrame.advance s
  · simpa [hbits] using ReaderFrame.refl s

theorem keeps_readBitsFrom (n g v : Nat) : Keeps ReaderFrame (readBitsFrom n g v) := by
  induction n generalizing g v with
  | zero => exact keeps_pure _
  | succ n ih =>
    refine keeps_bind keeps_readBit fun b => ?_
    cases b with
    | none => exact keeps_pure _
    | some b => exact ih _ _

/-- Reading leaves `FAULT` and the phase, so a block that was ready is ready after it. -/
theorem ready {s t : State} (h : ReaderFrame s t) (hs : Ready s) : t.faultReg = s.faultReg ∧ Ready t := by
  rw [h.1]
  exact ⟨rfl, hs⟩

end ReaderFrame

theorem Keeps.of_ok {α : Type} {R : State → State → Prop} {m : M α} (hm : Keeps R m) {s u : State} {a : α}
    (h : m s = .ok a u) : R s u := by
  simpa [h] using hm s

/-! ### A read that finds no bit has reached the end (R71, R73, R77) -/

/-- Only the last byte can be of no valid bits (R71): an interior byte has eight. -/
theorem limitOf_zero {c : Byte} {st : LaState} {s t : State} (h : limitOf c st s = .ok 0 t) : st = .eof ∧ t = s := by
  unfold limitOf at h
  split at h
  · rename_i hst
    unfold validCount at h
    split at h
    · cases h
    · simp only [pure_apply, EStateM.Result.ok.injEq] at h
      exact ⟨hst, h.2.symm⟩
  · simp at h

theorem takeLookahead_ends {s u : State} (h : takeLookahead s = .ok () u) :
    u.br.hasBits = true ∨ u.br.laSt = .eof := by
  simp only [takeLookahead, bind_eq_ok, look_apply, EStateM.Result.ok.injEq] at h
  obtain ⟨c, _, ⟨rfl, rfl⟩, _, t, -, _, _, ⟨rfl, rfl⟩, lim, v, hlim, h⟩ := h
  by_cases hz : lim = 0
  · subst hz
    obtain ⟨heof, rfl⟩ := limitOf_zero hlim
    simp only [runIf, bne_self_eq_false, Bool.false_eq_true, if_false, pure_apply, EStateM.Result.ok.injEq] at h
    exact .inr (h.2 ▸ heof)
  · simp only [runIf, bne_iff_ne.mpr hz, if_true, change_apply, EStateM.Result.ok.injEq] at h
    exact .inl (h.2 ▸ rfl)

theorem refill_ends {s u : State} (h : refill s = .ok () u) : u.br.hasBits = true ∨ u.br.laSt = .eof := by
  simp only [refill, bind_eq_ok, look_apply, EStateM.Result.ok.injEq] at h
  obtain ⟨_, _, ⟨rfl, rfl⟩, _, t, -, _, _, ⟨rfl, rfl⟩, h⟩ := h
  by_cases heof : t.br.laSt = .eof
  · simp only [runIf, heof, bne_self_eq_false, Bool.false_eq_true, if_false, pure_apply, EStateM.Result.ok.injEq] at h
    exact .inr (h.2 ▸ heof)
  · simp only [runIf, bne_iff_ne.mpr heof, if_true] at h
    exact takeLookahead_ends h

theorem readBit_none {s u : State} (h : readBit s = .ok none u) : u.br.hasBits = false ∧ u.br.laSt = .eof := by
  simp only [readBit, bind_eq_ok, look_apply, EStateM.Result.ok.injEq] at h
  obtain ⟨_, _, ⟨rfl, rfl⟩, _, t, hfill, _, _, ⟨rfl, rfl⟩, h⟩ := h
  cases hbits : t.br.hasBits with
  | true => simp [hbits] at h
  | false =>
    obtain rfl : t = u := by simpa [hbits] using h
    refine ⟨hbits, ?_⟩
    cases hs : s.br.hasBits with
    | true =>
      obtain rfl : s = t := by simpa [runIf, hs] using hfill
      exact absurd (hs.symm.trans hbits) (by decide)
    | false =>
      have hrefill : refill s = .ok () t := by simpa [runIf, hs] using hfill
      exact (refill_ends hrefill).resolve_left (by simp [hbits])

theorem readBitsFrom_eos {n g v g' : Nat} {s u : State} (h : readBitsFrom n g v s = .ok (.eos g') u) :
    u.br.hasBits = false ∧ u.br.laSt = .eof := by
  induction n generalizing g v s with
  | zero => simp [readBitsFrom] at h
  | succ n ih =>
    obtain ⟨b, t, hb, h⟩ := bind_eq_ok.mp h
    cases b with
    | none =>
      simp only [pure_apply, EStateM.Result.ok.injEq] at h
      exact h.2 ▸ readBit_none hb
    | some b => exact ih h

/-! ### Reading from there on (R77) -/

theorem readBit_at_end {s : State} (hbits : s.br.hasBits = false) (heof : s.br.laSt = .eof) :
    readBit s = .ok none s := by
  have hfill : refill s = .ok () s := by simp [refill, heof, runIf]
  simp [readBit, hbits, runIf, hfill]

theorem readBits_at_end {n : Nat} {s : State} (hn : 1 ≤ n) (hbits : s.br.hasBits = false) (heof : s.br.laSt = .eof) :
    readBits n s = .ok (.eos 0) s := by
  obtain ⟨m, rfl⟩ : ∃ m, n = m + 1 := ⟨n - 1, by omega⟩
  simp [readBits, readBitsFrom, readBit_at_end hbits heof]

/-! ### The commands -/

theorem brReadBitBody_eos {s u : State} {r : Wide} (h : brReadBitBody s = .ok ⟨.eos, r⟩ u) :
    readBit s = .ok none u := by
  obtain ⟨b, t, hb, h⟩ := bind_eq_ok.mp h
  cases b with
  | none =>
    simp only [pure_apply, EStateM.Result.ok.injEq] at h
    exact h.2 ▸ hb
  | some b => simp [result] at h

theorem brReadBitsBody_eos {n : BitVec 8} {s u : State} {r : Wide} (h : brReadBitsBody n s = .ok ⟨.eos, r⟩ u) :
    ∃ g, readBits n.toNat s = .ok (.eos g) u := by
  obtain ⟨v, t, hv, h⟩ := bind_eq_ok.mp h
  cases v with
  | value v => simp [result] at h
  | eos g =>
    simp only [pure_apply, EStateM.Result.ok.injEq] at h
    exact ⟨g, h.2 ▸ hv⟩

theorem exec_brReadBit (s : State) : exec .brReadBit s = command 0x01 brReadBitChecks brReadBitBody s := rfl

theorem exec_brReadBits (n : BitVec 8) (s : State) :
    exec (.brReadBits n) s = command 0x02 (brReadBitsChecks n) (brReadBitsBody n) s := rfl

/-- Settles O24: what a read that answers end-of-stream left, by the case of its refill that leaves no bit; and the next
read, by running it. -/
theorem endOfStreamPersists : Obligations.EndOfStreamPersists := by
  refine ⟨fun s t hs hx heos => ?_, fun s t n hs hx heos => ?_, fun s hs hopen hbits heof => ⟨?_, fun n h₁ h₃₂ => ?_⟩⟩
  · obtain ⟨r, u, hbody, rfl⟩ := command_answers_eos hs.1 hx heos
    have hread := brReadBitBody_eos hbody
    obtain ⟨hbits, heof⟩ := readBit_none hread
    exact ⟨hbits, heof, (ReaderFrame.keeps_readBit.of_ok hread).ready hs⟩
  · obtain ⟨r, u, hbody, rfl⟩ := command_answers_eos hs.1 hx heos
    obtain ⟨g, hread⟩ := brReadBitsBody_eos hbody
    obtain ⟨hbits, heof⟩ := readBitsFrom_eos hread
    exact ⟨hbits, heof, ((ReaderFrame.keeps_readBitsFrom _ 0 0).of_ok hread).ready hs⟩
  · have hbody : brReadBitBody s = .ok ⟨.eos, 0⟩ s := by simp [brReadBitBody, readBit_at_end hbits heof]
    have hc : firstFailed (brReadBitChecks s) = none := by
      simp [brReadBitChecks, needReaderOpen, firstFailed_cons, hopen]
    rw [exec_brReadBit, command_returns hs.1 hc hbody]
    rfl
  · have hcount : bitCountOk n = true := by simp [bitCountOk, nbitsMin, nbitsMax, h₁, h₃₂]
    have hbody : brReadBitsBody n s = .ok ⟨.eos, 0⟩ s := by simp [brReadBitsBody, readBits_at_end h₁ hbits heof]
    have hc : firstFailed (brReadBitsChecks n s) = none := by
      simp [brReadBitsChecks, needReaderOpen, argCount, firstFailed_cons, hopen, hcount]
    rw [exec_brReadBits, command_returns hs.1 hc hbody]
    rfl

theorem exec_brClose (s : State) : exec .brClose s = command 0x03 brCloseChecks brCloseBody s := rfl

theorem brCloseBody_ok {s : State} (h : NextAnswerOk s) :
    brCloseBody s = .ok done { s with br := { (Config.freeUnits s.draws).br with isOpen := false },
                                      answers := s.answers.tail, draws := s.draws + 1 } := by
  simp [brCloseBody, srcClose, portAccess_ok _ h]

theorem brCloseBody_fail {s : State} (h : NextAnswerFails s) :
    brCloseBody s = .error (.raise ⟨.ioFailure, 1⟩) { s with answers := s.answers.tail } := by
  simp [brCloseBody, srcClose, portAccess_fail _ h]

theorem brCloseChecks_of_open {s : State} (h : s.br.isOpen = true) : firstFailed (brCloseChecks s) = none := by
  simp [brCloseChecks, needReaderOpen, firstFailed_cons, h]

/-- Settles O25, by the one port access of the close: answered or failing. -/
theorem closeReader : Obligations.CloseReader := by
  refine ⟨fun s hs hclosed => ?_, fun s hs hopen hok => ?_, fun s hs hopen hfail => ?_⟩
  · have hc : firstFailed (brCloseChecks s) = some ⟨.illegalState, 2⟩ := by
      simp [brCloseChecks, needReaderOpen, firstFailed_cons, hclosed]
    rw [exec_brClose, command_refused_of_ready hs hc]
    rfl
  · have hx := command_returns (op := 0x03) hs.1 (brCloseChecks_of_open hopen) (brCloseBody_ok hok)
    exact ⟨_, (exec_brClose s).trans hx, rfl, rfl⟩
  · exact (command_fails (op := 0x03) hs (brCloseChecks_of_open hopen) (brCloseBody_fail hfail)
      ⟨rfl, rfl, rfl, rfl, rfl, rfl⟩ :)

end Sys2Proof.Machine
end

