-- ==== Sys2Proof/Proofs/BitWriter.lean ====
section
/-! PROOF. The writer's single bit (R79), its close (R81) and the final byte (R82), each as the byte arithmetic of its
rule and the port accesses it makes. -/

namespace Sys2Proof.Machine

/-! ### The accumulator and the final byte as numbers -/

theorem val_byteBits (c : Byte) : val (byteBits c) = c.toNat := by
  rw [byteBits, val_bitsOf, Nat.mod_eq_of_lt c.isLt]

/-- `((BW.acc << 1) | bit) & 0xFF` (R79): the top bit of `BW.acc` is lost, the others move up. -/
theorem accWith_eq_ofNat (acc : Byte) (b : Bool) : accWith acc b = BitVec.ofNat 8 (2 * acc.toNat + b.toNat) := by
  have hbits : byteBits (accWith acc b) = bitsOf 7 acc.toNat ++ [b] := bitsOf_accWith acc b 7 (by decide)
  apply BitVec.eq_of_toNat_eq
  rw [← val_byteBits, hbits, val_append, val_bitsOf, val_cons, BitVec.toNat_ofNat]
  have hb := b.toNat_le
  simp [val]
  omega

theorem bitOperand_toNat {bit : BitVec 8} (h : bit.toNat ≤ 1) : (bitOperand bit).toNat = bit.toNat := by
  rw [bitOperand, ← BitVec.testBit_toNat, Nat.toNat_testBit]
  omega

theorem accWith_bitOperand (acc : Byte) {bit : BitVec 8} (h : bit.toNat ≤ 1) :
    accWith acc (bitOperand bit) = BitVec.ofNat 8 (2 * acc.toNat + bit.toNat) := by
  rw [accWith_eq_ofNat, bitOperand_toNat h]

theorem val_replicate_true (m : Nat) : val (List.replicate m true) = 2 ^ m - 1 := by
  induction m with
  | zero => rfl
  | succ m ih =>
    rw [List.replicate_succ, val_cons, ih, List.length_replicate, Bool.toNat_true, pow_succ]
    have := Nat.one_le_two_pow (n := m)
    omega

/-- The `0` and the ones of the final byte (R82) as a number. -/
theorem val_break_ones (m : Nat) : val (false :: List.replicate m true) = 2 ^ m - 1 := by
  rw [val_cons, val_replicate_true]
  simp

/-- Settles O31, by the bits of the final byte: the pending ones, a `0`, and ones. -/
theorem finalByteReadsBack : Obligations.FinalByteReadsBack := by
  intro acc k h₁ h₇ hacc
  have hval : (finalByte acc k).toNat = val (bitsOf k acc.toNat ++ false :: List.replicate (7 - k) true) := by
    rw [← val_byteBits, byteBits_finalByte acc h₁ h₇]
  refine ⟨hval, ?_, trailingOnes_finalByte acc h₁ h₇, lastByteBits_finalByte acc h₁ h₇⟩
  have hlen : (false :: List.replicate (7 - k) true).length = 8 - k := by simp; omega
  have hpos := Nat.one_le_two_pow (n := 7 - k)
  rw [hval, val_append, val_break_ones, val_bitsOf, Nat.mod_eq_of_lt hacc, hlen, Nat.shiftLeft_eq]
  omega

/-! ### One bit (R79) -/

theorem sinkPut_fail (b : Byte) {s : State} (h : NextAnswerFails s) :
    sinkPut b s = .error (.raise ⟨.ioFailure, 4⟩) { s with answers := s.answers.tail } := by
  simp [sinkPut, portAccess_fail _ h]

theorem writeBit_of_room (b : Bool) {s : State} (h : s.bw.k ≠ 7) :
    writeBit b s = .ok () { s with bw := { s.bw with acc := accWith s.bw.acc b, k := s.bw.k + 1 } } := by
  simp only [writeBit, bind_apply, change_apply, look_apply, h, if_false]

/-- The eighth bit: the byte is put. -/
theorem writeBit_eighth_ok (b : Bool) {s : State} (h : s.bw.k = 7) (hok : NextAnswerOk s) :
    writeBit b s = .ok () { s with bw := { s.bw with acc := 0, k := 0 }, answers := s.answers.tail,
                                   mem := { s.mem with snkData := s.mem.snkData ++ [accWith s.bw.acc b] } } := by
  simp only [writeBit, bind_apply, change_apply, look_apply]
  rw [if_pos h, bind_ok (sinkPut_ok _ (by exact hok))]
  rfl

theorem writeBit_eighth_fail (b : Bool) {s : State} (h : s.bw.k = 7) (hfail : NextAnswerFails s) :
    writeBit b s = .error (.raise ⟨.ioFailure, 4⟩)
      { s with bw := { s.bw with acc := accWith s.bw.acc b }, answers := s.answers.tail } := by
  simp only [writeBit, bind_apply, change_apply, look_apply]
  rw [if_pos h, bind_error (sinkPut_fail _ (by exact hfail))]

theorem bwWriteBitBody_ok {bit : BitVec 8} {s t : State} (h : writeBit (bitOperand bit) s = .ok () t) :
    bwWriteBitBody bit s = .ok done t := bind_ok h

theorem bwWriteBitBody_error {bit : BitVec 8} {s t : State} {e : Stop}
    (h : writeBit (bitOperand bit) s = .error e t) : bwWriteBitBody bit s = .error e t := bind_error h

theorem bwWriteBitChecks_of_open {s : State} {bit : BitVec 8} (h : s.bw.isOpen = true) (hbit : bit.toNat ≤ 1) :
    firstFailed (bwWriteBitChecks bit s) = none := by
  simp [bwWriteBitChecks, needWriterOpen, argBit, firstFailed_cons, h, hbit]

theorem exec_bwWriteBit (bit : BitVec 8) (s : State) :
    exec (.bwWriteBit bit) s = command 0x05 (bwWriteBitChecks bit) (bwWriteBitBody bit) s := rfl

/-- Settles O28, by the two checks, the number the shifted accumulator is, and the case of the eighth bit. -/
theorem writeBitShiftsIn : Obligations.WriteBitShiftsIn := by
  refine ⟨fun s bit hs hclosed => ?_, fun s bit hs hopen hbit => ?_, fun s bit hs hopen hbit hk => ?_,
    fun s bit hs hopen hbit hk hok => ?_, fun s bit hs hopen hbit hk hfail => ?_⟩
  · have hc : firstFailed (bwWriteBitChecks bit s) = some ⟨.illegalState, 4⟩ := by
      simp [bwWriteBitChecks, needWriterOpen, firstFailed_cons, hclosed]
    rw [exec_bwWriteBit, command_refused_of_ready hs hc]
    rfl
  · have hc : firstFailed (bwWriteBitChecks bit s) = some ⟨.argumentRange, 1⟩ := by
      have hbig : ¬ bit.toNat ≤ 1 := by omega
      simp [bwWriteBitChecks, needWriterOpen, argBit, firstFailed_cons, hopen, hbig]
    rw [exec_bwWriteBit, command_refused_of_ready hs hc]
    rfl
  · rw [← accWith_bitOperand _ hbit, exec_bwWriteBit,
      command_returns hs.1 (bwWriteBitChecks_of_open hopen hbit) (bwWriteBitBody_ok (writeBit_of_room _ hk))]
    rfl
  · rw [← accWith_bitOperand _ hbit, exec_bwWriteBit,
      command_returns hs.1 (bwWriteBitChecks_of_open hopen hbit) (bwWriteBitBody_ok (writeBit_eighth_ok _ hk hok))]
    rfl
  · exact (command_fails (op := 0x05) hs (bwWriteBitChecks_of_open hopen hbit)
      (bwWriteBitBody_error (writeBit_eighth_fail _ hk hfail)) ⟨rfl, rfl, rfl, rfl, rfl, rfl⟩ :)

/-! ### The close (R81) -/

/-- A byte is put exactly when bits are pending or `PAD_ON_ALIGNED` is true, and then one. -/
theorem closingBytes_singleton {w : BitWriter} {pad : Bool} (h : w.k ≠ 0 ∨ pad = true) :
    closingBytes w pad = [if w.k ≠ 0 then finalByte w.acc w.k.toNat else 0x7F] := by
  unfold closingBytes
  split
  · rfl
  · rename_i hk
    rw [if_pos (h.resolve_left hk)]
    rfl

theorem closingBytes_nil {w : BitWriter} (h : w.k = 0) : closingBytes w false = [] := by
  simp [closingBytes, h]

theorem exec_bwClose (s : State) : exec .bwClose s = command 0x07 bwCloseChecks bwCloseBody s := rfl

theorem bwCloseBody_ok {s : State} (hn : NoIoFail s) :
    bwCloseBody s = .ok done { s with
      bw := { (Config.freeUnits s.draws).bw with isOpen := false }, draws := s.draws + 1,
      answers := (s.answers.drop (closingBytes s.bw s.params.padOnAligned).length).tail,
      mem := { s.mem with snkData := s.mem.snkData ++ closingBytes s.bw s.params.padOnAligned } } := by
  have hput := sinkPutAll_ok (closingBytes s.bw s.params.padOnAligned) hn
  simp only [bwCloseBody, sinkClose, bind_apply, look_apply, hput]
  rw [portAccess_ok 3 (hn.mono (List.drop_suffix _ _)).next]
  rfl

/-- The put of the last byte fails: nothing is put. -/
theorem bwCloseBody_put_fail {s : State} (h : s.bw.k ≠ 0 ∨ s.params.padOnAligned = true) (hfail : NextAnswerFails s) :
    bwCloseBody s = .error (.raise ⟨.ioFailure, 4⟩) { s with answers := s.answers.tail } := by
  simp [bwCloseBody, closingBytes_singleton h, sinkPutAll, sinkPut_fail _ hfail]

/-- The sink's close fails and no byte was to be put. -/
theorem bwCloseBody_close_fail {s : State} (hk : s.bw.k = 0) (hpad : s.params.padOnAligned = false)
    (hfail : NextAnswerFails s) :
    bwCloseBody s = .error (.raise ⟨.ioFailure, 3⟩) { s with answers := s.answers.tail } := by
  simp [bwCloseBody, hpad, closingBytes_nil hk, sinkPutAll, sinkClose, portAccess_fail _ hfail]

/-- The sink's close fails after the last byte was put. -/
theorem bwCloseBody_close_fail_after_put {s : State} {rest : List PortAnswer}
    (h : s.bw.k ≠ 0 ∨ s.params.padOnAligned = true) (ha : s.answers = .ok :: .ioFail :: rest) :
    bwCloseBody s = .error (.raise ⟨.ioFailure, 3⟩) { s with
      answers := rest,
      mem := { s.mem with snkData :=
        s.mem.snkData ++ [if s.bw.k ≠ 0 then finalByte s.bw.acc s.bw.k.toNat else 0x7F] } } := by
  have hok : NextAnswerOk s := by simp [NextAnswerOk, ha]
  simp [bwCloseBody, closingBytes_singleton h, sinkPutAll, sinkPut_ok _ hok, sinkClose, portAccess, ha]

theorem bwCloseChecks_of_open {s : State} (h : s.bw.isOpen = true) : firstFailed (bwCloseChecks s) = none := by
  simp [bwCloseChecks, needWriterOpen, firstFailed_cons, h]

/-- Settles O30, by the byte the close puts, if any, and the answers to that put and to the sink's close. -/
theorem closeWriter : Obligations.CloseWriter := by
  refine ⟨fun s hs hclosed => ?_, fun s hs hopen hn => ?_, fun s hs hopen hputs hfail => ?_,
    fun s hs hopen hk hpad hfail => ?_, fun s rest hs hopen hputs ha => ?_⟩
  · have hc : firstFailed (bwCloseChecks s) = some ⟨.illegalState, 4⟩ := by
      simp [bwCloseChecks, needWriterOpen, firstFailed_cons, hclosed]
    rw [exec_bwClose, command_refused_of_ready hs hc]
    rfl
  · have hx := command_returns (op := 0x07) hs.1 (bwCloseChecks_of_open hopen) (bwCloseBody_ok hn)
    exact ⟨_, (exec_bwClose s).trans hx, rfl, rfl, rfl⟩
  · exact (command_fails (op := 0x07) hs (bwCloseChecks_of_open hopen) (bwCloseBody_put_fail hputs hfail)
      ⟨rfl, rfl, rfl, rfl, rfl, rfl⟩ :)
  · exact (command_fails (op := 0x07) hs (bwCloseChecks_of_open hopen) (bwCloseBody_close_fail hk hpad hfail)
      ⟨rfl, rfl, rfl, rfl, rfl, rfl⟩ :)
  · obtain ⟨t, hx, hfailed, hmem⟩ := command_fails (op := 0x07) hs (bwCloseChecks_of_open hopen)
      (bwCloseBody_close_fail_after_put hputs ha) ⟨rfl, rfl, rfl, rfl, rfl, rfl⟩
    exact ⟨t, (exec_bwClose s).trans hx, hfailed, congrArg Memory.snkData hmem⟩

end Sys2Proof.Machine
end

