-- ==== Sys2Proof/Proofs/HeapLoops.lean ====
section
/-! PROOF. The sift loops of R92 and R93 and the heap order (R16). The idea: while an element moves, the order fails
only around its place `i`. Sifting up, every edge but the one from `i` to its parent is in order; sifting down, every
edge but those from `i` to its children; and in both the children of `i` are in order with the parent of `i`. -/

namespace Sys2Proof.Machine

/-! ### The two heap functions run the loops (R92, R93) -/

/-- A move goes to a smaller index, so `i` moves are enough. -/
theorem siftUp_runs (lt : Nat → Nat → Bool) {fuel i : Nat} {h : List Nat} (hi : i < h.length) (hf : i ≤ fuel) :
    SiftsUp lt i h (siftUp lt fuel i h) := by
  induction fuel generalizing i h with
  | zero => exact .stop i h (.inl (by omega))
  | succ fuel ih =>
    unfold siftUp
    split
    next hmove =>
      exact .move i h _ _ hmove.1 hmove.2 (swapAt_swapped hi (by omega))
        (ih (by rw [swapAt_length]; omega) (by omega))
    next hstop =>
      refine .stop i h ?_
      rw [not_and_or, Bool.not_eq_true] at hstop
      exact hstop.imp_left (by omega)

/-- A move goes to a larger index, so as many moves as there are indices from `i` on are enough. -/
theorem siftDown_runs (lt : Nat → Nat → Bool) {fuel i : Nat} {h : List Nat} (hi : i < h.length)
    (hf : h.length ≤ i + fuel) : SiftsDown lt i h (siftDown lt fuel i h) := by
  induction fuel generalizing i h with
  | zero => omega
  | succ fuel ih =>
    have hchoice := smallestChild_chooses lt h i
    unfold siftDown
    split
    next hstay =>
      rw [hstay] at hchoice
      exact .exit i h hchoice
    next hmove =>
      have hlt := smallestChild_lt (lt := lt) hi
      have hbelow : i < smallestChild lt h i := by
        rcases smallestChild_cases lt h i with h' | ⟨h', -⟩ | ⟨h', -⟩ <;> omega
      exact .move i _ h _ _ hchoice hmove (swapAt_swapped hi hlt)
        (ih (by rw [swapAt_length]; exact hlt) (by rw [swapAt_length]; omega))

theorem heapInsert_siftsUp (lt : Nat → Nat → Bool) (h : List Nat) (item : Nat) :
    SiftsUp lt h.length (h ++ [item]) (heapInsert lt h item) :=
  siftUp_runs lt (by simp) le_rfl

theorem heapRemoveRoot_siftsDown (lt : Nat → Nat → Bool) (m last : Nat) (mid : List Nat) :
    SiftsDown lt 0 (last :: mid) (heapRemoveRoot lt (m :: (mid ++ [last]))) := by
  have hdrop : (m :: (mid ++ [last])).dropLast = m :: mid := List.dropLast_concat (l₁ := m :: mid)
  have hlast : (m :: (mid ++ [last])).getLastD 0 = last := by
    rw [List.getLastD_eq_getLast?, ← List.cons_append, List.getLast?_concat, Option.getD_some]
  rw [heapRemoveRoot, hdrop, hlast]
  exact siftDown_runs lt (by simp) (by simp)

/-! ### Weights by place -/

variable {s : State} {h h' : List Nat} {i j : Nat}

theorem precedes_eq_false_iff {a b : Nat} : precedes s a b = false ↔ weightAt s b ≤ weightAt s a := by
  simp [precedes]

theorem precedes_eq_true_iff {a b : Nat} : precedes s a b = true ↔ weightAt s a < weightAt s b := by
  simp [precedes]

/-- The weight of the element at place `i` of a heap array. -/
def placeWeight (s : State) (h : List Nat) (i : Nat) : Nat := weightAt s (h.getD i 0)

theorem placeWeight_congr (hij : h[i]? = h'[j]?) : placeWeight s h i = placeWeight s h' j := by
  simp only [placeWeight, List.getD_eq_getElem?_getD, hij]

theorem Swapped.length_eq (hs : Swapped h i j h') : h'.length = h.length := hs.1

/-- An exchange of two places exchanges their weights and leaves every other. -/
theorem Swapped.exchanges_weights (hs : Swapped h i j h') (s : State) :
    placeWeight s h' i = placeWeight s h j ∧ placeWeight s h' j = placeWeight s h i ∧
    ∀ k, k ≠ i → k ≠ j → placeWeight s h' k = placeWeight s h k := by
  obtain ⟨-, hi, hj, hrest⟩ := hs
  exact ⟨placeWeight_congr hi, placeWeight_congr hj, fun k hki hkj => placeWeight_congr (hrest k hki hkj)⟩

theorem livePrecedes_iff : LivePrecedes (precedes s) h i j ↔ i < h.length ∧ placeWeight s h i < placeWeight s h j := by
  rw [LivePrecedes, precedes_eq_true_iff, placeWeight, placeWeight]

/-- One `if` of R93, between the places `a` and `c`: the choice `b` is one of the two, and neither is lighter. -/
theorem livePrecedes_choice {a b c : Nat} (hyes : LivePrecedes (precedes s) h c a → b = c)
    (hno : ¬ LivePrecedes (precedes s) h c a → b = a) :
    (b = a ∨ b = c ∧ c < h.length ∧ placeWeight s h c < placeWeight s h a) ∧
    placeWeight s h b ≤ placeWeight s h a ∧ (c < h.length → placeWeight s h b ≤ placeWeight s h c) := by
  by_cases hp : LivePrecedes (precedes s) h c a
  · obtain rfl := hyes hp
    obtain ⟨hlive, hlt⟩ := livePrecedes_iff.mp hp
    exact ⟨.inr ⟨rfl, hlive, hlt⟩, hlt.le, fun _ => le_rfl⟩
  · obtain rfl := hno hp
    exact ⟨.inl rfl, le_rfl, fun hlive => not_lt.mp fun hlt => hp (livePrecedes_iff.mpr ⟨hlive, hlt⟩)⟩

/-- What R93 chooses at `i`: `i` itself or a live child lighter than `i`; and no child is lighter than the choice. -/
theorem ChoosesChild.lightest {c : Nat} (hc : ChoosesChild (precedes s) h i c) :
    (c = i ∨ 1 ≤ c ∧ (c - 1) / 2 = i ∧ c < h.length ∧ placeWeight s h c < placeWeight s h i) ∧
    ∀ k, 1 ≤ k → k < h.length → (k - 1) / 2 = i → placeWeight s h c ≤ placeWeight s h k := by
  obtain ⟨c₁, hleft, hleft', hright, hright'⟩ := hc
  obtain ⟨hc₁, hle₁, hmin₁⟩ := livePrecedes_choice hleft hleft'
  obtain ⟨hc, hle, hmin⟩ := livePrecedes_choice hright hright'
  refine ⟨?_, fun k hk hkl hki => ?_⟩
  · rcases hc with rfl | ⟨rfl, hlive, hlt⟩
    · rcases hc₁ with rfl | ⟨rfl, hlive, hlt⟩
      · exact .inl rfl
      · exact .inr ⟨by omega, by omega, hlive, hlt⟩
    · exact .inr ⟨by omega, by omega, hlive, hlt.trans_le hle₁⟩
  · obtain rfl | rfl : k = 2 * i + 1 ∨ k = 2 * i + 2 := by omega
    · exact hle.trans (hmin₁ hkl)
    · exact hmin hkl

/-! ### The order and its two loop invariants -/

/-- Heap order (R16) of an array under the weights of `s`. -/
def HeapArray (s : State) (h : List Nat) : Prop :=
  ∀ k, 1 ≤ k → k < h.length → placeWeight s h ((k - 1) / 2) ≤ placeWeight s h k

theorem heapOrdered_iff : HeapOrdered s ↔ HeapArray s s.pq.heap := by
  simp only [HeapOrdered, HeapArray, precedes_eq_false_iff, placeWeight]

/-- The children of `i` are in order with the parent of `i`. -/
def OrderedAcross (s : State) (i : Nat) (h : List Nat) : Prop :=
  ∀ k, 1 ≤ i → 1 ≤ k → k < h.length → (k - 1) / 2 = i → placeWeight s h ((i - 1) / 2) ≤ placeWeight s h k

/-- The invariant of the loop of R92: only `i` may be lighter than its parent. -/
structure OrderedButAbove (s : State) (i : Nat) (h : List Nat) : Prop where
  edge : ∀ k, 1 ≤ k → k < h.length → k ≠ i → placeWeight s h ((k - 1) / 2) ≤ placeWeight s h k
  across : OrderedAcross s i h

/-- The invariant of the loop of R93: only children of `i` may be lighter than their parent. -/
structure OrderedButBelow (s : State) (i : Nat) (h : List Nat) : Prop where
  edge : ∀ k, 1 ≤ k → k < h.length → (k - 1) / 2 ≠ i → placeWeight s h ((k - 1) / 2) ≤ placeWeight s h k
  across : OrderedAcross s i h

/-- One move of R92: the place above is the only one that may now be out of order. -/
theorem OrderedButAbove.move (ho : OrderedButAbove s i h) (hi : 0 < i) (hil : i < h.length)
    (hlt : placeWeight s h i < placeWeight s h ((i - 1) / 2)) (hs : Swapped h i ((i - 1) / 2) h') :
    OrderedButAbove s ((i - 1) / 2) h' := by
  obtain ⟨hedge, hacross⟩ := ho
  obtain ⟨hwi, hwp, hw⟩ := hs.exchanges_weights s
  have hlen := hs.length_eq
  refine ⟨fun k hk hkl hkp => ?_, fun k hp hk hkl hkp => ?_⟩
  · rcases eq_or_ne k i with rfl | hki
    · rw [hwi, hwp]
      exact hlt.le
    · have hold := hedge k hk (hlen ▸ hkl) hki
      rw [hw k hki hkp]
      rcases eq_or_ne ((k - 1) / 2) i with hpi | hpi
      · rw [hpi, hwi]
        exact hacross k hi hk (hlen ▸ hkl) hpi
      · rcases eq_or_ne ((k - 1) / 2) ((i - 1) / 2) with hpp | hpp
        · rw [hpp] at hold ⊢
          rw [hwp]
          exact hlt.le.trans hold
        · rwa [hw _ hpi hpp]
  · have hgrand := hedge ((i - 1) / 2) hp (by omega) (by omega)
    rw [hw _ (by omega) (by omega)]
    rcases eq_or_ne k i with rfl | hki
    · rwa [hwi]
    · rw [hw k hki (by omega)]
      have hold := hedge k hk (hlen ▸ hkl) hki
      rw [hkp] at hold
      exact hgrand.trans hold

/-- One move of R93 to the lightest child. -/
theorem OrderedButBelow.move {c : Nat} (ho : OrderedButBelow s i h) (hc : 1 ≤ c) (hci : (c - 1) / 2 = i)
    (hcl : c < h.length) (hlt : placeWeight s h c < placeWeight s h i)
    (hmin : ∀ k, 1 ≤ k → k < h.length → (k - 1) / 2 = i → placeWeight s h c ≤ placeWeight s h k)
    (hs : Swapped h i c h') : OrderedButBelow s c h' := by
  obtain ⟨hedge, hacross⟩ := ho
  obtain ⟨hwi, hwc, hw⟩ := hs.exchanges_weights s
  have hlen := hs.length_eq
  refine ⟨fun k hk hkl hkc => ?_, fun k _ hk hkl hkc => ?_⟩
  · rcases eq_or_ne ((k - 1) / 2) i with hpi | hpi
    · rw [hpi, hwi]
      rcases eq_or_ne k c with rfl | hkc'
      · rw [hwc]
        exact hlt.le
      · rw [hw k (by omega) hkc']
        exact hmin k hk (hlen ▸ hkl) hpi
    · rw [hw _ hpi hkc]
      rcases eq_or_ne k i with rfl | hki
      · rw [hwi]
        exact hacross c hk hc hcl hci
      · rw [hw k hki (by rintro rfl; exact hpi hci)]
        exact hedge k hk (hlen ▸ hkl) hpi
  · have hold := hedge k hk (hlen ▸ hkl) (by omega)
    rw [hkc] at hold
    rwa [hci, hwi, hw k (by omega) (by omega)]

/-- The loop of R92 ends in heap order. -/
theorem SiftsUp.heapArray (hr : SiftsUp (precedes s) i h h') (hi : i < h.length) (ho : OrderedButAbove s i h) :
    HeapArray s h' := by
  induction hr with
  | stop i h hstop =>
    intro k hk hkl
    by_cases hki : k = i
    · subst hki
      exact precedes_eq_false_iff.mp (hstop.resolve_left (by omega))
    · exact ho.edge k hk hkl hki
  | move i h h₁ h' hpos hlt hs _ ih =>
    exact ih (by rw [hs.length_eq]; omega) (ho.move hpos hi (precedes_eq_true_iff.mp hlt) hs)

/-- The loop of R93 ends in heap order. -/
theorem SiftsDown.heapArray (hr : SiftsDown (precedes s) i h h') (ho : OrderedButBelow s i h) : HeapArray s h' := by
  induction hr with
  | exit i h hc =>
    intro k hk hkl
    by_cases hki : (k - 1) / 2 = i
    · rw [hki]
      exact hc.lightest.2 k hk hkl hki
    · exact ho.edge k hk hkl hki
  | move i c h h₁ h' hc hne hs _ ih =>
    obtain ⟨hchild, hmin⟩ := hc.lightest
    obtain ⟨hpos, hparent, hcl, hlt⟩ := hchild.resolve_left hne
    exact ih (ho.move hpos hparent hcl hlt hmin hs)

/-! ### Insertion and extraction keep the order (R96) -/

/-- Every place but the appended one is as before, and that one has no children. -/
theorem HeapArray.append (ho : HeapArray s h) (item : Nat) : OrderedButAbove s h.length (h ++ [item]) := by
  have hw : ∀ k, k < h.length → placeWeight s (h ++ [item]) k = placeWeight s h k := fun k hk =>
    placeWeight_congr (List.getElem?_append_left hk)
  refine ⟨fun k hk hkl hkn => ?_, fun k _ hk hkl hkn => ?_⟩ <;>
    rw [List.length_append, List.length_singleton] at hkl
  · rw [hw _ (by omega), hw k (by omega)]
    exact ho k hk (by omega)
  · omega

theorem HeapArray.heapInsert (ho : HeapArray s h) (item : Nat) : HeapArray s (heapInsert (precedes s) h item) :=
  (heapInsert_siftsUp (precedes s) h item).heapArray (by simp) (ho.append item)

/-- Every place but the root is as before. -/
theorem HeapArray.replaceRoot {m last : Nat} {mid : List Nat} (ho : HeapArray s (m :: (mid ++ [last]))) :
    OrderedButBelow s 0 (last :: mid) := by
  have hw : ∀ k, 1 ≤ k → k < (last :: mid).length →
      placeWeight s (last :: mid) k = placeWeight s (m :: (mid ++ [last])) k := by
    intro k hk hkl
    obtain ⟨k, rfl⟩ : ∃ k', k = k' + 1 := ⟨k - 1, by omega⟩
    apply placeWeight_congr
    rw [List.getElem?_cons_succ, List.getElem?_cons_succ, List.getElem?_append_left (by simpa using hkl)]
  refine ⟨fun k hk hkl hk0 => ?_, fun k h0 => by omega⟩
  rw [hw _ (by omega) (by omega), hw k hk hkl]
  have hlen : (m :: (mid ++ [last])).length = (last :: mid).length + 1 := by simp
  exact ho k hk (by omega)

theorem HeapArray.heapRemoveRoot {m : Nat} {rest : List Nat} (ho : HeapArray s (m :: rest)) :
    HeapArray s (heapRemoveRoot (precedes s) (m :: rest)) := by
  rcases List.eq_nil_or_concat' rest with rfl | ⟨mid, last, rfl⟩
  · intro k _ hkl
    exact absurd hkl (Nat.not_lt_zero k)
  · exact (heapRemoveRoot_siftsDown (precedes s) m last mid).heapArray ho.replaceRoot

/-- The root of an array in heap order is a minimum. -/
theorem HeapArray.root_le (ho : HeapArray s h) (hi : i < h.length) : placeWeight s h 0 ≤ placeWeight s h i := by
  induction i using Nat.strong_induction_on with
  | _ i ih =>
    rcases Nat.eq_zero_or_pos i with rfl | hpos
    · exact le_rfl
    · exact (ih ((i - 1) / 2) (by omega) (by omega)).trans (ho i hpos hi)

theorem HeapArray.root_not_preceded {m x : Nat} {rest : List Nat} (ho : HeapArray s (m :: rest)) (hx : x ∈ m :: rest) :
    precedes s x m = false := by
  obtain ⟨i, hi, rfl⟩ := List.getElem_of_mem hx
  have hle := ho.root_le hi
  rw [placeWeight, placeWeight, List.getD_eq_getElem _ _ hi] at hle
  exact precedes_eq_false_iff.mpr hle

end Sys2Proof.Machine
end

