-- ==== Sys2Proof/Proofs/PriorityQueue.lean ====
section
/-! PROOF. The queue's commands (R90 to R96): what each answers and leaves, by its preconditions; and that the order is
kept by `PQ.INSERT` and `PQ.EXTRACTMIN`. -/

namespace Sys2Proof.Machine

/-! ### `PQ.CREATE`, `PQ.SIZE`, `PQ.ISEMPTY` -/

theorem exec_pqCreate (cmp : BitVec 8) (s : State) :
    exec (.pqCreate cmp) s = command 0x20 (pqCreateChecks cmp) (pqCreateBody cmp) s := rfl

theorem exec_pqSize (s : State) : exec .pqSize s = command 0x23 pqSizeChecks pqSizeBody s := rfl

/-- `PQ.ISEMPTY` has the precondition of `PQ.SIZE`. -/
theorem exec_pqIsEmpty (s : State) : exec .pqIsEmpty s = command 0x24 pqSizeChecks pqIsEmptyBody s := rfl

theorem pqSizeChecks_of_created {s : State} (hq : s.pq.created = true) : firstFailed (pqSizeChecks s) = none := by
  simp [pqSizeChecks, needQueue, firstFailed_cons, hq]

theorem pqCreateBody_apply (cmp : BitVec 8) (s : State) :
    pqCreateBody cmp s = .ok done { s with pq := { created := true, cmp := cmp, heap := [] } } := rfl

theorem pqSizeBody_apply (s : State) : pqSizeBody s = .ok (result s.pq.heap.length) s := rfl

theorem pqIsEmptyBody_apply (s : State) :
    pqIsEmptyBody s = .ok (result (if s.pq.heap.length = 0 then 1 else 0)) s := rfl

/-- Settles O34, by whether the comparator id is 0. -/
theorem createQueue : Obligations.CreateQueue := by
  refine ⟨fun s cmp hs hcmp => ?_, fun s hs => ?_⟩
  · have hc : firstFailed (pqCreateChecks cmp s) = some ⟨.argumentRange, 5⟩ := by
      rw [pqCreateChecks, argComparator, firstFailed_cons, beq_false_of_ne hcmp]
      rfl
    rw [exec_pqCreate, command_refused_of_ready hs hc]
    rfl
  · have hc : firstFailed (pqCreateChecks 0 s) = none := rfl
    rw [exec_pqCreate, command_returns hs.1 hc (pqCreateBody_apply 0 s)]
    rfl

/-- Settles O37, by whether there is a queue, and then whether it holds an element. -/
theorem queueSize : Obligations.QueueSize := by
  refine ⟨fun s hs hq => ?_, fun s hs hq hempty => ?_, fun s hs hq hne => ?_, fun s hs hq => ?_⟩
  · rw [exec_pqSize, command_returns hs.1 (pqSizeChecks_of_created hq) (pqSizeBody_apply s)]
    rfl
  · have hbody : pqIsEmptyBody s = .ok (result 1) s := by simp [pqIsEmptyBody_apply, hempty]
    rw [exec_pqIsEmpty, command_returns hs.1 (pqSizeChecks_of_created hq) hbody]
    rfl
  · have hbody : pqIsEmptyBody s = .ok (result 0) s := by simp [pqIsEmptyBody_apply, hne]
    rw [exec_pqIsEmpty, command_returns hs.1 (pqSizeChecks_of_created hq) hbody]
    rfl
  · have hc : firstFailed (pqSizeChecks s) = some ⟨.illegalState, 5⟩ := by
      simp [pqSizeChecks, needQueue, firstFailed_cons, hq]
    rw [exec_pqSize, exec_pqIsEmpty, command_refused_of_ready hs hc, command_refused_of_ready hs hc]
    exact ⟨rfl, rfl⟩

/-! ### `PQ.INSERT` and `PQ.EXTRACTMIN` -/

theorem exec_pqInsert (item : BitVec 64) (s : State) :
    exec (.pqInsert item) s = command 0x21 (pqInsertChecks item) (pqInsertBody item) s := rfl

theorem exec_pqExtractMin (s : State) : exec .pqExtractMin s = command 0x22 pqExtractMinChecks pqExtractMinBody s := rfl

variable {s t : State}

theorem hasRoom_of_pqInsertChecks {item : BitVec 64} (hc : firstFailed (pqInsertChecks item s) = none) :
    hasRoom s.params.pqCap s.pq.heap.length = true :=
  (firstFailed_eq_none _).mp hc (needHeapRoom s) (by simp [pqInsertChecks])

/-- The preconditions of `PQ.EXTRACTMIN` (R93). -/
theorem pqExtractMinChecks_met_iff :
    firstFailed (pqExtractMinChecks s) = none ↔ s.pq.created = true ∧ ∃ m rest, s.pq.heap = m :: rest := by
  simp [firstFailed_eq_none, pqExtractMinChecks, needQueue, needElement, Queue.size, List.length_pos_iff,
    ← List.ne_nil_iff_exists_cons]

theorem pqInsertBody_ok (item : BitVec 64) (hcmp : s.pq.cmp = 0)
    (hroom : hasRoom s.params.pqCap s.pq.heap.length = true) :
    pqInsertBody item s =
      .ok done { s with pq := { s.pq with heap := heapInsert (precedes s) s.pq.heap item.toNat } } :=
  bind_ok (pqInsert_ok item.toNat hcmp hroom)

theorem pqExtractMinBody_ok {m : Nat} {rest : List Nat} (hcmp : s.pq.cmp = 0) (hh : s.pq.heap = m :: rest) :
    pqExtractMinBody s =
      .ok (result m) { s with pq := { s.pq with heap := heapRemoveRoot (precedes s) (m :: rest) } } :=
  bind_ok (pqExtractMin_ok hcmp hh)

/-- `PQ.INSERT` with its preconditions met (R92). -/
theorem exec_pqInsert_ok {item : BitVec 64} (hs : Ready s) (hcmp : s.pq.cmp = 0)
    (hc : firstFailed (pqInsertChecks item s) = none) :
    exec (.pqInsert item) s = .next
      { s with pq := { s.pq with heap := heapInsert (precedes s) s.pq.heap item.toNat }, rsp := packRsp 0x00 0 } :=
  command_returns hs.1 hc (pqInsertBody_ok item hcmp (hasRoom_of_pqInsertChecks hc))

/-- `PQ.EXTRACTMIN` of a queue that holds an element (R93). -/
theorem exec_pqExtractMin_ok {m : Nat} {rest : List Nat} (hs : Ready s) (hq : s.pq.created = true) (hcmp : s.pq.cmp = 0)
    (hh : s.pq.heap = m :: rest) :
    exec .pqExtractMin s = .next
      { s with pq := { s.pq with heap := heapRemoveRoot (precedes s) (m :: rest) },
               rsp := packRsp 0x00 (BitVec.ofNat 64 m) } :=
  command_returns hs.1 (pqExtractMinChecks_met_iff.mpr ⟨hq, m, rest, hh⟩) (pqExtractMinBody_ok hcmp hh)

theorem HeapOrdered.of_pqInsert {item : BitVec 64} (hs : Ready s) (hcmp : s.pq.cmp = 0) (ho : HeapOrdered s)
    (hx : exec (.pqInsert item) s = .next t) : HeapOrdered t := by
  cases hc : firstFailed (pqInsertChecks item s) with
  | some c =>
    rw [exec_pqInsert, command_refused_of_ready hs hc, Host.Outcome.next.injEq] at hx
    exact hx ▸ ho
  | none =>
    rw [exec_pqInsert_ok hs hcmp hc, Host.Outcome.next.injEq] at hx
    subst hx
    exact heapOrdered_iff.mpr ((heapOrdered_iff.mp ho).heapInsert item.toNat)

theorem HeapOrdered.of_pqExtractMin (hs : Ready s) (hcmp : s.pq.cmp = 0) (ho : HeapOrdered s)
    (hx : exec .pqExtractMin s = .next t) : HeapOrdered t := by
  cases hc : firstFailed (pqExtractMinChecks s) with
  | some c =>
    rw [exec_pqExtractMin, command_refused_of_ready hs hc, Host.Outcome.next.injEq] at hx
    exact hx ▸ ho
  | none =>
    obtain ⟨hq, m, rest, hh⟩ := pqExtractMinChecks_met_iff.mp hc
    rw [exec_pqExtractMin_ok hs hq hcmp hh, Host.Outcome.next.injEq] at hx
    subst hx
    exact heapOrdered_iff.mpr (hh ▸ heapOrdered_iff.mp ho).heapRemoveRoot

/-- Settles O36: each loop restores the order it disturbs, the root of an ordered heap is a minimum, and the next root
was an element of the same heap. -/
theorem heapOrderIsKept : Obligations.HeapOrderIsKept := by
  refine ⟨fun s t item hs hcmp ho hx => ho.of_pqInsert hs hcmp hx, fun s t hs hcmp ho hx =>
    ⟨ho.of_pqExtractMin hs hcmp hx, fun m rest hh hq => ?_⟩⟩
  have harray : HeapArray s (m :: rest) := hh ▸ heapOrdered_iff.mp ho
  rw [exec_pqExtractMin_ok hs hq hcmp hh, Host.Outcome.next.injEq] at hx
  subst hx
  refine ⟨fun x hx => harray.root_not_preceded (hh ▸ hx), fun m' rest' hh' => ?_⟩
  have hmem : m' ∈ heapRemoveRoot (precedes s) (m :: rest) := List.mem_of_mem_head? (congrArg List.head? hh')
  exact harray.root_not_preceded (.tail m ((heapRemoveRoot_perm _ m rest).mem_iff.mp hmem))

end Sys2Proof.Machine
end

