-- ==== Sys2Proof/Proofs/HuffmanTree.lean ====
section
/-! PROOF. Code trees as data (R19, R63, R64, R105): their paths and leaves, the relation "this tree is in the arena at
this index", which later allocations keep, and the code table as a set of entries. -/

namespace Sys2Proof.Machine

/-! ### Paths and leaves -/

theorem Tree.paths_eq_map (t : Tree) (path : List Bool) :
    t.paths path = (t.paths []).map fun e => (e.1, path ++ e.2) := by
  induction t generalizing path with
  | leaf b => simp [Tree.paths]
  | node l r ihl ihr =>
    simp only [Tree.paths, List.nil_append]
    rw [ihl, ihr, ihl [false], ihr [true]]
    simp [Function.comp_def]

/-- A path from an internal node is one bit, then a path from the child it names. -/
theorem Tree.mem_paths_node {l r : Tree} {b : Byte} {path : List Bool} (h : (b, path) ∈ (Tree.node l r).paths []) :
    ∃ bit rest, path = bit :: rest ∧ (b, rest) ∈ (if bit then r else l).paths [] := by
  simp only [Tree.paths, List.nil_append] at h
  rw [l.paths_eq_map, r.paths_eq_map, List.mem_append, List.mem_map, List.mem_map] at h
  rcases h with ⟨e, he, heq⟩ | ⟨e, he, heq⟩ <;> cases heq
  · exact ⟨false, e.2, rfl, he⟩
  · exact ⟨true, e.2, rfl, he⟩

@[simp] theorem Tree.leafBytes_leaf (b : Byte) : (Tree.leaf b).leafBytes = [b] := rfl

@[simp] theorem Tree.leafBytes_node (l r : Tree) : (Tree.node l r).leafBytes = l.leafBytes ++ r.leafBytes := by
  simp only [Tree.leafBytes, Tree.paths]
  rw [l.paths_eq_map, r.paths_eq_map, List.map_append, List.map_map, List.map_map]
  rfl

theorem Tree.leafBytes_length (t : Tree) : t.leafBytes.length = t.leaves := by
  induction t with
  | leaf b => rfl
  | node l r ihl ihr => rw [Tree.leafBytes_node, List.length_append, ihl, ihr, Tree.leaves]

theorem Tree.leaves_pos (t : Tree) : 1 ≤ t.leaves := by
  induction t with
  | leaf b => exact le_rfl
  | node l r ihl ihr => exact ihl.trans (Nat.le_add_right _ _)

/-- A tree of `L` leaves takes `10 L - 1` bits (R63). -/
theorem Tree.ser_length (t : Tree) : t.ser.length + 1 = 10 * t.leaves := by
  induction t with
  | leaf b => simp [Tree.ser, Tree.leaves]
  | node l r ihl ihr =>
    simp only [Tree.ser, Tree.leaves, List.length_cons, List.length_append]
    omega

/-- A path is shorter than the number of leaves. -/
theorem Tree.path_length_lt {t : Tree} {b : Byte} {path : List Bool} (h : (b, path) ∈ t.paths []) :
    path.length < t.leaves := by
  induction t generalizing path with
  | leaf _ =>
    obtain ⟨-, rfl⟩ : b = _ ∧ path = [] := by simpa [Tree.paths] using h
    exact Nat.one_pos
  | node l r ihl ihr =>
    obtain ⟨bit, rest, rfl, hrest⟩ := Tree.mem_paths_node h
    have hl := l.leaves_pos
    have hr := r.leaves_pos
    simp only [List.length_cons, Tree.leaves]
    cases bit with
    | false => have := ihl hrest; omega
    | true => have := ihr hrest; omega

/-- A code is the one bit of a single leaf, or a path. -/
theorem Tree.code_length_le {t : Tree} {p : Byte × List Bool} (h : p ∈ t.codes) :
    p.2.length ≤ max 1 (t.leaves - 1) := by
  cases t with
  | leaf b =>
    obtain rfl : p = (b, [false]) := by simpa [Tree.codes] using h
    exact le_rfl
  | node l r =>
    have := Tree.path_length_lt h
    omega

theorem Tree.codes_map_fst (t : Tree) : t.codes.map Prod.fst = t.leafBytes := by
  cases t <;> rfl

/-! ### Trees in the arena -/

/-- The tree `t` stands in the arena at an index (R19). -/
inductive TreeIn (nodes : List Node) : Nat → Tree → Prop where
  | leaf {i w : Nat} {b : Byte} (h : nodes[i]? = some ⟨.leaf b, w⟩) : TreeIn nodes i (.leaf b)
  | node {i l r w : Nat} {tl tr : Tree} (h : nodes[i]? = some ⟨.internal l r, w⟩) (hl : TreeIn nodes l tl)
      (hr : TreeIn nodes r tr) : TreeIn nodes i (.node tl tr)

/-- Allocation adds at the end, so it keeps the trees that stand in the arena. -/
theorem TreeIn.mono {nodes more : List Node} {i : Nat} {t : Tree} (h : TreeIn nodes i t) :
    TreeIn (nodes ++ more) i t := by
  have keep {j : Nat} {n : Node} (hj : nodes[j]? = some n) : (nodes ++ more)[j]? = some n := by
    rw [List.getElem?_append_left (List.getElem?_eq_some_iff.mp hj).1, hj]
  induction h with
  | leaf h => exact .leaf (keep h)
  | node h _ _ ihl ihr => exact .node (keep h) ihl ihr

/-- Looking as many levels down as there are leaves finds the tree. -/
theorem TreeIn.treeAt {nodes : List Node} {i fuel : Nat} {t : Tree} (h : TreeIn nodes i t) (hf : t.leaves ≤ fuel) :
    treeAt nodes fuel i = some t := by
  obtain ⟨fuel, rfl⟩ : ∃ n, fuel = n + 1 := ⟨fuel - 1, by have := t.leaves_pos; omega⟩
  induction h generalizing fuel with
  | leaf h => simp [Machine.treeAt, h]
  | @node i l r w tl tr h _ _ ihl ihr =>
    have hl := tl.leaves_pos
    have hr := tr.leaves_pos
    simp only [Tree.leaves] at hf
    obtain ⟨m, rfl⟩ : ∃ m, fuel = m + 1 := ⟨fuel - 1, by omega⟩
    rw [Machine.treeAt]
    simp only [h, ihl m (by omega), ihr m (by omega)]

/-- The tree the codec holds (R19). -/
theorem TreeIn.huffman_tree {h : Huffman} {t : Tree} (ht : TreeIn h.nodes h.root t)
    (hn : t.leaves ≤ h.nodes.length) : h.tree = some t :=
  ht.treeAt hn

/-! ### The code table -/

theorem Table.at_put {α : Type} (t : Table α) (b c : Byte) (v : α) :
    Table.at (Table.put t b v) c = if c = b then v else Table.at t c := by
  unfold Table.at Table.put
  rw [Vector.getElem_set]
  by_cases h : c = b
  · subst h
    simp
  · have hne : b.toNat ≠ c.toNat := fun hbc => h (BitVec.eq_of_toNat_eq hbc).symm
    simp [h, hne]

@[simp] theorem Table.at_replicate {α : Type} (v : α) (b : Byte) : Table.at (Vector.replicate 256 v) b = v :=
  Vector.getElem_replicate b.isLt

/-- A table with entries written one after another, the last one for a byte kept (R105). -/
def putEntries (table : Table (Option (List Bool))) (entries : List (Byte × List Bool)) :
    Table (Option (List Bool)) :=
  entries.foldl (fun table entry => Table.put table entry.1 (some entry.2)) table

theorem codeTable_eq (t : Tree) : codeTable t = putEntries (Vector.replicate 256 none) t.codes := rfl

@[simp] theorem putEntries_cons (table : Table (Option (List Bool))) (e : Byte × List Bool)
    (es : List (Byte × List Bool)) : putEntries table (e :: es) = putEntries (Table.put table e.1 (some e.2)) es := rfl

theorem putEntries_append (table : Table (Option (List Bool))) (xs ys : List (Byte × List Bool)) :
    putEntries table (xs ++ ys) = putEntries (putEntries table xs) ys :=
  List.foldl_append

theorem putEntries_at_some {table : Table (Option (List Bool))} {es : List (Byte × List Bool)} {b : Byte}
    {c : List Bool} (h : Table.at (putEntries table es) b = some c) : Table.at table b = some c ∨ (b, c) ∈ es := by
  induction es generalizing table with
  | nil => exact .inl h
  | cons e es ih =>
    rcases ih h with hput | hmem
    · rw [Table.at_put] at hput
      split at hput
      next heq =>
        cases hput
        exact .inr (heq ▸ List.mem_cons_self)
      next => exact .inl hput
    · exact .inr (.tail e hmem)

theorem putEntries_at_ne_none_iff {table : Table (Option (List Bool))} {es : List (Byte × List Bool)} {b : Byte} :
    Table.at (putEntries table es) b ≠ none ↔ Table.at table b ≠ none ∨ b ∈ es.map Prod.fst := by
  induction es generalizing table with
  | nil => simp [putEntries]
  | cons e es ih =>
    rw [putEntries_cons, ih, Table.at_put]
    by_cases heq : b = e.1 <;> simp [heq]

/-- An entry of the code table is a code of the tree. -/
theorem codeTable_at_some {t : Tree} {b : Byte} {c : List Bool} (h : Table.at (codeTable t) b = some c) :
    (b, c) ∈ t.codes :=
  (putEntries_at_some h).resolve_left (by simp)

/-- The bytes with a code are the leaves' (R64). -/
theorem codeTable_at_ne_none_iff {t : Tree} {b : Byte} : Table.at (codeTable t) b ≠ none ↔ b ∈ t.leafBytes := by
  rw [codeTable_eq, putEntries_at_ne_none_iff, Tree.codes_map_fst]
  simp

/-! ### The codes of a byte sequence -/

variable {code : Table (Option (List Bool))} {b : Byte} {bs : List Byte} {bits : List Bool}

theorem codeBits_cons_eq_some_iff :
    codeBits code (b :: bs) = some bits ↔
      ∃ c cs, Table.at code b = some c ∧ codeBits code bs = some cs ∧ bits = c ++ cs := by
  rw [codeBits]
  cases Table.at code b <;> cases codeBits code bs <;> simp [eq_comm]

/-- A sequence has codes when each of its bytes has one. -/
theorem exists_codeBits (h : ∀ b ∈ bs, Table.at code b ≠ none) : ∃ bits, codeBits code bs = some bits := by
  induction bs with
  | nil => exact ⟨[], rfl⟩
  | cons b bs ih =>
    obtain ⟨c, hc⟩ := Option.ne_none_iff_exists'.mp (h b List.mem_cons_self)
    obtain ⟨cs, hcs⟩ := ih fun b' hb' => h b' (.tail b hb')
    exact ⟨c ++ cs, codeBits_cons_eq_some_iff.mpr ⟨c, cs, hc, hcs, rfl⟩⟩

/-- Codes cut short: the codes of some of the first bytes, then a proper part, empty perhaps, of one more code. -/
theorem codeBits_cut {cut : List Bool} (h : codeBits code bs = some bits) (hcut : cut <+: bits)
    (hlen : cut.length < bits.length) :
    ∃ front whole left b c, front <+: bs ∧ codeBits code front = some whole ∧ cut = whole ++ left ∧
      Table.at code b = some c ∧ left <+: c ∧ left ≠ c := by
  induction bs generalizing bits cut with
  | nil =>
    obtain rfl : bits = [] := by simpa [codeBits] using h.symm
    exact absurd hlen (Nat.not_lt_zero _)
  | cons b bs ih =>
    obtain ⟨c, cs, hc, hcs, rfl⟩ := codeBits_cons_eq_some_iff.mp h
    by_cases hshort : cut.length < c.length
    · have hpre := List.prefix_of_prefix_length_le hcut (List.prefix_append c cs) hshort.le
      exact ⟨[], [], cut, b, c, List.nil_prefix, rfl, rfl, hc, hpre, fun heq => by simp [heq] at hshort⟩
    · obtain ⟨cut, rfl⟩ := List.prefix_of_prefix_length_le (List.prefix_append c cs) hcut (Nat.not_lt.mp hshort)
      obtain ⟨front, whole, left, b', c', hfront, hwhole, rfl, hc', hleft⟩ :=
        ih hcs (List.prefix_append_right_inj c |>.mp hcut) (by simpa using hlen)
      exact ⟨b :: front, c ++ whole, left, b', c', List.cons_prefix_cons.mpr ⟨rfl, hfront⟩,
        codeBits_cons_eq_some_iff.mpr ⟨c, whole, hc, hwhole, rfl⟩, (List.append_assoc ..).symm, hc', hleft⟩

end Sys2Proof.Machine
end

