-- ==== Sys2Proof/Proofs/HuffmanRead.lean ====
section
/-! PROOF. `HUF.DESERIALIZE` and `HUF.DECODE` (R108, R109) from what the reader has still to deliver. The idea: each loop
follows the tree, so the bits `ser(T)` make `T`, the bits of a code put its byte, and bits that end before a whole tree or
inside a code end in the fault of the rule, or in that of a final `0xFF`. -/

namespace Sys2Proof.Machine

/-! ### The reader, by the bits it has to deliver -/

/-- No port access fails, and the reader has exactly `bits` still to deliver; `corrupt` says that its stream ends in
`0xFF` (R72, R76). -/
structure Delivers (s : State) (bits : List Bool) (corrupt : Bool) : Prop where
  noIoFail : NoIoFail s
  cursor : CursorInv s.br
  bits : s.bitsToRead = bits
  corrupt : s.readEndsCorrupt = corrupt

variable {s t u : State} {bits rest : List Bool} {corrupt : Bool}

theorem Delivers.withHuf (h : Delivers s bits corrupt) (huf : Huffman) : Delivers { s with huf := huf } bits corrupt :=
  ⟨h.noIoFail, h.cursor, h.bits, h.corrupt⟩

theorem Delivers.readBit_cons {b : Bool} (h : Delivers s (b :: rest) corrupt) :
    ∃ t, readBit s = .ok (some b) t ∧ ReaderFrame s t ∧ Delivers t rest corrupt := by
  have hread := readBit_spec h.noIoFail h.cursor
  rw [h.bits] at hread
  obtain ⟨t, ht, hframe, hcur, hbits, hcor⟩ := hread
  exact ⟨t, ht, hframe, h.noIoFail.mono hframe.2, hcur, hbits, hcor.trans h.corrupt⟩

theorem Delivers.readBit_end (h : Delivers s [] false) :
    ∃ t, readBit s = .ok none t ∧ ReaderFrame s t ∧ Delivers t [] false := by
  have hread := readBit_spec h.noIoFail h.cursor
  simp only [h.bits, h.corrupt, Bool.false_eq_true, if_false] at hread
  obtain ⟨t, ht, hframe, hcur, hbits, hcor, -⟩ := hread
  exact ⟨t, ht, hframe, h.noIoFail.mono hframe.2, hcur, hbits, hcor⟩

theorem Delivers.readBit_corrupt (h : Delivers s [] true) :
    ∃ t, readBit s = .error (.raise ⟨.malformedInput, 7⟩) t := by
  have hread := readBit_spec h.noIoFail h.cursor
  simp only [h.bits, h.corrupt, if_true] at hread
  obtain ⟨t, ht, -⟩ := hread
  exact ⟨t, ht⟩

theorem Delivers.readBits_append (h : Delivers s (bits ++ rest) corrupt) :
    ∃ t, readBits bits.length s = .ok (.value (val bits)) t ∧ ReaderFrame s t ∧ Delivers t rest corrupt := by
  obtain ⟨t, ht, hframe, hcur, hbits, hcor⟩ := readBits_value (n := bits.length) h.noIoFail h.cursor (by simp [h.bits])
  rw [h.bits, List.take_left] at ht
  rw [h.bits, List.drop_left] at hbits
  exact ⟨t, ht, hframe, h.noIoFail.mono hframe.2, hcur, hbits, hcor.trans h.corrupt⟩

theorem streamBits_length (bytes : List Byte) : (streamBits bytes).length = 8 * bytes.length := by
  induction bytes with
  | nil => rfl
  | cons b bytes ih =>
    rw [← List.singleton_append, streamBits_append, streamBits_singleton, List.length_append, ih, byteBits_length,
      List.length_append, List.length_singleton, Nat.mul_add]

theorem validBits_length_le (bytes : List Byte) : (validBits bytes).length ≤ 8 * bytes.length := by
  rcases List.eq_nil_or_concat' bytes with rfl | ⟨w, c, rfl⟩
  · rfl
  · have hc : (lastByteBits c).length ≤ 8 := by simp [lastByteBits]
    rw [validBits_append_singleton, List.length_append, List.length_append, streamBits_length, List.length_singleton]
    omega

/-- The bound of the loops leaves a turn for the end of the stream. -/
theorem bitsToRead_length_lt_bitBudget (s : State) : s.bitsToRead.length < bitBudget s := by
  have hcur :
      (if s.br.hasBits then ((byteBits s.br.cur).take s.br.lim.toNat).drop s.br.pos.toNat else []).length ≤ 8 := by
    split <;> simp
  rw [State.bitsToRead, bitBudget, List.length_append]
  cases s.br.laSt with
  | none =>
    have := validBits_length_le (s.mem.srcData.drop s.mem.srcPos)
    rw [List.length_drop] at this
    simp only
    omega
  | byte =>
    have := validBits_length_le (s.br.la :: s.mem.srcData.drop s.mem.srcPos)
    rw [List.length_cons, List.length_drop] at this
    simp only
    omega
  | eof =>
    simp only [List.length_nil]
    omega

theorem Delivers.length_lt_bitBudget (h : Delivers s bits corrupt) : bits.length < bitBudget s :=
  h.bits ▸ bitsToRead_length_lt_bitBudget s

/-! ### Reading a tree (R108) -/

theorem all_le_mono {cap : Option Nat} {m n : Nat} (h : cap.all (n ≤ ·) = true) (hmn : m ≤ n) :
    cap.all (m ≤ ·) = true := by
  cases cap with
  | none => rfl
  | some c => exact decide_eq_true (hmn.trans (of_decide_eq_true h))

theorem hasRoom_of_all_le {cap : Option Nat} {m n : Nat} (h : cap.all (n ≤ ·) = true) (hmn : m < n) :
    hasRoom cap m = true := by
  cases cap with
  | none => rfl
  | some c => exact decide_eq_true (hmn.trans_le (of_decide_eq_true h))

/-- The arena has room for `n` more nodes. -/
def RoomFor (s : State) (n : Nat) : Prop := s.params.nodeCap.all (s.huf.nodes.length + n ≤ ·) = true

theorem RoomFor.of_arenaHolds {T : Tree} (h : ArenaHolds s.params T) (hempty : s.huf.nodes = []) :
    RoomFor s (2 * T.leaves - 1) := by
  simpa only [RoomFor, ArenaHolds, hempty, List.length_nil, Nat.zero_add] using h

theorem RoomFor.hasRoom {n : Nat} (h : RoomFor s (n + 1)) : hasRoom s.params.nodeCap s.huf.nodes.length = true :=
  hasRoom_of_all_le h (by omega)

theorem RoomFor.mono {m n : Nat} (h : RoomFor s m) (hp : t.params = s.params)
    (hmn : t.huf.nodes.length + n ≤ s.huf.nodes.length + m) : RoomFor t n := by
  rw [RoomFor, hp]
  exact all_le_mono h hmn

/-- All that reading a tree changes: the reader, the answers used up, the free values drawn, and `more` nodes allocated. -/
def Allocates (s t : State) (more : List Node) : Prop :=
  t = { s with br := { t.br with isOpen := s.br.isOpen }, mem := { s.mem with srcPos := t.mem.srcPos },
               answers := t.answers, draws := t.draws, huf := { s.huf with nodes := s.huf.nodes ++ more } }

theorem ReaderFrame.allocates (h : ReaderFrame s t) : Allocates s t [] := by
  rw [Allocates, h.1]
  simp

theorem Allocates.trans {xs ys : List Node} (h₁ : Allocates s t xs) (h₂ : Allocates t u ys) :
    Allocates s u (xs ++ ys) := by
  rw [Allocates] at h₁ h₂ ⊢
  rw [h₂, h₁]
  simp

theorem Allocates.params_eq {more : List Node} (h : Allocates s t more) : t.params = s.params := by rw [h]

theorem Allocates.nodes_eq {more : List Node} (h : Allocates s t more) : t.huf.nodes = s.huf.nodes ++ more := by rw [h]

/-- Allocating a node read from the stream: its weight is a free value. -/
theorem allocRead_ok (kind : NodeKind) (h : Delivers s bits corrupt)
    (hroom : hasRoom s.params.nodeCap s.huf.nodes.length = true) :
    ∃ w t, allocRead kind s = .ok s.huf.nodes.length t ∧ Allocates s t [⟨kind, w⟩] ∧ Delivers t bits corrupt :=
  ⟨_, _, allocNode_ok _ hroom, rfl, h.noIoFail, h.cursor, h.bits, h.corrupt⟩

/-- The bits `ser(T)` make the tree `T` and are used up. -/
theorem deserialize_ok {T : Tree} {fuel : Nat} (h : Delivers s (T.ser ++ rest) corrupt)
    (hfuel : (T.ser ++ rest).length < fuel) (hroom : RoomFor s (2 * T.leaves - 1)) :
    ∃ i t more, deserialize fuel s = .ok i t ∧ Allocates s t more ∧ Delivers t rest corrupt ∧
      more.length = 2 * T.leaves - 1 ∧ TreeIn t.huf.nodes i T := by
  induction T generalizing fuel s rest with
  | leaf b =>
    obtain ⟨fuel, rfl⟩ : ∃ n, fuel = n + 1 := ⟨fuel - 1, by omega⟩
    obtain ⟨s₁, hbit, hf₁, hd₁⟩ := Delivers.readBit_cons h
    obtain ⟨s₂, hbyte, hf₂, hd₂⟩ := hd₁.readBits_append
    have hframe := (hf₁.trans hf₂).allocates
    have hroom₂ : RoomFor s₂ 1 := hroom.mono hframe.params_eq (by simp [hframe.nodes_eq, Tree.leaves])
    obtain ⟨w, t, ht, hf₃, hd₃⟩ := allocRead_ok (.leaf b) hd₂ hroom₂.hasRoom
    refine ⟨s₂.huf.nodes.length, t, _, ?_, hframe.trans hf₃, hd₃, rfl, .leaf (w := w) ?_⟩
    · rw [byteBits_length] at hbyte
      rw [deserialize, bind_ok hbit]
      simp only [leafW, bind_apply, hbyte, val_byteBits, BitVec.ofNat_toNat, BitVec.setWidth_eq]
      exact ht
    · rw [hf₃.nodes_eq]
      simp
  | node l r ihl ihr =>
    obtain ⟨fuel, rfl⟩ : ∃ n, fuel = n + 1 := ⟨fuel - 1, by omega⟩
    have hl := l.leaves_pos
    have hr := r.leaves_pos
    simp only [Tree.leaves] at hroom ⊢
    simp only [Tree.ser, List.cons_append, List.append_assoc] at h hfuel
    have hlen : (l.ser ++ (r.ser ++ rest)).length < fuel := Nat.lt_of_succ_lt_succ hfuel
    obtain ⟨s₁, hbit, hf₁, hd₁⟩ := h.readBit_cons
    have hroom₁ : RoomFor s₁ (2 * l.leaves - 1) :=
      hroom.mono hf₁.allocates.params_eq (by simp [hf₁.allocates.nodes_eq]; omega)
    obtain ⟨i, s₂, xs, hi, hf₂, hd₂, hxs, htl⟩ := ihl hd₁ hlen hroom₁
    have hframe₂ := hf₁.allocates.trans hf₂
    have hroom₂ : RoomFor s₂ (2 * r.leaves - 1) :=
      hroom.mono hframe₂.params_eq (by simp [hframe₂.nodes_eq, hxs]; omega)
    obtain ⟨j, s₃, ys, hj, hf₃, hd₃, hys, htr⟩ := ihr (fuel := fuel) hd₂ (by simp at hlen ⊢; omega) hroom₂
    have hframe₃ := hframe₂.trans hf₃
    have hroom₃ : RoomFor s₃ 1 := hroom.mono hframe₃.params_eq (by simp [hframe₃.nodes_eq, hxs, hys]; omega)
    obtain ⟨w, t, ht, hf₄, hd₄⟩ := allocRead_ok (.internal i j) hd₃ hroom₃.hasRoom
    refine ⟨s₃.huf.nodes.length, t, _, ?_, hframe₃.trans hf₄, hd₄, by simp [hxs, hys]; omega,
      .node (l := i) (r := j) (w := w) ?_ ?_ ?_⟩
    · rw [deserialize, bind_ok hbit]
      exact (bind_ok hi).trans ((bind_ok hj).trans ht)
    · rw [hf₄.nodes_eq]
      simp
    · rw [hf₄.nodes_eq, hf₃.nodes_eq, List.append_assoc]
      exact htl.mono
    · rw [hf₄.nodes_eq]
      exact htr.mono

/-- The `info` of a stream that ends too early: `7` when its last byte is `0xFF`, else the rule's own (R72, R108, R109). -/
def endInfo (corrupt : Bool) (info : Byte) : Byte := if corrupt then 7 else info

theorem deserialize_nil {fuel : Nat} (h : Delivers s [] corrupt) :
    ∃ t, deserialize (fuel + 1) s = .error (.raise ⟨.malformedInput, endInfo corrupt 4⟩) t := by
  cases corrupt with
  | true =>
    obtain ⟨t, ht⟩ := h.readBit_corrupt
    exact ⟨t, bind_error ht⟩
  | false =>
    obtain ⟨t, ht, -⟩ := h.readBit_end
    exact ⟨t, bind_ok ht⟩

/-- Bits that end before the tree does (R108). -/
theorem deserialize_cut {T : Tree} {fuel : Nat} (h : Delivers s bits corrupt) (hcut : bits <+: T.ser)
    (hlen : bits.length < T.ser.length) (hfuel : bits.length < fuel) (hroom : RoomFor s (2 * T.leaves - 1)) :
    ∃ t, deserialize fuel s = .error (.raise ⟨.malformedInput, endInfo corrupt 4⟩) t := by
  induction T generalizing fuel s bits with
  | leaf b =>
    obtain ⟨fuel, rfl⟩ : ∃ n, fuel = n + 1 := ⟨fuel - 1, by omega⟩
    cases bits with
    | nil => exact deserialize_nil h
    | cons first bits =>
      obtain ⟨rfl, -⟩ := List.cons_prefix_cons.mp hcut
      obtain ⟨s₁, hbit, -, hd₁⟩ := h.readBit_cons
      have hshort : s₁.bitsToRead.length < leafW := by
        have hlen' : bits.length + 1 < 9 := by simpa [Tree.ser] using hlen
        rw [hd₁.bits, leafW]
        omega
      cases corrupt with
      | true =>
        obtain ⟨t, ht, -⟩ := readBits_corrupt hd₁.noIoFail hd₁.cursor hshort hd₁.corrupt
        exact ⟨t, (bind_ok hbit).trans (bind_error ht)⟩
      | false =>
        obtain ⟨t, ht, -⟩ := readBits_eos hd₁.noIoFail hd₁.cursor hshort hd₁.corrupt
        exact ⟨t, (bind_ok hbit).trans (bind_ok ht)⟩
  | node l r ihl ihr =>
    obtain ⟨fuel, rfl⟩ : ∃ n, fuel = n + 1 := ⟨fuel - 1, by omega⟩
    have hl := l.leaves_pos
    have hr := r.leaves_pos
    simp only [Tree.leaves] at hroom
    cases bits with
    | nil => exact deserialize_nil h
    | cons first bits =>
      obtain ⟨rfl, tail, htail⟩ := List.cons_prefix_cons.mp hcut
      simp only [Tree.ser, List.length_cons, List.length_append] at hlen hfuel
      obtain ⟨s₁, hbit, hf₁, hd₁⟩ := h.readBit_cons
      have hroom₁ : RoomFor s₁ (2 * l.leaves - 1) :=
        hroom.mono hf₁.allocates.params_eq (by simp [hf₁.allocates.nodes_eq]; omega)
      by_cases hleft : bits.length < l.ser.length
      · -- the left subtree is cut
        have hpre := List.prefix_of_prefix_length_le ⟨tail, htail⟩ (List.prefix_append l.ser r.ser) hleft.le
        obtain ⟨t, ht⟩ := ihl (fuel := fuel) hd₁ hpre hleft (by omega) hroom₁
        exact ⟨t, (bind_ok hbit).trans (bind_error ht)⟩
      · -- the left subtree is whole, and the right one is cut
        obtain ⟨bits, rfl⟩ := List.prefix_of_prefix_length_le (List.prefix_append l.ser r.ser) ⟨tail, htail⟩ (by omega)
        have hpre : bits <+: r.ser := ⟨tail, by simpa using htail⟩
        rw [List.length_append] at hlen hfuel
        obtain ⟨i, s₂, xs, hi, hf₂, hd₂, hxs, -⟩ := deserialize_ok (fuel := fuel) hd₁ (by simp; omega) hroom₁
        have hframe₂ := hf₁.allocates.trans hf₂
        have hroom₂ : RoomFor s₂ (2 * r.leaves - 1) :=
          hroom.mono hframe₂.params_eq (by simp [hframe₂.nodes_eq, hxs]; omega)
        obtain ⟨t, ht⟩ := ihr (fuel := fuel) hd₂ hpre (by omega) (by omega) hroom₂
        exact ⟨t, (bind_ok hbit).trans ((bind_ok hi).trans (bind_error ht))⟩

/-- What `HUF.DESERIALIZE` leaves (R108): `more` are the nodes read, the last one the root. -/
theorem hufDeserializeBody_ok {T : Tree} (h : Delivers s (T.ser ++ rest) corrupt) (harena : ArenaHolds s.params T) :
    ∃ i t, hufDeserializeBody s = .ok (result i) t ∧ Delivers t rest corrupt ∧ t.huf.tree = some T ∧
      t = { s with br := { t.br with isOpen := s.br.isOpen }, mem := { s.mem with srcPos := t.mem.srcPos },
                   answers := t.answers, draws := t.draws,
                   huf := { s.huf with nodes := t.huf.nodes, root := i, treeOk := true, derived := false } } := by
  have hd₀ := h.withHuf { s.huf with nodes := [], treeOk := false, derived := false }
  obtain ⟨i, t, more, hrun, hf, hd, hmore, hin⟩ := deserialize_ok hd₀ hd₀.length_lt_bitBudget
    (.of_arenaHolds harena rfl)
  have hlen : T.leaves ≤ t.huf.nodes.length := by
    have := T.leaves_pos
    rw [hf.nodes_eq, List.nil_append, hmore]
    omega
  refine ⟨i, { t with huf := { t.huf with root := i, treeOk := true } }, ?_,
    hd.withHuf _, hin.huffman_tree hlen, by rw [hf]⟩
  simp only [hufDeserializeBody, changeHuf, bind_apply, change_apply, look_apply, hrun, pure_apply]

theorem hufDeserializeBody_cut {T : Tree} (h : Delivers s bits corrupt) (harena : ArenaHolds s.params T)
    (hcut : bits <+: T.ser) (hlen : bits.length < T.ser.length) :
    ∃ t, hufDeserializeBody s = .error (.raise ⟨.malformedInput, endInfo corrupt 4⟩) t := by
  have hd₀ := h.withHuf { s.huf with nodes := [], treeOk := false, derived := false }
  obtain ⟨t, hrun⟩ := deserialize_cut hd₀ hcut hlen hd₀.length_lt_bitBudget (.of_arenaHolds harena rfl)
  exact ⟨t, by simp only [hufDeserializeBody, changeHuf, bind_apply, change_apply, look_apply, hrun]⟩

/-! ### Following the tree (R109) -/

/-- All that decoding changes: the reader, the answers used up, and the bytes `out` put to the sink. -/
def Emits (s t : State) (out : List Byte) : Prop :=
  t = { s with br := { t.br with isOpen := s.br.isOpen },
               mem := { s.mem with srcPos := t.mem.srcPos, snkData := s.mem.snkData ++ out }, answers := t.answers }

theorem ReaderFrame.emits (h : ReaderFrame s t) : Emits s t [] := by
  rw [Emits, h.1]
  simp

theorem Emits.refl (s : State) : Emits s s [] := (ReaderFrame.refl s).emits

theorem Emits.trans {xs ys : List Byte} (h₁ : Emits s t xs) (h₂ : Emits t u ys) : Emits s u (xs ++ ys) := by
  rw [Emits] at h₁ h₂ ⊢
  rw [h₂, h₁]
  simp

/-- Putting a byte while reading. -/
theorem Delivers.sinkPut (b : Byte) (h : Delivers s bits corrupt) :
    ∃ t, sinkPut b s = .ok () t ∧ Emits s t [b] ∧ Delivers t bits corrupt :=
  ⟨_, sinkPut_ok b h.noIoFail.next, rfl, h.noIoFail.mono (List.tail_suffix _), h.cursor, h.bits, h.corrupt⟩

/-- The bits of a path from a node put the byte of its leaf, and the loop goes on at the root. -/
theorem decodeLoop_path {root l r : Tree} {b : Byte} {path : List Bool} (hmem : (b, path) ∈ (Tree.node l r).paths [])
    (h : Delivers s (path ++ rest) corrupt) (fuel : Nat) (atRoot : Bool) :
    ∃ t, decodeLoop root (path.length + fuel) (.node l r) atRoot s = decodeLoop root fuel root true t ∧
      Emits s t [b] ∧ Delivers t rest corrupt := by
  induction path generalizing s l r atRoot with
  | nil =>
    obtain ⟨bit, rest, hpath, -⟩ := Tree.mem_paths_node hmem
    cases hpath
  | cons bit path ih =>
    obtain ⟨_, _, hpath, hchild⟩ := Tree.mem_paths_node hmem
    cases hpath
    obtain ⟨s₁, hbit, hf₁, hd₁⟩ := Delivers.readBit_cons h
    rw [List.length_cons, Nat.add_right_comm, decodeLoop, bind_ok hbit]
    simp only
    cases hc : (if bit then r else l) with
    | leaf v =>
      obtain ⟨rfl, rfl⟩ : b = v ∧ path = [] := by simpa [hc, Tree.paths] using hchild
      obtain ⟨t, hput, hf₂, hd₂⟩ := hd₁.sinkPut b
      exact ⟨t, by rw [List.length_nil, Nat.zero_add]; exact bind_ok hput, hf₁.emits.trans hf₂, hd₂⟩
    | node l' r' =>
      obtain ⟨t, hloop, hf₂, hd₂⟩ := ih (hc ▸ hchild) hd₁ false
      exact ⟨t, hloop, hf₁.emits.trans hf₂, hd₂⟩

/-- Bits that end inside a path, or at the root of a corrupt stream. -/
theorem decodeLoop_cut {root l r : Tree} {b : Byte} {path : List Bool} (hmem : (b, path) ∈ (Tree.node l r).paths [])
    (h : Delivers s bits corrupt) (hcut : bits <+: path) (hne : bits ≠ path) {fuel : Nat} (hfuel : bits.length < fuel)
    {atRoot : Bool} (hend : bits = [] → atRoot = true → corrupt = true) :
    ∃ t, decodeLoop root fuel (.node l r) atRoot s = .error (.raise ⟨.malformedInput, endInfo corrupt 5⟩) t := by
  obtain ⟨fuel, rfl⟩ : ∃ n, fuel = n + 1 := ⟨fuel - 1, by omega⟩
  induction bits generalizing s l r path atRoot fuel with
  | nil =>
    cases corrupt with
    | true =>
      obtain ⟨t, ht⟩ := h.readBit_corrupt
      exact ⟨t, bind_error ht⟩
    | false =>
      obtain ⟨t, ht, -⟩ := h.readBit_end
      have hroot : atRoot = false := by simpa using hend rfl
      exact ⟨t, by rw [decodeLoop, bind_ok ht, hroot]; rfl⟩
  | cons bit bits ih =>
    obtain ⟨bit', path, rfl, hchild⟩ := Tree.mem_paths_node hmem
    obtain ⟨rfl, hcut'⟩ := List.cons_prefix_cons.mp hcut
    have hne' : bits ≠ path := fun h => hne (h ▸ rfl)
    obtain ⟨s₁, hbit, -, hd₁⟩ := h.readBit_cons
    rw [decodeLoop, bind_ok hbit]
    simp only
    cases hc : (if bit then r else l) with
    | leaf v =>
      obtain ⟨-, rfl⟩ : b = v ∧ path = [] := by simpa [hc, Tree.paths] using hchild
      exact absurd (List.prefix_nil.mp hcut') hne'
    | node l' r' =>
      obtain ⟨fuel, rfl⟩ : ∃ n, fuel = n + 1 := ⟨fuel - 1, by simp at hfuel; omega⟩
      exact ih (hc ▸ hchild) hd₁ hcut' hne' (by simp) fuel (Nat.lt_of_succ_lt_succ hfuel)

/-! ### The payload of a tree, a single leaf included -/

theorem decodeWith_code {T : Tree} {b : Byte} {code : List Bool} (hmem : (b, code) ∈ T.codes)
    (h : Delivers s (code ++ rest) corrupt) (fuel : Nat) :
    ∃ t, decodeWith T (code.length + fuel) s = decodeWith T fuel t ∧ Emits s t [b] ∧ Delivers t rest corrupt := by
  cases T with
  | leaf v =>
    obtain ⟨rfl, rfl⟩ : b = v ∧ code = [false] := by simpa [Tree.codes] using hmem
    obtain ⟨s₁, hbit, hf₁, hd₁⟩ := Delivers.readBit_cons h
    obtain ⟨t, hput, hf₂, hd₂⟩ := hd₁.sinkPut b
    refine ⟨t, ?_, hf₁.emits.trans hf₂, hd₂⟩
    rw [List.length_singleton, Nat.add_comm, decodeWith, decodeDegenerate, bind_ok hbit]
    exact bind_ok hput
  | node l r => exact decodeLoop_path hmem h fuel true

/-- The codes of bytes put those bytes. -/
theorem decodeWith_codes {T : Tree} {bytes : List Byte} {whole : List Bool}
    (hcodes : codeBits (codeTable T) bytes = some whole) (h : Delivers s (whole ++ rest) corrupt) (fuel : Nat) :
    ∃ t, decodeWith T (whole.length + fuel) s = decodeWith T fuel t ∧ Emits s t bytes ∧ Delivers t rest corrupt := by
  induction bytes generalizing s whole with
  | nil =>
    obtain rfl : whole = [] := by simpa [codeBits] using hcodes.symm
    exact ⟨s, by rw [List.length_nil, Nat.zero_add], Emits.refl s, h⟩
  | cons b bytes ih =>
    obtain ⟨c, cs, hc, hcs, rfl⟩ := codeBits_cons_eq_some_iff.mp hcodes
    rw [List.append_assoc] at h
    obtain ⟨s₁, hrun₁, hf₁, hd₁⟩ := decodeWith_code (codeTable_at_some hc) h (cs.length + fuel)
    obtain ⟨t, hrun, hf, hd⟩ := ih hcs hd₁
    exact ⟨t, by rw [List.length_append, Nat.add_assoc, hrun₁, hrun], hf₁.trans hf, hd⟩

theorem decodeWith_end {T : Tree} {fuel : Nat} (h : Delivers s [] false) :
    ∃ t, decodeWith T (fuel + 1) s = .ok () t ∧ Emits s t [] ∧ Delivers t [] false := by
  obtain ⟨t, ht, hf, hd⟩ := h.readBit_end
  refine ⟨t, ?_, hf.emits, hd⟩
  cases T <;> exact bind_ok ht

/-- The bits left end inside a code, or the stream is corrupt. -/
theorem decodeWith_cut {T : Tree} {b : Byte} {code : List Bool} (hmem : (b, code) ∈ T.codes)
    (h : Delivers s bits corrupt) (hcut : bits <+: code) (hne : bits ≠ code) {fuel : Nat} (hfuel : bits.length < fuel)
    (hend : bits = [] → corrupt = true) :
    ∃ t, decodeWith T fuel s = .error (.raise ⟨.malformedInput, endInfo corrupt 5⟩) t := by
  cases T with
  | leaf v =>
    obtain ⟨-, rfl⟩ : b = v ∧ code = [false] := by simpa [Tree.codes] using hmem
    obtain rfl : bits = [] := by
      rcases bits with _ | ⟨bit, bits⟩
      · rfl
      · obtain ⟨rfl, hnil⟩ := List.cons_prefix_cons.mp hcut
        exact absurd (by rw [List.prefix_nil.mp hnil]) hne
    obtain rfl := hend rfl
    obtain ⟨fuel, rfl⟩ : ∃ n, fuel = n + 1 := ⟨fuel - 1, by omega⟩
    obtain ⟨t, ht⟩ := h.readBit_corrupt
    exact ⟨t, bind_error ht⟩
  | node l r => exact decodeLoop_cut hmem h hcut hne hfuel fun hnil _ => hend hnil

theorem hufDecodeBody_ok {T : Tree} {bytes : List Byte} (htree : s.huf.tree = some T)
    (hcodes : codeBits (codeTable T) bytes = some bits) (h : Delivers s bits false) :
    ∃ t, hufDecodeBody s = .ok done t ∧ Emits s t bytes ∧ Delivers t [] false := by
  have hbudget := h.length_lt_bitBudget
  obtain ⟨fuel, hfuel⟩ : ∃ n, bitBudget s = bits.length + (n + 1) := ⟨bitBudget s - bits.length - 1, by omega⟩
  rw [← bits.append_nil] at h
  obtain ⟨s₁, hrun₁, hf₁, hd₁⟩ := decodeWith_codes hcodes h (fuel + 1)
  obtain ⟨t, hrun, hf, hd⟩ := decodeWith_end (T := T) (fuel := fuel) hd₁
  refine ⟨t, ?_, by simpa using hf₁.trans hf, hd⟩
  simp only [hufDecodeBody, heldTree, bind_apply, look_apply, htree, pure_apply, hfuel, hrun₁, hrun]

theorem hufDecodeBody_cut {T : Tree} {bytes : List Byte} {whole left code : List Bool} {b : Byte}
    (htree : s.huf.tree = some T) (hcodes : codeBits (codeTable T) bytes = some whole)
    (h : Delivers s (whole ++ left) corrupt) (hmem : (b, code) ∈ T.codes) (hcut : left <+: code) (hne : left ≠ code)
    (hend : left = [] → corrupt = true) :
    ∃ t, hufDecodeBody s = .error (.raise ⟨.malformedInput, endInfo corrupt 5⟩) t := by
  have hbudget := h.length_lt_bitBudget
  rw [List.length_append] at hbudget
  obtain ⟨fuel, hfuel⟩ : ∃ n, bitBudget s = whole.length + n := ⟨bitBudget s - whole.length, by omega⟩
  obtain ⟨s₁, hrun₁, -, hd₁⟩ := decodeWith_codes hcodes h fuel
  obtain ⟨t, hrun⟩ := decodeWith_cut hmem hd₁ hcut hne (fuel := fuel) (by omega) hend
  exact ⟨t, by simp only [hufDecodeBody, heldTree, bind_apply, look_apply, htree, pure_apply, hfuel, hrun₁, hrun]⟩

/-! ### The commands -/

theorem exec_hufDeserialize (s : State) :
    exec .hufDeserialize s = command 0x47 hufDeserializeChecks hufDeserializeBody s := rfl

theorem exec_hufDecode (s : State) : exec .hufDecode s = command 0x48 hufDecodeChecks hufDecodeBody s := rfl

theorem hufDeserializeChecks_of_open (h : s.br.isOpen = true) : firstFailed (hufDeserializeChecks s) = none := by
  simp [hufDeserializeChecks, needReaderOpen, firstFailed_cons, h]

theorem hufDecodeChecks_of_open (htree : s.huf.treeOk = true) (hbr : s.br.isOpen = true) (hbw : s.bw.isOpen = false) :
    firstFailed (hufDecodeChecks s) = none := by
  simp [hufDecodeChecks, needTree, needReaderOpen, needSinkFree, firstFailed_cons, htree, hbr, hbw]

/-- Settles O50: the bits `ser(T)` rebuild `T` and leave the codes, and the codes put their bytes. -/
theorem decodingInvertsEncoding : Obligations.DecodingInvertsEncoding := by
  intro s T bytes bits hs hbr hbw hcur hn harena _ hcodes hbits hcor
  obtain ⟨i, t, hbody, hd, htree, hframe⟩ := hufDeserializeBody_ok ⟨hn, hcur, hbits, hcor⟩ harena
  have hx := (exec_hufDeserialize s).trans (command_returns hs.1 (hufDeserializeChecks_of_open hbr) hbody)
  let t' := t.respond Status.ok.code (BitVec.ofNat 64 i)
  have hd' : Delivers t' bits false := ⟨hd.noIoFail, hd.cursor, hd.bits, hd.corrupt⟩
  have hchecks : firstFailed (hufDecodeChecks t') = none :=
    hufDecodeChecks_of_open (congrArg (·.huf.treeOk) hframe) ((congrArg (·.br.isOpen) hframe).trans hbr)
      ((congrArg (·.bw.isOpen) hframe).trans hbw)
  obtain ⟨u, hbody', hemits, -⟩ := hufDecodeBody_ok (s := t') htree hcodes hd'
  have hheld : t'.held = false := (congrArg (·.held) hframe).trans hs.1
  refine ⟨t', _, hx, htree, (exec_hufDecode t').trans (command_returns hheld hchecks hbody'), rfl, ?_, ?_⟩
  · rw [State.respond_huf, hemits]
    exact htree
  · rw [State.respond_mem, hemits]
    exact congrArg (·.mem.snkData ++ bytes) hframe

end Sys2Proof.Machine
end

