-- ==== Sys2Proof/Proofs/HuffmanBuild.lean ====
section
/-! PROOF. `HUF.COUNT`, `HUF.BUILD` and `HUF.DERIVE` (R100, R103, R105). The idea for the build: the queue always holds the
roots of a forest whose leaves are the counted bytes and whose weights add up to the count; a merge takes two trees of it
and puts back their node, so in the end one tree is left. -/

namespace Sys2Proof.Machine

variable {s : State}

/-! ### A loop over the source -/

/-- The loop over the source (R100, R107): what holds of the bytes still to come, and is kept by the turn for the next
one, holds in the end. -/
theorem forEachSourceByte_ok {f : Byte → M Unit} (Inv : List Byte → State → Prop)
    (hinv : ∀ bytes s, Inv bytes s → NoIoFail s ∧ s.mem.srcData.drop s.mem.srcPos = bytes)
    (hturn : ∀ b bytes s, Inv (b :: bytes) s → ∃ t,
      f b { s with answers := s.answers.tail, mem := { s.mem with srcPos := s.mem.srcPos + 1 } } = .ok () t ∧ Inv bytes t)
    {bytes : List Byte} {fuel : Nat} (h : Inv bytes s) (hfuel : bytes.length < fuel) :
    ∃ t, forEachSourceByte f fuel s = .ok () { t with answers := t.answers.tail } ∧ Inv [] t := by
  obtain ⟨fuel, rfl⟩ : ∃ n, fuel = n + 1 := ⟨fuel - 1, by omega⟩
  induction bytes generalizing s fuel with
  | nil =>
    obtain ⟨hn, hdrop⟩ := hinv [] s h
    have hnext : s.mem.srcData[s.mem.srcPos]? = none := by rw [← List.head?_drop, hdrop]; rfl
    exact ⟨s, bind_ok (srcNext_eof hn.next hnext), h⟩
  | cons b bytes ih =>
    obtain ⟨hn, hdrop⟩ := hinv _ s h
    have hnext : s.mem.srcData[s.mem.srcPos]? = some b := by rw [← List.head?_drop, hdrop]; rfl
    obtain ⟨u, hf, hu⟩ := hturn b bytes s h
    obtain ⟨fuel, rfl⟩ : ∃ n, fuel = n + 1 := ⟨fuel - 1, by simp at hfuel; omega⟩
    obtain ⟨t, hrun, ht⟩ := ih hu fuel (by simp at hfuel ⊢; omega)
    exact ⟨t, (bind_ok (srcNext_byte hn.next hnext)).trans ((bind_ok hf).trans hrun), ht⟩

/-! ### Counting (R100) -/

theorem Params.fitsFreq_mono {p : Params} {m n : Nat} (h : Params.fitsFreq p n = true) (hmn : m ≤ n) :
    Params.fitsFreq p m = true := by
  unfold Params.fitsFreq at h ⊢
  cases hw : p.freqW with
  | none => rfl
  | some w =>
    simp only [hw, decide_eq_true_eq] at h ⊢
    omega

theorem counterFull_eq_false {p : Params} {n : Nat} (h : Params.fitsFreq p (n + 1) = true) : counterFull p n = false := by
  unfold Params.fitsFreq at h
  unfold counterFull
  cases hw : p.freqW with
  | none => rfl
  | some w =>
    simp only [hw, decide_eq_true_eq, decide_eq_false_iff_not] at h ⊢
    omega

/-- In the loop of `HUF.COUNT` begun at `s₀`, with `bytes` still to come. -/
structure Counting (s₀ : State) (bytes : List Byte) (s : State) : Prop where
  frame : s = { s₀ with huf := { s₀.huf with freq := s.huf.freq }, mem := { s₀.mem with srcPos := s.mem.srcPos },
                        answers := s.answers }
  answers : s.answers <:+ s₀.answers
  toCome : s₀.mem.srcData.drop s.mem.srcPos = bytes
  counts : ∀ b, Table.at s.huf.freq b + bytes.count b = s₀.mem.srcData.count b

theorem Counting.turn {s₀ : State} {b : Byte} {bytes : List Byte} (h : Counting s₀ (b :: bytes) s)
    (hfits : Params.fitsFreq s₀.params (s₀.mem.srcData.count b) = true) :
    ∃ t, countByte b { s with answers := s.answers.tail, mem := { s.mem with srcPos := s.mem.srcPos + 1 } } = .ok () t ∧
      Counting s₀ bytes t := by
  have hcount := h.counts b
  rw [List.count_cons_self] at hcount
  have hparams : s.params = s₀.params := by rw [h.frame]
  have hroom : counterFull s.params (Table.at s.huf.freq b) = false :=
    counterFull_eq_false (hparams ▸ Params.fitsFreq_mono hfits (by omega))
  refine ⟨{ s with answers := s.answers.tail, mem := { s.mem with srcPos := s.mem.srcPos + 1 },
                   huf := { s.huf with freq := Table.put s.huf.freq b (Table.at s.huf.freq b + 1) } }, ?_, ?_, ?_, ?_, ?_⟩
  · simp [countByte, hroom, changeHuf]
  · rw [h.frame]
  · exact (List.tail_suffix _).trans h.answers
  · rw [← List.tail_drop, h.toCome, List.tail_cons]
  · intro c
    have := h.counts c
    rw [Table.at_put]
    by_cases hc : c = b
    · subst hc
      rw [if_pos rfl]
      omega
    · rw [List.count_cons_of_ne (Ne.symm hc)] at this
      rw [if_neg hc]
      exact this

/-- `HUF.COUNT` when every count fits its counter. -/
theorem hufCountBody_ok (hn : NoIoFail s) (hfits : ∀ b, Params.fitsFreq s.params (s.mem.srcData.count b) = true) :
    ∃ freq pos answers, (∀ b, Table.at freq b = s.mem.srcData.count b) ∧ answers <:+ s.answers ∧
      hufCountBody s = .ok done { s with
        huf := { s.huf with freq := freq, counted := true, treeOk := false, derived := false },
        mem := { s.mem with srcPos := pos }, answers := answers } := by
  let s₀ : State := { s with huf := { s.huf with freq := Vector.replicate 256 0 },
                             mem := { s.mem with srcPos := 0 }, answers := s.answers.tail }
  have hn₀ : NoIoFail s₀ := hn.mono (List.tail_suffix _)
  have hinit : Counting s₀ s.mem.srcData s₀ := ⟨rfl, List.suffix_refl _, rfl, fun b => by simp [s₀]⟩
  obtain ⟨t, hloop, ht⟩ := forEachSourceByte_ok (f := countByte) (Counting s₀)
    (fun bytes u h => ⟨hn₀.mono h.answers, by rw [← h.toCome, h.frame]⟩)
    (fun b bytes u h => h.turn (hfits b)) hinit (fuel := sourceBudget s₀) (by simp [sourceBudget, s₀])
  refine ⟨t.huf.freq, t.mem.srcPos, t.answers.tail.tail, fun b => by simpa using ht.counts b,
    (List.tail_suffix _).trans ((List.tail_suffix _).trans (ht.answers.trans (List.tail_suffix _))), ?_⟩
  have hclose : NextAnswerOk { t with answers := t.answers.tail } :=
    ((hn₀.mono ht.answers).mono (List.tail_suffix _)).next
  have hbegin : hufCountBody s = (forEachSourceByte countByte (sourceBudget s₀) >>= fun _ => do
      srcClose
      changeHuf fun h => { h with counted := true, treeOk := false, derived := false }
      pure done) s₀ := by
    simp only [hufCountBody, srcOpen, srcRewind, changeHuf, bind_apply, portAccess_ok 1 hn.next, change_apply, look_apply]
    rfl
  rw [hbegin, bind_ok hloop, srcClose, bind_ok (portAccess_ok 1 hclose), ht.frame]
  rfl

/-! ### The forest of the build (R103) -/

/-- The root of a tree, with its weight, stands in the arena at an index. -/
def RootAt (nodes : List Node) (i : Nat) (p : Tree × Nat) : Prop :=
  TreeIn nodes i p.1 ∧ nodes[i]?.map Node.weight = some p.2

theorem RootAt.mono {nodes more : List Node} {i : Nat} {p : Tree × Nat} (h : RootAt nodes i p) :
    RootAt (nodes ++ more) i p := by
  obtain ⟨n, hn, hw⟩ := Option.map_eq_some_iff.mp h.2
  refine ⟨h.1.mono, ?_⟩
  rw [List.getElem?_append_left (List.getElem?_eq_some_iff.mp hn).1]
  exact h.2

theorem RootAt.weightAt {i : Nat} {p : Tree × Nat} (h : RootAt s.huf.nodes i p) : weightAt s i = p.2 := by
  obtain ⟨n, hn, hw⟩ := Option.map_eq_some_iff.mp h.2
  rw [Machine.weightAt, hn]
  exact hw

/-- The queue holds the roots of a forest with the leaves `bytes` and the total weight `total`. -/
def Forest (nodes : List Node) (heap : List Nat) (bytes : List Byte) (total : Nat) : Prop :=
  ∃ ts : List (Tree × Nat), List.Forall₂ (RootAt nodes) heap ts ∧ (ts.flatMap fun p => p.1.leafBytes).Perm bytes ∧
    (ts.map Prod.snd).sum = total

variable {nodes : List Node} {heap : List Nat} {bytes : List Byte} {total : Nat}

theorem Forest.nil : Forest [] [] [] 0 := ⟨[], .nil, .nil, rfl⟩

theorem Forest.perm {heap' : List Nat} {bytes' : List Byte} (h : Forest nodes heap bytes total) (hheap : heap'.Perm heap)
    (hbytes : bytes.Perm bytes') : Forest nodes heap' bytes' total := by
  obtain ⟨ts, hroots, hleaves, hsum⟩ := h
  obtain ⟨ts', hroots', hts⟩ := List.perm_comp_forall₂ hheap hroots
  exact ⟨ts', hroots', (hts.flatMap_right _).trans (hleaves.trans hbytes), (hts.map _).sum_eq.trans hsum⟩

/-! ### The loops of the build -/

/-- All that the loops of `HUF.BUILD` change: the arena and the heap. -/
def State.withForest (s : State) (nodes : List Node) (heap : List Nat) : State :=
  { s with huf := { s.huf with nodes := nodes }, pq := { s.pq with heap := heap } }

@[simp] theorem State.withForest_freq : (s.withForest nodes heap).huf.freq = s.huf.freq := rfl
@[simp] theorem State.withForest_heap : (s.withForest nodes heap).pq.heap = heap := rfl
@[simp] theorem State.withForest_params : (s.withForest nodes heap).params = s.params := rfl

theorem allocNode_withForest (n : Node) (hroom : hasRoom s.params.nodeCap nodes.length = true) :
    allocNode n (s.withForest nodes heap) = .ok nodes.length (s.withForest (nodes ++ [n]) heap) :=
  allocNode_ok n hroom

/-- A new tree enters the queue. -/
theorem pqInsert_forest {n : Node} {t : Tree} {w : Nat} (hcmp : s.pq.cmp = 0) (h : Forest nodes heap bytes total)
    (hroot : RootAt (nodes ++ [n]) nodes.length (t, w)) (hroom : hasRoom s.params.pqCap heap.length = true) :
    ∃ heap', pqInsert nodes.length (s.withForest (nodes ++ [n]) heap) = .ok () (s.withForest (nodes ++ [n]) heap') ∧
      Forest (nodes ++ [n]) heap' (t.leafBytes ++ bytes) (w + total) ∧ heap'.length = heap.length + 1 := by
  obtain ⟨ts, hroots, hleaves, rfl⟩ := h
  have hperm := heapInsert_perm (precedes (s.withForest (nodes ++ [n]) heap)) heap nodes.length
  have hnew : Forest (nodes ++ [n]) (nodes.length :: heap) (t.leafBytes ++ bytes) (w + (ts.map Prod.snd).sum) :=
    ⟨(t, w) :: ts, .cons hroot (hroots.imp fun _ _ => RootAt.mono), hleaves.append_left _, rfl⟩
  exact ⟨_, pqInsert_ok _ hcmp hroom, hnew.perm hperm (.refl _), hperm.length_eq⟩

/-- A tree leaves the queue. -/
theorem pqExtractMin_forest (hcmp : s.pq.cmp = 0) (h : Forest nodes heap bytes total) (hne : heap ≠ []) :
    ∃ i heap' t w bytes' total', pqExtractMin (s.withForest nodes heap) = .ok i (s.withForest nodes heap') ∧
      RootAt nodes i (t, w) ∧ Forest nodes heap' bytes' total' ∧ (t.leafBytes ++ bytes').Perm bytes ∧
      w + total' = total ∧ heap'.length + 1 = heap.length := by
  obtain ⟨i, rest, rfl⟩ := List.exists_cons_of_ne_nil hne
  obtain ⟨_, _ | ⟨hroot, hroots⟩, hleaves, hsum⟩ := h
  have hperm := heapRemoveRoot_perm (precedes (s.withForest nodes (i :: rest))) i rest
  exact ⟨i, _, _, _, _, _, pqExtractMin_ok (s := s.withForest nodes (i :: rest)) hcmp rfl, hroot,
    Forest.perm ⟨_, hroots, .refl _, rfl⟩ hperm (.refl _), hleaves, hsum, congrArg (· + 1) hperm.length_eq⟩

theorem mkNode_withForest {l r : Nat} {tl tr : Tree} {wl wr : Nat} (hl : RootAt nodes l (tl, wl))
    (hr : RootAt nodes r (tr, wr)) (hfits : Params.fitsFreq s.params (wl + wr) = true)
    (hroom : hasRoom s.params.nodeCap nodes.length = true) :
    mkNode l r (s.withForest nodes heap) =
      .ok nodes.length (s.withForest (nodes ++ [⟨.internal l r, wl + wr⟩]) heap) := by
  have hwl : weightAt (s.withForest nodes heap) l = wl := RootAt.weightAt (p := (tl, wl)) hl
  have hwr : weightAt (s.withForest nodes heap) r = wr := RootAt.weightAt (p := (tr, wr)) hr
  simp only [mkNode, bind_apply, look_apply, hwl, hwr, State.withForest_params, hfits, if_true]
  exact allocNode_withForest _ hroom

/-- The least capacities an implementation may have (R5). -/
theorem Params.capacities_of_wf {p : Params} (h : p.wf = true) :
    p.pqCap.all (256 ≤ ·) = true ∧ p.nodeCap.all (511 ≤ ·) = true := by
  simp only [Params.wf, Bool.and_eq_true] at h
  exact ⟨h.1.2, h.2⟩

theorem Params.hasRoom_nodeCap {p : Params} (h : p.wf = true) {n : Nat} (hn : n < 511) : hasRoom p.nodeCap n = true :=
  hasRoom_of_all_le (Params.capacities_of_wf h).2 hn

theorem Params.hasRoom_pqCap {p : Params} (h : p.wf = true) {n : Nat} (hn : n < 256) : hasRoom p.pqCap n = true :=
  hasRoom_of_all_le (Params.capacities_of_wf h).1 hn

/-- The arena can hold any tree that has as many leaves as there are byte values, or fewer. -/
theorem arenaHolds_of_wf {p : Params} {T : Tree} (h : p.wf = true) (hT : T.leaves ≤ 256) : ArenaHolds p T :=
  all_le_mono (Params.capacities_of_wf h).2 (by omega)

/-- The first loop (R103): one leaf for each of `bs` with a frequency above 0. -/
theorem insertLeaves_ok (hcmp : s.pq.cmp = 0) (hwf : s.params.wf = true) (bs : List Byte)
    (h : Forest nodes heap bytes total) (hlen : heap.length = nodes.length) (hroom : nodes.length + bs.length ≤ 256) :
    ∃ nodes' heap', insertLeaves bs (s.withForest nodes heap) = .ok () (s.withForest nodes' heap') ∧
      Forest nodes' heap' (bs.filter (fun b => 0 < Table.at s.huf.freq b) ++ bytes)
        ((bs.map (Table.at s.huf.freq)).sum + total) ∧
      heap'.length = nodes'.length ∧
      nodes'.length = nodes.length + (bs.filter fun b => 0 < Table.at s.huf.freq b).length := by
  induction bs generalizing nodes heap bytes total with
  | nil => exact ⟨nodes, heap, rfl, by simpa using h, hlen, rfl⟩
  | cons b bs ih =>
    rw [List.length_cons] at hroom
    by_cases hf : 0 < Table.at s.huf.freq b
    · have hroot : RootAt (nodes ++ [⟨.leaf b, Table.at s.huf.freq b⟩]) nodes.length (.leaf b, Table.at s.huf.freq b) :=
        ⟨.leaf (w := Table.at s.huf.freq b) (by simp), by simp⟩
      have halloc := allocNode_withForest (s := s) (heap := heap) ⟨.leaf b, Table.at s.huf.freq b⟩
        (Params.hasRoom_nodeCap hwf (n := nodes.length) (by omega))
      obtain ⟨heap₁, hins, hforest₁, hlen₁⟩ := pqInsert_forest hcmp h hroot
        (Params.hasRoom_pqCap hwf (n := heap.length) (by omega))
      obtain ⟨nodes', heap', hrun, hforest, hlen', hcount⟩ := ih hforest₁ (by simp [hlen₁, hlen]) (by simp; omega)
      refine ⟨nodes', heap', ?_, ?_, hlen', by simp [hcount, hf]; omega⟩
      · simp only [insertLeaves, bind_apply, look_apply, State.withForest_freq, hf, if_true, mkLeaf, halloc, hins, hrun]
      · have hsum : (bs.map (Table.at s.huf.freq)).sum + (Table.at s.huf.freq b + total) =
            ((b :: bs).map (Table.at s.huf.freq)).sum + total := by
          rw [List.map_cons, List.sum_cons]
          omega
        rw [← hsum]
        refine hforest.perm (.refl _) ?_
        simp [hf, List.perm_middle]
    · obtain ⟨nodes', heap', hrun, hforest, hlen', hcount⟩ := ih h hlen (by omega)
      refine ⟨nodes', heap', ?_, ?_, hlen', by simpa [hf] using hcount⟩
      · simp only [insertLeaves, bind_apply, look_apply, State.withForest_freq, hf, if_false, hrun]
      · have hzero : Table.at s.huf.freq b = 0 := by omega
        simpa [hzero] using hforest

/-- One turn of the second loop (R103): two trees become one. -/
theorem mergeTwo_ok (hcmp : s.pq.cmp = 0) (hwf : s.params.wf = true) (hfits : Params.fitsFreq s.params total = true)
    (h : Forest nodes heap bytes total) (htwo : 2 ≤ heap.length) (hheap : heap.length ≤ 256)
    (hnodes : nodes.length < 511) :
    ∃ n heap', mergeTwo (s.withForest nodes heap) = .ok () (s.withForest (nodes ++ [n]) heap') ∧
      Forest (nodes ++ [n]) heap' bytes total ∧ heap'.length + 1 = heap.length := by
  obtain ⟨i, heap₁, tl, wl, bytes₁, total₁, hext₁, hrl, hf₁, hb₁, rfl, hlen₁⟩ :=
    pqExtractMin_forest hcmp h (List.length_pos_iff.mp (by omega))
  obtain ⟨j, heap₂, tr, wr, bytes₂, total₂, hext₂, hrr, hf₂, hb₂, rfl, hlen₂⟩ :=
    pqExtractMin_forest hcmp hf₁ (List.length_pos_iff.mp (by omega))
  have hmk := mkNode_withForest (s := s) (heap := heap₂) hrl hrr (Params.fitsFreq_mono hfits (by omega))
    (Params.hasRoom_nodeCap hwf hnodes)
  have hroot : RootAt (nodes ++ [⟨.internal i j, wl + wr⟩]) nodes.length (.node tl tr, wl + wr) :=
    ⟨.node (l := i) (r := j) (w := wl + wr) (by simp) hrl.1.mono hrr.1.mono, by simp⟩
  obtain ⟨heap₃, hins, hf₃, hlen₃⟩ := pqInsert_forest hcmp hf₂ hroot
    (Params.hasRoom_pqCap hwf (n := heap₂.length) (by omega))
  refine ⟨⟨.internal i j, wl + wr⟩, heap₃, ?_, ?_, by omega⟩
  · simp only [mergeTwo, bind_apply, hext₁, hext₂, hmk, hins]
  · rw [← Nat.add_assoc]
    refine hf₃.perm (.refl _) ?_
    rw [Tree.leafBytes_node, List.append_assoc]
    exact (hb₂.append_left _).trans hb₁

/-- The second loop (R103) leaves one tree; each turn adds a node and leaves one element fewer. -/
theorem mergeAll_ok (hcmp : s.pq.cmp = 0) (hwf : s.params.wf = true) (hfits : Params.fitsFreq s.params total = true)
    {fuel : Nat} (h : Forest nodes heap bytes total) (hne : heap ≠ []) (hfuel : heap.length ≤ fuel + 1)
    (hheap : heap.length ≤ 256) (hroom : nodes.length + heap.length ≤ 512) :
    ∃ nodes' i, mergeAll fuel (s.withForest nodes heap) = .ok () (s.withForest nodes' [i]) ∧
      Forest nodes' [i] bytes total ∧ nodes'.length + 1 = nodes.length + heap.length := by
  induction fuel generalizing nodes heap with
  | zero =>
    obtain ⟨i, rfl⟩ := List.length_eq_one_iff.mp (le_antisymm hfuel (List.length_pos_iff.mpr hne))
    exact ⟨nodes, i, rfl, h, rfl⟩
  | succ fuel ih =>
    by_cases hone : 1 < heap.length
    · obtain ⟨n, heap', hrun, hforest, hlen⟩ := mergeTwo_ok hcmp hwf hfits h hone hheap (by omega)
      have hne' : heap' ≠ [] := List.length_pos_iff.mp (by omega)
      obtain ⟨nodes', i, hrun', hforest', hlen'⟩ := ih hforest hne' (by omega) (by omega) (by simp; omega)
      refine ⟨nodes', i, ?_, hforest', by simp at hlen'; omega⟩
      simp only [mergeAll, bind_apply, look_apply, Queue.size, State.withForest_heap, hone, if_true, hrun, hrun']
    · obtain ⟨i, rfl⟩ := List.length_eq_one_iff.mp (le_antisymm (Nat.not_lt.mp hone) (List.length_pos_iff.mpr hne))
      exact ⟨nodes, i, rfl, h, rfl⟩

theorem countedBytes_length_le (freq : Table Nat) : (countedBytes freq).length ≤ 256 :=
  (List.length_filter_le _ _).trans (by simp [allBytes])

/-- `HUF.BUILD` (R103, R104) makes a tree whose leaves are the counted bytes, and empties the queue. -/
theorem hufBuildBody_ok (hwf : s.params.wf = true) (hfits : Params.fitsFreq s.params (totalCount s.huf.freq) = true)
    (hne : countedBytes s.huf.freq ≠ []) :
    ∃ nodes root T, TreeIn nodes root T ∧ T.leafBytes.Perm (countedBytes s.huf.freq) ∧ T.leaves ≤ nodes.length ∧
      hufBuildBody s = .ok (result root) { s with
        huf := { s.huf with nodes := nodes, root := root, treeOk := true, derived := false },
        pq := { created := true, cmp := 0, heap := [] } } := by
  let s₀ : State := { s with huf := { s.huf with nodes := [], treeOk := false, derived := false },
                             pq := { created := true, cmp := 0, heap := [] } }
  have hcount := countedBytes_length_le s.huf.freq
  have hpos := List.length_pos_iff.mpr hne
  obtain ⟨nodes₁, heap, hins, hforest₁, hlen₁, hnodes₁⟩ := insertLeaves_ok (s := s₀) rfl hwf allBytes Forest.nil rfl
    (by simp [allBytes])
  simp only [List.append_nil, Nat.add_zero, List.length_nil, Nat.zero_add] at hforest₁ hnodes₁
  change Forest nodes₁ heap (countedBytes s.huf.freq) (totalCount s.huf.freq) at hforest₁
  change nodes₁.length = (countedBytes s.huf.freq).length at hnodes₁
  obtain ⟨nodes, i, hmerge, hforest, hlen⟩ := mergeAll_ok (s := s₀) (fuel := heap.length)
    rfl hwf hfits hforest₁ (List.length_pos_iff.mp (by omega)) (by omega) (by omega) (by omega)
  obtain ⟨root, heap', T, w, bytes', total', hext, hroot, ⟨_, hroots, hleaves', -⟩, hleaves, -, hlen'⟩ :=
    pqExtractMin_forest (s := s₀) rfl hforest (List.cons_ne_nil i [])
  obtain rfl : heap' = [] := List.length_eq_zero_iff.mp (by simpa using hlen')
  cases hroots
  rw [hleaves'.symm.eq_nil, List.append_nil] at hleaves
  refine ⟨nodes, root, T, hroot.1, hleaves, ?_, ?_⟩
  · rw [← Tree.leafBytes_length, hleaves.length_eq]
    omega
  · have hbegin : hufBuildBody s = (insertLeaves allBytes >>= fun _ => do
        let n ← look fun s => s.pq.size
        mergeAll n
        let root ← pqExtractMin
        changeHuf fun h => { h with root := root, treeOk := true }
        pure (result root)) (s₀.withForest [] []) := rfl
    rw [hbegin, bind_ok hins]
    simp only [bind_apply, look_apply, Queue.size, State.withForest_heap, hmerge, hext, changeHuf, change_apply]
    rfl

/-! ### The codes (R105) -/

/-- The codes fit the length field (R20). -/
def CodesFit (p : Params) (entries : List (Byte × List Bool)) : Prop :=
  p.codeLen8 = true → ∀ e ∈ entries, e.2.length ≤ 255

/-- The state with another code table. -/
def State.withCode (s : State) (code : Table (Option (List Bool))) : State :=
  { s with huf := { s.huf with code := code } }

theorem putCode_ok {code : Table (Option (List Bool))} {b : Byte} {path : List Bool} (h : CodesFit s.params [(b, path)]) :
    putCode b path (s.withCode code) = .ok () (s.withCode (Table.put code b (some path))) := by
  have hshort : (s.params.codeLen8 && decide (255 < path.length)) = false := by
    rw [Bool.and_eq_false_imp, decide_eq_false_iff_not, Nat.not_lt]
    exact fun hlen8 => h hlen8 (b, path) (by simp)
  simp only [putCode, bind_apply, look_apply]
  rw [State.withCode, hshort]
  rfl

theorem visit_ok {T : Tree} {path : List Bool} {code : Table (Option (List Bool))} (h : CodesFit s.params (T.paths path)) :
    visit T path (s.withCode code) = .ok () (s.withCode (putEntries code (T.paths path))) := by
  induction T generalizing path code with
  | leaf b => exact putCode_ok h
  | node l r ihl ihr =>
    have hl : CodesFit s.params (l.paths (path ++ [false])) := fun h8 e he => h h8 e (List.mem_append_left _ he)
    have hr : CodesFit s.params (r.paths (path ++ [true])) := fun h8 e he => h h8 e (List.mem_append_right _ he)
    rw [visit, bind_ok (ihl hl), ihr hr, Tree.paths, putEntries_append]

/-- `HUF.DERIVE` (R105) of a tree whose codes fit. -/
theorem hufDeriveBody_ok {T : Tree} (htree : s.huf.tree = some T) (hfit : CodesFit s.params T.codes) :
    hufDeriveBody s = .ok done { s with huf := { s.huf with code := codeTable T, derived := true } } := by
  have hput : putCodes T (s.withCode (Vector.replicate 256 none)) = .ok () (s.withCode (codeTable T)) := by
    cases T with
    | leaf b => exact putCode_ok hfit
    | node l r => exact visit_ok hfit
  have hbegin : hufDeriveBody s = (heldTree >>= fun T => do
      putCodes T
      changeHuf fun h => { h with derived := true }
      pure done) (s.withCode (Vector.replicate 256 none)) := rfl
  have hheld : heldTree (s.withCode (Vector.replicate 256 none)) = .ok T (s.withCode (Vector.replicate 256 none)) := by
    have hsame : (s.withCode (Vector.replicate 256 none)).huf.tree = some T := htree
    simp only [heldTree, bind_apply, look_apply, hsame, pure_apply]
  rw [hbegin, bind_ok hheld, bind_ok hput]
  rfl

/-! ### The tree of a source (R112) -/

theorem mem_allBytes (b : Byte) : b ∈ allBytes :=
  List.mem_map.mpr ⟨b.toNat, List.mem_range.mpr b.isLt, by simp⟩

theorem allBytes_nodup : allBytes.Nodup := by
  refine (List.nodup_map_iff_inj_on List.nodup_range).mpr fun m hm n hn h => ?_
  simpa [Nat.mod_eq_of_lt (List.mem_range.mp hm), Nat.mod_eq_of_lt (List.mem_range.mp hn)] using congrArg BitVec.toNat h

variable {freq : Table Nat} {src : List Byte}

theorem totalCount_eq_length (h : ∀ b, Table.at freq b = src.count b) : totalCount freq = src.length := by
  have hsum := Multiset.sum_count_eq_card (s := ⟨(allBytes : Multiset Byte), allBytes_nodup⟩) (m := (src : Multiset Byte))
    fun b _ => mem_allBytes b
  rw [totalCount, List.map_congr_left fun b _ => h b]
  simpa only [Finset.sum, Multiset.map_coe, Multiset.sum_coe, Multiset.coe_count, Multiset.coe_card] using hsum

theorem mem_countedBytes_iff (h : ∀ b, Table.at freq b = src.count b) {b : Byte} : b ∈ countedBytes freq ↔ b ∈ src := by
  simp [countedBytes, mem_allBytes, h, List.count_pos_iff]

theorem countedBytes_ne_nil_iff (h : ∀ b, Table.at freq b = src.count b) : countedBytes freq ≠ [] ↔ src ≠ [] := by
  simp only [ne_eq, List.eq_nil_iff_forall_not_mem, mem_countedBytes_iff h]

/-- `T` is a code tree of the bytes of `src`: each of them stands in one leaf, and no other does (R112). -/
structure TreeOf (src : List Byte) (T : Tree) : Prop where
  nodup : T.leafBytes.Nodup
  mem_iff : ∀ b, b ∈ T.leafBytes ↔ b ∈ src

theorem TreeOf.leaves_le {T : Tree} (h : TreeOf src T) : T.leaves ≤ 256 := by
  have := (h.nodup.subperm fun b _ => mem_allBytes b).length_le
  rw [← T.leafBytes_length]
  exact this.trans (by simp [allBytes])

theorem TreeOf.codesFit {T : Tree} (h : TreeOf src T) (p : Params) : CodesFit p T.codes := by
  intro _ e he
  have hlen := Tree.code_length_le he
  have hle := h.leaves_le
  omega

/-- Every byte of the source has a code. -/
theorem TreeOf.exists_codeBits {T : Tree} (h : TreeOf src T) : ∃ bits, codeBits (codeTable T) src = some bits :=
  Machine.exists_codeBits fun b hb => codeTable_at_ne_none_iff.mpr ((h.mem_iff b).mpr hb)

/-- `HUF.BUILD` after the counts of a source that is not empty. -/
theorem hufBuildBody_ok_of_counts (hwf : s.params.wf = true) (hfits : Params.fitsFreq s.params src.length = true)
    (hcounts : ∀ b, Table.at s.huf.freq b = src.count b) (hne : src ≠ []) :
    ∃ nodes root T, treeAt nodes nodes.length root = some T ∧ TreeOf src T ∧
      hufBuildBody s = .ok (result root) { s with
        huf := { s.huf with nodes := nodes, root := root, treeOk := true, derived := false },
        pq := { created := true, cmp := 0, heap := [] } } := by
  obtain ⟨nodes, root, T, hin, hperm, hleaves, hrun⟩ := hufBuildBody_ok hwf
    ((totalCount_eq_length hcounts).symm ▸ hfits) ((countedBytes_ne_nil_iff hcounts).mpr hne)
  exact ⟨nodes, root, T, hin.treeAt hleaves, ⟨hperm.nodup_iff.mpr (allBytes_nodup.filter _),
    fun b => hperm.mem_iff.trans (mem_countedBytes_iff hcounts)⟩, hrun⟩

theorem hufCountChecks_of_closed (h : s.br.isOpen = false) : firstFailed (hufCountChecks s) = none := by
  simp [hufCountChecks, needSourceFree, firstFailed_cons, h]

theorem needInput_of_counts (h : ∀ b, Table.at s.huf.freq b = src.count b) :
    (needInput s).1 = true ↔ src ≠ [] := by
  rw [← countedBytes_ne_nil_iff h]
  simp [needInput, countedBytes, Nat.pos_iff_ne_zero]

theorem hufBuildChecks_of_counts (hcounted : s.huf.counted = true) (h : ∀ b, Table.at s.huf.freq b = src.count b)
    (hne : src ≠ []) : firstFailed (hufBuildChecks s) = none := by
  simp [hufBuildChecks, firstFailed_eq_none, needCounted, hcounted, (needInput_of_counts h).mpr hne]

theorem hufDeriveChecks_of_tree (h : s.huf.treeOk = true) : firstFailed (hufDeriveChecks s) = none := by
  simp [hufDeriveChecks, needTree, firstFailed_cons, h]

theorem fitsFreq_count (hfits : Params.fitsFreq s.params s.mem.srcData.length = true) (b : Byte) :
    Params.fitsFreq s.params (s.mem.srcData.count b) = true :=
  Params.fitsFreq_mono hfits List.count_le_length

theorem runAll_cons_of_next {i : Instr} {is : List Instr} {t : State} (h : exec i s = .next t) :
    runAll (i :: is) s = runAll is t := by
  rw [runAll, h]

theorem exec_hufCount (s : State) : exec .hufCount s = command 0x40 hufCountChecks hufCountBody s := rfl

theorem exec_hufBuild (s : State) : exec .hufBuild s = command 0x43 hufBuildChecks hufBuildBody s := rfl

theorem exec_hufDerive (s : State) : exec .hufDerive s = command 0x44 hufDeriveChecks hufDeriveBody s := rfl

/-- Settles O43: the counts of the source make a tree of its bytes, and the codes are of that tree's leaves. -/
theorem leavesAreTheSourceBytes : Obligations.LeavesAreTheSourceBytes := by
  intro s hs hbr hn hwf hfits hne
  obtain ⟨freq, pos, answers, hcounts, -, hcount⟩ := hufCountBody_ok hn (fitsFreq_count hfits)
  have hx₁ := (exec_hufCount s).trans (command_returns hs.1 (hufCountChecks_of_closed hbr) hcount)
  set s₁ := State.respond _ _ _
  obtain ⟨nodes, root, T, htree, hT, hbuild⟩ := hufBuildBody_ok_of_counts (s := s₁) hwf hfits hcounts hne
  have hx₂ := (exec_hufBuild s₁).trans (command_returns hs.1 (hufBuildChecks_of_counts rfl hcounts hne) hbuild)
  set s₂ := State.respond _ _ _
  have hx₃ := (exec_hufDerive s₂).trans
    (command_returns hs.1 (hufDeriveChecks_of_tree rfl) (hufDeriveBody_ok htree (hT.codesFit _)))
  refine ⟨_, T, (runAll_cons_of_next hx₁).trans ((runAll_cons_of_next hx₂).trans (runAll_cons_of_next hx₃)), rfl, htree,
    hT.nodup, hT.mem_iff, fun b => ?_⟩
  exact codeTable_at_ne_none_iff.trans (hT.mem_iff b)

end Sys2Proof.Machine
end

