-- ==== Sys2Proof/Proofs/HuffmanWrite.lean ====
section
/-! PROOF. `HUF.SERIALIZE` and `HUF.ENCODE` (R106, R107) from what the writer has accepted, and the close that makes of it
the packed bytes `P(B)` (R37, R81). -/

namespace Sys2Proof.Machine

/-! ### The writer, by the bits it has accepted -/

/-- No port access fails, and the writer has accepted exactly `bits`. -/
structure Accepted (s : State) (bits : List Bool) : Prop where
  noIoFail : NoIoFail s
  acc : AccInv s.bw
  bits : s.bitsWritten = bits

variable {s t u : State} {bits more : List Bool}

theorem Accepted.writeBitList (h : Accepted s bits) (more : List Bool) :
    ∃ t, writeBitList more s = .ok () t ∧ WriterFrame s t ∧ Accepted t (bits ++ more) := by
  obtain ⟨t, ht, hf, hacc, hbits⟩ := writeBitList_spec more h.noIoFail h.acc
  exact ⟨t, ht, hf, h.noIoFail.mono hf.2, hacc, h.bits ▸ hbits⟩

theorem Accepted.writeBit (h : Accepted s bits) (b : Bool) :
    ∃ t, writeBit b s = .ok () t ∧ WriterFrame s t ∧ Accepted t (bits ++ [b]) := by
  obtain ⟨t, ht, hf, hacc, hbits⟩ := writeBit_spec b h.noIoFail h.acc
  exact ⟨t, ht, hf, h.noIoFail.mono hf.2, hacc, h.bits ▸ hbits⟩

/-- The tree's serialization follows the bits accepted before (R63, R106). -/
theorem Accepted.serialize (T : Tree) (h : Accepted s bits) :
    ∃ t, serialize T s = .ok () t ∧ WriterFrame s t ∧ Accepted t (bits ++ T.ser) := by
  induction T generalizing s bits with
  | leaf b =>
    obtain ⟨s₁, h₁, hf₁, ha₁⟩ := h.writeBit true
    obtain ⟨t, ht, hf, ha⟩ := ha₁.writeBitList (byteBits b)
    exact ⟨t, (bind_ok h₁).trans ht, hf₁.trans hf, by simpa [Tree.ser] using ha⟩
  | node l r ihl ihr =>
    obtain ⟨s₁, h₁, hf₁, ha₁⟩ := h.writeBit false
    obtain ⟨s₂, h₂, hf₂, ha₂⟩ := ihl ha₁
    obtain ⟨t, ht, hf, ha⟩ := ihr ha₂
    exact ⟨t, (bind_ok h₁).trans ((bind_ok h₂).trans ht), hf₁.trans (hf₂.trans hf), by simpa [Tree.ser] using ha⟩

theorem hufSerializeBody_ok {T : Tree} (htree : s.huf.tree = some T) (h : Accepted s bits) :
    ∃ t, hufSerializeBody s = .ok done t ∧ WriterFrame s t ∧ Accepted t (bits ++ T.ser) := by
  obtain ⟨t, ht, hf, ha⟩ := h.serialize T
  refine ⟨t, ?_, hf, ha⟩
  simp only [hufSerializeBody, heldTree, bind_apply, look_apply, htree, pure_apply, ht]

/-! ### Encoding the source (R107) -/

/-- All that `HUF.ENCODE` changes: the writer's pending bits, the source position, the bytes put, the answers used up. -/
def EncodeFrame (s t : State) : Prop :=
  t = { s with bw := { t.bw with isOpen := s.bw.isOpen },
               mem := { s.mem with srcPos := t.mem.srcPos, snkData := t.mem.snkData }, answers := t.answers }

/-- In the loop of `HUF.ENCODE` begun at `s₀`, with `bytes` still to come: their codes complete the bits `total`. -/
structure Encoding (s₀ : State) (total : List Bool) (bytes : List Byte) (s : State) : Prop where
  frame : EncodeFrame s₀ s
  toCome : s₀.mem.srcData.drop s.mem.srcPos = bytes
  accepted : ∃ bits rest, Accepted s bits ∧ codeBits s₀.huf.code bytes = some rest ∧ bits ++ rest = total

theorem Encoding.turn {s₀ : State} {total : List Bool} {b : Byte} {bytes : List Byte}
    (h : Encoding s₀ total (b :: bytes) s) :
    ∃ t, encodeByte b { s with answers := s.answers.tail, mem := { s.mem with srcPos := s.mem.srcPos + 1 } } = .ok () t ∧
      Encoding s₀ total bytes t := by
  obtain ⟨bits, rest, ha, hcodes, htotal⟩ := h.accepted
  obtain ⟨c, cs, hc, hcs, rfl⟩ := codeBits_cons_eq_some_iff.mp hcodes
  let s₁ : State := { s with answers := s.answers.tail, mem := { s.mem with srcPos := s.mem.srcPos + 1 } }
  have ha₁ : Accepted s₁ bits := ⟨ha.noIoFail.mono (List.tail_suffix _), ha.acc, ha.bits⟩
  have hc₁ : Table.at s₁.huf.code b = some c := (congrArg (Table.at ·.huf.code b) h.frame).trans hc
  obtain ⟨t, ht, hf, ha⟩ := ha₁.writeBitList c
  refine ⟨t, ?_, ?_, ?_, bits ++ c, cs, ha, hcs, by rw [List.append_assoc, htotal]⟩
  · simp only [encodeByte, bind_apply, look_apply]
    rw [show Table.at _ b = some c from hc₁]
    exact ht
  · rw [EncodeFrame, hf.1]
    simp only [s₁]
    rw [h.frame]
  · have hpos : t.mem.srcPos = s.mem.srcPos + 1 := congrArg (·.mem.srcPos) hf.1
    rw [hpos, ← List.tail_drop, h.toCome, List.tail_cons]

/-- `HUF.ENCODE` when every byte of the source has a code. -/
theorem hufEncodeBody_ok (h : Accepted s bits) (hcodes : codeBits s.huf.code s.mem.srcData = some more) :
    ∃ t, hufEncodeBody s = .ok done t ∧ EncodeFrame s t ∧ Accepted t (bits ++ more) := by
  let s₀ : State := { s with mem := { s.mem with srcPos := 0 }, answers := s.answers.tail }
  have ha₀ : Accepted s₀ bits := ⟨h.noIoFail.mono (List.tail_suffix _), h.acc, h.bits⟩
  have hinit : Encoding s₀ (bits ++ more) s.mem.srcData s₀ := ⟨rfl, rfl, bits, more, ha₀, hcodes, rfl⟩
  obtain ⟨t, hloop, ht⟩ := forEachSourceByte_ok (f := encodeByte) (Encoding s₀ (bits ++ more))
    (fun bytes u hu => ⟨by obtain ⟨_, _, ha, -⟩ := hu.accepted; exact ha.noIoFail, by rw [← hu.toCome, hu.frame]⟩)
    (fun b bytes u hu => hu.turn) hinit (fuel := sourceBudget s₀) (by simp [sourceBudget, s₀])
  obtain ⟨bits', rest, ha, hnil, htotal⟩ := ht.accepted
  obtain rfl : rest = [] := by simpa [codeBits] using hnil.symm
  rw [List.append_nil] at htotal
  subst htotal
  have hn₁ : NoIoFail { t with answers := t.answers.tail } := ha.noIoFail.mono (List.tail_suffix _)
  refine ⟨{ t with answers := t.answers.tail.tail }, ?_, ?_, hn₁.mono (List.tail_suffix _), ha.acc, ha.bits⟩
  · have hbegin : hufEncodeBody s = (forEachSourceByte encodeByte (sourceBudget s₀) >>= fun _ => do
        srcClose
        pure done) s₀ := by
      simp only [hufEncodeBody, srcOpen, srcRewind, bind_apply, portAccess_ok 1 h.noIoFail.next, change_apply, look_apply]
      rfl
    rw [hbegin, bind_ok hloop, srcClose, bind_ok (portAccess_ok 1 hn₁.next)]
    rfl
  · rw [EncodeFrame, ht.frame]

/-! ### The close makes the packed bytes (R37, R81) -/

theorem wholeBytes_streamBits (w : List Byte) (rest : List Bool) : wholeBytes w.length (streamBits w ++ rest) = w := by
  induction w with
  | nil => rfl
  | cons b w ih =>
    have hstream : streamBits (b :: w) ++ rest = byteBits b ++ (streamBits w ++ rest) := by
      rw [← List.singleton_append, streamBits_append, streamBits_singleton, List.append_assoc]
    have hdrop (j : Nat) :
        (byteBits b ++ (streamBits w ++ rest)).drop (8 * (j + 1)) = (streamBits w ++ rest).drop (8 * j) := by
      rw [Nat.mul_succ, Nat.add_comm, ← List.drop_drop, List.drop_left' (byteBits_length b)]
    have htake : (byteBits b ++ (streamBits w ++ rest)).take 8 = byteBits b := List.take_left' (byteBits_length b)
    conv_rhs => rw [← ih]
    rw [hstream, wholeBytes, List.length_cons, List.range_succ_eq_map, List.map_cons, List.map_map, Nat.mul_zero,
      List.drop_zero, htake, val_byteBits, BitVec.ofNat_toNat, BitVec.setWidth_eq, wholeBytes]
    simp only [Function.comp_def, Nat.succ_eq_add_one, hdrop]

/-- A close puts what is left of the packed bytes of the bits accepted. -/
theorem packBits_bitsWritten (h : AccInv s.bw) (pad : Bool) :
    packBits pad s.bitsWritten = s.mem.snkData ++ closingBytes s.bw pad := by
  have hk := s.bw.k.isLt
  have hlen : s.bitsWritten.length = 8 * s.mem.snkData.length + s.bw.k.toNat := by
    rw [State.bitsWritten, List.length_append, streamBits_length, BitWriter.pending, bitsOf_length]
  have hq : s.bitsWritten.length / 8 = s.mem.snkData.length := by omega
  have hwhole : wholeBytes (s.bitsWritten.length / 8) s.bitsWritten = s.mem.snkData := by
    rw [hq, State.bitsWritten, wholeBytes_streamBits]
  by_cases hzero : s.bw.k = 0
  · have haligned : s.bitsWritten.length % 8 = 0 := by
      have : s.bw.k.toNat = 0 := congrArg BitVec.toNat hzero
      omega
    rw [packBits_aligned _ haligned, hwhole, closingBytes, if_neg (not_not.mpr hzero)]
  · have hpos : s.bw.k.toNat ≠ 0 := fun h0 => hzero (BitVec.eq_of_toNat_eq h0)
    have hmod : s.bitsWritten.length % 8 = s.bw.k.toNat := by omega
    have hpending : s.bitsWritten.drop (8 * (s.bitsWritten.length / 8)) = s.bw.pending := by
      rw [hq, State.bitsWritten, List.drop_left' (streamBits_length _)]
    rw [packBits_unaligned _ (by omega), hwhole, hpending, hmod, BitWriter.pending, val_bitsOf, Nat.mod_eq_of_lt h,
      BitVec.ofNat_toNat, BitVec.setWidth_eq, closingBytes, if_pos hzero]

theorem bwOpenBody_ok (h : NextAnswerOk s) :
    bwOpenBody s = .ok done { s with bw := { acc := 0, k := 0, isOpen := true }, answers := s.answers.tail,
                                     mem := { s.mem with snkData := [] } } := by
  simp only [bwOpenBody, sinkOpen, bind_apply, portAccess_ok 3 h, change_apply, pure_apply]

end Sys2Proof.Machine
end

