-- ==== Sys2Proof/Proofs/HuffmanMacros.lean ====
section
/-! PROOF. `HUF.COMPRESS` and `HUF.DECOMPRESS` (R110, R111) as their steps, and the round trip of the two with its limits
(R114). The idea for the limits: an aligned stream is read back with its last `0` and the ones after it cut off, so what
is decoded is a proper part of the bits written, and the cut falls inside the tree, between two codes or inside one. -/

namespace Sys2Proof.Machine

variable {s t u : State} {bits : List Bool} {corrupt : Bool}

/-! ### The steps of an entry point (R152, R153) -/

/-- The state a step of an entry point begins in. -/
def State.inPhase (s : State) (p : Phase) : State := { s with phase := p }

section
variable {α : Type} (p : Phase) {checks : State → Checks} {body : M α} {a : α}

theorem substep_ok (hc : firstFailed (checks (s.inPhase p)) = none) (hb : body (s.inPhase p) = .ok a t) :
    substep p checks body s = .ok a t := by
  simp only [substep, bind_apply, change_apply, look_apply]
  rw [show firstFailed (checks { s with phase := p }) = none from hc]
  exact hb

theorem substep_error {e : Stop} (hc : firstFailed (checks (s.inPhase p)) = none)
    (hb : body (s.inPhase p) = .error e t) : substep p checks body s = .error e t := by
  simp only [substep, bind_apply, change_apply, look_apply]
  rw [show firstFailed (checks { s with phase := p }) = none from hc]
  exact hb

theorem substep_refused {c : Cause} (hc : firstFailed (checks (s.inPhase p)) = some c) :
    substep p checks body s = .error (.raise c) (s.inPhase p) := by
  simp only [substep, bind_apply, change_apply, look_apply]
  rw [show firstFailed (checks { s with phase := p }) = some c from hc]
  rfl

end

theorem endMacro_apply (s : State) : endMacro s = .ok done (s.inPhase .idle) := rfl

theorem NoIoFail.inPhase (h : NoIoFail s) (p : Phase) : NoIoFail (s.inPhase p) := h

theorem Accepted.inPhase (h : Accepted s bits) (p : Phase) : Accepted (s.inPhase p) bits :=
  ⟨h.noIoFail, h.acc, h.bits⟩

theorem Delivers.inPhase (h : Delivers s bits corrupt) (p : Phase) : Delivers (s.inPhase p) bits corrupt :=
  ⟨h.noIoFail, h.cursor, h.bits, h.corrupt⟩

/-! ### Compressing (R110) -/

/-- The steps of `HUF.COMPRESS` once the codes are derived. -/
def compressOutput : M Response := do
  let _ ← substep .opening bwOpenChecks bwOpenBody
  let _ ← substep .hSerialize hufSerializeChecks hufSerializeBody
  let _ ← substep .hEncode hufEncodeChecks hufEncodeBody
  let _ ← substep .closing bwCloseChecks bwCloseBody
  endMacro

/-- The steps before it hold a tree of the source's bytes and its codes. -/
theorem hufCompressBody_builds (hn : NoIoFail s) (hbr : s.br.isOpen = false) (hwf : s.params.wf = true)
    (hfits : Params.fitsFreq s.params s.mem.srcData.length = true) (hne : s.mem.srcData ≠ []) :
    ∃ t T, hufCompressBody s = compressOutput t ∧ NoIoFail t ∧ TreeOf s.mem.srcData T ∧ t.huf.tree = some T ∧
      t.huf.treeOk = true ∧ t.huf.code = codeTable T ∧ t.huf.derived = true ∧
      t = { s with huf := t.huf, pq := t.pq, phase := t.phase, mem := { s.mem with srcPos := t.mem.srcPos },
                   answers := t.answers } := by
  obtain ⟨freq, pos, answers, hcounts, hanswers, hcount⟩ := hufCountBody_ok (hn.inPhase .hCount) (fitsFreq_count hfits)
  have h₁ := substep_ok .hCount (hufCountChecks_of_closed hbr) hcount
  set s₁ : State := { s.inPhase .hCount with huf := _, mem := _, answers := _ }
  obtain ⟨nodes, root, T, htree, hT, hbuild⟩ := hufBuildBody_ok_of_counts (s := s₁.inPhase .hBuild) hwf hfits hcounts hne
  have h₂ := substep_ok .hBuild (s := s₁) (hufBuildChecks_of_counts rfl hcounts hne) hbuild
  set s₂ : State := { s₁.inPhase .hBuild with huf := _, pq := _ }
  have h₃ := substep_ok .hDerive (s := s₂) (hufDeriveChecks_of_tree rfl) (hufDeriveBody_ok htree (hT.codesFit _))
  exact ⟨_, T, (bind_ok h₁).trans ((bind_ok h₂).trans (bind_ok h₃)), hn.mono hanswers, hT, htree, rfl, rfl, rfl, rfl⟩

theorem bwOpenChecks_of_closed (h : s.bw.isOpen = false) : firstFailed (bwOpenChecks s) = none := by
  simp [bwOpenChecks, needWriterClosed, firstFailed_cons, h]

theorem hufSerializeChecks_of_open (htree : s.huf.treeOk = true) (h : s.bw.isOpen = true) :
    firstFailed (hufSerializeChecks s) = none := by
  simp [hufSerializeChecks, needTree, needWriterOpen, firstFailed_cons, htree, h]

theorem hufEncodeChecks_of_open (hcodes : s.huf.derived = true) (hbw : s.bw.isOpen = true) (hbr : s.br.isOpen = false) :
    firstFailed (hufEncodeChecks s) = none := by
  simp [hufEncodeChecks, needCodes, needWriterOpen, needSourceFree, firstFailed_cons, hcodes, hbw, hbr]

/-- The steps from there put the packed bytes of the tree and the codes. -/
theorem compressOutput_ok {T : Tree} (hn : NoIoFail s) (hbr : s.br.isOpen = false) (hbw : s.bw.isOpen = false)
    (htree : s.huf.tree = some T) (hok : s.huf.treeOk = true) (hderived : s.huf.derived = true)
    (hcodes : codeBits s.huf.code s.mem.srcData = some bits) :
    ∃ t, compressOutput s = .ok done t ∧ t.huf = s.huf ∧
      t.mem.snkData = packBits s.params.padOnAligned (T.ser ++ bits) := by
  have h₁ := substep_ok .opening (s := s) (bwOpenChecks_of_closed hbw) (bwOpenBody_ok (hn.inPhase _).next)
  set s₁ : State := { s.inPhase .opening with bw := _, answers := _, mem := _ }
  have ha₁ : Accepted s₁ [] := ⟨hn.mono (List.tail_suffix _), by simp [AccInv, s₁], rfl⟩
  obtain ⟨s₂, hser, hf₂, ha₂⟩ := hufSerializeBody_ok (s := s₁.inPhase .hSerialize) htree (ha₁.inPhase _)
  have h₂ := substep_ok .hSerialize (s := s₁) (hufSerializeChecks_of_open hok rfl) hser
  have hhuf₂ : s₂.huf = s.huf := congrArg (·.huf) hf₂.1
  have hsrc₂ : s₂.mem.srcData = s.mem.srcData := congrArg (·.mem.srcData) hf₂.1
  have hopen₂ : s₂.bw.isOpen = true := congrArg (·.bw.isOpen) hf₂.1
  have hbr₂ : s₂.br.isOpen = false := (congrArg (·.br.isOpen) hf₂.1).trans hbr
  obtain ⟨s₃, henc, hf₃, ha₃⟩ := hufEncodeBody_ok (s := s₂.inPhase .hEncode) (ha₂.inPhase _)
    (show codeBits s₂.huf.code s₂.mem.srcData = some bits by rw [hhuf₂, hsrc₂, hcodes])
  have h₃ := substep_ok .hEncode (hufEncodeChecks_of_open (by rw [State.inPhase, hhuf₂, hderived]) hopen₂ hbr₂) henc
  have hopen₃ : s₃.bw.isOpen = true := (congrArg (·.bw.isOpen) hf₃).trans hopen₂
  have hparams₃ : s₃.params = s.params := (congrArg (·.params) hf₃).trans (congrArg (·.params) hf₂.1)
  have h₄ := substep_ok .closing (bwCloseChecks_of_open hopen₃) (bwCloseBody_ok (ha₃.inPhase .closing).noIoFail)
  refine ⟨_, (bind_ok h₁).trans ((bind_ok h₂).trans ((bind_ok h₃).trans (bind_ok h₄))), ?_, ?_⟩
  · exact (congrArg (·.huf) hf₃).trans hhuf₂
  · have hpack := packBits_bitsWritten ha₃.acc s.params.padOnAligned
    rw [ha₃.bits, List.nil_append] at hpack
    rw [hpack, ← hparams₃]
    rfl

theorem exec_hufCompress (s : State) : exec .hufCompress s = command 0x4E hufCompressChecks hufCompressBody s := rfl

theorem hufCompressChecks_of_closed (hbr : s.br.isOpen = false) (hbw : s.bw.isOpen = false) :
    firstFailed (hufCompressChecks s) = none := by
  simp [hufCompressChecks, needPortsFree, firstFailed_cons, hbr, hbw]

/-- `HUF.COMPRESS` of a source that is not empty (R110). -/
theorem exec_hufCompress_ok (hs : Ready s) (hbr : s.br.isOpen = false) (hbw : s.bw.isOpen = false) (hn : NoIoFail s)
    (hwf : s.params.wf = true) (hfits : Params.fitsFreq s.params s.mem.srcData.length = true) (hne : s.mem.srcData ≠ []) :
    ∃ t T bits, exec .hufCompress s = .next t ∧ t.huf.tree = some T ∧ TreeOf s.mem.srcData T ∧
      codeBits (codeTable T) s.mem.srcData = some bits ∧
      t.mem.snkData = packBits s.params.padOnAligned (T.ser ++ bits) := by
  obtain ⟨u, T, hbuild, hn', hT, htree, hok, hcode, hderived, hframe⟩ := hufCompressBody_builds hn hbr hwf hfits hne
  obtain ⟨bits, hbits⟩ := hT.exists_codeBits
  have hsrc : u.mem.srcData = s.mem.srcData := congrArg (·.mem.srcData) hframe
  obtain ⟨t, hout, hhuf, hsnk⟩ := compressOutput_ok hn' ((congrArg (·.br.isOpen) hframe).trans hbr)
    ((congrArg (·.bw.isOpen) hframe).trans hbw) htree hok hderived (by rw [hcode, hsrc]; exact hbits)
  have hx := (exec_hufCompress s).trans
    (command_returns hs.1 (hufCompressChecks_of_closed hbr hbw) (hbuild.trans hout))
  refine ⟨_, T, bits, hx, ?_, hT, hbits, ?_⟩
  · rw [State.respond_huf, hhuf, htree]
  · rw [State.respond_mem, hsnk, show u.params = s.params from congrArg (·.params) hframe]

/-- `HUF.COMPRESS` of an empty source (R110): nothing is counted, so `HUF.BUILD` is refused. -/
theorem exec_hufCompress_empty (hs : Ready s) (hbr : s.br.isOpen = false) (hbw : s.bw.isOpen = false) (hn : NoIoFail s)
    (hempty : s.mem.srcData = []) : ∃ t, exec .hufCompress s = .next t ∧ Answers t 0x84 0 := by
  obtain ⟨freq, pos, answers, hcounts, hanswers, hcount⟩ := hufCountBody_ok (hn.inPhase .hCount)
    fun b => by
      rw [show (s.inPhase .hCount).mem.srcData.count b = 0 by simp [State.inPhase, hempty]]
      unfold Params.fitsFreq
      split <;> simp
  have h₁ := substep_ok .hCount (hufCountChecks_of_closed hbr) hcount
  set s₁ : State := { s.inPhase .hCount with huf := _, mem := _, answers := _ }
  have hinput : (needInput (s₁.inPhase .hBuild)).1 = false := by
    rw [← Bool.not_eq_true, needInput_of_counts (s := s₁.inPhase .hBuild) hcounts]
    exact not_not.mpr hempty
  have hc : firstFailed (hufBuildChecks (s₁.inPhase .hBuild)) = some ⟨.emptyInput, 0⟩ := by
    have hcounted : (s₁.inPhase .hBuild).huf.counted = true := rfl
    rw [hufBuildChecks, needCounted, firstFailed_cons, if_pos hcounted, firstFailed, hinput]
    rfl
  have hbody : hufCompressBody s = .error (.raise ⟨.emptyInput, 0⟩) _ :=
    (bind_ok h₁).trans (bind_error (substep_refused .hBuild hc))
  exact ⟨_, (exec_hufCompress s).trans (command_raises hs.1 (hufCompressChecks_of_closed hbr hbw) hbody), rfl⟩

/-! ### Decompressing (R111) -/

/-- The steps of `HUF.DECOMPRESS` once the reader is open and the sink empty. -/
def decompressInput : M Response := do
  let _ ← substep .hDeserialize hufDeserializeChecks hufDeserializeBody
  let _ ← substep .hDecode hufDecodeChecks hufDecodeBody
  let _ ← substep .closing brCloseChecks brCloseBody
  sinkClose
  endMacro

theorem brOpenBody_ok (h : NextAnswerOk s) :
    brOpenBody s = .ok done { s with br := { s.br with isOpen := true, hasBits := false, pos := 0, laSt := .none },
                                     mem := { s.mem with srcPos := 0 }, answers := s.answers.tail } := by
  simp only [brOpenBody, srcOpen, srcRewind, bind_apply, portAccess_ok 1 h, change_apply, pure_apply]

theorem brOpenChecks_of_closed (h : s.br.isOpen = false) : firstFailed (brOpenChecks s) = none := by
  simp [brOpenChecks, needReaderClosed, firstFailed_cons, h]

theorem hufDecompressBody_opens (hn : NoIoFail s) (hbr : s.br.isOpen = false) :
    ∃ t, hufDecompressBody s = decompressInput t ∧ Delivers t (validBits s.mem.srcData) (endsCorrupt s.mem.srcData) ∧
      t.br.isOpen = true ∧ t.bw = s.bw ∧ t.params = s.params ∧ t.mem.snkData = [] := by
  have h₁ := substep_ok .opening (s := s) (brOpenChecks_of_closed hbr) (brOpenBody_ok (hn.inPhase _).next)
  set s₁ : State := { s.inPhase .opening with br := _, mem := _, answers := _ }
  have hn₁ : NoIoFail s₁ := hn.mono (List.tail_suffix _)
  have h₂ : sinkOpen s₁ = .ok () { s₁ with answers := s₁.answers.tail, mem := { s₁.mem with snkData := [] } } := by
    simp only [sinkOpen, bind_apply, portAccess_ok 3 hn₁.next, change_apply]
  refine ⟨_, (bind_ok h₁).trans (bind_ok h₂), ⟨hn₁.mono (List.tail_suffix _), ?_, ?_, rfl⟩, rfl, rfl, rfl, rfl⟩
  · simp [CursorInv, s₁]
  · simp [State.bitsToRead, s₁, State.inPhase]

theorem exec_hufDecompress (s : State) :
    exec .hufDecompress s = command 0x4F hufDecompressChecks hufDecompressBody s := rfl

/-- `HUF.DECOMPRESS` may be run: the block is ready, both channels are closed, no port access fails, and the arena can
hold the tree of any source. -/
structure MayDecompress (s : State) : Prop where
  ready : Ready s
  readerClosed : s.br.isOpen = false
  writerClosed : s.bw.isOpen = false
  noIoFail : NoIoFail s
  params : s.params.wf = true

theorem MayDecompress.checks (h : MayDecompress s) : firstFailed (hufDecompressChecks s) = none := by
  simp [hufDecompressChecks, needPortsFree, firstFailed_cons, h.readerClosed, h.writerClosed]

theorem MayDecompress.exec_malformed {info : Byte} (h : MayDecompress s)
    (hbody : hufDecompressBody s = .error (.raise ⟨.malformedInput, info⟩) t) :
    ∃ v, exec .hufDecompress s = .next v ∧ Answers v 0x82 info.toNat := by
  refine ⟨_, (exec_hufDecompress s).trans (command_raises h.ready.1 h.checks hbody), ?_⟩
  rw [Answers, BitVec.ofNat_toNat]
  rfl

/-- After the tree is read: the reader delivers the payload, and the tree is held. -/
theorem decompressInput_tree {T : Tree} {payload : List Bool} (hd : Delivers s (T.ser ++ payload) corrupt)
    (hopen : s.br.isOpen = true) (harena : ArenaHolds s.params T) :
    ∃ t, substep .hDeserialize hufDeserializeChecks hufDeserializeBody s = .ok (result t.huf.root) t ∧
      Delivers t payload corrupt ∧ t.huf.tree = some T ∧ t.huf.treeOk = true ∧ t.br.isOpen = true ∧
      t.bw.isOpen = s.bw.isOpen ∧ t.mem.snkData = s.mem.snkData := by
  obtain ⟨i, t, hbody, hd', htree, hframe⟩ := hufDeserializeBody_ok (hd.inPhase .hDeserialize) harena
  have hroot : t.huf.root = i := congrArg (·.huf.root) hframe
  exact ⟨t, hroot ▸ substep_ok .hDeserialize (hufDeserializeChecks_of_open hopen) hbody, hd', htree,
    congrArg (·.huf.treeOk) hframe, (congrArg (·.br.isOpen) hframe).trans hopen, congrArg (·.bw.isOpen) hframe,
    congrArg (·.mem.snkData) hframe⟩

section
variable {T : Tree} (hs : MayDecompress s) (hT : T.leaves ≤ 256)
include hs hT

/-- A stream of a tree and the codes of bytes gives the bytes (R111). -/
theorem exec_hufDecompress_ok {bytes : List Byte} (hbits : validBits s.mem.srcData = T.ser ++ bits)
    (hcorrupt : endsCorrupt s.mem.srcData = false) (hcodes : codeBits (codeTable T) bytes = some bits) :
    ∃ t, exec .hufDecompress s = .next t ∧ Answers t 0x00 0 ∧ t.mem.snkData = bytes := by
  obtain ⟨s₁, hopens, hd₁, hopen₁, hbw₁, hparams₁, hsnk₁⟩ := hufDecompressBody_opens hs.noIoFail hs.readerClosed
  rw [hbits, hcorrupt] at hd₁
  obtain ⟨s₂, h₂, hd₂, htree₂, hok₂, hopen₂, hbw₂, hsnk₂⟩ := decompressInput_tree hd₁ hopen₁
    (hparams₁ ▸ arenaHolds_of_wf hs.params hT)
  have hclosed₂ : s₂.bw.isOpen = false := by rw [hbw₂, hbw₁, hs.writerClosed]
  obtain ⟨s₃, hbody₃, hemits, hd₃⟩ := hufDecodeBody_ok (s := s₂.inPhase .hDecode) htree₂ hcodes (hd₂.inPhase _)
  have h₃ := substep_ok .hDecode (hufDecodeChecks_of_open hok₂ hopen₂ hclosed₂) hbody₃
  have hopen₃ : s₃.br.isOpen = true := (congrArg (·.br.isOpen) hemits).trans hopen₂
  have h₄ := substep_ok .closing (brCloseChecks_of_open hopen₃) (brCloseBody_ok (hd₃.noIoFail.inPhase _).next)
  have h₅ := portAccess_ok 3 (s := { s₃.inPhase .closing with
      br := { (Config.freeUnits s₃.draws).br with isOpen := false }, answers := s₃.answers.tail, draws := s₃.draws + 1 })
    (hd₃.noIoFail.mono (List.tail_suffix _)).next
  have hrun : hufDecompressBody s = _ :=
    hopens.trans ((bind_ok h₂).trans ((bind_ok h₃).trans ((bind_ok h₄).trans ((bind_ok h₅).trans (endMacro_apply _)))))
  refine ⟨_, (exec_hufDecompress s).trans (command_returns hs.ready.1 hs.checks hrun), rfl, ?_⟩
  have hsnk₃ : s₃.mem.snkData = s₂.mem.snkData ++ bytes := congrArg (·.mem.snkData) hemits
  rw [hsnk₂, hsnk₁] at hsnk₃
  exact hsnk₃

/-- A stream that ends inside the tree (R108). -/
theorem exec_hufDecompress_cut_tree (hcut : validBits s.mem.srcData <+: T.ser)
    (hlen : (validBits s.mem.srcData).length < T.ser.length) :
    ∃ t, exec .hufDecompress s = .next t ∧ Answers t 0x82 (endInfo (endsCorrupt s.mem.srcData) 4).toNat := by
  obtain ⟨s₁, hopens, hd₁, hopen₁, -, hparams₁, -⟩ := hufDecompressBody_opens hs.noIoFail hs.readerClosed
  obtain ⟨t, hbody⟩ := hufDeserializeBody_cut (hd₁.inPhase .hDeserialize) (hparams₁ ▸ arenaHolds_of_wf hs.params hT)
    hcut hlen
  have h₂ := substep_error .hDeserialize (hufDeserializeChecks_of_open hopen₁) hbody
  exact hs.exec_malformed (hopens.trans (bind_error h₂))

/-- A stream that ends inside a code, or after one with the last byte `0xFF` (R109). -/
theorem exec_hufDecompress_cut_code {bytes : List Byte} {whole left code : List Bool} {b : Byte}
    (hbits : validBits s.mem.srcData = T.ser ++ (whole ++ left)) (hcodes : codeBits (codeTable T) bytes = some whole)
    (hmem : (b, code) ∈ T.codes) (hcut : left <+: code) (hne : left ≠ code)
    (hend : left = [] → endsCorrupt s.mem.srcData = true) :
    ∃ t, exec .hufDecompress s = .next t ∧ Answers t 0x82 (endInfo (endsCorrupt s.mem.srcData) 5).toNat := by
  obtain ⟨s₁, hopens, hd₁, hopen₁, hbw₁, hparams₁, -⟩ := hufDecompressBody_opens hs.noIoFail hs.readerClosed
  rw [hbits] at hd₁
  obtain ⟨s₂, h₂, hd₂, htree₂, hok₂, hopen₂, hbw₂, -⟩ := decompressInput_tree hd₁ hopen₁
    (hparams₁ ▸ arenaHolds_of_wf hs.params hT)
  have hclosed₂ : s₂.bw.isOpen = false := by rw [hbw₂, hbw₁, hs.writerClosed]
  obtain ⟨t, hbody⟩ := hufDecodeBody_cut (s := s₂.inPhase .hDecode) htree₂ hcodes (hd₂.inPhase _) hmem hcut hne hend
  have h₃ := substep_error .hDecode (hufDecodeChecks_of_open hok₂ hopen₂ hclosed₂) hbody
  exact hs.exec_malformed (hopens.trans ((bind_ok h₂).trans (bind_error h₃)))

end

/-! ### The round trip (R114) -/

/-- Bits that fill no whole number of bytes, or are padded in any case, are read back (R38). -/
theorem packBits_readBack {pad : Bool} (h : bits.length % 8 ≠ 0 ∨ pad = true) :
    validBits (packBits pad bits) = bits ∧ endsCorrupt (packBits pad bits) = false := by
  rcases h with h | rfl
  · exact packBits_readBack_of_unaligned pad h
  · exact packedBitsReadBack.2.2 bits

/-- Of other bits a proper part is read back (R38). -/
theorem validBits_packBits_cut (h : bits.length % 8 = 0) (hne : bits ≠ []) :
    validBits (packBits false bits) <+: bits ∧ (validBits (packBits false bits)).length < bits.length := by
  obtain ⟨w, c, hpack, hbits⟩ := packBits_false_of_aligned h hne
  have hlast : lastByteBits c <+: byteBits c := List.take_prefix _ _
  have hlen : (lastByteBits c).length < 8 := by simp [lastByteBits]; omega
  rw [hpack, validBits_append_singleton]
  refine ⟨?_, ?_⟩
  · rw [hbits]
    exact List.prefix_append_right_inj (streamBits w) |>.mpr hlast
  · rw [hbits, List.length_append, List.length_append, byteBits_length]
    omega

theorem Answers.not_malformed_of_ok {r r' : Nat} (h : Answers t 0x00 r) : ¬ Answers t 0x82 r' := by
  intro h'
  have hstatus := congrArg rspStatus (h.symm.trans h')
  rw [rspStatus_packRsp, rspStatus_packRsp] at hstatus
  exact absurd hstatus (by decide)

/-- What comes of a stream cut short (R114): the part of the bits that is read back ends inside the tree, between two
codes, or inside a code. -/
theorem exec_hufDecompress_cut {T : Tree} {src : List Byte} (hs : MayDecompress s) (hT : T.leaves ≤ 256)
    (hcodes : codeBits (codeTable T) src = some bits) (hcut : validBits s.mem.srcData <+: T.ser ++ bits)
    (hlen : (validBits s.mem.srcData).length < (T.ser ++ bits).length) :
    ∃ v, exec .hufDecompress s = .next v ∧
      if endsCorrupt s.mem.srcData then Answers v 0x82 7
      else if (validBits s.mem.srcData).length < T.ser.length then Answers v 0x82 4
      else
        (Answers v 0x00 0 ∧ v.mem.snkData <+: src ∧ v.mem.snkData ≠ src ∧
          ∃ cut, codeBits (codeTable T) v.mem.snkData = some cut ∧ validBits s.mem.srcData = T.ser ++ cut) ∨
        (Answers v 0x82 5 ∧ ∀ p cut, codeBits (codeTable T) p = some cut → validBits s.mem.srcData ≠ T.ser ++ cut) := by
  by_cases hshort : (validBits s.mem.srcData).length < T.ser.length
  · have hpre := List.prefix_of_prefix_length_le hcut (List.prefix_append T.ser bits) hshort.le
    obtain ⟨v, hx, hv⟩ := exec_hufDecompress_cut_tree hs hT hpre hshort
    refine ⟨v, hx, ?_⟩
    cases hcor : endsCorrupt s.mem.srcData <;> rw [hcor] at hv
    · rw [if_neg Bool.false_ne_true, if_pos hshort]
      exact hv
    · exact hv
  · obtain ⟨cut, hbits⟩ := List.prefix_of_prefix_length_le (List.prefix_append T.ser bits) hcut (Nat.not_lt.mp hshort)
    rw [← hbits] at hcut hlen
    obtain ⟨front, whole, left, b, code, hfront, hwhole, rfl, hcode, hleft, hne⟩ :=
      codeBits_cut hcodes (List.prefix_append_right_inj T.ser |>.mp hcut) (by simpa using hlen)
    have hfails := exec_hufDecompress_cut_code hs hT hbits.symm hwhole (codeTable_at_some hcode) hleft hne
    simp only [hshort, if_false]
    cases hcor : endsCorrupt s.mem.srcData with
    | true =>
      rw [hcor] at hfails
      exact hfails fun _ => rfl
    | false =>
      simp only [Bool.false_eq_true, if_false]
      by_cases hend : left = []
      · subst hend
        rw [List.append_nil] at hbits hlen
        obtain ⟨v, hx, hok, hsnk⟩ := exec_hufDecompress_ok hs hT hbits.symm hcor hwhole
        refine ⟨v, hx, .inl ⟨hok, hsnk ▸ hfront, fun hsrc => ?_, whole, hsnk ▸ hwhole, hbits.symm⟩⟩
        rw [hsnk] at hsrc
        rw [hsrc, hcodes, Option.some.injEq] at hwhole
        exact absurd hlen (by rw [hwhole]; exact lt_irrefl _)
      · obtain ⟨v, hx, hv⟩ := hfails fun h => absurd h hend
        rw [hcor] at hv
        refine ⟨v, hx, .inr ⟨hv, fun p cut hp hcut => ?_⟩⟩
        obtain ⟨v', hx', hok, -⟩ := exec_hufDecompress_ok hs hT hcut hcor hp
        obtain rfl : v = v' := Host.Outcome.next.inj (hx.symm.trans hx')
        exact hok.not_malformed_of_ok hv

/-- Settles O53: the compressed bytes are `P(ser(T) ++ codes)`; read back whole they give the source, and read back cut
short they end as the place of the cut says. -/
theorem huffmanRoundTrip : Obligations.HuffmanRoundTrip := by
  intro s hs hbr hbw hn hwf hfits
  refine ⟨exec_hufCompress_empty hs hbr hbw hn, fun hne => ?_⟩
  obtain ⟨t, T, bits, hx, htree, hT, hcodes, hsnk⟩ := exec_hufCompress_ok hs hbr hbw hn hwf hfits hne
  refine ⟨t, T, bits, hx, htree, hcodes, fun u hu hubr hubw hun huwf hsrc => ?_⟩
  have hmay : MayDecompress u := ⟨hu, hubr, hubw, hun, huwf⟩
  have hser : 10 * T.leaves - 1 = T.ser.length := by
    have := T.ser_length
    omega
  rw [← hsrc] at hsnk ⊢
  rw [hser, ← List.length_append]
  by_cases hback : (T.ser ++ bits).length % 8 ≠ 0 ∨ s.params.padOnAligned = true
  · obtain ⟨hbits, hcor⟩ := packBits_readBack hback
    rw [← hsnk] at hbits hcor
    obtain ⟨v, hxv, hv⟩ := exec_hufDecompress_ok hmay hT.leaves_le hbits hcor hcodes
    exact ⟨v, hxv, fun _ => hv, fun h₀ hpad => absurd hback (by rw [h₀, hpad]; decide)⟩
  · obtain ⟨haligned, hpad⟩ : (T.ser ++ bits).length % 8 = 0 ∧ s.params.padOnAligned = false := by simpa using hback
    have hser_ne : T.ser ++ bits ≠ [] := by
      have := T.ser_length
      have := T.leaves_pos
      exact List.append_ne_nil_of_left_ne_nil (List.length_pos_iff.mp (by omega)) bits
    rw [hpad] at hsnk
    obtain ⟨hcut, hlen⟩ := validBits_packBits_cut haligned hser_ne
    rw [← hsnk] at hcut hlen
    obtain ⟨v, hxv, hv⟩ := exec_hufDecompress_cut hmay hT.leaves_le hcodes hcut hlen
    exact ⟨v, hxv, fun h => absurd h hback, fun _ _ => hv⟩

end Sys2Proof.Machine
end

