-- ==== Sys2Proof/Proofs/LzwCodes.lean ====
section
/-! PROOF. The codes the LZW encoder emits, and that the decoder's rule turns them back into the bytes (R134, R138). The
idea: while the encoder's match buffer begins with `first`, its dictionary is the decoder's table with the entry that
the decoder will register once it has seen `first`; so the two never differ by more than that one entry, which is the
self-referential case. -/

namespace Sys2Proof.Machine

variable {dict dtab : List (List Byte)} {prev : Option (List Byte)} {buf t out bytes : List Byte} {b first : Byte}
  {c : Nat} {codes : List Nat}

/-! ### The look-up -/

theorem codeOf_isSome_iff : (codeOf dict t).isSome = true ↔ t ∈ dict := by
  simp [codeOf]

theorem codeOf_eq_some (h : codeOf dict t = some c) : dict[c]? = some t := by
  obtain ⟨hlt, heq, -⟩ := List.findIdx?_eq_some_iff_getElem.mp h
  rw [List.getElem?_eq_getElem hlt, beq_iff_eq.mp heq]

theorem codeOf_lt_length (h : codeOf dict t = some c) : c < dict.length :=
  (List.getElem?_eq_some_iff.mp (codeOf_eq_some h)).1

theorem singleton_mem_seedDictionary (b : Byte) : [b] ∈ seedDictionary := List.mem_map_of_mem (mem_allBytes b)

theorem seedDictionary_length : seedDictionary.length = 256 := by simp [seedDictionary, allBytes]

/-! ### The dictionary with one entry more (R132, R136) -/

theorem mem_registerEntry (h : t ∈ dict) : t ∈ registerEntry dict prev b := by
  unfold registerEntry
  split
  · exact h
  · split
    · exact List.mem_append_left _ h
    · exact h

theorem registerEntry_length_le (h : dict.length ≤ dictCap) : (registerEntry dict prev b).length ≤ dictCap := by
  unfold registerEntry
  split
  · exact h
  · split
    · rename_i hroom
      rw [List.length_append]
      exact hroom
    · exact h

/-- An entry of the extended table is in the table, or is the new one, under the next code. -/
theorem registerEntry_getElem? (h : (registerEntry dtab prev b)[c]? = some t) :
    dtab[c]? = some t ∨ c = dtab.length ∧ ∃ p, prev = some p ∧ t = p ++ [b] := by
  unfold registerEntry at h
  split at h
  · exact .inl h
  · rename_i p
    split at h
    · rw [List.getElem?_append] at h
      split at h
      · exact .inl h
      · obtain ⟨hzero, ht⟩ := List.getElem?_eq_some_iff.mp h
        have hc : c = dtab.length := by simp at hzero; omega
        exact .inr ⟨hc, p, rfl, by simpa using ht.symm⟩
    · exact .inl h

/-! ### The encoder as a function (R132 to R134) -/

theorem lzwCodes_cons_of_mem (h : buf ++ [b] ∈ dict) :
    lzwCodes dict buf (b :: bytes) = lzwCodes dict (buf ++ [b]) bytes := by
  rw [lzwCodes, if_pos (codeOf_isSome_iff.mpr h)]

theorem lzwCodes_cons_of_not_mem (h : buf ++ [b] ∉ dict) : lzwCodes dict buf (b :: bytes) = some codes ↔
    ∃ c cs, codeOf dict buf = some c ∧ lzwCodes (registerEntry dict (some buf) b) [b] bytes = some cs ∧
      codes = c :: cs := by
  rw [lzwCodes, if_neg (mt codeOf_isSome_iff.mp h)]
  change (match codeOf dict buf, lzwCodes (registerEntry dict (some buf) b) [b] bytes with
    | some c, some cs => some (c :: cs)
    | _, _ => none) = some codes ↔ _
  cases codeOf dict buf <;> cases lzwCodes (registerEntry dict (some buf) b) [b] bytes <;> simp [eq_comm]

theorem lzwCodes_nil_of_ne (h : buf ≠ []) :
    lzwCodes dict buf [] = some codes ↔ ∃ c, codeOf dict buf = some c ∧ codes = [c] := by
  simp [lzwCodes, h, eq_comm]

/-- No look-up misses (R134 (a)): the single bytes are keys, and the match buffer is one or is empty. -/
theorem exists_lzwCodes (hseed : ∀ b, [b] ∈ dict) (hbuf : buf = [] ∨ buf ∈ dict) :
    ∃ codes, lzwCodes dict buf bytes = some codes := by
  induction bytes generalizing dict buf with
  | nil =>
    by_cases h : buf = []
    · exact ⟨[], by simp [lzwCodes, h]⟩
    · obtain ⟨c, hc⟩ := Option.isSome_iff_exists.mp (codeOf_isSome_iff.mpr (hbuf.resolve_left h))
      exact ⟨[c], (lzwCodes_nil_of_ne h).mpr ⟨c, hc, rfl⟩⟩
  | cons b bytes ih =>
    by_cases h : buf ++ [b] ∈ dict
    · obtain ⟨codes, hcodes⟩ := ih hseed (.inr h)
      exact ⟨codes, (lzwCodes_cons_of_mem h).trans hcodes⟩
    · have hne : buf ≠ [] := fun hnil => h (by rw [hnil]; exact hseed b)
      obtain ⟨c, hc⟩ := Option.isSome_iff_exists.mp (codeOf_isSome_iff.mpr (hbuf.resolve_left hne))
      obtain ⟨cs, hcs⟩ := ih (dict := registerEntry dict (some buf) b) (buf := [b])
        (fun b' => mem_registerEntry (hseed b')) (.inr (mem_registerEntry (hseed b)))
      exact ⟨c :: cs, (lzwCodes_cons_of_not_mem h).mpr ⟨c, cs, hc, hcs, rfl⟩⟩

/-- Every code emitted fits its 12 bits (R134 (d)). -/
theorem lzwCodes_lt (hcap : dict.length ≤ dictCap) (h : lzwCodes dict buf bytes = some codes) :
    ∀ c ∈ codes, c < dictCap := by
  induction bytes generalizing dict buf codes with
  | nil =>
    by_cases hbuf : buf = []
    · obtain rfl : codes = [] := by simpa [lzwCodes, hbuf] using h.symm
      simp
    · obtain ⟨c, hc, rfl⟩ := (lzwCodes_nil_of_ne hbuf).mp h
      simpa using (codeOf_lt_length hc).trans_le hcap
  | cons b bytes ih =>
    by_cases hmem : buf ++ [b] ∈ dict
    · exact ih hcap ((lzwCodes_cons_of_mem hmem).symm.trans h)
    · obtain ⟨c, cs, hc, hcs, rfl⟩ := (lzwCodes_cons_of_not_mem hmem).mp h
      exact List.forall_mem_cons.mpr ⟨(codeOf_lt_length hc).trans_le hcap, ih (registerEntry_length_le hcap) hcs⟩

/-! ### The decoder's rule (R136) -/

/-- From the table and the previous sequence the codes stand for `out`, by the decoder's rule. -/
inductive Decodes : List (List Byte) → Option (List Byte) → List Nat → List Byte → Prop
  | nil (dtab : List (List Byte)) (prev : Option (List Byte)) : Decodes dtab prev [] []
  | cons {dtab : List (List Byte)} {prev : Option (List Byte)} {c : Nat} {first : Byte} {q out : List Byte}
      {codes : List Nat} (hfirst : sequenceOf dtab prev c = .ok (some (first :: q)))
      (hrest : Decodes (registerEntry dtab prev first) (some (first :: q)) codes out) :
      Decodes dtab prev (c :: codes) (first :: q ++ out)

/-- The front of codes that decode does. -/
theorem Decodes.front {front : List Nat} (h : Decodes dtab prev (front ++ codes) out) :
    ∃ out', Decodes dtab prev front out' := by
  induction front generalizing dtab prev out with
  | nil => exact ⟨[], .nil _ _⟩
  | cons c front ih =>
    cases h with
    | cons hfirst hrest =>
      obtain ⟨out', h'⟩ := ih hrest
      exact ⟨_, .cons hfirst h'⟩

/-- A code of the table that registering `first` will give stands for its sequence there, when that begins with `first`:
the new entry is the self-referential case (R137). -/
theorem sequenceOf_registerEntry (hprev : prev ≠ some []) (hinit : prev = none → dtab.length ≤ 256)
    (h : (registerEntry dtab prev first)[c]? = some (first :: t)) :
    sequenceOf dtab prev c = .ok (some (first :: t)) := by
  rcases registerEntry_getElem? h with hc | ⟨rfl, p, rfl, hnew⟩
  · have hlt := (List.getElem?_eq_some_iff.mp hc).1
    cases prev with
    | none =>
      have hbyte : ¬ 256 ≤ c := by have := hinit rfl; omega
      simp only [sequenceOf, if_neg hbyte, hc]
    | some p => simp only [sequenceOf, if_pos hlt, hc]
  · cases p with
    | nil => exact absurd rfl hprev
    | cons first' p =>
      obtain ⟨rfl, rfl⟩ := List.cons_eq_cons.mp hnew
      simp [sequenceOf]

/-- The decoder mirrors the encoder (R138): from a table that registering the match buffer's first byte makes the
encoder's dictionary, the codes to come stand for the match buffer and the bytes to come. -/
theorem decodes_lzwCodes (hdict : dict = registerEntry dtab prev first) (hprev : prev ≠ some [])
    (hinit : prev = none → dtab.length ≤ 256) (h : lzwCodes dict (first :: buf) bytes = some codes) :
    Decodes dtab prev codes (first :: buf ++ bytes) := by
  induction bytes generalizing dict dtab prev first buf codes with
  | nil =>
    obtain ⟨c, hc, rfl⟩ := (lzwCodes_nil_of_ne (List.cons_ne_nil _ _)).mp h
    exact .cons (sequenceOf_registerEntry hprev hinit (hdict ▸ codeOf_eq_some hc)) (.nil _ _)
  | cons b bytes ih =>
    by_cases hmem : first :: buf ++ [b] ∈ dict
    · have hrest := ih (buf := buf ++ [b]) hdict hprev hinit ((lzwCodes_cons_of_mem hmem).symm.trans h)
      rwa [List.cons_append, List.append_assoc] at hrest
    · obtain ⟨c, cs, hc, hcs, rfl⟩ := (lzwCodes_cons_of_not_mem hmem).mp h
      refine .cons (sequenceOf_registerEntry hprev hinit (hdict ▸ codeOf_eq_some hc)) ?_
      exact ih (by rw [hdict]) (by simp) (by simp) hcs

/-- The codes of bytes stand for those bytes. -/
theorem decodes_lzwCodes_seedDictionary (h : lzwCodes seedDictionary [] bytes = some codes) :
    Decodes seedDictionary none codes bytes := by
  cases bytes with
  | nil =>
    obtain rfl : codes = [] := by simpa [lzwCodes] using h.symm
    exact .nil _ _
  | cons b bytes =>
    rw [lzwCodes_cons_of_mem (singleton_mem_seedDictionary b)] at h
    exact decodes_lzwCodes (dtab := seedDictionary) (prev := none) rfl (by simp) (fun _ => seedDictionary_length.le) h

/-! ### The bit stream of codes (R60) -/

theorem codesBits_length (codes : List Nat) : (codesBits codes).length = 12 * codes.length := by
  simp [codesBits, codeW, Nat.mul_comm]

theorem codesBits_append (xs ys : List Nat) : codesBits (xs ++ ys) = codesBits xs ++ codesBits ys := List.flatMap_append

theorem codesBits_cons (c : Nat) (codes : List Nat) : codesBits (c :: codes) = bitsOf codeW c ++ codesBits codes :=
  List.flatMap_cons

end Sys2Proof.Machine
end

