-- ==== Sys2Proof/Proofs/LzwEncode.lean ====
section
/-! PROOF. `LZW.COMPRESS` (R139): the bits the writer accepts in the encoder's loop and its flush are those of the codes
`lzwCodes` names, and its close makes of them the packed bytes. -/

namespace Sys2Proof.Machine

variable {s t : State} {bits : List Bool} {codes : List Nat}

/-! ### The encoder's commands (R131 to R133) -/

/-- All that encoding changes: the encoder's dictionary and match buffer, the writer's pending bits, the source
position, the bytes put, the answers used up. -/
def LzwEncodeFrame (s t : State) : Prop :=
  t = { s with lzw := { s.lzw with edict := t.lzw.edict, buf := t.lzw.buf },
               bw := { t.bw with isOpen := s.bw.isOpen },
               mem := { s.mem with srcPos := t.mem.srcPos, snkData := t.mem.snkData }, answers := t.answers }

theorem Accepted.withLzw (h : Accepted s bits) (lzw : Lzw) : Accepted { s with lzw := lzw } bits :=
  ⟨h.noIoFail, h.acc, h.bits⟩

/-- The state after a byte has been taken from the source. -/
def State.tookByte (s : State) : State :=
  { s with answers := s.answers.tail, mem := { s.mem with srcPos := s.mem.srcPos + 1 } }

theorem Accepted.tookByte (h : Accepted s bits) : Accepted s.tookByte bits :=
  ⟨h.noIoFail.mono (List.tail_suffix _), h.acc, h.bits⟩

theorem Accepted.emitMatch {c : Nat} (h : Accepted s bits) (hc : codeOf s.lzw.edict s.lzw.buf = some c) :
    ∃ t, emitMatch s = .ok () t ∧ WriterFrame s t ∧ Accepted t (bits ++ bitsOf codeW c) := by
  obtain ⟨t, ht, hf, ha⟩ := h.writeBitList (bitsOf codeW c)
  refine ⟨t, ?_, hf, ha⟩
  simp only [Machine.emitMatch, bind_apply, look_apply, hc]
  exact ht

theorem encByte_of_mem {b : Byte} (h : s.lzw.buf ++ [b] ∈ s.lzw.edict) :
    encByte b s = .ok () { s with lzw := { s.lzw with buf := s.lzw.buf ++ [b] } } := by
  simp only [encByte, bind_apply, look_apply, codeOf_isSome_iff.mpr h, if_true]
  rfl

theorem encByte_of_not_mem {b : Byte} (h : s.lzw.buf ++ [b] ∉ s.lzw.edict) (ht : emitMatch s = .ok () t) :
    encByte b s = .ok () { t with lzw := { t.lzw with
      edict := registerEntry t.lzw.edict (some t.lzw.buf) b, buf := [b] } } := by
  simp only [encByte, bind_apply, look_apply, mt codeOf_isSome_iff.mp h, Bool.false_eq_true, if_false, ht]
  rfl

theorem lzwEncFlushBody_ok (h : Accepted s bits) (hcodes : lzwCodes s.lzw.edict s.lzw.buf [] = some codes) :
    ∃ t, lzwEncFlushBody s = .ok done t ∧ LzwEncodeFrame s t ∧ Accepted t (bits ++ codesBits codes) := by
  by_cases hbuf : s.lzw.buf = []
  · obtain rfl : codes = [] := by simpa [lzwCodes, hbuf] using hcodes.symm
    refine ⟨{ s with lzw := { s.lzw with buf := [] } }, ?_, rfl, ?_⟩
    · simp [lzwEncFlushBody, runIf, hbuf, changeLzw]
    · simpa [codesBits] using h.withLzw _
  · obtain ⟨c, hc, rfl⟩ := (lzwCodes_nil_of_ne hbuf).mp hcodes
    obtain ⟨t, ht, hf, ha⟩ := h.emitMatch hc
    refine ⟨{ t with lzw := { t.lzw with buf := [] } }, ?_, ?_, ?_⟩
    · simp [lzwEncFlushBody, runIf, hbuf, ht, changeLzw]
    · rw [LzwEncodeFrame, hf.1]
    · simpa [codesBits] using ha.withLzw _

/-! ### The loop -/

/-- In the loop of `LZW.COMPRESS` begun at `s₀`, with `bytes` still to come: their codes, the match buffer's included,
complete the bits `total`. -/
structure LzwEncoding (s₀ : State) (total : List Bool) (bytes : List Byte) (s : State) : Prop where
  frame : LzwEncodeFrame s₀ s
  toCome : s₀.mem.srcData.drop s.mem.srcPos = bytes
  accepted : ∃ bits rest, Accepted s bits ∧ lzwCodes s.lzw.edict s.lzw.buf bytes = some rest ∧
    bits ++ codesBits rest = total

theorem LzwEncoding.toCome_tookByte {s₀ : State} {total : List Bool} {b : Byte} {bytes : List Byte}
    (h : LzwEncoding s₀ total (b :: bytes) s) : s₀.mem.srcData.drop s.tookByte.mem.srcPos = bytes := by
  rw [State.tookByte, ← List.tail_drop, h.toCome, List.tail_cons]

theorem LzwEncoding.turn {s₀ : State} {total : List Bool} {b : Byte} {bytes : List Byte}
    (h : LzwEncoding s₀ total (b :: bytes) s) :
    ∃ t, encByte b s.tookByte = .ok () t ∧ LzwEncoding s₀ total bytes t := by
  obtain ⟨bits, rest, ha, hcodes, htotal⟩ := h.accepted
  by_cases hmem : s.lzw.buf ++ [b] ∈ s.lzw.edict
  · -- the match grows
    refine ⟨_, encByte_of_mem (s := s.tookByte) hmem, ?_, h.toCome_tookByte, bits, rest, ha.tookByte.withLzw _,
      (lzwCodes_cons_of_mem hmem).symm.trans hcodes, htotal⟩
    rw [LzwEncodeFrame, State.tookByte, h.frame]
  · -- the match ends: its code is emitted
    obtain ⟨c, cs, hc, hcs, rfl⟩ := (lzwCodes_cons_of_not_mem hmem).mp hcodes
    obtain ⟨t, ht, hf, hat⟩ := ha.tookByte.emitMatch hc
    have hlzw : t.lzw = s.lzw := congrArg (·.lzw) hf.1
    have hpos : t.mem.srcPos = s.tookByte.mem.srcPos := congrArg (·.mem.srcPos) hf.1
    refine ⟨_, encByte_of_not_mem (s := s.tookByte) hmem ht, ?_, ?_, _, cs, hat.withLzw _, ?_, ?_⟩
    · rw [LzwEncodeFrame, hf.1, State.tookByte, h.frame]
    · exact (congrArg s₀.mem.srcData.drop hpos).trans h.toCome_tookByte
    · rw [hlzw]
      exact hcs
    · rw [List.append_assoc, ← codesBits_cons, htotal]

/-- The encoder's loop and its flush (R139) in a state that has just been seeded. -/
theorem encodeSource_ok (h : Accepted s []) (hpos : s.mem.srcPos = 0)
    (hcodes : lzwCodes s.lzw.edict s.lzw.buf s.mem.srcData = some codes) :
    ∃ t bits rest, forEachSourceByte encByte (sourceBudget s) s = .ok () t ∧ LzwEncodeFrame s t ∧ Accepted t bits ∧
      lzwCodes t.lzw.edict t.lzw.buf [] = some rest ∧ bits ++ codesBits rest = codesBits codes := by
  have hinit : LzwEncoding s (codesBits codes) s.mem.srcData s :=
    ⟨rfl, by rw [hpos, List.drop_zero], [], codes, h, hcodes, rfl⟩
  obtain ⟨t, hloop, ⟨hframe, -, bits, rest, ha, hrest, htotal⟩⟩ := forEachSourceByte_ok (f := encByte)
    (LzwEncoding s (codesBits codes))
    (fun bytes u hu => ⟨by obtain ⟨_, _, ha, -⟩ := hu.accepted; exact ha.noIoFail, by rw [← hu.toCome, hu.frame]⟩)
    (fun b bytes u hu => hu.turn) hinit (fuel := sourceBudget s) (by simp [sourceBudget, hpos])
  refine ⟨_, bits, rest, hloop, ?_, ⟨ha.noIoFail.mono (List.tail_suffix _), ha.acc, ha.bits⟩, hrest, htotal⟩
  rw [LzwEncodeFrame, hframe]

/-! ### The entry point (R139) -/

theorem lzwEncFlushChecks_of_open (hready : s.lzw.eready = true) (h : s.bw.isOpen = true) :
    firstFailed (lzwEncFlushChecks s) = none := by
  simp [lzwEncFlushChecks, needEncoder, needWriterOpen, firstFailed_cons, hready, h]

theorem lzwEncResetBody_apply (s : State) : lzwEncResetBody s =
    .ok done { s with lzw := { s.lzw with edict := seedDictionary, buf := [], eready := true } } := rfl

/-- The steps of `LZW.COMPRESS` once the encoder is seeded. -/
def compressSeeded : M Response := do
  let n ← look sourceBudget
  forEachSourceByte encByte n
  let _ ← substep .lEncode lzwEncFlushChecks lzwEncFlushBody
  substep .closing (fun _ => []) srcClose
  let _ ← substep .closing bwCloseChecks bwCloseBody
  endMacro

theorem lzwCompressBody_seeds (hn : NoIoFail s) (hbw : s.bw.isOpen = false) :
    ∃ t, lzwCompressBody s = compressSeeded t ∧ Accepted t [] ∧ t.bw.isOpen = true ∧ t.lzw.eready = true ∧
      t.lzw.edict = seedDictionary ∧ t.lzw.buf = [] ∧ t.mem.srcData = s.mem.srcData ∧ t.mem.srcPos = 0 ∧
      t.params = s.params := by
  have h₁ := substep_ok .opening (s := s) (bwOpenChecks_of_closed hbw) (bwOpenBody_ok (hn.inPhase _).next)
  set s₁ : State := { s.inPhase .opening with bw := _, answers := _, mem := _ }
  have hn₁ : NoIoFail s₁ := hn.mono (List.tail_suffix _)
  have h₂ : srcOpen s₁ = _ := portAccess_ok 1 hn₁.next
  have h₃ : srcRewind { s₁ with answers := s₁.answers.tail } = _ := change_apply _ _
  have h₄ := substep_ok .lEncode (checks := lzwEncResetChecks) rfl (lzwEncResetBody_apply
    (State.inPhase { s₁ with answers := s₁.answers.tail, mem := { s₁.mem with srcPos := 0 } } .lEncode))
  refine ⟨_, (bind_ok h₁).trans ((bind_ok h₂).trans ((bind_ok h₃).trans (bind_ok h₄))),
    ⟨hn₁.mono (List.tail_suffix _), ?_, rfl⟩, rfl, rfl, rfl, rfl, rfl, rfl, rfl⟩
  simp [AccInv, s₁, State.inPhase]

theorem compressSeeded_ok (h : Accepted s []) (hopen : s.bw.isOpen = true) (hready : s.lzw.eready = true)
    (hpos : s.mem.srcPos = 0) (hcodes : lzwCodes s.lzw.edict s.lzw.buf s.mem.srcData = some codes) :
    ∃ t, compressSeeded s = .ok done t ∧ t.mem.snkData = packBits s.params.padOnAligned (codesBits codes) := by
  obtain ⟨s₁, bits, rest, hloop, hf₁, ha₁, hrest, htotal⟩ := encodeSource_ok h hpos hcodes
  have hopen₁ : s₁.bw.isOpen = true := (congrArg (·.bw.isOpen) hf₁).trans hopen
  have hready₁ : s₁.lzw.eready = true := (congrArg (·.lzw.eready) hf₁).trans hready
  obtain ⟨s₂, hflush, hf₂, ha₂⟩ := lzwEncFlushBody_ok (ha₁.inPhase .lEncode) hrest
  have h₂ := substep_ok .lEncode (lzwEncFlushChecks_of_open (s := s₁.inPhase .lEncode) hready₁ hopen₁) hflush
  have hopen₂ : s₂.bw.isOpen = true := (congrArg (·.bw.isOpen) hf₂).trans hopen₁
  have hparams₂ : s₂.params = s.params := (congrArg (·.params) hf₂).trans (congrArg (·.params) hf₁)
  have h₃ := substep_ok .closing (s := s₂) (checks := fun _ => []) (body := srcClose) rfl
    (portAccess_ok 1 (ha₂.noIoFail.inPhase .closing).next)
  set s₃ : State := { s₂.inPhase .closing with answers := _ }
  have hn₃ : NoIoFail s₃ := ha₂.noIoFail.mono (List.tail_suffix _)
  have h₄ := substep_ok .closing (s := s₃) (bwCloseChecks_of_open hopen₂) (bwCloseBody_ok (hn₃.inPhase .closing))
  refine ⟨_, (bind_ok hloop).trans ((bind_ok h₂).trans ((bind_ok h₃).trans (bind_ok h₄))), ?_⟩
  have hpack := packBits_bitsWritten ha₂.acc s.params.padOnAligned
  rw [ha₂.bits, htotal] at hpack
  rw [hpack, ← hparams₂]
  rfl

theorem exec_lzwCompress (s : State) : exec .lzwCompress s = command 0x6E lzwCompressChecks lzwCompressBody s := rfl

theorem lzwCompressChecks_of_closed (hbr : s.br.isOpen = false) (hbw : s.bw.isOpen = false) :
    firstFailed (lzwCompressChecks s) = none := by
  simp [lzwCompressChecks, needPortsFree, firstFailed_cons, hbr, hbw]

/-- `LZW.COMPRESS` leaves the packed bits of the source's codes (R139). -/
theorem exec_lzwCompress_ok (hs : Ready s) (hbr : s.br.isOpen = false) (hbw : s.bw.isOpen = false) (hn : NoIoFail s)
    (hcodes : lzwCodes seedDictionary [] s.mem.srcData = some codes) :
    ∃ t, exec .lzwCompress s = .next t ∧ t.mem.snkData = packBits s.params.padOnAligned (codesBits codes) := by
  obtain ⟨s₁, hseeds, ha, hopen, hready, hdict, hbuf, hsrc, hpos, hparams⟩ := lzwCompressBody_seeds hn hbw
  rw [← hdict, ← hbuf, ← hsrc] at hcodes
  obtain ⟨t, hrun, hsnk⟩ := compressSeeded_ok ha hopen hready hpos hcodes
  refine ⟨_, (exec_lzwCompress s).trans
    (command_returns hs.1 (lzwCompressChecks_of_closed hbr hbw) (hseeds.trans hrun)), ?_⟩
  rw [State.respond_mem, hsnk, hparams]

end Sys2Proof.Machine
end

