-- ==== Sys2Proof/Proofs/LzwDecode.lean ====
section
/-! PROOF. `LZW.DECOMPRESS` (R136, R140) from the bits the reader has to deliver: the bits of codes that `Decodes` names
put the bytes they stand for, and bits that end inside a code end in `MalformedInput`. -/

namespace Sys2Proof.Machine

variable {s t u : State} {bits rest : List Bool} {corrupt : Bool} {codes : List Nat} {out : List Byte}

/-! ### One code (R136) -/

/-- All that decoding changes: the reader, the answers used up, the decoder's table and previous sequence, and the bytes
`out` put to the sink. -/
def LzwEmits (s t : State) (out : List Byte) : Prop :=
  t = { s with br := { t.br with isOpen := s.br.isOpen },
               mem := { s.mem with srcPos := t.mem.srcPos, snkData := s.mem.snkData ++ out }, answers := t.answers,
               lzw := { s.lzw with dtab := t.lzw.dtab, prev := t.lzw.prev } }

theorem ReaderFrame.lzwEmits (h : ReaderFrame s t) : LzwEmits s t [] := by
  rw [LzwEmits, h.1]
  simp

theorem LzwEmits.trans {xs ys : List Byte} (h₁ : LzwEmits s t xs) (h₂ : LzwEmits t u ys) : LzwEmits s u (xs ++ ys) := by
  rw [LzwEmits] at h₁ h₂ ⊢
  rw [h₂, h₁]
  simp

theorem LzwEmits.sameRecord (h : LzwEmits s t out) : SameRecord s t := by
  rw [h]
  exact ⟨rfl, rfl, rfl, rfl, rfl, rfl⟩

theorem SameRecord.trans (h₁ : SameRecord s t) (h₂ : SameRecord t u) : SameRecord s u := by
  obtain ⟨hfault₁, hphase₁, hcmd₁, hhost₁, hparams₁, hsrc₁⟩ := h₁
  obtain ⟨hfault₂, hphase₂, hcmd₂, hhost₂, hparams₂, hsrc₂⟩ := h₂
  exact ⟨hfault₂.trans hfault₁, hphase₂.trans hphase₁, hcmd₂.trans hcmd₁, hhost₂.trans hhost₁, hparams₂.trans hparams₁,
    hsrc₂.trans hsrc₁⟩

theorem emitSequence_ok (first : Byte) (q : List Byte) (h : Delivers s bits corrupt) :
    ∃ t, emitSequence (first :: q) s = .ok () t ∧ LzwEmits s t (first :: q) ∧ Delivers t bits corrupt ∧
      t.lzw.dtab = registerEntry s.lzw.dtab s.lzw.prev first ∧ t.lzw.prev = some (first :: q) :=
  ⟨_, bind_ok (sinkPutAll_ok (first :: q) h.noIoFail), rfl,
    ⟨h.noIoFail.mono (List.drop_suffix _ _), h.cursor, h.bits, h.corrupt⟩, rfl, rfl⟩

/-- A code read whole that the rule gives a sequence for. -/
theorem Delivers.decCode {c : Nat} {first : Byte} {q : List Byte} (h : Delivers s (bitsOf codeW c ++ rest) corrupt)
    (hc : c < dictCap) (hq : sequenceOf s.lzw.dtab s.lzw.prev c = .ok (some (first :: q))) :
    ∃ t, decCode s = .ok (some c) t ∧ LzwEmits s t (first :: q) ∧ Delivers t rest corrupt ∧
      t.lzw.dtab = registerEntry s.lzw.dtab s.lzw.prev first ∧ t.lzw.prev = some (first :: q) := by
  obtain ⟨s₁, hread, hf₁, hd₁⟩ := h.readBits_append
  rw [bitsOf_length, val_bitsOf, Nat.mod_eq_of_lt (show c < 2 ^ codeW from hc)] at hread
  have hlzw : s₁.lzw = s.lzw := congrArg (·.lzw) hf₁.1
  obtain ⟨t, ht, hf, hd, hdtab, hprev⟩ := emitSequence_ok first q hd₁
  refine ⟨t, ?_, hf₁.lzwEmits.trans hf, hd, by rw [hdtab, hlzw], hprev⟩
  simp only [Machine.decCode, bind_apply, hread, look_apply, hlzw, hq, ht, pure_apply]

/-- The end of the stream at a code boundary. -/
theorem Delivers.decCode_end (h : Delivers s [] false) :
    ∃ t, Machine.decCode s = .ok none t ∧ ReaderFrame s t ∧ NoIoFail t := by
  obtain ⟨t, ht, hf, -⟩ := readBits_eos (n := codeW) h.noIoFail h.cursor (by rw [h.bits]; decide) h.corrupt
  rw [h.bits] at ht
  exact ⟨t, bind_ok ht, hf, h.noIoFail.mono hf.2⟩

/-- Bits that end inside a code. -/
theorem Delivers.decCode_cut (h : Delivers s bits corrupt) (hne : bits ≠ []) (hlen : bits.length < codeW) :
    ∃ t, Machine.decCode s = .error (.raise ⟨.malformedInput, endInfo corrupt 3⟩) t ∧ ReaderFrame s t := by
  rw [← h.bits] at hne hlen
  cases corrupt with
  | true =>
    obtain ⟨t, ht, hf⟩ := readBits_corrupt h.noIoFail h.cursor hlen h.corrupt
    exact ⟨t, bind_error ht, hf⟩
  | false =>
    obtain ⟨t, ht, hf, -⟩ := readBits_eos h.noIoFail h.cursor hlen h.corrupt
    have hg : s.bitsToRead.length ≠ 0 := mt List.length_eq_zero_iff.mp hne
    refine ⟨t, (bind_ok ht).trans ?_, hf⟩
    simp only [if_neg hg]
    rfl

/-! ### The loop (R140) -/

/-- The codes of a stream put the bytes they stand for. -/
theorem decodeAllCodes_codes (h : Delivers s (codesBits codes ++ rest) corrupt) (hcap : ∀ c ∈ codes, c < dictCap)
    (hcodes : Decodes s.lzw.dtab s.lzw.prev codes out) (fuel : Nat) :
    ∃ t, decodeAllCodes (codes.length + fuel) s = decodeAllCodes fuel t ∧ LzwEmits s t out ∧
      Delivers t rest corrupt := by
  induction codes generalizing s out with
  | nil =>
    cases hcodes
    exact ⟨s, by rw [List.length_nil, Nat.zero_add], (ReaderFrame.refl s).lzwEmits, h⟩
  | cons c codes ih =>
    cases hcodes with
    | cons hfirst hrest =>
      rw [codesBits_cons, List.append_assoc] at h
      obtain ⟨hc, hcap⟩ := List.forall_mem_cons.mp hcap
      obtain ⟨s₁, h₁, hf₁, hd₁, hdtab, hprev⟩ := h.decCode hc hfirst
      rw [← hdtab, ← hprev] at hrest
      obtain ⟨t, ht, hf, hd⟩ := ih hd₁ hcap hrest
      refine ⟨t, ?_, hf₁.trans hf, hd⟩
      rw [List.length_cons, Nat.add_right_comm, decodeAllCodes, bind_ok h₁]
      exact ht

/-- The bound of the loop leaves it a turn after the codes. -/
theorem decodeAllCodes_bitBudget (h : Delivers s (codesBits codes ++ rest) corrupt) (hcap : ∀ c ∈ codes, c < dictCap)
    (hcodes : Decodes s.lzw.dtab s.lzw.prev codes out) :
    ∃ fuel t, decodeAllCodes (bitBudget s) s = decodeAllCodes (fuel + 1) t ∧ LzwEmits s t out ∧
      Delivers t rest corrupt := by
  have hlt := h.length_lt_bitBudget
  rw [List.length_append, codesBits_length] at hlt
  obtain ⟨fuel, hfuel⟩ : ∃ n, bitBudget s = codes.length + (n + 1) := ⟨bitBudget s - codes.length - 1, by omega⟩
  rw [hfuel]
  exact ⟨fuel, decodeAllCodes_codes h hcap hcodes (fuel + 1)⟩

/-- The loop on a stream of codes and nothing more. -/
theorem decodeAllCodes_ok (h : Delivers s (codesBits codes) false) (hcap : ∀ c ∈ codes, c < dictCap)
    (hcodes : Decodes s.lzw.dtab s.lzw.prev codes out) :
    ∃ t, decodeAllCodes (bitBudget s) s = .ok () t ∧ LzwEmits s t out ∧ NoIoFail t := by
  rw [← List.append_nil (codesBits codes)] at h
  obtain ⟨fuel, s₁, h₁, hf₁, hd₁⟩ := decodeAllCodes_bitBudget h hcap hcodes
  obtain ⟨t, ht, hf, hn⟩ := hd₁.decCode_end
  exact ⟨t, h₁.trans (bind_ok ht), by simpa using hf₁.trans hf.lzwEmits, hn⟩

/-- The loop on a stream that ends inside a code. -/
theorem decodeAllCodes_cut (h : Delivers s (codesBits codes ++ rest) corrupt) (hcap : ∀ c ∈ codes, c < dictCap)
    (hcodes : Decodes s.lzw.dtab s.lzw.prev codes out) (hne : rest ≠ []) (hlen : rest.length < codeW) :
    ∃ t, decodeAllCodes (bitBudget s) s = .error (.raise ⟨.malformedInput, endInfo corrupt 3⟩) t ∧ SameRecord s t := by
  obtain ⟨fuel, s₁, h₁, hf₁, hd₁⟩ := decodeAllCodes_bitBudget h hcap hcodes
  obtain ⟨t, ht, hf⟩ := hd₁.decCode_cut hne hlen
  exact ⟨t, h₁.trans (bind_error ht), (hf₁.trans hf.lzwEmits).sameRecord⟩

/-! ### The entry point (R140) -/

/-- The steps of `LZW.DECOMPRESS` once the decoder is seeded. -/
def decompressSeeded : M Response := do
  let n ← look bitBudget
  decodeAllCodes n
  let _ ← substep .closing brCloseChecks brCloseBody
  sinkClose
  endMacro

theorem lzwDecResetBody_apply (s : State) : lzwDecResetBody s =
    .ok done { s with lzw := { s.lzw with dtab := seedDictionary, prev := none, dready := true } } := rfl

theorem lzwDecompressBody_seeds (hn : NoIoFail s) (hbr : s.br.isOpen = false) :
    ∃ t, lzwDecompressBody s = decompressSeeded t ∧ Delivers t (validBits s.mem.srcData) (endsCorrupt s.mem.srcData) ∧
      t.br.isOpen = true ∧ t.mem.snkData = [] ∧ t.lzw.dtab = seedDictionary ∧ t.lzw.prev = none ∧
      SameRecord (s.inPhase .lDecode) t := by
  have h₁ := substep_ok .opening (s := s) (brOpenChecks_of_closed hbr) (brOpenBody_ok (hn.inPhase _).next)
  set s₁ : State := { s.inPhase .opening with br := _, mem := _, answers := _ }
  have hn₁ : NoIoFail s₁ := hn.mono (List.tail_suffix _)
  have h₂ : sinkOpen s₁ = .ok () { s₁ with answers := s₁.answers.tail, mem := { s₁.mem with snkData := [] } } := by
    simp only [sinkOpen, bind_apply, portAccess_ok 3 hn₁.next, change_apply]
  have h₃ := substep_ok .lDecode (checks := lzwDecResetChecks) rfl (lzwDecResetBody_apply
    (State.inPhase { s₁ with answers := s₁.answers.tail, mem := { s₁.mem with snkData := [] } } .lDecode))
  refine ⟨_, (bind_ok h₁).trans ((bind_ok h₂).trans (bind_ok h₃)), ⟨hn₁.mono (List.tail_suffix _), ?_, ?_, rfl⟩,
    rfl, rfl, rfl, rfl, rfl, rfl, rfl, rfl, rfl, rfl⟩
  · simp [CursorInv, s₁, State.inPhase]
  · simp [State.bitsToRead, s₁, State.inPhase]

theorem exec_lzwDecompress (s : State) :
    exec .lzwDecompress s = command 0x6F lzwDecompressChecks lzwDecompressBody s := rfl

theorem lzwDecompressChecks_of_closed (hbr : s.br.isOpen = false) (hbw : s.bw.isOpen = false) :
    firstFailed (lzwDecompressChecks s) = none := by
  simp [lzwDecompressChecks, needPortsFree, firstFailed_cons, hbr, hbw]

/-- A raise in a step of an entry point (R153, R175, R176): the step's phase is recorded. -/
theorem command_fails_inPhase {op : Byte} {checks : State → Checks} {body : M Response} {c : Cause} (p : Phase)
    (h : s.held = false) (hc : firstFailed (checks s) = none) (hb : body s = .error (.raise c) u)
    (hu : SameRecord (s.inPhase p) u) :
    ∃ t, command op checks body s = .next t ∧ FailedDuring s t p.code op c.kind.code c.info := by
  obtain ⟨hfault, hphase, hcmd, hhost, hparams, hsrc⟩ := hu
  have hheld : u.held = false := by rw [State.held, hfault]; exact h
  have hphase' : u.phase = p := hphase
  obtain ⟨hbr, hbw⟩ := u.faultEntry_closes op c
  refine ⟨u.faultEntry op c true, command_raises h hc hb, ?_, rfl, rfl, hbr, hbw, ?_⟩
  · rw [State.faultEntry_faultReg, hheld, hphase']
    rfl
  · simp [hcmd, hhost, hparams, hsrc, State.inPhase]

section
variable (hs : Ready s) (hbr : s.br.isOpen = false) (hbw : s.bw.isOpen = false) (hn : NoIoFail s)
  (hcap : ∀ c ∈ codes, c < dictCap) (hcodes : Decodes seedDictionary none codes out)
include hs hbr hbw hn hcap hcodes

/-- A stream of codes gives the bytes they stand for (R140). -/
theorem exec_lzwDecompress_ok (hbits : validBits s.mem.srcData = codesBits codes)
    (hcorrupt : endsCorrupt s.mem.srcData = false) :
    ∃ t, exec .lzwDecompress s = .next t ∧ Answers t 0x00 0 ∧ t.mem.snkData = out := by
  obtain ⟨s₁, hseeds, hd₁, hopen₁, hsnk₁, hdtab, hprev, -⟩ := lzwDecompressBody_seeds hn hbr
  rw [hbits, hcorrupt] at hd₁
  rw [← hdtab, ← hprev] at hcodes
  obtain ⟨s₂, hloop, hf₂, hn₂⟩ := decodeAllCodes_ok hd₁ hcap hcodes
  have hopen₂ : s₂.br.isOpen = true := (congrArg (·.br.isOpen) hf₂).trans hopen₁
  have h₃ := substep_ok .closing (s := s₂) (brCloseChecks_of_open hopen₂) (brCloseBody_ok (hn₂.inPhase .closing).next)
  set s₃ : State := { s₂.inPhase .closing with br := _, answers := _, draws := _ }
  have hn₃ : NoIoFail s₃ := hn₂.mono (List.tail_suffix _)
  have hrun : lzwDecompressBody s = .ok done (State.inPhase { s₃ with answers := s₃.answers.tail } .idle) :=
    hseeds.trans ((bind_ok hloop).trans ((bind_ok h₃).trans (bind_ok (portAccess_ok 3 hn₃.next))))
  refine ⟨_, (exec_lzwDecompress s).trans (command_returns hs.1 (lzwDecompressChecks_of_closed hbr hbw) hrun), rfl, ?_⟩
  have hsnk₂ : s₂.mem.snkData = s₁.mem.snkData ++ out := congrArg (·.mem.snkData) hf₂
  rw [hsnk₁] at hsnk₂
  exact hsnk₂

/-- A stream that ends inside a code (R136, R140). -/
theorem exec_lzwDecompress_cut (hbits : validBits s.mem.srcData = codesBits codes ++ rest) (hne : rest ≠ [])
    (hlen : rest.length < codeW) :
    ∃ t, exec .lzwDecompress s = .next t ∧ FailedDuring s t 9 0x6F 0x82 (endInfo (endsCorrupt s.mem.srcData) 3) := by
  obtain ⟨s₁, hseeds, hd₁, -, -, hdtab, hprev, hrec₁⟩ := lzwDecompressBody_seeds hn hbr
  rw [hbits] at hd₁
  rw [← hdtab, ← hprev] at hcodes
  obtain ⟨s₂, hloop, hrec₂⟩ := decodeAllCodes_cut hd₁ hcap hcodes hne hlen
  obtain ⟨t, hx, hfailed⟩ := command_fails_inPhase (op := 0x6F) .lDecode hs.1 (lzwDecompressChecks_of_closed hbr hbw)
    (hseeds.trans ((bind_ok (look_apply bitBudget s₁)).trans (bind_error hloop))) (hrec₁.trans hrec₂)
  exact ⟨t, (exec_lzwDecompress s).trans hx, hfailed⟩

end

end Sys2Proof.Machine
end

