-- ==== Sys2Proof/Proofs/LzwRoundTrip.lean ====
section
/-! PROOF. The round trip of the LZW entry points with its limits (R141): the packed bits of the codes are read back
whole, or, when they are aligned and not padded, without their last 1 to 8, so that the last of the 12-bit codes is
cut. -/

namespace Sys2Proof.Machine

variable {codes : List Nat}

/-- A close that puts nothing costs an aligned sequence at most its last byte (R38). -/
theorem length_le_validBits_packBits {bits : List Bool} (h : bits.length % 8 = 0) (hne : bits ≠ []) :
    bits.length ≤ (validBits (packBits false bits)).length + 8 := by
  obtain ⟨w, c, hpack, hbits⟩ := packBits_false_of_aligned h hne
  rw [hpack, validBits_append_singleton, hbits, List.length_append, List.length_append, byteBits_length]
  omega

/-- An even number of codes fills whole bytes, and an odd number does not. -/
theorem codesBits_length_mod_eight (codes : List Nat) : (codesBits codes).length % 8 = 4 * (codes.length % 2) := by
  rw [codesBits_length]
  omega

/-- Codes that are not aligned, or are padded in any case, or are none, are read back whole. -/
theorem packBits_codesBits_readBack {pad : Bool} (h : codes.length % 2 = 1 ∨ codes = [] ∨ pad = true) :
    validBits (packBits pad (codesBits codes)) = codesBits codes ∧
      endsCorrupt (packBits pad (codesBits codes)) = false := by
  rcases h with hodd | rfl | hpad
  · exact packBits_readBack (.inl (by rw [codesBits_length_mod_eight, hodd]; decide))
  · cases pad <;> decide
  · exact packBits_readBack (.inr hpad)

/-- Of an even, positive number of codes the last one is read back with 4 to 11 of its bits. -/
theorem packBits_codesBits_cut (heven : codes.length % 2 = 0) (hne : codes ≠ []) :
    ∃ front last left, codes = front ++ [last] ∧
      validBits (packBits false (codesBits codes)) = codesBits front ++ left ∧ 4 ≤ left.length ∧ left.length < 12 := by
  obtain ⟨front, last, rfl⟩ := (List.eq_nil_or_concat' codes).resolve_left hne
  have haligned : (codesBits (front ++ [last])).length % 8 = 0 := by rw [codesBits_length_mod_eight, heven]
  have hlength := codesBits_length (front ++ [last])
  have hfront := codesBits_length front
  rw [List.length_append, List.length_singleton] at hlength
  have hbits : codesBits (front ++ [last]) ≠ [] := List.length_pos_iff.mp (by omega)
  obtain ⟨hprefix, hlt⟩ := validBits_packBits_cut haligned hbits
  have hle := length_le_validBits_packBits haligned hbits
  have hfrontPrefix : codesBits front <+: codesBits (front ++ [last]) := by
    rw [codesBits_append]
    exact List.prefix_append _ _
  obtain ⟨left, hleft⟩ := List.prefix_of_prefix_length_le hfrontPrefix hprefix (by omega)
  have hleftLength := congrArg List.length hleft
  rw [List.length_append] at hleftLength
  exact ⟨front, last, left, rfl, hleft.symm, by omega, by omega⟩

/-- Settles O60: the sink holds the packed bits of the source's codes, which decode to the source; read back whole they
give it again, and read back without the end of the last code they end in the fault of a code cut off. -/
theorem lzwRoundTrip : Obligations.LzwRoundTrip := by
  refine ⟨fun s hs hbr hbw hn => ?_, by decide +kernel⟩
  obtain ⟨codes, hcodes⟩ := exists_lzwCodes (dict := seedDictionary) (buf := []) (bytes := s.mem.srcData)
    singleton_mem_seedDictionary (.inl rfl)
  have hcap := lzwCodes_lt (by rw [seedDictionary_length]; decide) hcodes
  have hdecodes := decodes_lzwCodes_seedDictionary hcodes
  obtain ⟨t, hx, hsnk⟩ := exec_lzwCompress_ok hs hbr hbw hn hcodes
  refine ⟨t, codes, hx, hcodes, hsnk, codesBits_length codes, fun heven hne hpad _ => ?_,
    fun u hu hubr hubw hun hsrc => ?_⟩
  · obtain ⟨front, last, left, -, hback, hfour, htwelve⟩ := packBits_codesBits_cut heven hne
    rw [hsnk, hpad, hback, List.length_append, codesBits_length, Nat.mul_add_mod, Nat.mod_eq_of_lt htwelve]
    exact hfour
  · rw [← hsrc] at hsnk ⊢
    by_cases hwhole : codes.length % 2 = 1 ∨ codes = [] ∨ s.params.padOnAligned = true
    · obtain ⟨hbits, hcorrupt⟩ := packBits_codesBits_readBack hwhole
      rw [← hsnk] at hbits hcorrupt
      obtain ⟨v, hxv, hv⟩ := exec_lzwDecompress_ok hu hubr hubw hun hcap hdecodes hbits hcorrupt
      refine ⟨v, hxv, fun _ => hv, fun heven hne hpad => ?_⟩
      simp [heven, hne, hpad] at hwhole
    · obtain ⟨hodd, hne, hpad⟩ : codes.length % 2 ≠ 1 ∧ codes ≠ [] ∧ s.params.padOnAligned = false := by
        simpa [not_or] using hwhole
      rw [hpad] at hsnk
      obtain ⟨front, last, left, rfl, hback, hfour, htwelve⟩ := packBits_codesBits_cut (by omega) hne
      rw [← hsnk] at hback
      obtain ⟨out, hfront⟩ := hdecodes.front
      obtain ⟨v, hxv, hv⟩ := exec_lzwDecompress_cut hu hubr hubw hun (fun c hc => hcap c (List.mem_append_left _ hc))
        hfront hback (List.length_pos_iff.mp (by omega)) htwelve
      exact ⟨v, hxv, fun h => absurd h hwhole, fun _ _ _ => hv⟩

end Sys2Proof.Machine
end

