-- ==== Sys2Proof/Proofs/SystemCommands.lean ====
section
/-! PROOF. `SYS.RESET` (R150, R180) and `SYS.STATUS` (R151), the two commands that run while the block is held, and the
refusal of a word that is no command (R55, R152 steps 1 to 3), of which a malformed `SYS.RESET` word is one. -/

namespace Sys2Proof.Machine

variable {s : State} {w : CmdWord} {rest : List HostInput} {why : Reject}

/-! ### One step, by what the host presents -/

theorem step_reset (h : s.host = .reset :: rest) : step s = .next (externalReset { s with host := rest }) := by
  simp [step, takeInput, h]

theorem step_rejected (h : s.host = .command w :: rest) (hd : decode w = .error why) :
    step s = .next (rejectWord w why { s with host := rest, cmd := w }) := by
  simp [step, takeInput, h, hd]

/-! ### A word that is no command -/

theorem rejectWord_of_held (h : s.held = true) : rejectWord w why s = { s with rsp := packRsp 0x8F 0 } := by
  rw [rejectWord, if_pos h]
  rfl

theorem rejectWord_of_ready (h : Ready s) : rejectWord w why s = s.refused (cmdOp w) 0x86 (rejectInfo why) := by
  rw [rejectWord, h.1, if_neg Bool.false_ne_true, State.faultEntry_of_ready _ _ h]
  rfl

/-- `SYS.RESET` uses neither field (R54), so its `op` with a field set is no command (R51). -/
theorem decode_sysReset_malformed (hop : cmdOp w = 0xE0) (hfield : cmdX w ≠ 0 ∨ cmdY w ≠ 0) :
    decode w = .error .unusedField := by
  have hrow : decode w = noFields (cmdX w) (cmdY w) .sysReset := by
    rw [decode, hop]
    rfl
  rw [hrow, noFields, if_neg (not_and_or.mpr hfield)]

/-! ### The two commands -/

theorem exec_sysReset (s : State) : exec .sysReset s = .next (externalReset s) := rfl

theorem exec_sysStatus (s : State) :
    exec .sysStatus s = .next { s with rsp := packRsp 0x00 (s.faultReg.setWidth 64) } := rfl

/-- Releasing the ports only uses up answers (R33, R150). -/
theorem State.releasePorts_answers_suffix (s : State) : s.releasePorts.answers <:+ s.answers := List.drop_suffix _ _

/-- Settles O9: every element takes the value it has in `State.reset`, and only answers of the environment are used up;
a `SYS.RESET` word with a field set does not decode, and is refused like any such word. -/
theorem resetCommand : Obligations.ResetCommand := by
  refine ⟨fun s => ?_, fun s rest hhost => ?_, fun s w rest hhost hop hfield hphase => ?_⟩
  · exact ⟨externalReset s, exec_sysReset s, rfl, rfl, rfl, rfl, rfl, rfl, rfl, rfl, rfl, rfl, rfl, rfl, rfl, rfl, rfl,
      s.releasePorts_answers_suffix⟩
  · rw [step_reset hhost, exec_sysReset]
  · rw [step_rejected hhost (decode_sysReset_malformed hop hfield)]
    refine ⟨fun hfree => ?_, fun hheld => ?_⟩
    · have hready : Ready { s with host := rest, cmd := w } := ⟨hfree, hphase⟩
      rw [rejectWord_of_ready hready, hop]
      rfl
    · have hheld' : State.held { s with host := rest, cmd := w } = true := hheld
      rw [rejectWord_of_held hheld']

/-- Settles O10: `SYS.STATUS` writes `RSP` only, and the fault of `BW.WRITEBIT 2` on an open writer is the precise one of
O28. -/
theorem statusCommand : Obligations.StatusCommand := by
  refine ⟨exec_sysStatus, fun s hs hopen => ?_⟩
  obtain ⟨-, hrefused, -⟩ := writeBitShiftsIn
  have hfault : (packFault 0 0x05 0x83 1).setWidth 64 = BitVec.ofNat 64 0x80058301 := by decide
  exact ⟨s.refused 0x05 0x83 1, _, hrefused s 2 hs hopen (by decide), exec_sysStatus _, congrArg (packRsp 0x00) hfault⟩

end Sys2Proof.Machine
end

