-- ==== Sys2Proof/Proofs/RejectedWords.lean ====
section
/-! PROOF. A word that is no command (R51, R55, R167): the opcodes the decoder knows are those of the opcode map, and a row
of the map decodes only when the fields it does not use are 0. -/

namespace Sys2Proof.Machine

variable {w : CmdWord}

/-- R55, R167 `info` 1: every opcode the decoder knows is a row's. -/
theorem decodeFields_illegalOpcode {op x : BitVec 8} {y : BitVec 64} (h : ∀ row ∈ commandRows, row.op ≠ op) :
    decodeFields op x y = .error .illegalOpcode := by
  unfold decodeFields
  split
  case h_34 => rfl
  all_goals exact absurd h (by decide)

/-- R51, R167 `info` 2: every row checks the fields it does not use, and no other. -/
theorem decodeFields_eq_unusedField_iff {row : CommandRow} {x : BitVec 8} {y : BitVec 64} (hrow : row ∈ commandRows) :
    decodeFields row.op x y = .error .unusedField ↔ row.usesX = false ∧ x ≠ 0 ∨ row.usesY = false ∧ y ≠ 0 := by
  simp only [commandRows, List.cons_append, List.nil_append] at hrow
  fin_cases hrow <;> simp [decodeFields, noFields, onlyX, onlyY, imp_iff_not_or]

theorem decode_setsUnusedField {row : CommandRow} (hrow : row ∈ commandRows) (h : SetsUnusedField row w) :
    decode w = .error .unusedField := by
  obtain ⟨hop, hfield⟩ := h
  rw [decode, ← hop]
  exact (decodeFields_eq_unusedField_iff hrow).mpr hfield

/-- Settles O5, by what the word's opcode and fields decode to: a rejected word of a ready block is refused with the `info`
of the rejection. -/
theorem illegalWordIsRefused : Obligations.IllegalWordIsRefused := by
  intro s w rest hs hhost
  have hready : Ready { s with host := rest, cmd := w } := hs
  refine ⟨fun hop => ?_, fun ⟨row, hrow, hset⟩ => ?_⟩
  · have hd : decode w = .error .illegalOpcode := decodeFields_illegalOpcode hop
    rw [step_rejected hhost hd, rejectWord_of_ready hready, rejectInfo]
  · rw [step_rejected hhost (decode_setsUnusedField hrow hset), rejectWord_of_ready hready, rejectInfo]

end Sys2Proof.Machine
end

