-- ==== Sys2Proof/Proofs/CommandStatus.lean ====
section
/-! PROOF. The status a command word is answered with (R53, R160), and `Faulted` while the block is held (R170). Both rest
on one fact about the dispatch: every command but `SYS.RESET` and `SYS.STATUS` runs through the command cycle of R152, with
pseudocode that returns `OK` unless the command is one of the three that read to the end of the stream. -/

namespace Sys2Proof.Machine

variable {s t : State} {i : Instr} {w : CmdWord} {rest : List HostInput}

theorem step_decoded (h : s.host = .command w :: rest) (hd : decode w = .ok i) :
    step s = exec i { s with host := rest, cmd := w } := by
  simp [step, takeInput, h, hd]

/-! ### What the pseudocode of a command returns -/

/-- Whenever the pseudocode returns, it returns `OK`. -/
def ReturnsOk (body : M Response) : Prop := ∀ s v t, body s = .ok v t → v.status = .ok

theorem ReturnsOk.pure {v : Response} (h : v.status = .ok) : ReturnsOk (pure v) := by
  rintro s _ t ⟨⟩
  exact h

/-- Only the last action of the pseudocode decides. -/
theorem ReturnsOk.bind {α : Type} {m : M α} {f : α → M Response} (h : ∀ a, ReturnsOk (f a)) : ReturnsOk (m >>= f) := by
  intro s v u hb
  obtain ⟨a, t, -, hf⟩ := bind_eq_ok.mp hb
  exact h a t v u hf

/-- The commands that may answer end-of-stream (R160): `BR.READBIT`, `BR.READBITS`, `LZW.DEC_CODE`. -/
def MayAnswerEos (i : Instr) : Prop := i = .brReadBit ∨ (∃ n, i = .brReadBits n) ∨ i = .lzwDecCode

/-- The dispatch of every command but the two that run while the block is held (R152, R170). -/
theorem exec_eq_command (hreset : i ≠ .sysReset) (hstatus : i ≠ .sysStatus) :
    ∃ checks body, (∀ s, exec i s = command i.opcode checks body s) ∧ (ReturnsOk body ∨ MayAnswerEos i) := by
  cases i
  case sysReset => exact absurd rfl hreset
  case sysStatus => exact absurd rfl hstatus
  case brReadBit => exact ⟨_, _, fun _ => rfl, .inr (.inl rfl)⟩
  case brReadBits n => exact ⟨_, _, fun _ => rfl, .inr (.inr (.inl ⟨n, rfl⟩))⟩
  case lzwDecCode => exact ⟨_, _, fun _ => rfl, .inr (.inr (.inr rfl))⟩
  all_goals
    refine ⟨_, _, fun _ => rfl, .inl ?_⟩
    repeat refine ReturnsOk.bind fun _ => ?_
    exact ReturnsOk.pure rfl

/-! ### A held block (R170) -/

theorem exec_of_held (h : s.held = true) (hreset : i ≠ .sysReset) (hstatus : i ≠ .sysStatus) :
    exec i s = .next { s with rsp := packRsp 0x8F 0 } := by
  obtain ⟨checks, body, hx, -⟩ := exec_eq_command hreset hstatus
  rw [hx, command_held h]
  rfl

/-- Settles O8: the command cycle and the refusal of a word that is no command both test for the hold first. -/
theorem heldBlockRefuses : Obligations.HeldBlockRefuses := by
  refine ⟨fun s i hheld hreset hstatus => exec_of_held hheld hreset hstatus, fun s w rest why hheld hhost hd => ?_⟩
  have hheld' : State.held { s with host := rest, cmd := w } = true := hheld
  rw [step_rejected hhost hd, rejectWord_of_held hheld']

/-! ### The three ways to end (R160) -/

/-- The fault statuses of R53: the eight causes, and `Faulted`. -/
def faultStatuses : List Byte := [0x81#8, 0x82#8, 0x83#8, 0x84#8, 0x85#8, 0x86#8, 0x87#8, 0x88#8, 0x8F#8]

theorem CauseKind.code_mem_faultStatuses (k : CauseKind) : k.code ∈ faultStatuses := by
  cases k <;> decide

theorem State.faultEntry_status (s : State) (op : Byte) (c : Cause) (executing : Bool) :
    rspStatus (s.faultEntry op c executing).rsp ∈ faultStatuses := by
  rw [State.faultEntry_rsp, rspStatus_packRsp]
  exact c.kind.code_mem_faultStatuses

theorem State.respond_faulted_status (s : State) : rspStatus (s.respond faultedCode 0).rsp ∈ faultStatuses := by
  rw [State.respond_rsp, rspStatus_packRsp]
  decide

theorem rejectWord_status (w : CmdWord) (why : Reject) (s : State) :
    rspStatus (rejectWord w why s).rsp ∈ faultStatuses := by
  unfold rejectWord
  split
  · exact s.respond_faulted_status
  · exact s.faultEntry_status _ _ _

/-- How a command ends, held or not (R160). -/
theorem exec_status (hx : exec i s = .next t) :
    rspStatus t.rsp = 0x00 ∨ (rspStatus t.rsp = 0x01 ∧ MayAnswerEos i) ∨ rspStatus t.rsp ∈ faultStatuses := by
  rcases eq_or_ne i .sysReset with rfl | hreset
  · cases hx
    exact .inl (rspStatus_packRsp _ _)
  rcases eq_or_ne i .sysStatus with rfl | hstatus
  · cases hx
    exact .inl (rspStatus_packRsp _ _)
  obtain ⟨checks, body, hexec, hbody⟩ := exec_eq_command hreset hstatus
  rw [hexec] at hx
  cases hheld : s.held with
  | true =>
    rw [command_held hheld] at hx
    cases hx
    exact .inr (.inr s.respond_faulted_status)
  | false =>
    rcases command_next_cases hheld hx with ⟨c, -, rfl⟩ | ⟨⟨status, r⟩, u, -, hreturn, rfl⟩ | ⟨c, u, -, -, rfl⟩
    · exact .inr (.inr (s.faultEntry_status _ _ _))
    · rw [State.respond_rsp, rspStatus_packRsp]
      cases status with
      | ok => exact .inl rfl
      | eos => exact .inr (.inl ⟨rfl, hbody.resolve_left fun hok => nomatch hok _ _ _ hreturn⟩)
    · exact .inr (.inr (u.faultEntry_status _ _ _))

/-- Settles O12, by what the word decodes to: a word that is no command is answered with a fault status, and a command ends
as `exec_status` says. -/
theorem commandEndsThreeWays : Obligations.CommandEndsThreeWays := by
  intro s t w rest hhost hstep
  cases hd : decode w with
  | error why =>
    rw [step_rejected hhost hd] at hstep
    cases hstep
    exact .inr (.inr (rejectWord_status w why _))
  | ok i =>
    rw [step_decoded hhost hd] at hstep
    simpa [MayAnswerEos, faultStatuses] using exec_status hstep

end Sys2Proof.Machine
end

