-- ==== Sys2Proof/Proofs/CommandWords.lean ====
section
/-! PROOF. Command words and commands (R50, R51, R54): a word is its three fields, and the opcode map and the three field
functions of a command undo each other; and the step as the command of the word presented (R10, R152). -/

namespace Sys2Proof

variable {op x : BitVec 8} {y : BitVec 64} {i j : Instr}

/-! ### Decoding the encoded command -/

theorem decode_cmdWord (op x : BitVec 8) (y : BitVec 64) : decode (cmdWord op x y) = decodeFields op x y := by
  simp [decode]

/-- The opcode map gives a command's three fields back their command. -/
theorem decodeFields_fields (i : Instr) : decodeFields i.opcode i.xField i.yField = .ok i := by
  cases i with
  | hufMkNode upper left right =>
    obtain ⟨hupper, hleft, hright⟩ := childFields upper left right
    show onlyY 0 (.hufMkNode _ _ _) = _
    rw [hupper, hleft, hright]
    rfl
  | _ => rfl

/-- Settles O1: the word's fields are the command's, and the opcode map gives those the command. -/
theorem decodeOfEncode : Obligations.DecodeOfEncode := fun i => by
  rw [encode, decode_cmdWord, decodeFields_fields]

/-! ### Encoding the decoded command -/

theorem noFields_eq_ok : noFields x y j = .ok i ↔ j = i ∧ x = 0 ∧ y = 0 := by
  unfold noFields
  split <;> simp_all

theorem onlyX_eq_ok : onlyX y j = .ok i ↔ j = i ∧ y = 0 := by
  unfold onlyX
  split <;> simp_all

theorem onlyY_eq_ok : onlyY x j = .ok i ↔ j = i ∧ x = 0 := by
  unfold onlyY
  split <;> simp_all

/-- The parts `HUF.MKNODE` cuts its `y` field into make up the field (R102). -/
theorem childFields_append (y : BitVec 64) :
    (y.extractLsb' 32 32 ++ y.extractLsb' 16 16 ++ y.extractLsb' 0 16 : BitVec (32 + 16 + 16)) = y := by
  have h : y.extractLsb' 32 32 ++ y.extractLsb' 16 16 = y.extractLsb' 16 48 :=
    BitVec.extractLsb'_append_extractLsb'_eq_extractLsb' rfl
  have h' : y.extractLsb' 16 48 ++ y.extractLsb' 0 16 = y.extractLsb' 0 64 :=
    BitVec.extractLsb'_append_extractLsb'_eq_extractLsb' rfl
  rw [h]
  exact h'.trans (slice_whole y)

theorem ok_eq_ok : (.ok j : Except Reject Instr) = .ok i ↔ j = i ∧ True := by simp

/-- A command the opcode map gives has the fields it was given: the row's unused fields were checked to be zero. -/
theorem fields_of_decodeFields (h : decodeFields op x y = .ok i) : i.opcode = op ∧ i.xField = x ∧ i.yField = y := by
  unfold decodeFields at h
  split at h
  all_goals
    simp only [noFields_eq_ok, onlyX_eq_ok, onlyY_eq_ok, ok_eq_ok, reduceCtorEq] at h
  all_goals
    obtain ⟨rfl, hzero⟩ := h
    simp [Instr.opcode, Instr.xField, Instr.yField, hzero, childFields_append]

/-- Settles O2: the command's fields are the word's, and a word is its fields. -/
theorem encodeOfDecode : Obligations.EncodeOfDecode := fun w i h => by
  obtain ⟨hop, hx, hy⟩ := fields_of_decodeFields h
  rw [encode, hop, hx, hy, cmdWord_fields]

/-- Settles O3, by decoding each word's three fields. -/
theorem writtenOutWordsDecode : Obligations.WrittenOutWordsDecode := by
  refine ⟨?_, ?_, ?_, ?_, ?_, ?_, ?_⟩ <;> rfl

theorem toNat_append_eq {n m : Nat} (a : BitVec n) (b : BitVec m) : (a ++ b).toNat = a.toNat * 2 ^ m + b.toNat := by
  rw [BitVec.toNat_append, ← Nat.shiftLeft_add_eq_or_of_lt b.isLt, Nat.shiftLeft_eq]

namespace Machine

/-! ### One step (R10, R152), the packed words as numbers (R25, R26, R50, R52), the reset values (R29) -/

/-- Settles O4: a step decodes the word presented, and the word `encode i` decodes to `i`. -/
theorem stepRunsTheCommand : Obligations.StepRunsTheCommand := by
  refine ⟨fun s w rest i hhost hd => step_decoded hhost hd, fun s i => ?_, fun s hhost => by simp [step, takeInput, hhost]⟩
  have hword : s.withFetchWord 80 (encode i).toNat = s.present (encode i) := by
    rw [State.withFetchWord, Nat.mod_eq_of_lt (encode i).isLt, BitVec.ofNat_toNat, BitVec.setWidth_eq]
  rw [hword, step_decoded (rest := s.host) rfl (decodeOfEncode i)]
  rfl

/-- Settles O6: a concatenation is a sum with the upper part shifted. -/
theorem packedRegisters : Obligations.PackedRegisters := by
  refine ⟨fun op x y => ?_, fun status r => toNat_append_eq status r, fun phase op cause info => ?_⟩
  · show (op ++ x ++ y).toNat = _
    rw [toNat_append_eq, toNat_append_eq]
    ring
  · show (1#1 ++ 0#3 ++ phase ++ op ++ cause ++ info).toNat = _
    simp only [toNat_append_eq]
    norm_num
    ring

/-- Settles O7: the values of `State.reset`. -/
theorem resetState : Obligations.ResetState := by
  refine ⟨?_, ?_, ?_, ?_, ?_, ?_, ?_, ?_, ?_, ?_, ?_, ?_⟩ <;> rfl

end Machine

end Sys2Proof
end

