-- ==== Sys2Proof/Proofs/Footprint.lean ====
section
/-! PROOF. What a command may touch, said once for all commands (R33, R160 to R176, the "State written" lines of R70 to
R140). The idea: the state is cut into cells; a footprint is a list of cells; and each operation acts within its footprint,
whatever the ports answer and however it ends. The frames, the fault record, the environment's side and the growth of the
sink are all read off the footprints of the 33 commands. -/

namespace Sys2Proof.Machine

/-! ### Cells and footprints -/

/-- A part of the state that an operation writes or leaves. `lostBytes` stands for bytes taken out of the sink (R32), and
`stops` is no part of the state: an operation that lacks it reaches none of the model's own stops. -/
inductive Cell where
  | stops | writer | writerOpen | reader | readerOpen | ports | srcPos | sink | lostBytes | draws | phase
  | pqMode | heap | freq | counted | nodes | root | treeOk | code | derived
  | edict | buf | eready | dtab | prev | dready
  deriving DecidableEq

/-- The cell is as it was; of the sink's bytes, that none is lost. -/
def Cell.Same (s t : State) : Cell → Prop
  | .stops => True
  | .writer => t.bw.acc = s.bw.acc ∧ t.bw.k = s.bw.k
  | .writerOpen => t.bw.isOpen = s.bw.isOpen
  | .reader => { t.br with isOpen := false } = { s.br with isOpen := false }
  | .readerOpen => t.br.isOpen = s.br.isOpen
  | .ports => t.answers = s.answers
  | .srcPos => t.mem.srcPos = s.mem.srcPos
  | .sink => t.mem.snkData = s.mem.snkData
  | .lostBytes => s.mem.snkData <+: t.mem.snkData
  | .draws => t.draws = s.draws
  | .phase => t.phase = s.phase
  | .pqMode => t.pq.created = s.pq.created ∧ t.pq.cmp = s.pq.cmp
  | .heap => t.pq.heap = s.pq.heap
  | .freq => t.huf.freq = s.huf.freq
  | .counted => t.huf.counted = s.huf.counted
  | .nodes => t.huf.nodes = s.huf.nodes
  | .root => t.huf.root = s.huf.root
  | .treeOk => t.huf.treeOk = s.huf.treeOk
  | .code => t.huf.code = s.huf.code
  | .derived => t.huf.derived = s.huf.derived
  | .edict => t.lzw.edict = s.lzw.edict
  | .buf => t.lzw.buf = s.lzw.buf
  | .eready => t.lzw.eready = s.lzw.eready
  | .dtab => t.lzw.dtab = s.lzw.dtab
  | .prev => t.lzw.prev = s.lzw.prev
  | .dready => t.lzw.dready = s.lzw.dready

theorem Cell.same_refl (c : Cell) (s : State) : c.Same s s := by
  cases c <;> simp [Cell.Same]

theorem Cell.Same.trans {c : Cell} {s t u : State} (h₁ : c.Same s t) (h₂ : c.Same t u) : c.Same s u := by
  cases c
  case lostBytes => exact List.IsPrefix.trans h₁ h₂
  case stops => trivial
  case writer => exact ⟨h₂.1.trans h₁.1, h₂.2.trans h₁.2⟩
  case pqMode => exact ⟨h₂.1.trans h₁.1, h₂.2.trans h₁.2⟩
  all_goals exact Eq.trans h₂ h₁

variable {s t u : State} {f g : List Cell}

/-- `t` is `s` but for the cells of the footprint and for answers of the environment used up in order. The control
registers, the source's content and the parameters are in no cell: no operation writes them. -/
structure Within (f : List Cell) (s t : State) : Prop where
  faultReg : t.faultReg = s.faultReg
  rsp : t.rsp = s.rsp
  cmd : t.cmd = s.cmd
  host : t.host = s.host
  params : t.params = s.params
  srcData : t.mem.srcData = s.mem.srcData
  wf : s.mem.wf = true → t.mem.wf = true
  answers : t.answers <:+ s.answers
  same : ∀ c, c ∉ f → c.Same s t

theorem Within.refl (f : List Cell) (s : State) : Within f s s :=
  ⟨rfl, rfl, rfl, rfl, rfl, rfl, id, List.suffix_refl _, fun c _ => c.same_refl s⟩

theorem Within.trans (h₁ : Within f s t) (h₂ : Within f t u) : Within f s u where
  faultReg := h₂.faultReg.trans h₁.faultReg
  rsp := h₂.rsp.trans h₁.rsp
  cmd := h₂.cmd.trans h₁.cmd
  host := h₂.host.trans h₁.host
  params := h₂.params.trans h₁.params
  srcData := h₂.srcData.trans h₁.srcData
  wf := h₂.wf ∘ h₁.wf
  answers := h₂.answers.trans h₁.answers
  same c hc := (h₁.same c hc).trans (h₂.same c hc)

/-- A cell is of the footprint, or kept. -/
theorem Within.cell_cases (h : Within f s t) (c : Cell) : c ∈ f ∨ c ∉ f ∧ c.Same s t := by
  by_cases hc : c ∈ f
  · exact .inl hc
  · exact .inr ⟨hc, h.same c hc⟩

theorem Within.mono (h : Within f s t) (hfg : f ⊆ g) : Within g s t :=
  { h with same := fun c hc => h.same c fun hcf => hc (hfg hcf) }

theorem firstFailed_mem {cs : Checks} {c : Cause} (h : firstFailed cs = some c) : ∃ check ∈ cs, check.2 = c := by
  induction cs with
  | nil => cases h
  | cons check cs ih =>
    rw [firstFailed_cons] at h
    split at h
    · obtain ⟨p, hp, hc⟩ := ih h
      exact ⟨p, List.mem_cons_of_mem _ hp, hc⟩
    · exact ⟨check, List.mem_cons_self, by simpa using h⟩

/-! ### Operations that act within a footprint -/

/-- However the operation ends, it acted within the footprint; it raises `IOFailure` only when an answer to come is `IOFail`
(R33, R162); and it ends in a stop of the model only when the footprint says so. -/
structure Acts {α : Type} (f : List Cell) (m : M α) : Prop where
  ok : ∀ {s a t}, m s = .ok a t → Within f s t
  error : ∀ {s e t}, m s = .error e t → Within f s t
  raised : ∀ {s info t}, NoIoFail s → m s ≠ .error (.raise ⟨.ioFailure, info⟩) t
  stopped : ∀ {s why t}, m s = .error (.stuck why) t → .stops ∈ f

namespace Acts

variable {α β : Type} {m : M α} {k : α → M β}

theorem mono (hm : Acts f m) (hfg : f ⊆ g) : Acts g m :=
  ⟨fun h => (hm.ok h).mono hfg, fun h => (hm.error h).mono hfg, hm.raised, fun h => hfg (hm.stopped h)⟩

theorem bind (hm : Acts f m) (hk : ∀ a, Acts g (k a)) : Acts (f ++ g) (m >>= k) := by
  have hf : f ⊆ f ++ g := List.subset_append_left f g
  have hg : g ⊆ f ++ g := List.subset_append_right f g
  refine ⟨fun {s b u} h => ?_, fun {s e u} h => ?_, fun {s i u} hn h => ?_, fun {s why u} h => ?_⟩ <;> rw [bind_apply] at h <;> split at h <;>
    rename_i hms
  · exact ((hm.ok hms).mono hf).trans (((hk _).ok h).mono hg)
  · cases h
  · exact ((hm.ok hms).mono hf).trans (((hk _).error h).mono hg)
  · cases h
    exact (hm.error hms).mono hf
  · exact (hk _).raised (hn.mono (hm.ok hms).answers) h
  · cases h
    exact hm.raised hn hms
  · exact hg ((hk _).stopped h)
  · cases h
    exact hf (hm.stopped hms)

theorem pure (a : α) : Acts [] (pure a : M α) :=
  ⟨by rintro s _ _ ⟨⟩; exact .refl _ s, by rintro s _ _ ⟨⟩, by rintro s _ _ - ⟨⟩, by rintro s _ _ ⟨⟩⟩

theorem look (v : State → α) : Acts [] (look v) :=
  ⟨by rintro s _ _ ⟨⟩; exact .refl _ s, by rintro s _ _ ⟨⟩, by rintro s _ _ - ⟨⟩, by rintro s _ _ ⟨⟩⟩

theorem raise (kind : CauseKind) (info : Byte) (hk : kind ≠ .ioFailure := by decide) : Acts [] (raise kind info : M α) :=
  ⟨by rintro s _ _ ⟨⟩, by rintro s _ _ ⟨⟩; exact .refl _ s, by rintro s _ _ - ⟨⟩; exact hk rfl, by rintro s _ _ ⟨⟩⟩

theorem stuck (why : Fault) : Acts [.stops] (stuck why : M α) :=
  ⟨by rintro s _ _ ⟨⟩, by rintro s _ _ ⟨⟩; exact .refl _ s, by rintro s _ _ - ⟨⟩, fun _ => List.mem_cons_self⟩

theorem ite {p : Prop} [Decidable p] {a b : M α} (ha : Acts f a) (hb : Acts f b) : Acts f (if p then a else b) := by
  split
  · exact ha
  · exact hb

theorem runIf (p : Bool) {m : M Unit} (hm : Acts f m) : Acts f (runIf p m) :=
  ite hm ((pure ()).mono (List.nil_subset f))

theorem of_within {v : State → State} (h : ∀ s, Within f s (v s)) : Acts f (Machine.change v) :=
  ⟨by rintro s _ _ ⟨⟩; exact h s, by rintro s _ _ ⟨⟩, by rintro s _ _ - ⟨⟩, by rintro s _ _ ⟨⟩⟩

/-- A write that no control register, no source byte and no parameter sees, cell by cell. -/
theorem change {v : State → State}
    (hrecord : ∀ s, (v s).faultReg = s.faultReg ∧ (v s).rsp = s.rsp ∧ (v s).cmd = s.cmd ∧ (v s).host = s.host ∧
      (v s).params = s.params ∧ (v s).mem.srcData = s.mem.srcData := by exact fun s => ⟨rfl, rfl, rfl, rfl, rfl, rfl⟩)
    (hwf : ∀ s, s.mem.wf = true → (v s).mem.wf = true := by exact fun s h => h)
    (hanswers : ∀ s, (v s).answers <:+ s.answers := by exact fun s => List.suffix_refl _)
    (hsame : ∀ s c, c ∉ f → c.Same s (v s) := by
      intro s c hc
      cases c <;> simp [Cell.Same] at hc ⊢) :
    Acts f (Machine.change v) := by
  refine of_within fun s => ?_
  obtain ⟨hfault, hrsp, hcmd, hhost, hparams, hsrc⟩ := hrecord s
  exact ⟨hfault, hrsp, hcmd, hhost, hparams, hsrc, hwf s, hanswers s, hsame s⟩

/-! ### The byte ports -/

/-- One port access is a write of the answers, then perhaps a raise. -/
theorem portAccess_eq (info : Byte) (s : State) :
    portAccess info s = (Machine.change fun s => { s with answers := s.answers.tail }) s ∨
    portAccess info s = .error (.raise ⟨.ioFailure, info⟩) { s with answers := s.answers.tail } ∧ ¬ NoIoFail s := by
  by_cases h : NextAnswerOk s
  · exact .inl (portAccess_ok info h)
  · exact .inr ⟨portAccess_fail info (not_not.mp h), fun hn => h hn.next⟩

theorem portAccess (info : Byte) : Acts [.ports] (portAccess info) := by
  have htail : Acts [.ports] (Machine.change fun s => { s with answers := s.answers.tail }) :=
    change (hanswers := fun s => List.tail_suffix _)
  refine ⟨fun {s a t} h => ?_, fun {s e t} h => ?_, fun {s i t} hn h => ?_, fun {s why t} h => ?_⟩ <;>
    rcases portAccess_eq info s with heq | ⟨heq, hfail⟩ <;> rw [heq] at h
  · exact htail.ok h
  · cases h
  · cases h
  · cases h
    exact htail.ok (s := s) rfl
  · cases h
  · exact hfail hn
  · cases h
  · cases h

theorem srcRewind : Acts [.srcPos] srcRewind := change (hwf := fun s _ => by simp [Memory.wf])

theorem srcNext : Acts [.ports, .srcPos] srcNext := by
  refine bind (portAccess 2) (g := [.srcPos]) fun _ => ⟨fun {s a t} h => ?_, fun {s e t} h => ?_, fun {s i t} _ h => ?_, fun {s why t} h => ?_⟩
  all_goals
    cases hb : s.mem.srcData[s.mem.srcPos]? <;> simp only [bind_apply, look_apply, hb] at h <;> cases h
  · exact .refl _ s
  · have hlt := (List.getElem?_eq_some_iff.mp hb).1
    refine ⟨rfl, rfl, rfl, rfl, rfl, rfl, fun _ => by simpa [Memory.wf] using hlt, List.suffix_refl _, fun c hc => ?_⟩
    cases c
    case srcPos => simp at hc
    all_goals simp [Cell.Same]

theorem sinkPut (b : Byte) : Acts [.ports, .sink] (sinkPut b) :=
  bind (portAccess 4) fun _ => change

theorem sinkPutAll (bs : List Byte) : Acts [.ports, .sink] (sinkPutAll bs) := by
  induction bs with
  | nil => exact (pure ()).mono (by decide)
  | cons b bs ih => exact (bind (sinkPut b) fun _ => ih).mono (by decide)

theorem sinkOpen : Acts [.ports, .sink, .lostBytes] sinkOpen :=
  bind (portAccess 3) fun _ => change

theorem forEachSourceByte {op : Byte → M Unit} (hop : ∀ b, Acts f (op b)) (n : Nat) :
    Acts ([.stops, .ports, .srcPos] ++ f) (forEachSourceByte op n) := by
  induction n with
  | zero => exact (stuck _).mono (by simp)
  | succ n ih =>
    refine (bind srcNext (g := [.stops, .ports, .srcPos] ++ f) fun v => ?_).mono (by simp)
    cases v with
    | none => exact (pure ()).mono (List.nil_subset _)
    | some b => exact (bind (hop b) fun _ => ih).mono (List.append_subset.mpr ⟨List.subset_append_right _ f, List.Subset.refl _⟩)

/-! ### Bits in and out -/

theorem fetchLookahead : Acts [.reader, .ports, .srcPos] fetchLookahead := by
  refine (bind srcNext (g := [.reader]) fun v => ?_).mono (by decide)
  cases v <;> exact change

theorem takeLookahead : Acts [.reader, .ports, .srcPos] takeLookahead :=
  (bind (look _) fun _ => bind fetchLookahead fun _ => bind (look _) fun _ =>
    bind (f := []) (ite (ite (raise _ _) (pure _)) (pure _)) fun _ => runIf _ (change (f := [.reader]))).mono (by decide)

theorem refill : Acts [.reader, .ports, .srcPos] refill :=
  (bind (look _) fun _ => bind (runIf _ fetchLookahead) fun _ => bind (look _) fun _ =>
    runIf _ takeLookahead).mono (by decide)

theorem withinAdvance (s : State) : Within [.reader] s { s with br := s.br.advance } := by
  have hopen : s.br.advance.isOpen = s.br.isOpen := by unfold BitReader.advance; split <;> rfl
  refine ⟨rfl, rfl, rfl, rfl, rfl, rfl, id, List.suffix_refl _, fun c hc => ?_⟩
  cases c
  case reader => simp at hc
  case readerOpen => exact hopen
  all_goals simp [Cell.Same]

theorem readBit : Acts [.reader, .ports, .srcPos] readBit := by
  refine (bind (look _) fun _ => bind (runIf _ refill) (g := [.reader]) fun _ =>
    ⟨fun {s a t} h => ?_, fun {s e t} h => ?_, fun {s i t} _ h => ?_, fun {s why t} h => ?_⟩).mono (by decide)
  all_goals
    rw [bind_apply, look_apply] at h
    cases hb : s.br.hasBits <;> simp only [hb, if_true, Bool.false_eq_true, if_false] at h <;> cases h
  · exact .refl _ s
  · exact withinAdvance s

theorem readBitsFrom (n g v : Nat) : Acts [.reader, .ports, .srcPos] (readBitsFrom n g v) := by
  induction n generalizing g v with
  | zero => exact (pure _).mono (List.nil_subset _)
  | succ n ih =>
    refine (bind readBit (g := [.reader, .ports, .srcPos]) fun b => ?_).mono (by decide)
    cases b with
    | none => exact (pure _).mono (List.nil_subset _)
    | some b => exact ih _ _

theorem readBits (n : Nat) : Acts [.reader, .ports, .srcPos] (readBits n) := readBitsFrom n 0 0

theorem writeBit (bit : Bool) : Acts [.writer, .ports, .sink] (writeBit bit) :=
  (bind (change (f := [.writer])) fun _ => bind (look _) fun (w : BitWriter) =>
    ite ((bind (sinkPut w.acc) fun _ => change (f := [.writer])).mono (g := [.writer, .ports, .sink]) (by decide))
      change).mono (by decide)

theorem writeBitList (bs : List Bool) : Acts [.writer, .ports, .sink] (writeBitList bs) := by
  induction bs with
  | nil => exact (pure ()).mono (List.nil_subset _)
  | cons b bs ih => exact (bind (writeBit b) fun _ => ih).mono (by decide)

theorem writeBits (n v : Nat) : Acts [.writer, .ports, .sink] (writeBits n v) := writeBitList _

/-! ### The queue and the arena -/

theorem comparator : Acts [.stops] comparator := by
  refine ⟨fun {s a t} h => ?_, fun {s e t} h => ?_, fun {s i t} _ h => ?_, fun {s why t} h => List.mem_cons_self⟩ <;>
    unfold Machine.comparator at h <;> split at h <;> cases h <;> exact .refl _ s

theorem pqInsert (item : Nat) : Acts [.stops, .heap] (pqInsert item) :=
  bind (look _) fun _ => ite (bind comparator fun _ => change) ((raise _ _).mono (List.nil_subset _))

theorem pqExtractMin : Acts [.stops, .heap] pqExtractMin := by
  refine bind (look _) fun h => ?_
  cases h with
  | nil => exact (raise _ _).mono (List.nil_subset _)
  | cons m rest => exact (bind comparator fun _ => bind (change (f := [.heap])) fun _ => pure _).mono (by decide)

theorem allocNode (n : Node) : Acts [.nodes] (allocNode n) :=
  bind (look _) fun _ => bind (look _) fun _ =>
    ite ((bind (change (f := [.nodes])) fun _ => pure _).mono (by decide)) ((raise _ _).mono (List.nil_subset _))

theorem mkLeaf (b : Byte) (w : Nat) : Acts [.nodes] (mkLeaf b w) := allocNode _

theorem mkNode (l r : Nat) : Acts [.nodes] (mkNode l r) :=
  bind (look _) fun _ => bind (look _) fun _ => ite (allocNode _) ((raise _ _).mono (List.nil_subset _))

theorem freeWeight : Acts [.draws] freeWeight :=
  (bind (look _) fun w => bind (change (f := [.draws]) (v := fun s => { s with draws := s.draws + 1 })) fun _ => pure w :
    Acts _ (Machine.look (fun s => Params.clipFreq s.params (Config.freeWeight s.draws)) >>= fun w =>
      Machine.change (fun s => { s with draws := s.draws + 1 }) >>= fun _ => Pure.pure w)).mono (by decide)

/-! ### The steps of the entry points -/

theorem substep (p : Phase) (checks : State → Checks)
    (hchecks : ∀ s, ((checks s).all fun check => check.2.kind != .ioFailure) = true) (hm : Acts f m) :
    Acts (.phase :: f) (substep p checks m) := by
  refine bind (f := [.phase]) change fun _ => ⟨fun {s a t} h => ?_, fun {s e t} h => ?_, fun {s i t} hn h => ?_, fun {s why t} h => ?_⟩
  all_goals
    rw [bind_apply, look_apply] at h
    cases hc : firstFailed (checks s) <;> simp only [hc] at h
  · exact hm.ok h
  · cases h
  · exact hm.error h
  · cases h
    exact .refl _ s
  · exact hm.raised hn h
  · obtain ⟨check, hmem, hcause⟩ := firstFailed_mem hc
    have hkind := List.all_eq_true.mp (hchecks s) check hmem
    rw [raise_apply] at h
    injection h with h _
    injection h with h
    simp [hcause, (Cause.mk.inj h).1] at hkind
  · exact hm.stopped h
  · cases h

theorem endMacro : Acts [.phase] endMacro := bind (f := [.phase]) change fun _ => pure _

end Acts

/-! ### The commands' footprints (the "State written" lines of R70 to R140) -/

def readerCells : List Cell := [.reader, .ports, .srcPos]
def writerCells : List Cell := [.writer, .ports, .sink]
def treeCells : List Cell := [.nodes, .root, .treeOk, .derived]

/-- The cells a command's pseudocode may write. -/
def footprint : Instr → List Cell
  | .brOpen => .readerOpen :: readerCells
  | .brReadBit | .brReadBits _ => readerCells
  | .brClose => [.reader, .readerOpen, .ports, .draws]
  | .bwOpen => .writerOpen :: .lostBytes :: writerCells
  | .bwWriteBit _ | .bwWriteBits _ _ => writerCells
  | .bwClose => .writerOpen :: .draws :: writerCells
  | .pqCreate _ => [.pqMode, .heap]
  | .pqInsert _ | .pqExtractMin => [.stops, .heap]
  | .pqSize | .pqIsEmpty | .sysStatus => []
  | .hufCount => [.stops, .freq, .counted, .treeOk, .derived, .srcPos, .ports]
  | .hufMkLeaf _ _ | .hufMkNode _ _ _ => [.nodes]
  | .hufBuild => .stops :: .pqMode :: .heap :: treeCells
  | .hufDerive => [.stops, .code, .derived]
  | .hufSerialize => .stops :: writerCells
  | .hufEncode => .stops :: .srcPos :: writerCells
  | .hufDeserialize => .stops :: .draws :: treeCells ++ readerCells
  | .hufDecode => .stops :: .sink :: readerCells
  | .hufCompress =>
    .stops :: .freq :: .counted :: .code :: .pqMode :: .heap :: .srcPos :: .writerOpen :: .lostBytes :: .draws :: .phase ::
      treeCells ++ writerCells
  | .hufDecompress =>
    .stops :: .readerOpen :: .sink :: .lostBytes :: .draws :: .phase :: treeCells ++ readerCells
  | .lzwEncReset => [.edict, .buf, .eready]
  | .lzwEncByte _ => .stops :: .edict :: .buf :: writerCells
  | .lzwEncFlush => .stops :: .buf :: writerCells
  | .lzwDecReset => [.dtab, .prev, .dready]
  | .lzwDecCode => .stops :: .dtab :: .prev :: .sink :: readerCells
  | .lzwCompress =>
    .stops :: .edict :: .buf :: .eready :: .srcPos :: .writerOpen :: .lostBytes :: .draws :: .phase :: writerCells
  | .lzwDecompress =>
    .stops :: .dtab :: .prev :: .dready :: .readerOpen :: .sink :: .lostBytes :: .draws :: .phase :: readerCells
  | .sysReset => []

namespace Acts

theorem done (hm : Acts f m) {v : Response} : Acts f (m >>= fun _ => Pure.pure v) :=
  (bind hm fun _ => pure v).mono (by simp)

theorem brOpenBody : Acts (footprint .brOpen) brOpenBody :=
  (bind (portAccess _) fun _ => bind srcRewind fun _ =>
    bind (f := [.reader, .readerOpen]) change fun _ => pure _).mono (by decide)

theorem brReadBitBody : Acts (footprint .brReadBit) brReadBitBody := by
  refine (bind readBit (g := []) fun b => ?_).mono (by decide)
  cases b <;> exact pure _

theorem brReadBitsBody (n : BitVec 8) : Acts (footprint (.brReadBits n)) (brReadBitsBody n) := by
  refine (bind (readBits _) (g := []) fun v => ?_).mono (List.Subset.refl _)
  cases v <;> exact pure _

theorem brCloseBody : Acts (footprint .brClose) brCloseBody :=
  (bind (portAccess _) fun _ => bind (f := [.reader, .readerOpen, .draws]) change fun _ => pure _).mono (by decide)

theorem bwOpenBody : Acts (footprint .bwOpen) bwOpenBody :=
  (bind sinkOpen fun _ => bind (f := [.writer, .writerOpen]) change fun _ => pure _).mono (by decide)

theorem bwWriteBitBody (bit : BitVec 8) : Acts writerCells (bwWriteBitBody bit) := (writeBit _).done

theorem bwWriteBitsBody (n : BitVec 8) (value : BitVec 64) : Acts writerCells (bwWriteBitsBody n value) := (writeBits _ _).done

theorem bwCloseBody : Acts (footprint .bwClose) bwCloseBody :=
  (bind (look _) fun last => bind (sinkPutAll last) fun _ => bind (portAccess _) fun _ =>
    bind (f := [.writer, .writerOpen, .draws]) change fun _ => pure _).mono (by decide)

theorem pqCreateBody (cmp : BitVec 8) : Acts [.pqMode, .heap] (pqCreateBody cmp) :=
  (bind (f := [.pqMode, .heap]) change fun _ => pure _)

theorem pqInsertBody (item : BitVec 64) : Acts [.stops, .heap] (pqInsertBody item) := (pqInsert _).done

theorem pqExtractMinBody : Acts [.stops, .heap] pqExtractMinBody := bind pqExtractMin fun _ => pure _

theorem pqSizeBody : Acts [] pqSizeBody := bind (look _) fun _ => pure _

theorem pqIsEmptyBody : Acts [] pqIsEmptyBody := bind (look _) fun _ => pure _

theorem countByte (v : Byte) : Acts [.freq] (countByte v) :=
  bind (look _) fun _ => ite ((raise _ _).mono (List.nil_subset _)) change

theorem hufCountBody : Acts (footprint .hufCount) hufCountBody :=
  (bind (portAccess _) fun _ => bind srcRewind fun _ => bind (f := [.freq]) change fun _ => bind (look _) fun n =>
    bind (forEachSourceByte countByte n) fun _ => bind (portAccess _) fun _ =>
    bind (f := [.counted, .treeOk, .derived]) change fun _ => pure _).mono (by decide)

theorem hufMkLeafBody (byte : BitVec 8) (weight : BitVec 64) : Acts [.nodes] (hufMkLeafBody byte weight) :=
  bind (mkLeaf _ _) fun _ => pure _

theorem hufMkNodeBody (left right : BitVec 16) : Acts [.nodes] (hufMkNodeBody left right) :=
  bind (mkNode _ _) fun _ => pure _

theorem insertLeaves (bs : List Byte) : Acts [.stops, .nodes, .heap] (insertLeaves bs) := by
  induction bs with
  | nil => exact (pure ()).mono (List.nil_subset _)
  | cons b bs ih =>
    exact bind (look _) fun _ => ite ((bind (mkLeaf _ _) fun _ => bind (pqInsert _) fun _ => ih).mono (by decide)) ih

theorem mergeTwo : Acts [.stops, .nodes, .heap] mergeTwo :=
  (bind pqExtractMin fun _ => bind pqExtractMin fun _ => bind (mkNode _ _) fun _ => pqInsert _).mono (by decide)

theorem mergeAll (n : Nat) : Acts [.stops, .nodes, .heap] (mergeAll n) := by
  induction n with
  | zero => exact (pure ()).mono (List.nil_subset _)
  | succ n ih =>
    exact bind (look _) fun _ => ite ((bind mergeTwo fun _ => ih).mono (by decide)) ((pure ()).mono (List.nil_subset _))

theorem hufBuildBody : Acts (footprint .hufBuild) hufBuildBody :=
  (bind (f := [.nodes, .treeOk, .derived]) change fun _ => bind (f := [.pqMode, .heap]) change fun _ =>
    bind (insertLeaves _) fun _ => bind (look _) fun n => bind (mergeAll n) fun _ => bind pqExtractMin fun _ =>
    bind (f := [.root, .treeOk]) change fun _ => pure _).mono (by decide)

theorem heldTree : Acts [.stops] heldTree := by
  refine bind (look _) fun t => ?_
  cases t with
  | none => exact stuck _
  | some t => exact (pure t).mono (List.nil_subset _)

theorem putCode (b : Byte) (path : List Bool) : Acts [.code] (putCode b path) :=
  bind (look _) fun _ => ite ((raise _ _).mono (List.nil_subset _)) change

theorem visit (t : Tree) (path : List Bool) : Acts [.code] (visit t path) := by
  induction t generalizing path with
  | leaf b => exact putCode b path
  | node l r ihl ihr => exact (bind (ihl _) fun _ => ihr _).mono (by decide)

theorem putCodes (t : Tree) : Acts [.code] (putCodes t) := by
  cases t with
  | leaf b => exact putCode b _
  | node l r => exact visit _ _

theorem hufDeriveBody : Acts (footprint .hufDerive) hufDeriveBody :=
  (bind (f := [.code]) change fun _ => bind heldTree fun t => bind (putCodes t) fun _ =>
    bind (f := [.derived]) change fun _ => pure _).mono (by decide)

theorem serialize (t : Tree) : Acts writerCells (serialize t) := by
  induction t with
  | leaf b => exact (bind (writeBit _) fun _ => writeBits _ _).mono (by decide)
  | node l r ihl ihr => exact (bind (writeBit _) fun _ => bind ihl fun _ => ihr).mono (by decide)

theorem hufSerializeBody : Acts (footprint .hufSerialize) hufSerializeBody :=
  (bind heldTree fun t => bind (serialize t) fun _ => pure _).mono (by decide)

theorem encodeByte (v : Byte) : Acts writerCells (encodeByte v) := by
  refine bind (look _) fun code => ?_
  cases code with
  | none => exact (raise _ _).mono (List.nil_subset _)
  | some bits => exact writeBitList bits

theorem hufEncodeBody : Acts (footprint .hufEncode) hufEncodeBody :=
  (bind (portAccess _) fun _ => bind srcRewind fun _ => bind (look _) fun n =>
    bind (forEachSourceByte encodeByte n) fun _ => bind (portAccess _) fun _ => pure _).mono (by decide)

theorem allocRead (kind : NodeKind) : Acts [.draws, .nodes] (allocRead kind) := bind freeWeight fun _ => allocNode _

theorem deserialize (n : Nat) : Acts (.stops :: .draws :: .nodes :: readerCells) (deserialize n) := by
  induction n with
  | zero => exact (stuck _).mono (by decide)
  | succ n ih =>
    refine (bind readBit (g := .stops :: .draws :: .nodes :: readerCells) fun b => ?_).mono (by decide)
    cases b with
    | none => exact (raise _ _).mono (List.nil_subset _)
    | some b =>
      cases b with
      | false => exact (bind ih fun _ => bind ih fun _ => allocRead _).mono (by decide)
      | true =>
        refine (bind (readBits _) (g := [.draws, .nodes]) fun v => ?_).mono (by decide)
        cases v with
        | eos g => exact (raise _ _).mono (List.nil_subset _)
        | value v => exact allocRead _

theorem hufDeserializeBody : Acts (footprint .hufDeserialize) hufDeserializeBody :=
  (bind (f := [.nodes, .treeOk, .derived]) change fun _ => bind (look _) fun n => bind (deserialize n) fun _ =>
    bind (f := [.root, .treeOk]) change fun _ => pure _).mono (by decide)

theorem decodeDegenerate (b : Byte) (n : Nat) : Acts (.stops :: .sink :: readerCells) (decodeDegenerate b n) := by
  induction n with
  | zero => exact (stuck _).mono (by decide)
  | succ n ih =>
    refine (bind readBit (g := .stops :: .sink :: readerCells) fun bit => ?_).mono (by decide)
    cases bit with
    | none => exact (pure ()).mono (List.nil_subset _)
    | some bit => exact (bind (sinkPut b) fun _ => ih).mono (by decide)

theorem decodeLoop (root : Tree) (n : Nat) (cur : Tree) (atRoot : Bool) :
    Acts (.stops :: .sink :: readerCells) (decodeLoop root n cur atRoot) := by
  induction n generalizing cur atRoot with
  | zero => exact (stuck _).mono (by decide)
  | succ n ih =>
    refine (bind readBit (g := .stops :: .sink :: readerCells) fun bit => ?_).mono (by decide)
    cases bit with
    | none => exact (ite (pure ()) (raise _ _)).mono (List.nil_subset _)
    | some bit =>
      cases cur with
      | leaf b => exact (stuck _).mono (by decide)
      | node l r =>
        dsimp only
        cases (if bit then r else l) with
        | leaf v => exact (bind (sinkPut v) fun _ => ih root true).mono (by decide)
        | node l' r' => exact ih _ _

theorem decodeWith (t : Tree) (n : Nat) : Acts (.stops :: .sink :: readerCells) (decodeWith t n) := by
  cases t with
  | leaf b => exact decodeDegenerate b n
  | node l r => exact decodeLoop _ n _ true

theorem hufDecodeBody : Acts (footprint .hufDecode) hufDecodeBody :=
  (bind heldTree fun t => bind (look _) fun n => bind (decodeWith t n) fun _ => pure _).mono (by decide)

theorem hufCompressBody : Acts (footprint .hufCompress) hufCompressBody :=
  (bind (substep .hCount hufCountChecks (fun _ => rfl) hufCountBody) fun _ =>
    bind (substep .hBuild hufBuildChecks (fun _ => rfl) hufBuildBody) fun _ =>
    bind (substep .hDerive hufDeriveChecks (fun _ => rfl) hufDeriveBody) fun _ =>
    bind (substep .opening bwOpenChecks (fun _ => rfl) bwOpenBody) fun _ =>
    bind (substep .hSerialize hufSerializeChecks (fun _ => rfl) hufSerializeBody) fun _ =>
    bind (substep .hEncode hufEncodeChecks (fun _ => rfl) hufEncodeBody) fun _ =>
    bind (substep .closing bwCloseChecks (fun _ => rfl) bwCloseBody) fun _ => endMacro).mono (by decide)

theorem hufDecompressBody : Acts (footprint .hufDecompress) hufDecompressBody :=
  (bind (substep .opening brOpenChecks (fun _ => rfl) brOpenBody) fun _ => bind sinkOpen fun _ =>
    bind (substep .hDeserialize hufDeserializeChecks (fun _ => rfl) hufDeserializeBody) fun _ =>
    bind (substep .hDecode hufDecodeChecks (fun _ => rfl) hufDecodeBody) fun _ =>
    bind (substep .closing brCloseChecks (fun _ => rfl) brCloseBody) fun _ =>
    bind (portAccess _) fun _ => endMacro).mono (by decide)

theorem lzwEncResetBody : Acts (footprint .lzwEncReset) lzwEncResetBody :=
  bind (f := [.edict, .buf, .eready]) change fun _ => pure _

theorem emitMatch : Acts (.stops :: writerCells) emitMatch := by
  refine bind (look _) fun code => ?_
  cases code with
  | none => exact (stuck _).mono (by decide)
  | some c => exact (writeBits _ _).mono (by decide)

theorem encByte (b : Byte) : Acts (.stops :: .edict :: .buf :: writerCells) (encByte b) :=
  bind (look _) fun _ => ite change
    ((bind emitMatch fun _ => change (f := [.edict, .buf])).mono (by decide))

theorem lzwEncByteBody (y : BitVec 64) : Acts (.stops :: .edict :: .buf :: writerCells) (lzwEncByteBody y) := (encByte _).done

theorem lzwEncFlushBody : Acts (footprint .lzwEncFlush) lzwEncFlushBody :=
  (bind (look _) fun _ => bind (runIf _ emitMatch) fun _ => bind (f := [.buf]) change fun _ => pure _).mono (by decide)

theorem lzwDecResetBody : Acts (footprint .lzwDecReset) lzwDecResetBody :=
  bind (f := [.dtab, .prev, .dready]) change fun _ => pure _

theorem emitSequence (q : List Byte) : Acts [.stops, .dtab, .prev, .ports, .sink] (emitSequence q) := by
  cases q with
  | nil => exact (stuck _).mono (by decide)
  | cons first q => exact (bind (sinkPutAll _) fun _ => change (f := [.dtab, .prev])).mono (by decide)

theorem decCode : Acts (footprint .lzwDecCode) decCode := by
  refine (bind (readBits _) (g := [.stops, .dtab, .prev, .ports, .sink]) fun v => ?_).mono (by decide)
  cases v with
  | eos g => exact ite ((pure _).mono (List.nil_subset _)) ((raise _ _).mono (List.nil_subset _))
  | value c =>
    refine bind (look _) fun q => ?_
    rcases q with info | (_ | q)
    · exact (raise _ _).mono (List.nil_subset _)
    · exact (stuck _).mono (by decide)
    · exact (bind (emitSequence q) fun _ => pure _).mono (by decide)

theorem lzwDecCodeBody : Acts (footprint .lzwDecCode) lzwDecCodeBody := by
  refine (bind decCode (g := []) fun c => ?_).mono (by decide)
  cases c <;> exact pure _

theorem lzwCompressBody : Acts (footprint .lzwCompress) lzwCompressBody :=
  (bind (substep .opening bwOpenChecks (fun _ => rfl) bwOpenBody) fun _ =>
    bind (portAccess _) fun _ => bind srcRewind fun _ =>
    bind (substep .lEncode lzwEncResetChecks (fun _ => rfl) lzwEncResetBody) fun _ =>
    bind (look _) fun n => bind (forEachSourceByte encByte n) fun _ =>
    bind (substep .lEncode lzwEncFlushChecks (fun _ => rfl) lzwEncFlushBody) fun _ =>
    bind (substep .closing _ (fun _ => rfl) (portAccess _)) fun _ =>
    bind (substep .closing bwCloseChecks (fun _ => rfl) bwCloseBody) fun _ => endMacro).mono (by decide)

theorem decodeAllCodes (n : Nat) : Acts (footprint .lzwDecCode) (decodeAllCodes n) := by
  induction n with
  | zero => exact (stuck _).mono (by decide)
  | succ n ih =>
    refine (bind decCode (g := footprint .lzwDecCode) fun c => ?_).mono (by decide)
    cases c with
    | none => exact (pure ()).mono (List.nil_subset _)
    | some c => exact ih

theorem lzwDecompressBody : Acts (footprint .lzwDecompress) lzwDecompressBody :=
  (bind (substep .opening brOpenChecks (fun _ => rfl) brOpenBody) fun _ => bind sinkOpen fun _ =>
    bind (substep .lDecode lzwDecResetChecks (fun _ => rfl) lzwDecResetBody) fun _ =>
    bind (look _) fun n => bind (decodeAllCodes n) fun _ =>
    bind (substep .closing brCloseChecks (fun _ => rfl) brCloseBody) fun _ =>
    bind (portAccess _) fun _ => endMacro).mono (by decide)

end Acts

end Sys2Proof.Machine
end


-- ==== Sys2Proof/Proofs/Frames.lean ====
section
/-! PROOF. What the footprints of the commands give: the frames (the "State written" lines), the fault record (R175, R176),
the environment's side (R24, R31, R33) and the sink (R32). The dispatch is read once: every command but `SYS.RESET` and
`SYS.STATUS` is the command cycle of R152 around pseudocode that acts within the command's footprint. -/

namespace Sys2Proof.Machine

variable {s t u : State} {i : Instr} {f : List Cell}

/-! ### The dispatch, with footprints -/

theorem exec_acts (hreset : i ≠ .sysReset) (hstatus : i ≠ .sysStatus) :
    ∃ checks body, (∀ s, exec i s = command i.opcode checks body s) ∧ Acts (footprint i) body ∧
      ∀ s, ((checks s).all fun check => check.2.kind != .ioFailure) = true := by
  cases i
  case sysReset => exact absurd rfl hreset
  case sysStatus => exact absurd rfl hstatus
  case brOpen => exact ⟨_, _, fun _ => rfl, .brOpenBody, fun _ => rfl⟩
  case brReadBit => exact ⟨_, _, fun _ => rfl, .brReadBitBody, fun _ => rfl⟩
  case brReadBits n => exact ⟨_, _, fun _ => rfl, .brReadBitsBody n, fun _ => rfl⟩
  case brClose => exact ⟨_, _, fun _ => rfl, .brCloseBody, fun _ => rfl⟩
  case bwOpen => exact ⟨_, _, fun _ => rfl, .bwOpenBody, fun _ => rfl⟩
  case bwWriteBit bit => exact ⟨_, _, fun _ => rfl, .bwWriteBitBody bit, fun _ => rfl⟩
  case bwWriteBits n value => exact ⟨_, _, fun _ => rfl, .bwWriteBitsBody n value, fun _ => rfl⟩
  case bwClose => exact ⟨_, _, fun _ => rfl, .bwCloseBody, fun _ => rfl⟩
  case pqCreate cmp => exact ⟨_, _, fun _ => rfl, .pqCreateBody cmp, fun _ => rfl⟩
  case pqInsert item => exact ⟨_, _, fun _ => rfl, .pqInsertBody item, fun _ => rfl⟩
  case pqExtractMin => exact ⟨_, _, fun _ => rfl, .pqExtractMinBody, fun _ => rfl⟩
  case pqSize => exact ⟨_, _, fun _ => rfl, .pqSizeBody, fun _ => rfl⟩
  case pqIsEmpty => exact ⟨_, _, fun _ => rfl, .pqIsEmptyBody, fun _ => rfl⟩
  case hufCount => exact ⟨_, _, fun _ => rfl, .hufCountBody, fun _ => rfl⟩
  case hufMkLeaf byte weight => exact ⟨_, _, fun _ => rfl, .hufMkLeafBody byte weight, fun _ => rfl⟩
  case hufMkNode upper left right => exact ⟨_, _, fun _ => rfl, .hufMkNodeBody left right, fun _ => rfl⟩
  case hufBuild => exact ⟨_, _, fun _ => rfl, .hufBuildBody, fun _ => rfl⟩
  case hufDerive => exact ⟨_, _, fun _ => rfl, .hufDeriveBody, fun _ => rfl⟩
  case hufSerialize => exact ⟨_, _, fun _ => rfl, .hufSerializeBody, fun _ => rfl⟩
  case hufEncode => exact ⟨_, _, fun _ => rfl, .hufEncodeBody, fun _ => rfl⟩
  case hufDeserialize => exact ⟨_, _, fun _ => rfl, .hufDeserializeBody, fun _ => rfl⟩
  case hufDecode => exact ⟨_, _, fun _ => rfl, .hufDecodeBody, fun _ => rfl⟩
  case hufCompress => exact ⟨_, _, fun _ => rfl, .hufCompressBody, fun _ => rfl⟩
  case hufDecompress => exact ⟨_, _, fun _ => rfl, .hufDecompressBody, fun _ => rfl⟩
  case lzwEncReset => exact ⟨_, _, fun _ => rfl, .lzwEncResetBody, fun _ => rfl⟩
  case lzwEncByte y => exact ⟨_, _, fun _ => rfl, .lzwEncByteBody y, fun _ => rfl⟩
  case lzwEncFlush => exact ⟨_, _, fun _ => rfl, .lzwEncFlushBody, fun _ => rfl⟩
  case lzwDecReset => exact ⟨_, _, fun _ => rfl, .lzwDecResetBody, fun _ => rfl⟩
  case lzwDecCode => exact ⟨_, _, fun _ => rfl, .lzwDecCodeBody, fun _ => rfl⟩
  case lzwCompress => exact ⟨_, _, fun _ => rfl, .lzwCompressBody, fun _ => rfl⟩
  case lzwDecompress => exact ⟨_, _, fun _ => rfl, .lzwDecompressBody, fun _ => rfl⟩

/-- How a command other than `SYS.RESET` and `SYS.STATUS` ends on a block that is not held: refused by a precondition, or
with a response, or with a raise, the last two from a state within the command's footprint. -/
theorem exec_next_cases (hreset : i ≠ .sysReset) (hstatus : i ≠ .sysStatus) (hheld : s.held = false)
    (hx : exec i s = .next t) :
    (∃ c, c.kind ≠ .ioFailure ∧ t = s.faultEntry i.opcode c false) ∨
    (∃ (v : Response) (u : State), Within (footprint i) s u ∧ t = u.respond v.status.code v.value) ∨
    (∃ c u, Within (footprint i) s u ∧ (NoIoFail s → c.kind ≠ .ioFailure) ∧ t = u.faultEntry i.opcode c true) := by
  obtain ⟨checks, body, hexec, hacts, hchecks⟩ := exec_acts hreset hstatus
  rw [hexec] at hx
  rcases command_next_cases hheld hx with ⟨c, hc, rfl⟩ | ⟨v, u, -, hb, rfl⟩ | ⟨c, u, -, hb, rfl⟩
  · obtain ⟨check, hmem, rfl⟩ := firstFailed_mem hc
    exact .inl ⟨_, by simpa using List.all_eq_true.mp (hchecks s) check hmem, rfl⟩
  · exact .inr (.inl ⟨v, u, hacts.ok hb, rfl⟩)
  · refine .inr (.inr ⟨c, u, hacts.error hb, fun hn hk => ?_, rfl⟩)
    obtain ⟨kind, info⟩ := c
    obtain rfl : kind = .ioFailure := hk
    exact hacts.raised hn hb

/-! ### The environment's side (R5, R24, R31, R33) -/

/-- What no command changes of the environment's side. -/
structure EnvKept (s t : State) : Prop where
  params : t.params = s.params
  srcData : t.mem.srcData = s.mem.srcData
  wf : s.mem.wf = true → t.mem.wf = true
  host : t.host = s.host
  answers : t.answers <:+ s.answers

theorem EnvKept.trans (h₁ : EnvKept s t) (h₂ : EnvKept t u) : EnvKept s u :=
  ⟨h₂.params.trans h₁.params, h₂.srcData.trans h₁.srcData, h₂.wf ∘ h₁.wf, h₂.host.trans h₁.host,
    h₂.answers.trans h₁.answers⟩

theorem Within.envKept (h : Within f s t) : EnvKept s t := ⟨h.params, h.srcData, h.wf, h.host, h.answers⟩

theorem State.respond_envKept (s : State) (c : Byte) (r : Wide) : EnvKept s (s.respond c r) :=
  ⟨rfl, rfl, id, rfl, List.suffix_refl _⟩

theorem State.faultEntry_envKept (s : State) (op : Byte) (c : Cause) (executing : Bool) :
    EnvKept s (s.faultEntry op c executing) := by
  refine ⟨by simp, by simp, by simp, by simp, ?_⟩
  cases executing
  · exact List.suffix_refl _
  · exact s.releasePorts_answers_suffix

theorem externalReset_envKept (s : State) : EnvKept s (externalReset s) :=
  ⟨rfl, rfl, id, rfl, s.releasePorts_answers_suffix⟩

theorem rejectWord_envKept (w : CmdWord) (why : Reject) (s : State) : EnvKept s (rejectWord w why s) := by
  unfold rejectWord
  split
  · exact s.respond_envKept _ _
  · exact s.faultEntry_envKept _ _ _

theorem exec_envKept (hx : exec i s = .next t) : EnvKept s t := by
  rcases eq_or_ne i .sysReset with rfl | hreset
  · cases hx
    exact externalReset_envKept s
  rcases eq_or_ne i .sysStatus with rfl | hstatus
  · cases hx
    exact s.respond_envKept _ _
  cases hheld : s.held with
  | true =>
    rw [exec_of_held hheld hreset hstatus] at hx
    cases hx
    exact s.respond_envKept 0x8F 0
  | false =>
    rcases exec_next_cases hreset hstatus hheld hx with ⟨c, -, rfl⟩ | ⟨v, u, hu, rfl⟩ | ⟨c, u, hu, -, rfl⟩
    · exact s.faultEntry_envKept _ _ _
    · exact hu.envKept.trans (u.respond_envKept _ _)
    · exact hu.envKept.trans (u.faultEntry_envKept _ _ _)

/-- The three things a step can be, by what the host presents (R10). -/
theorem step_next_cases (h : step s = .next t) :
    (s.host = [] ∧ t = s) ∨
    (∃ rest, s.host = .reset :: rest ∧ t = externalReset { s with host := rest }) ∨
    (∃ w rest why, s.host = .command w :: rest ∧ decode w = .error why ∧
      t = rejectWord w why { s with host := rest, cmd := w }) ∨
    (∃ w rest i, s.host = .command w :: rest ∧ decode w = .ok i ∧ exec i { s with host := rest, cmd := w } = .next t) := by
  match hhost : s.host with
  | [] =>
    refine .inl ⟨rfl, ?_⟩
    simp only [step, takeInput, hhost] at h
    exact (Host.Outcome.next.inj h).symm
  | .reset :: rest =>
    rw [step_reset hhost] at h
    exact .inr (.inl ⟨rest, rfl, (Host.Outcome.next.inj h).symm⟩)
  | .command w :: rest =>
    cases hd : decode w with
    | error why =>
      rw [step_rejected hhost hd] at h
      exact .inr (.inr (.inl ⟨w, rest, why, rfl, hd, (Host.Outcome.next.inj h).symm⟩))
    | ok i =>
      rw [step_decoded hhost hd] at h
      exact .inr (.inr (.inr ⟨w, rest, i, rfl, hd, h⟩))

/-- Settles O18: the input is taken first, and what is done with it keeps the environment's side. -/
theorem environmentKept : Obligations.EnvironmentKept := by
  intro s t h
  rcases step_next_cases h with ⟨hhost, rfl⟩ | ⟨rest, hhost, rfl⟩ | ⟨w, rest, why, hhost, -, rfl⟩ | ⟨w, rest, i, hhost, -, hx⟩
  · exact ⟨rfl, rfl, id, by rw [hhost]; rfl, List.suffix_refl _⟩
  · have henv := externalReset_envKept { s with host := rest }
    exact ⟨henv.params, henv.srcData, henv.wf, by rw [hhost]; exact henv.host, henv.answers⟩
  · have henv := rejectWord_envKept w why { s with host := rest, cmd := w }
    exact ⟨henv.params, henv.srcData, henv.wf, by rw [hhost]; exact henv.host, henv.answers⟩
  · have henv := exec_envKept hx
    exact ⟨henv.params, henv.srcData, henv.wf, by rw [hhost]; exact henv.host, henv.answers⟩

/-! ### `IOFailure` (R33, R162) -/

theorem CauseKind.code_eq_ioFailure {k : CauseKind} (h : k.code = 0x81) : k = .ioFailure := by
  cases k <;> simp [CauseKind.code] at h ⊢

theorem exec_not_ioFailure (hn : NoIoFail s) (hx : exec i s = .next t) : rspStatus t.rsp ≠ 0x81 := by
  rcases eq_or_ne i .sysReset with rfl | hreset
  · cases hx
    rw [State.respond_rsp, rspStatus_packRsp]
    decide
  rcases eq_or_ne i .sysStatus with rfl | hstatus
  · cases hx
    rw [State.respond_rsp, rspStatus_packRsp]
    decide
  cases hheld : s.held with
  | true =>
    rw [exec_of_held hheld hreset hstatus] at hx
    cases hx
    rw [rspStatus_packRsp]
    decide
  | false =>
    rcases exec_next_cases hreset hstatus hheld hx with ⟨c, hc, rfl⟩ | ⟨v, u, -, rfl⟩ | ⟨c, u, -, hc, rfl⟩
    · rw [State.faultEntry_rsp, rspStatus_packRsp]
      exact fun h => hc (CauseKind.code_eq_ioFailure h)
    · rw [State.respond_rsp, rspStatus_packRsp]
      cases v.status <;> decide
    · rw [State.faultEntry_rsp, rspStatus_packRsp]
      exact fun h => hc hn (CauseKind.code_eq_ioFailure h)

theorem rejectWord_not_ioFailure (w : CmdWord) (why : Reject) (s : State) : rspStatus (rejectWord w why s).rsp ≠ 0x81 := by
  unfold rejectWord
  split
  · rw [State.respond_rsp, rspStatus_packRsp]
    decide
  · rw [State.faultEntry_rsp, rspStatus_packRsp]
    exact fun h => nomatch CauseKind.code_eq_ioFailure h

/-- Settles O14: the answers left are a last part of those to come, and only a failing port access raises `IOFailure`. -/
theorem ioFailureNeedsIoFail : Obligations.IoFailureNeedsIoFail := by
  intro s t hn h
  obtain ⟨-, -, -, -, hanswers⟩ := environmentKept s t h
  refine ⟨hn.mono hanswers, fun hne => ?_⟩
  rcases step_next_cases h with ⟨hhost, -⟩ | ⟨rest, -, rfl⟩ | ⟨w, rest, why, -, -, rfl⟩ | ⟨w, rest, i, -, -, hx⟩
  · exact absurd hhost hne
  · rw [externalReset, State.respond_rsp, rspStatus_packRsp]
    decide
  · exact rejectWord_not_ioFailure _ _ _
  · exact exec_not_ioFailure (s := { s with host := rest, cmd := w }) hn hx

/-! ### The sink (R32) -/

theorem Within.sink_grows (h : Within f s t) (hf : .lostBytes ∉ f) : s.mem.snkData <+: t.mem.snkData := h.same _ hf

theorem lostBytes_not_mem_footprint (hbw : i ≠ .bwOpen) (hhc : i ≠ .hufCompress) (hhd : i ≠ .hufDecompress)
    (hlc : i ≠ .lzwCompress) (hld : i ≠ .lzwDecompress) : .lostBytes ∉ footprint i := by
  cases i <;> simp_all [footprint, readerCells, writerCells, treeCells]

/-- Settles O19: no other command's footprint has lost bytes, and a fault entry leaves the sink. -/
theorem sinkOnlyGrows : Obligations.SinkOnlyGrows := by
  intro i s t hx hbw hhc hhd hlc hld
  have hlost := lostBytes_not_mem_footprint hbw hhc hhd hlc hld
  rcases eq_or_ne i .sysReset with rfl | hreset
  · cases hx
    exact List.prefix_refl _
  rcases eq_or_ne i .sysStatus with rfl | hstatus
  · cases hx
    exact List.prefix_refl _
  cases hheld : s.held with
  | true =>
    rw [exec_of_held hheld hreset hstatus] at hx
    cases hx
    exact List.prefix_refl _
  | false =>
    rcases exec_next_cases hreset hstatus hheld hx with ⟨c, -, rfl⟩ | ⟨v, u, hu, rfl⟩ | ⟨c, u, hu, -, rfl⟩
    · rw [State.faultEntry_mem]
    · exact hu.sink_grows hlost
    · rw [State.faultEntry_mem]
      exact hu.sink_grows hlost

/-! ### The fault record (R26, R175, R176) -/

theorem CauseKind.code_ge (k : CauseKind) : 0x80 ≤ k.code.toNat := by cases k <;> decide

theorem Status.code_lt (st : Status) : st.code.toNat < 0x80 := by cases st <;> decide

theorem Phase.code_le (p : Phase) : p.code.toNat ≤ 11 := by cases p <;> decide

/-- What a command of a ready block leaves in `FAULT`, by the status it answers with. -/
structure Recorded (s : State) (op : Byte) (t : State) : Prop where
  kept : (rspStatus t.rsp).toNat < 0x80 → t.faultReg = s.faultReg
  fault : 0x80 ≤ (rspStatus t.rsp).toNat → ∃ (phase : BitVec 4) (info : Byte),
    phase.toNat ≤ 11 ∧ t.faultReg = packFault phase op (rspStatus t.rsp) info ∧
    rspValue t.rsp = info.setWidth 64 ∧ t.phase = .idle ∧
    (t = { s with faultReg := t.faultReg, rsp := t.rsp } ∨ t.br.isOpen = false ∧ t.bw.isOpen = false)

theorem Recorded.of_respond (hu : u.faultReg = s.faultReg) (op : Byte) {c : Byte} (hc : c.toNat < 0x80) (r : Wide) :
    Recorded s op (u.respond c r) := by
  refine ⟨fun _ => hu, fun h => absurd hc ?_⟩
  rw [State.respond_rsp, rspStatus_packRsp] at h
  omega

theorem Recorded.of_refused (hs : Ready s) (op info : Byte) (k : CauseKind) :
    Recorded s op (s.refused op k.code info) := by
  have hk := k.code_ge
  refine ⟨fun h => ?_, fun _ => ⟨0, info, by decide, ?_, rspValue_packRsp _ _, hs.2, .inl rfl⟩⟩
  · rw [State.refused, rspStatus_packRsp] at h
    omega
  · rw [State.refused, rspStatus_packRsp]

theorem Recorded.of_raise (hs : s.held = false) (hu : Within f s u) (op : Byte) (c : Cause) :
    Recorded s op (u.faultEntry op c true) := by
  have hk := c.kind.code_ge
  have hheld : u.held = false := by rw [State.held, hu.faultReg]; exact hs
  obtain ⟨hbr, hbw⟩ := u.faultEntry_closes op c
  refine ⟨fun h => ?_, fun _ => ⟨u.phase.code, c.info, u.phase.code_le, ?_, rspValue_packRsp _ _, rfl, .inr ⟨hbr, hbw⟩⟩⟩
  · rw [State.faultEntry_rsp, rspStatus_packRsp] at h
    omega
  · rw [State.faultEntry_faultReg, hheld, State.faultEntry_rsp, rspStatus_packRsp]
    rfl

theorem exec_records (hs : Ready s) (hreset : i ≠ .sysReset) (hx : exec i s = .next t) : Recorded s i.opcode t := by
  rcases eq_or_ne i .sysStatus with rfl | hstatus
  · cases hx
    exact .of_respond rfl _ (by decide) _
  rcases exec_next_cases hreset hstatus hs.1 hx with ⟨c, -, rfl⟩ | ⟨v, u, hu, rfl⟩ | ⟨c, u, hu, -, rfl⟩
  · rw [State.faultEntry_of_ready _ _ hs]
    exact .of_refused hs _ _ _
  · exact .of_respond hu.faultReg _ v.status.code_lt _
  · exact .of_raise hs.1 hu _ _

/-- Settles O13: a word that is no command is refused; a command records as its end says, and its opcode is the word's. -/
theorem faultEntry : Obligations.FaultEntry := by
  intro s t w rest hs hhost hstep
  have hs' : Ready { s with host := rest, cmd := w } := hs
  cases hd : decode w with
  | error why =>
    rw [step_rejected hhost hd, rejectWord_of_ready hs'] at hstep
    cases hstep
    have hrec := Recorded.of_refused hs' (cmdOp w) (rejectInfo why) .illegalCommand
    exact ⟨fun h _ => hrec.kept h, hrec.fault⟩
  | ok i =>
    rw [step_decoded hhost hd] at hstep
    rcases eq_or_ne i .sysReset with rfl | hreset
    · cases hstep
      have hstatus : rspStatus (State.respond (State.resetBlock { s with host := rest, cmd := w }) Status.ok.code 0).rsp =
        0 := rspStatus_packRsp _ _
      exact ⟨fun _ h => absurd rfl h, fun h => absurd h (by rw [hstatus]; decide)⟩
    · obtain ⟨hop, -, -⟩ := fields_of_decodeFields hd
      have hrec := exec_records hs' hreset hstep
      rw [hop] at hrec
      exact ⟨fun h _ => hrec.kept h, hrec.fault⟩

end Sys2Proof.Machine
end

