-- ==== Sys2Proof/Proofs/CommandFrames.lean ====
section
/-! PROOF. The "State written" lines of R70 to R140, read off the footprints: a state that differs from another in no cell is
that state, so a command's result is the state before it with the footprint's cells replaced. The four entry points also end
in phase `IDLE` with their channel closed. -/

namespace Sys2Proof.Machine

variable {s t u : State} {i : Instr} {f : List Cell} {α β : Type}

/-- A state is its control registers, its source and its cells; the bytes lost are no part of it. -/
theorem State.eq_of_cells
    (hcontrol : t.faultReg = s.faultReg ∧ t.rsp = s.rsp ∧ t.cmd = s.cmd ∧ t.host = s.host ∧ t.params = s.params ∧
      t.mem.srcData = s.mem.srcData) (hsame : ∀ c : Cell, c ≠ .lostBytes → c.Same s t) : t = s := by
  have hreader := hsame .reader nofun
  have hopen := hsame .readerOpen nofun
  have hbr : t.br = s.br := by
    calc t.br = { { t.br with isOpen := false } with isOpen := t.br.isOpen } := rfl
      _ = { { s.br with isOpen := false } with isOpen := s.br.isOpen } := by rw [hreader, hopen]
      _ = s.br := rfl
  have hbw : t.bw = s.bw := by
    obtain ⟨hacc, hk⟩ := hsame .writer nofun
    calc t.bw = ⟨t.bw.isOpen, t.bw.acc, t.bw.k⟩ := rfl
      _ = ⟨s.bw.isOpen, s.bw.acc, s.bw.k⟩ := by rw [hacc, hk, hsame .writerOpen nofun]
  have hpq : t.pq = s.pq := by
    obtain ⟨hcreated, hcmp⟩ := hsame .pqMode nofun
    calc t.pq = ⟨t.pq.created, t.pq.cmp, t.pq.heap⟩ := rfl
      _ = ⟨s.pq.created, s.pq.cmp, s.pq.heap⟩ := by rw [hcreated, hcmp, hsame .heap nofun]
  have hhuf : t.huf = s.huf := by
    calc t.huf = ⟨t.huf.freq, t.huf.counted, t.huf.nodes, t.huf.root, t.huf.treeOk, t.huf.code, t.huf.derived⟩ := rfl
      _ = ⟨s.huf.freq, s.huf.counted, s.huf.nodes, s.huf.root, s.huf.treeOk, s.huf.code, s.huf.derived⟩ := by
        rw [hsame .freq nofun, hsame .counted nofun, hsame .nodes nofun, hsame .root nofun, hsame .treeOk nofun, hsame .code nofun, hsame .derived nofun]
  have hlzw : t.lzw = s.lzw := by
    calc t.lzw = ⟨t.lzw.edict, t.lzw.buf, t.lzw.eready, t.lzw.dtab, t.lzw.prev, t.lzw.dready⟩ := rfl
      _ = ⟨s.lzw.edict, s.lzw.buf, s.lzw.eready, s.lzw.dtab, s.lzw.prev, s.lzw.dready⟩ := by
        rw [hsame .edict nofun, hsame .buf nofun, hsame .eready nofun, hsame .dtab nofun, hsame .prev nofun, hsame .dready nofun]
  obtain ⟨hfault, hrsp, hcmd, hhost, hparams, hsrc⟩ := hcontrol
  have hmem : t.mem = s.mem := by
    calc t.mem = ⟨t.mem.srcData, t.mem.srcPos, t.mem.snkData⟩ := rfl
      _ = ⟨s.mem.srcData, s.mem.srcPos, s.mem.snkData⟩ := by rw [hsrc, hsame .srcPos nofun, hsame .sink nofun]
  calc t = ⟨t.bw, t.br, t.pq, t.huf, t.lzw, t.phase, t.faultReg, t.rsp, t.cmd, t.mem, t.answers, t.host, t.params, t.draws⟩ := rfl
    _ = ⟨s.bw, s.br, s.pq, s.huf, s.lzw, s.phase, s.faultReg, s.rsp, s.cmd, s.mem, s.answers, s.host, s.params, s.draws⟩ := by
      rw [hbw, hbr, hpq, hhuf, hlzw, hsame .phase nofun, hfault, hrsp, hcmd, hmem, hsame .ports nofun, hhost, hparams, hsame .draws nofun]

/-! ### What an operation ensures when it returns -/

/-- The state reached, when the operation returns, has the property, wherever it began. -/
def Ensures (Q : State → Prop) (m : M α) : Prop := ∀ s a t, m s = .ok a t → Q t

section

variable {Q R : State → Prop} {m : M α} {k : α → M β}

/-- Only the last operation counts. -/
theorem Ensures.bind (hk : ∀ a, Ensures Q (k a)) : Ensures Q (m >>= k) := by
  intro s b u h
  obtain ⟨a, t, -, hf⟩ := bind_eq_ok.mp h
  exact hk a t b u hf

theorem Ensures.then (hm : Ensures R m) (hk : ∀ a s b t, R s → k a s = .ok b t → Q t) : Ensures Q (m >>= k) := by
  intro s b u h
  obtain ⟨a, t, hmt, hf⟩ := bind_eq_ok.mp h
  exact hk a t b u (hm s a t hmt) hf

theorem Ensures.substep (hm : Ensures Q m) (p : Phase) (checks : State → Checks) : Ensures Q (substep p checks m) := by
  refine .bind fun _ => .bind fun c => ?_
  cases c with
  | none => exact hm
  | some c => exact fun s a t h => nomatch h

end

theorem bwCloseBody_ensures : Ensures (fun t => t.bw.isOpen = false) bwCloseBody :=
  .bind fun _ => .bind fun _ => .bind fun _ => by rintro s _ _ ⟨⟩; rfl

theorem brCloseBody_ensures : Ensures (fun t => t.br.isOpen = false) brCloseBody :=
  .bind fun _ => by rintro s _ _ ⟨⟩; rfl

/-- The end of a compressing entry point (R110, R139). -/
theorem closeWriter_endMacro_ensures : Ensures (fun t => t.phase = .idle ∧ t.bw.isOpen = false)
    (substep .closing bwCloseChecks bwCloseBody >>= fun _ => endMacro) :=
  (bwCloseBody_ensures.substep _ _).then (by rintro _ s _ _ h ⟨⟩; exact ⟨rfl, h⟩)

/-- The end of a decompressing entry point (R111, R140). -/
theorem closeReader_endMacro_ensures : Ensures (fun t => t.phase = .idle ∧ t.br.isOpen = false)
    (substep .closing brCloseChecks brCloseBody >>= fun _ => sinkClose >>= fun _ => endMacro) := by
  refine (brCloseBody_ensures.substep _ _).then fun _ s b t h hx => ?_
  obtain ⟨_, u, hu, hend⟩ := bind_eq_ok.mp hx
  have hopen : u.br.isOpen = s.br.isOpen := (Acts.portAccess 3).ok hu |>.same .readerOpen (by decide)
  cases hend
  exact ⟨rfl, hopen.trans h⟩

theorem hufCompressBody_ensures : Ensures (fun t => t.phase = .idle ∧ t.bw.isOpen = false) hufCompressBody :=
  .bind fun _ => .bind fun _ => .bind fun _ => .bind fun _ => .bind fun _ => .bind fun _ => closeWriter_endMacro_ensures

theorem lzwCompressBody_ensures : Ensures (fun t => t.phase = .idle ∧ t.bw.isOpen = false) lzwCompressBody :=
  .bind fun _ => .bind fun _ => .bind fun _ => .bind fun _ => .bind fun _ => .bind fun _ => .bind fun _ => .bind fun _ =>
    closeWriter_endMacro_ensures

theorem hufDecompressBody_ensures : Ensures (fun t => t.phase = .idle ∧ t.br.isOpen = false) hufDecompressBody :=
  .bind fun _ => .bind fun _ => .bind fun _ => .bind fun _ => closeReader_endMacro_ensures

theorem lzwDecompressBody_ensures : Ensures (fun t => t.phase = .idle ∧ t.br.isOpen = false) lzwDecompressBody :=
  .bind fun _ => .bind fun _ => .bind fun _ => .bind fun _ => .bind fun _ => closeReader_endMacro_ensures

/-! ### The frames -/

/-- A command that ends with no fault returned from its pseudocode. -/
theorem command_returned {op : Byte} {checks : State → Checks} {body : M Response} (hheld : s.held = false)
    (hx : command op checks body s = .next t) (hstatus : (rspStatus t.rsp).toNat < 0x80) :
    ∃ v u, body s = .ok v u ∧ t = u.respond v.status.code v.value := by
  rcases command_next_cases hheld hx with ⟨c, -, rfl⟩ | ⟨v, u, -, hb, rfl⟩ | ⟨c, u, -, -, rfl⟩
  · have hk := c.kind.code_ge
    rw [State.faultEntry_rsp, rspStatus_packRsp] at hstatus
    omega
  · exact ⟨v, u, hb, rfl⟩
  · have hk := c.kind.code_ge
    rw [State.faultEntry_rsp, rspStatus_packRsp] at hstatus
    omega

theorem exec_returned (hreset : i ≠ .sysReset) (hstat : i ≠ .sysStatus) (hheld : s.held = false)
    (hx : exec i s = .next t) (hstatus : (rspStatus t.rsp).toNat < 0x80) :
    ∃ (v : Response) (u : State), Within (footprint i) s u ∧ t = u.respond v.status.code v.value := by
  obtain ⟨checks, body, hexec, hacts, -⟩ := exec_acts hreset hstat
  rw [hexec] at hx
  obtain ⟨v, u, hb, rfl⟩ := command_returned hheld hx hstatus
  exact ⟨v, u, hacts.ok hb, rfl⟩

/-- The frame of a command that stays in its phase and opens or closes no channel behind the caller's back: every cell is
the footprint's, or kept. -/
theorem commandFrame_of_within (hu : Within (footprint i) s u) (hhc : i ≠ .hufCompress) (hhd : i ≠ .hufDecompress)
    (hlc : i ≠ .lzwCompress) (hld : i ≠ .lzwDecompress) (c : Byte) (r : Wide) : CommandFrame i s (u.respond c r) := by
  cases i
  case hufCompress => exact absurd rfl hhc
  case hufDecompress => exact absurd rfl hhd
  case lzwCompress => exact absurd rfl hlc
  case lzwDecompress => exact absurd rfl hld
  case sysReset => trivial
  all_goals
    dsimp only [footprint] at hu
    refine State.eq_of_cells ⟨hu.faultReg, rfl, hu.cmd, hu.host, hu.params, hu.srcData⟩ fun cell hcell => ?_
    have hself := cell.same_refl u
    rcases hu.cell_cases cell with hmem | ⟨hmem, hkept⟩
    · cases cell <;> simp [readerCells, writerCells, treeCells] at hmem hcell <;> exact hself
    · cases cell <;> simp [readerCells, writerCells, treeCells] at hmem hcell <;> exact hkept

/-- The same of a compressing entry point: it ends in phase `IDLE`, from where it began, with the writer closed. -/
theorem commandFrame_of_compress (hu : Within (footprint i) s u) (hi : i = .hufCompress ∨ i = .lzwCompress)
    (hs : s.phase = .idle) (hphase : u.phase = .idle) (hopen : u.bw.isOpen = false) (c : Byte) (r : Wide) :
    CommandFrame i s (u.respond c r) := by
  have hidle : u.phase = s.phase := hphase.trans hs.symm
  rcases hi with rfl | rfl
  all_goals
    refine State.eq_of_cells ⟨hu.faultReg, rfl, hu.cmd, hu.host, hu.params, hu.srcData⟩ fun cell hcell => ?_
    have hself := cell.same_refl u
    rcases hu.cell_cases cell with hmem | ⟨hmem, hkept⟩
    · cases cell <;> simp [footprint, writerCells, treeCells] at hmem hcell
      case writerOpen => exact hopen
      case phase => exact hidle
      all_goals exact hself
    · cases cell <;> simp [footprint, writerCells, treeCells] at hmem hcell <;> exact hkept

/-- The same of a decompressing entry point, with the reader closed. -/
theorem commandFrame_of_decompress (hu : Within (footprint i) s u) (hi : i = .hufDecompress ∨ i = .lzwDecompress)
    (hs : s.phase = .idle) (hphase : u.phase = .idle) (hopen : u.br.isOpen = false) (c : Byte) (r : Wide) :
    CommandFrame i s (u.respond c r) := by
  have hidle : u.phase = s.phase := hphase.trans hs.symm
  rcases hi with rfl | rfl
  all_goals
    refine State.eq_of_cells ⟨hu.faultReg, rfl, hu.cmd, hu.host, hu.params, hu.srcData⟩ fun cell hcell => ?_
    have hself := cell.same_refl u
    rcases hu.cell_cases cell with hmem | ⟨hmem, hkept⟩
    · cases cell <;> simp [footprint, readerCells, treeCells] at hmem hcell
      case readerOpen => exact hopen
      case phase => exact hidle
      all_goals exact hself
    · cases cell <;> simp [footprint, readerCells, treeCells] at hmem hcell <;> exact hkept

/-- Settles O20: a command that ends with no fault returned from its pseudocode, which acts within its footprint. -/
theorem commandsWriteOnlyTheirState : Obligations.CommandsWriteOnlyTheirState := by
  intro i s t hs hx hstatus
  cases i
  case sysReset => trivial
  case sysStatus =>
    cases hx
    rfl
  case hufCompress =>
    obtain ⟨v, u, hb, rfl⟩ := command_returned hs.1 hx hstatus
    obtain ⟨hphase, hopen⟩ := hufCompressBody_ensures _ _ _ hb
    exact commandFrame_of_compress (Acts.hufCompressBody.ok hb) (.inl rfl) hs.2 hphase hopen _ _
  case hufDecompress =>
    obtain ⟨v, u, hb, rfl⟩ := command_returned hs.1 hx hstatus
    obtain ⟨hphase, hopen⟩ := hufDecompressBody_ensures _ _ _ hb
    exact commandFrame_of_decompress (Acts.hufDecompressBody.ok hb) (.inl rfl) hs.2 hphase hopen _ _
  case lzwCompress =>
    obtain ⟨v, u, hb, rfl⟩ := command_returned hs.1 hx hstatus
    obtain ⟨hphase, hopen⟩ := lzwCompressBody_ensures _ _ _ hb
    exact commandFrame_of_compress (Acts.lzwCompressBody.ok hb) (.inr rfl) hs.2 hphase hopen _ _
  case lzwDecompress =>
    obtain ⟨v, u, hb, rfl⟩ := command_returned hs.1 hx hstatus
    obtain ⟨hphase, hopen⟩ := lzwDecompressBody_ensures _ _ _ hb
    exact commandFrame_of_decompress (Acts.lzwDecompressBody.ok hb) (.inr rfl) hs.2 hphase hopen _ _
  all_goals
    obtain ⟨v, u, hu, rfl⟩ := exec_returned (Instr.noConfusion) (Instr.noConfusion) hs.1 hx hstatus
    exact commandFrame_of_within hu (by simp) (by simp) (by simp) (by simp) _ _

end Sys2Proof.Machine
end

