-- ==== Sys2Proof/Proofs/Preconditions.lean ====
section
/-! PROOF. The first failed precondition (R152, R174): the checks of each command are the preconditions of its rule, in the
same order and with the same causes, and the command cycle reports the first that fails. -/

namespace Sys2Proof.Machine

variable {s : State} {i : Instr}

/-- A check as the preconditions of `Safety.lean` write it: the condition, the cause's status, the `info`. -/
def checkRow (check : Bool × Cause) : Bool × Byte × Byte := (check.1, check.2.kind.code, check.2.info)

theorem bitVec_beq_zero {n : Nat} (x : BitVec n) : (x == 0) = decide (x.toNat = 0) := by
  rw [Bool.eq_iff_iff]
  simp [← BitVec.toNat_inj]

theorem hasRoom_eq_all (cap : Option Nat) (n : Nat) : hasRoom cap n = cap.all (n < ·) := by
  cases cap <;> rfl

theorem fitsFreq_eq_all (p : Params) (w : Nat) : Params.fitsFreq p w = p.freqW.all (w < 2 ^ ·) := by
  unfold Params.fitsFreq
  cases p.freqW <;> rfl

/-- The dispatch, with the preconditions. -/
theorem exec_checks (hreset : i ≠ .sysReset) (hstatus : i ≠ .sysStatus) :
    ∃ checks body, (∀ s, exec i s = command i.opcode checks body s) ∧ ∀ s, (checks s).map checkRow = preconditions i s := by
  cases i
  case sysReset => exact absurd rfl hreset
  case sysStatus => exact absurd rfl hstatus
  case pqCreate cmp =>
    refine ⟨_, _, fun _ => rfl, fun s => ?_⟩
    simp only [preconditions, ← bitVec_beq_zero]
    rfl
  case pqInsert item =>
    refine ⟨_, _, fun _ => rfl, fun s => ?_⟩
    simp only [preconditions, ← hasRoom_eq_all, ne_eq, decide_not]
    rfl
  case hufMkLeaf byte weight =>
    refine ⟨_, _, fun _ => rfl, fun s => ?_⟩
    simp only [preconditions, ← hasRoom_eq_all, ← fitsFreq_eq_all]
    rfl
  case hufMkNode upper left right =>
    refine ⟨_, _, fun _ => rfl, fun s => ?_⟩
    simp only [preconditions, ← hasRoom_eq_all, ← fitsFreq_eq_all, ← bitVec_beq_zero]
    rfl
  all_goals exact ⟨_, _, fun _ => rfl, fun _ => rfl⟩

/-- The first failed check, found behind checks that hold. -/
theorem firstFailed_of_rows {cs : Checks} {before after : List (Bool × Byte × Byte)} {cause info : Byte}
    (h : cs.map checkRow = before ++ (false, cause, info) :: after) (hbefore : ∀ p ∈ before, p.1 = true) :
    ∃ c, firstFailed cs = some c ∧ c.kind.code = cause ∧ c.info = info := by
  induction before generalizing cs with
  | nil =>
    obtain ⟨⟨holds, c⟩, rest, rfl, hrow, -⟩ := List.map_eq_cons_iff.mp h
    obtain ⟨rfl, rfl, rfl⟩ : holds = false ∧ c.kind.code = cause ∧ c.info = info := by simpa [checkRow] using hrow
    exact ⟨c, rfl, rfl, rfl⟩
  | cons p before ih =>
    obtain ⟨⟨holds, c⟩, rest, rfl, hrow, hrest⟩ := List.map_eq_cons_iff.mp h
    obtain rfl : holds = true := (congrArg Prod.fst hrow).trans (hbefore p List.mem_cons_self)
    obtain ⟨d, hd, hrow⟩ := ih hrest fun q hq => hbefore q (List.mem_cons_of_mem _ hq)
    exact ⟨d, hd, hrow⟩

/-- Settles O11: the checks are the rule's preconditions, and the first that fails is reported. -/
theorem firstFailedPrecondition : Obligations.FirstFailedPrecondition := by
  intro i s before after cause info hs h hbefore
  rcases eq_or_ne i .sysReset with rfl | hreset
  · cases before <;> cases h
  rcases eq_or_ne i .sysStatus with rfl | hstatus
  · cases before <;> cases h
  obtain ⟨checks, body, hexec, hrows⟩ := exec_checks hreset hstatus
  obtain ⟨c, hc, rfl, rfl⟩ := firstFailed_of_rows ((hrows s).trans h) hbefore
  rw [hexec, command_refused_of_ready hs hc]

end Sys2Proof.Machine
end

