-- ==== Sys2Proof/Proofs/ChannelCommands.lean ====
section
/-! PROOF. The commands of the two channels (R70 to R83): what they answer and leave, from the bits the reader has to
deliver and the bits the writer has accepted. What a failing command leaves comes from its footprint. -/

namespace Sys2Proof.Machine

variable {s t u : State} {i : Instr} {f : List Cell} {bits rest : List Bool} {corrupt : Bool}

/-! ### How a command ends, with its frame -/

theorem Within.sameRecord (h : Within f s t) (hf : .phase ∉ f) : SameRecord s t :=
  ⟨h.faultReg, h.same _ hf, h.cmd, h.host, h.params, h.srcData⟩

/-- A raise from pseudocode that acts within a footprint without the phase. -/
theorem Acts.fails {op : Byte} {checks : State → Checks} {body : M Response} {c : Cause} (hacts : Acts f body)
    (hf : .phase ∉ f) (hs : Ready s) (hc : firstFailed (checks s) = none) (hb : body s = .error (.raise c) u) :
    ∃ t, command op checks body s = .next t ∧ FailedDuring s t 0 op c.kind.code c.info ∧ t.mem = u.mem :=
  command_fails hs hc hb ((hacts.error hb).sameRecord hf)

theorem Answers.frame {c : Byte} {r : Nat} (ha : Answers t c r) (hs : Ready s) (hx : exec i s = .next t)
    (hc : c.toNat < 0x80 := by decide) : CommandFrame i s t :=
  commandsWriteOnlyTheirState i s t hs hx (by rw [ha, rspStatus_packRsp]; exact hc)

/-- What a command that returned leaves between commands. -/
theorem Within.ready (h : Within f s t) (hf : .phase ∉ f) (hs : Ready s) : Ready t :=
  ⟨by rw [State.held, h.faultReg]; exact hs.1, Eq.trans (h.same .phase hf) hs.2⟩

theorem Delivers.respond (h : Delivers s bits corrupt) (c : Byte) (r : Wide) : Delivers (s.respond c r) bits corrupt :=
  ⟨h.noIoFail, h.cursor, h.bits, h.corrupt⟩

/-! ### `BR.OPEN` (R70) -/

theorem exec_brOpen (s : State) : exec .brOpen s = command 0x00 brOpenChecks brOpenBody s := rfl

theorem brOpenBody_fail (h : NextAnswerFails s) :
    brOpenBody s = .error (.raise ⟨.ioFailure, 1⟩) { s with answers := s.answers.tail } := by
  simp [brOpenBody, srcOpen, portAccess_fail _ h]

/-- The state after `BR.OPEN`. -/
def State.readerOpened (s : State) : State :=
  { s with br := { s.br with isOpen := true, hasBits := false, pos := 0, laSt := .none },
           mem := { s.mem with srcPos := 0 }, answers := s.answers.tail, rsp := packRsp 0x00 0 }

theorem exec_brOpen_ok (hs : Ready s) (hbr : s.br.isOpen = false) (hok : NextAnswerOk s) :
    exec .brOpen s = .next s.readerOpened := by
  rw [exec_brOpen, command_returns hs.1 (brOpenChecks_of_closed hbr) (brOpenBody_ok hok)]
  rfl

theorem State.readerOpened_delivers (hn : NoIoFail s) :
    Delivers s.readerOpened (validBits s.mem.srcData) (endsCorrupt s.mem.srcData) :=
  ⟨hn.mono (List.tail_suffix _), by simp [State.readerOpened, CursorInv],
    by simp [State.readerOpened, State.bitsToRead], by simp [State.readerOpened, State.readEndsCorrupt]⟩

/-! ### `BR.READBIT` (R71 to R73) -/

theorem brReadBitChecks_of_open (h : s.br.isOpen = true) : firstFailed (brReadBitChecks s) = none := by
  simp [brReadBitChecks, needReaderOpen, firstFailed, h]

theorem brReadBitBody_some {b : Bool} (h : readBit s = .ok (some b) t) :
    brReadBitBody s = .ok (result b.toNat) t := by simp [brReadBitBody, h]

theorem brReadBitBody_none (h : readBit s = .ok none t) : brReadBitBody s = .ok ⟨.eos, 0⟩ t := by
  simp [brReadBitBody, h]

theorem exec_brReadBit_of_some {b : Bool} (hs : Ready s) (hbr : s.br.isOpen = true) (hr : readBit s = .ok (some b) t) :
    exec .brReadBit s = .next (t.respond 0x00 (BitVec.ofNat 64 b.toNat)) := by
  rw [exec_brReadBit, command_returns hs.1 (brReadBitChecks_of_open hbr) (brReadBitBody_some hr)]
  rfl

theorem exec_brReadBit_of_none (hs : Ready s) (hbr : s.br.isOpen = true) (hr : readBit s = .ok none t) :
    exec .brReadBit s = .next (t.respond 0x01 0) := by
  rw [exec_brReadBit, command_returns hs.1 (brReadBitChecks_of_open hbr) (brReadBitBody_none hr)]
  rfl

theorem exec_brReadBit_of_error {c : Cause} (hs : Ready s) (hbr : s.br.isOpen = true)
    (hr : readBit s = .error (.raise c) u) :
    ∃ t, exec .brReadBit s = .next t ∧ FailedDuring s t 0 0x01 c.kind.code c.info ∧ t.mem = u.mem :=
  Acts.brReadBitBody.fails (op := 0x01) (by decide) hs (brReadBitChecks_of_open hbr) (bind_error hr)

/-- Reading leaves the sink. -/
theorem Acts.snkData_of_error {α : Type} {m : M α} {e : Stop} (hacts : Acts f m) (hf : .sink ∉ f) (h : m s = .error e t) :
    t.mem.snkData = s.mem.snkData := (hacts.error h).same _ hf

/-! ### A fetch that fails (R71, R162) -/

theorem readBit_of_bits (h : s.br.hasBits = true) : readBit s = .ok (some s.br.bit) { s with br := s.br.advance } := by
  simp [readBit, h, runIf]

theorem readBit_of_refill_bits (h : s.br.hasBits = false) (hr : refill s = .ok () t) (ht : t.br.hasBits = true) :
    readBit s = .ok (some t.br.bit) { t with br := t.br.advance } := by
  simp [readBit, h, runIf, hr, ht]

theorem readBit_of_refill_error {e : Stop} (h : s.br.hasBits = false) (hr : refill s = .error e t) :
    readBit s = .error e t := by
  simp [readBit, h, runIf, hr]

theorem takeLookahead_fail (h : NextAnswerFails s) :
    takeLookahead s = .error (.raise ⟨.ioFailure, 2⟩) { s with answers := s.answers.tail } := by
  simp [takeLookahead, fetch_fail h]

theorem refill_of_byte (h : s.br.laSt = .byte) : refill s = takeLookahead s := by simp [refill, h, runIf]

/-- The state after a fetch of the byte `b`. -/
def State.fetched (s : State) (b : Byte) : State :=
  { s with answers := s.answers.tail, mem := { s.mem with srcPos := s.mem.srcPos + 1 },
           br := { s.br with la := b, laSt := .byte } }

theorem refill_of_none {b : Byte} (h : s.br.laSt = .none) (hok : NextAnswerOk s)
    (hd : s.mem.srcData[s.mem.srcPos]? = some b) : refill s = takeLookahead (s.fetched b) := by
  simp [refill, h, runIf, fetch_byte hok hd, State.fetched]

/-- The lookahead byte taken as the current byte, whole, when another was fetched behind it. -/
theorem takeLookahead_byte {b : Byte} (hok : NextAnswerOk s) (hd : s.mem.srcData[s.mem.srcPos]? = some b) :
    takeLookahead s = .ok () { s.fetched b with
      br := { (s.fetched b).br with cur := s.br.la, lim := 8, pos := 0, hasBits := true } } := by
  simp [takeLookahead, fetch_byte hok hd, limitOf, runIf, State.fetched]

theorem readBit_first_fetch_fails (hbits : s.br.hasBits = false) (heof : s.br.laSt ≠ .eof) (hfail : NextAnswerFails s) :
    readBit s = .error (.raise ⟨.ioFailure, 2⟩) { s with answers := s.answers.tail } := by
  refine readBit_of_refill_error hbits ?_
  cases hla : s.br.laSt with
  | none => simp [refill, hla, runIf, fetch_fail hfail]
  | byte => rw [refill_of_byte hla, takeLookahead_fail hfail]
  | eof => exact absurd hla heof

theorem readBit_second_fetch_fails {answers : List PortAnswer} (hbits : s.br.hasBits = false) (hla : s.br.laSt = .none)
    (hpos : s.mem.srcPos < s.mem.srcData.length) (ha : s.answers = .ok :: .ioFail :: answers) :
    ∃ t, readBit s = .error (.raise ⟨.ioFailure, 2⟩) t ∧ t.mem = { s.mem with srcPos := s.mem.srcPos + 1 } := by
  have hok : NextAnswerOk s := by simp [NextAnswerOk, ha]
  have hfail : NextAnswerFails (s.fetched s.mem.srcData[s.mem.srcPos]) := by simp [NextAnswerFails, State.fetched, ha]
  have hr : refill s = takeLookahead (s.fetched _) := refill_of_none hla hok (List.getElem?_eq_getElem hpos)
  exact ⟨_, readBit_of_refill_error hbits (hr.trans (takeLookahead_fail hfail)), rfl⟩

/-- Settles O21, by the one port access of the open; on an empty source the reader has no bit to deliver. -/
theorem openReader : Obligations.OpenReader := by
  refine ⟨fun s hs hbr hok => exec_brOpen_ok hs hbr hok, fun s hs hbr hfail => ?_, fun s hs hbr hn hempty => ?_⟩
  · exact (Acts.brOpenBody.fails (op := 0x00) (by decide) hs (brOpenChecks_of_closed hbr) (brOpenBody_fail hfail) :)
  · have hd := s.readerOpened_delivers hn
    rw [hempty] at hd
    obtain ⟨u, hu, -, -⟩ := hd.readBit_end
    exact ⟨_, _, exec_brOpen_ok hs hbr hn.next, exec_brReadBit_of_none hs rfl hu, rfl⟩

/-- Settles O22, by the first bit to deliver, if any, and by which fetch of the refill fails. -/
theorem readBitDelivers : Obligations.ReadBitDelivers := by
  refine ⟨fun s hs hbr hcur hn => ⟨fun b rest hbits => ?_, fun hbits hcor => ?_, fun hbits hcor => ?_⟩,
    fun s hs hbr hb heof hfail => ?_, fun s answers hs hbr hb hla hpos ha => ?_⟩
  · obtain ⟨t, ht, -, hd⟩ := Delivers.readBit_cons ⟨hn, hcur, hbits, rfl⟩
    have hx := exec_brReadBit_of_some hs hbr ht
    have ha : Answers (t.respond 0x00 (BitVec.ofNat 64 b.toNat)) 0x00 b.toNat := rfl
    exact ⟨_, hx, ha, hd.bits, hd.corrupt, hd.cursor, ha.frame hs hx⟩
  · obtain ⟨t, ht, -, hd⟩ := Delivers.readBit_end ⟨hn, hcur, hbits, hcor⟩
    have hx := exec_brReadBit_of_none hs hbr ht
    have ha : Answers (t.respond 0x01 0) 0x01 0 := rfl
    obtain ⟨hnone, heof⟩ := readBit_none ht
    exact ⟨_, hx, ha, hd.bits, hnone, heof, hd.cursor, ha.frame hs hx⟩
  · obtain ⟨u, hu⟩ := Delivers.readBit_corrupt ⟨hn, hcur, hbits, hcor⟩
    obtain ⟨t, hx, hfails, hmem⟩ := exec_brReadBit_of_error hs hbr hu
    exact ⟨t, hx, hfails, by rw [hmem]; exact Acts.readBit.snkData_of_error (by decide) hu⟩
  · exact (exec_brReadBit_of_error hs hbr (readBit_first_fetch_fails hb heof hfail) :)
  · obtain ⟨u, hu, hmem⟩ := readBit_second_fetch_fails hb hla hpos ha
    obtain ⟨t, hx, hfails, ht⟩ := exec_brReadBit_of_error hs hbr hu
    exact ⟨t, hx, hfails, ht.trans hmem⟩

/-! ### `BR.READBITS` (R74) -/

theorem brReadBitsChecks_of_open {n : BitVec 8} (h : s.br.isOpen = true) (h₁ : 1 ≤ n.toNat) (h₃₂ : n.toNat ≤ 32) :
    firstFailed (brReadBitsChecks n s) = none := by
  simp [brReadBitsChecks, needReaderOpen, argCount, bitCountOk, nbitsMin, nbitsMax, firstFailed, h, h₁, h₃₂]

/-- The valid bits of `BR.cur` not yet read. -/
def BitReader.atHand (r : BitReader) : Nat := if r.hasBits then r.lim.toNat - r.pos.toNat else 0

theorem BitReader.atHand_advance {r : BitReader} (hcur : CursorInv r) (h : r.hasBits = true) :
    r.advance.atHand + 1 = r.atHand := by
  obtain ⟨hlt, hle⟩ := hcur.1 h
  unfold BitReader.advance BitReader.atHand
  split
  · simp only [Bool.false_eq_true, if_false]
    omega
  · have hpos : (r.pos + 1).toNat = r.pos.toNat + 1 := by
      rw [BitVec.toNat_add]
      simp
      omega
    simp only [hpos]
    omega

theorem cursorInv_advance (hcur : CursorInv s.br) (h : s.br.hasBits = true) : CursorInv s.br.advance :=
  (advance_bits hcur h).2.1

theorem readBitsFrom_some {n g v : Nat} {b : Bool} (h : readBit s = .ok (some b) t) :
    readBitsFrom (n + 1) g v s = readBitsFrom n (g + 1) (shiftIn v b) t := by simp [readBitsFrom, h]

theorem readBitsFrom_error {n g v : Nat} {e : Stop} (h : readBit s = .error e t) :
    readBitsFrom (n + 1) g v s = .error e t := by simp [readBitsFrom, h]

/-- A read that takes the lookahead byte as the current byte, with another byte fetched behind it: 7 bits are left. -/
theorem readBit_takes_byte (hbits : s.br.hasBits = false) (hr : refill s = takeLookahead u) (hok : NextAnswerOk u)
    (hpos : u.mem.srcPos < u.mem.srcData.length) :
    ∃ b t, readBit s = .ok (some b) t ∧ CursorInv t.br ∧ t.br.laSt = .byte ∧ t.br.atHand = 7 ∧
      t.answers = u.answers.tail ∧ t.mem = { u.mem with srcPos := u.mem.srcPos + 1 } := by
  have htake := takeLookahead_byte hok (List.getElem?_eq_getElem hpos)
  refine ⟨_, _, readBit_of_refill_bits hbits (hr.trans htake) rfl, ?_, rfl, rfl, rfl, rfl⟩
  exact cursorInv_advance (s := { u.fetched _ with br := _ }) (by simp [CursorInv]) rfl

/-- The bytes `j` more fetches make current: all but the lookahead's own, when none was fetched yet. -/
def BitReader.bytesTaken (r : BitReader) (j : Nat) : Nat := if r.laSt = .none then j - 1 else j

/-- `ReadBits` runs into the fetch that fails after `j` that succeed, when the bits at hand and those of the bytes taken do
not suffice (R74, R162). -/
theorem readBitsFrom_fetch_fails {answers : List PortAnswer} (n : Nat) {s : State} {j : Nat} (g v : Nat)
    (hcur : CursorInv s.br) (heof : s.br.laSt ≠ .eof) (ha : s.answers = List.replicate j .ok ++ .ioFail :: answers)
    (hpos : s.mem.srcPos + j ≤ s.mem.srcData.length) (hfew : s.br.atHand + 8 * s.br.bytesTaken j < n) :
    ∃ t, readBitsFrom n g v s = .error (.raise ⟨.ioFailure, 2⟩) t ∧
      t.mem = { s.mem with srcPos := s.mem.srcPos + j } := by
  induction n generalizing s j g v with
  | zero => omega
  | succ n ih =>
    cases hbits : s.br.hasBits with
    | true =>
      have hla : s.br.advance.laSt = s.br.laSt := (advance_bits hcur hbits).2.2.1
      have hhand := BitReader.atHand_advance hcur hbits
      rw [readBitsFrom_some (readBit_of_bits hbits)]
      refine ih (s := { s with br := s.br.advance }) _ _ (cursorInv_advance hcur hbits) (by rw [hla]; exact heof) ha hpos ?_
      simp only [BitReader.bytesTaken, hla] at hfew ⊢
      omega
    | false =>
      have hhand : s.br.atHand = 0 := by simp [BitReader.atHand, hbits]
      cases j with
      | zero =>
        have hfail : NextAnswerFails s := by simp [NextAnswerFails, ha]
        exact ⟨_, readBitsFrom_error (readBit_first_fetch_fails hbits heof hfail), rfl⟩
      | succ j =>
        have hok : NextAnswerOk s := by simp [NextAnswerOk, ha, List.replicate_succ]
        have hlt : s.mem.srcPos < s.mem.srcData.length := by omega
        cases hla : s.br.laSt with
        | eof => exact absurd hla heof
        | byte =>
          obtain ⟨b, t, hread, hcur', hla', hhand', hans', hmem'⟩ :=
            readBit_takes_byte hbits (refill_of_byte hla) hok hlt
          rw [readBitsFrom_some hread]
          simp only [BitReader.bytesTaken, hla, reduceCtorEq, if_false] at hfew
          obtain ⟨u, hu, hmem⟩ := ih (s := t) (j := j) (g + 1) (shiftIn v b) hcur' (by simp [hla'])
            (by rw [hans', ha]; rfl) (by rw [hmem']; dsimp only; omega)
            (by simp only [BitReader.bytesTaken, hla', hhand', reduceCtorEq, if_false]; omega)
          exact ⟨u, hu, by rw [hmem, hmem']; simp only [Nat.add_assoc, Nat.add_comm 1 j]⟩
        | none =>
          cases j with
          | zero =>
            obtain ⟨t, ht, hmem⟩ := readBit_second_fetch_fails hbits hla hlt ha
            exact ⟨t, readBitsFrom_error ht, hmem⟩
          | succ j =>
            have hr : refill s = takeLookahead (s.fetched _) := refill_of_none hla hok (List.getElem?_eq_getElem hlt)
            obtain ⟨b, t, hread, hcur', hla', hhand', hans', hmem'⟩ := readBit_takes_byte hbits hr
              (by simp [NextAnswerOk, State.fetched, ha, List.replicate_succ]) (by simp only [State.fetched]; omega)
            rw [readBitsFrom_some hread]
            simp only [BitReader.bytesTaken, hla, if_true] at hfew
            obtain ⟨u, hu, hmem⟩ := ih (s := t) (j := j) (g + 1) (shiftIn v b) hcur' (by simp [hla'])
              (by rw [hans', State.fetched, ha]; rfl) (by rw [hmem']; simp only [State.fetched]; omega)
              (by simp only [BitReader.bytesTaken, hla', hhand', reduceCtorEq, if_false]; omega)
            refine ⟨u, hu, ?_⟩
            rw [hmem, hmem']
            simp only [State.fetched, Memory.mk.injEq, true_and, and_true]
            omega

theorem exec_brReadBits_of_error {n : BitVec 8} {c : Cause} (hs : Ready s) (hbr : s.br.isOpen = true) (h₁ : 1 ≤ n.toNat)
    (h₃₂ : n.toNat ≤ 32) (hr : readBits n.toNat s = .error (.raise c) u) :
    ∃ t, exec (.brReadBits n) s = .next t ∧ FailedDuring s t 0 0x02 c.kind.code c.info ∧ t.mem = u.mem :=
  (Acts.brReadBitsBody n).fails (op := 0x02) (f := readerCells) (by decide) hs (brReadBitsChecks_of_open hbr h₁ h₃₂) (bind_error hr)

theorem brReadBitsBody_value {n : BitVec 8} {v : Nat} (h : readBits n.toNat s = .ok (.value v) t) :
    brReadBitsBody n s = .ok (result v) t := by simp [brReadBitsBody, h]

theorem brReadBitsBody_of_eos {n : BitVec 8} {g : Nat} (h : readBits n.toNat s = .ok (.eos g) t) :
    brReadBitsBody n s = .ok ⟨.eos, BitVec.ofNat 64 g⟩ t := by simp [brReadBitsBody, h]

/-- Settles O23, by whether enough bits are to be delivered, and by the fetch that fails. -/
theorem readBitsDelivers : Obligations.ReadBitsDelivers := by
  refine ⟨fun s n hs hbr hcur hn h₁ h₃₂ => ⟨fun hlen => ?_, fun hlen hcor => ?_, fun hlen hcor => ?_⟩,
    fun s n j answers hs hbr hcur h₁ h₃₂ heof ha hpos hfew => ?_⟩
  · obtain ⟨t, ht, -, hcur', hbits, hcor⟩ := readBits_value hn hcur hlen
    have hx := command_returns (op := 0x02) hs.1 (brReadBitsChecks_of_open hbr h₁ h₃₂) (brReadBitsBody_value ht)
    have ha : Answers (t.respond 0x00 (BitVec.ofNat 64 (val (s.bitsToRead.take n.toNat)))) 0x00 _ := rfl
    exact ⟨_, hx, ha, hbits, hcor, hcur', ha.frame hs hx⟩
  · obtain ⟨t, ht, -, hcur', hbits, -, hnone, heof⟩ := readBits_eos hn hcur hlen hcor
    have hx := command_returns (op := 0x02) hs.1 (brReadBitsChecks_of_open hbr h₁ h₃₂) (brReadBitsBody_of_eos ht)
    have ha : Answers (t.respond 0x01 (BitVec.ofNat 64 s.bitsToRead.length)) 0x01 _ := rfl
    exact ⟨_, hx, ha, hbits, hnone, heof, hcur', ha.frame hs hx⟩
  · obtain ⟨u, hu, -⟩ := readBits_corrupt hn hcur hlen hcor
    obtain ⟨t, hx, hfails, hmem⟩ := exec_brReadBits_of_error hs hbr h₁ h₃₂ hu
    exact ⟨t, hx, hfails, by rw [hmem]; exact (Acts.readBits _).snkData_of_error (by decide) hu⟩
  · obtain ⟨u, hu, hmem⟩ := readBitsFrom_fetch_fails n.toNat 0 0 hcur heof ha hpos hfew
    obtain ⟨t, hx, hfails, ht⟩ := exec_brReadBits_of_error hs hbr h₁ h₃₂ hu
    exact ⟨t, hx, hfails, ht.trans hmem⟩

/-! ### What a reader delivers (R76) -/

theorem responses_cons {is : List Instr} (h : exec i s = .next t) :
    responses (i :: is) s = (responses is t).map (t.rsp :: ·) := by
  simp [responses, h]

theorem responses_readBits (hs : Ready s) (hbr : s.br.isOpen = true) (hd : Delivers s bits corrupt) :
    responses (List.replicate (bits.length + 1) .brReadBit) s =
      some ((bits.map fun b => packRsp 0x00 (BitVec.ofNat 64 b.toNat)) ++
        [if corrupt then packRsp 0x82 7 else packRsp 0x01 0]) := by
  induction bits generalizing s with
  | nil =>
    cases corrupt with
    | false =>
      obtain ⟨t, ht, -, -⟩ := hd.readBit_end
      exact responses_cons (is := []) (exec_brReadBit_of_none hs hbr ht)
    | true =>
      obtain ⟨u, hu⟩ := hd.readBit_corrupt
      obtain ⟨t, hx, ⟨-, hrsp, -⟩, -⟩ := exec_brReadBit_of_error hs hbr hu
      rw [List.length_nil, List.replicate_succ, responses_cons hx, hrsp]
      rfl
  | cons b bits ih =>
    obtain ⟨t, ht, -, hd'⟩ := hd.readBit_cons
    have hu := Acts.readBit.ok ht
    have hbr' : t.br.isOpen = true := Eq.trans (hu.same .readerOpen (by decide)) hbr
    rw [List.length_cons, List.replicate_succ, responses_cons (exec_brReadBit_of_some hs hbr ht),
      ih (s := t.respond _ _) (hu.ready (by decide) hs) hbr' (hd'.respond _ _)]
    rfl

/-- Settles O26: the open delivers the valid bits of the source, and each read the next of them. -/
theorem readerDeliversValidBits : Obligations.ReaderDeliversValidBits := by
  intro s hs hbr hn
  rw [responses_cons (exec_brOpen_ok hs hbr hn.next), responses_readBits (s := s.readerOpened) hs rfl (s.readerOpened_delivers hn)]
  rfl

/-! ### `BW.OPEN` (R78) and `BW.WRITEBITS` (R80) -/

theorem exec_bwOpen (s : State) : exec .bwOpen s = command 0x04 bwOpenChecks bwOpenBody s := rfl

theorem bwOpenBody_fail (h : NextAnswerFails s) :
    bwOpenBody s = .error (.raise ⟨.ioFailure, 3⟩) { s with answers := s.answers.tail } := by
  simp [bwOpenBody, sinkOpen, portAccess_fail _ h]

/-- The state after `BW.OPEN`. -/
def State.writerOpened (s : State) : State :=
  { s with bw := { isOpen := true, acc := 0, k := 0 }, mem := { s.mem with snkData := [] }, answers := s.answers.tail,
           rsp := packRsp 0x00 0 }

theorem exec_bwOpen_ok (hs : Ready s) (hbw : s.bw.isOpen = false) (hok : NextAnswerOk s) :
    exec .bwOpen s = .next s.writerOpened := by
  rw [exec_bwOpen, command_returns hs.1 (bwOpenChecks_of_closed hbw) (bwOpenBody_ok hok)]
  rfl

theorem State.writerOpened_accepted (hn : NoIoFail s) : Accepted s.writerOpened [] :=
  ⟨hn.mono (List.tail_suffix _), by simp [State.writerOpened, AccInv],
    by simp [State.writerOpened, State.bitsWritten, BitWriter.pending, streamBits, bitsOf]⟩

/-- Settles O27, by the one port access of the open. -/
theorem openWriter : Obligations.OpenWriter :=
  ⟨fun _ hs hbw hok => exec_bwOpen_ok hs hbw hok, fun _ hs hbw hfail =>
    (Acts.bwOpenBody.fails (op := 0x04) (by decide) hs (bwOpenChecks_of_closed hbw) (bwOpenBody_fail hfail) :)⟩

theorem exec_bwWriteBits (n : BitVec 8) (value : BitVec 64) (s : State) :
    exec (.bwWriteBits n value) s = command 0x06 (bwWriteBitsChecks n value) (bwWriteBitsBody n value) s := rfl

theorem bwWriteBitsChecks_of_open {n : BitVec 8} {value : BitVec 64} (h : s.bw.isOpen = true) (h₁ : 1 ≤ n.toNat)
    (h₃₂ : n.toNat ≤ 32) (hv : value.toNat < 2 ^ n.toNat) : firstFailed (bwWriteBitsChecks n value s) = none := by
  simp [bwWriteBitsChecks, needWriterOpen, argCount, argValue, bitCountOk, valueFits, nbitsMin, nbitsMax, firstFailed, h,
    h₁, h₃₂, hv]

theorem Accepted.respond (h : Accepted s bits) (c : Byte) (r : Wide) : Accepted (s.respond c r) bits :=
  ⟨h.noIoFail, h.acc, h.bits⟩

/-- A write command answers `OK` and the writer has accepted its bits; the writer stays open and the block ready. -/
structure Wrote (i : Instr) (s t : State) (bits : List Bool) : Prop where
  next : exec i s = .next t
  answers : t.rsp = packRsp 0x00 0
  accepted : Accepted t bits
  isOpen : t.bw.isOpen = true
  ready : Ready t
  params : t.params = s.params

theorem Wrote.of_body {op : Byte} {checks : State → Checks} {body : M Response} (hexec : exec i s = command op checks body s)
    (hs : Ready s) (hopen : s.bw.isOpen = true) (hc : firstFailed (checks s) = none) (hacts : Acts writerCells body)
    (hb : body s = .ok done t) (h : Accepted t bits) : Wrote i s (t.respond 0x00 0) bits where
  next := by
    rw [hexec, command_returns hs.1 hc hb]
    rfl
  answers := rfl
  accepted := h.respond _ _
  isOpen := Eq.trans ((hacts.ok hb).same .writerOpen (by decide)) hopen
  ready := (hacts.ok hb).ready (by decide) hs
  params := (hacts.ok hb).params

theorem exec_bwWriteBits_wrote {n : BitVec 8} {value : BitVec 64} (hs : Ready s) (hopen : s.bw.isOpen = true)
    (h : Accepted s bits) (h₁ : 1 ≤ n.toNat) (h₃₂ : n.toNat ≤ 32) (hv : value.toNat < 2 ^ n.toNat) :
    ∃ t, Wrote (.bwWriteBits n value) s t (bits ++ bitsOf n.toNat value.toNat) := by
  obtain ⟨t, ht, -, hacc⟩ := h.writeBitList (bitsOf n.toNat value.toNat)
  exact ⟨_, .of_body (exec_bwWriteBits n value s) hs hopen (bwWriteBitsChecks_of_open hopen h₁ h₃₂ hv)
    (Acts.bwWriteBitsBody n value) (bind_ok ht) hacc⟩

theorem exec_bwWriteBit_wrote {bit : BitVec 8} (hs : Ready s) (hopen : s.bw.isOpen = true)
    (h : Accepted s bits) (hbit : bit.toNat ≤ 1) : ∃ t, Wrote (.bwWriteBit bit) s t (bits ++ [bit.getLsbD 0]) := by
  obtain ⟨t, ht, -, hacc⟩ := h.writeBit (bitOperand bit)
  exact ⟨_, .of_body (exec_bwWriteBit bit s) hs hopen (bwWriteBitChecks_of_open hopen hbit)
    (Acts.bwWriteBitBody bit) (bwWriteBitBody_ok ht) hacc⟩

/-- Settles O29: the writer accepts the bits of the value behind those before. -/
theorem writeBitsAppends : Obligations.WriteBitsAppends := by
  intro s n value hs hopen hw hn h₁ h₃₂ hv
  obtain ⟨t, ht⟩ := exec_bwWriteBits_wrote hs hopen ⟨hn, hw hopen, rfl⟩ h₁ h₃₂ hv
  have ha : Answers t 0x00 0 := ht.answers
  exact ⟨t, ht.next, ha, fun _ => ht.accepted.acc, ht.accepted.bits, ha.frame hs ht.next⟩

/-! ### What a writer produces (R83) -/

theorem exec_wrote_of_writtenBits {more : List Bool} (hs : Ready s) (hopen : s.bw.isOpen = true) (h : Accepted s bits)
    (hi : writtenBits i = some more) : ∃ t, Wrote i s t (bits ++ more) := by
  unfold writtenBits at hi
  split at hi
  · rename_i bit
    split at hi <;> cases hi
    exact exec_bwWriteBit_wrote hs hopen h (by assumption)
  · rename_i n value
    split at hi <;> cases hi
    rename_i hrange
    obtain ⟨h₁, h₃₂, hv⟩ := hrange
    exact exec_bwWriteBits_wrote hs hopen h h₁ h₃₂ hv
  · cases hi

theorem exec_bwClose_ok (hs : Ready s) (hopen : s.bw.isOpen = true) (h : Accepted s bits) :
    ∃ t, exec .bwClose s = .next t ∧ t.rsp = packRsp 0x00 0 ∧ t.mem.snkData = packBits s.params.padOnAligned bits := by
  refine ⟨_, command_returns (op := 0x07) hs.1 (bwCloseChecks_of_open hopen) (bwCloseBody_ok h.noIoFail), rfl, ?_⟩
  rw [← h.bits, packBits_bitsWritten h.acc]
  rfl

/-- In-range writes and the close, from an open writer: every response is `(OK, 0)`, and the sink is the packed bits. -/
theorem runAll_writes {writes : List Instr} (hs : Ready s) (hopen : s.bw.isOpen = true) (h : Accepted s bits)
    (hwrites : ∀ i ∈ writes, (writtenBits i).isSome) :
    ∃ t, runAll (writes ++ [.bwClose]) s = .next t ∧
      t.mem.snkData = packBits s.params.padOnAligned (bits ++ writes.flatMap fun i => (writtenBits i).getD []) ∧
      responses (writes ++ [.bwClose]) s = some (List.replicate (writes.length + 1) (packRsp 0x00 0)) := by
  induction writes generalizing s bits with
  | nil =>
    obtain ⟨t, hx, hrsp, hsnk⟩ := exec_bwClose_ok hs hopen h
    refine ⟨t, runAll_cons_of_next hx, by simpa using hsnk, ?_⟩
    rw [List.nil_append, responses_cons hx, hrsp]
    rfl
  | cons i writes ih =>
    obtain ⟨more, hmore⟩ := Option.isSome_iff_exists.mp (hwrites i List.mem_cons_self)
    obtain ⟨t, ht⟩ := exec_wrote_of_writtenBits hs hopen h hmore
    obtain ⟨u, hrun, hsnk, hresp⟩ := ih ht.ready ht.isOpen ht.accepted fun j hj => hwrites j (List.mem_cons_of_mem _ hj)
    refine ⟨u, (runAll_cons_of_next ht.next).trans hrun, ?_, ?_⟩
    · rw [hsnk, ht.params, List.flatMap_cons, hmore, Option.getD_some, List.append_assoc]
    · rw [List.cons_append, responses_cons ht.next, hresp, ht.answers]
      rfl

/-- Settles O33: the open empties the sink, and the writes and the close leave the packed bits. -/
theorem writerProducesPackedBits : Obligations.WriterProducesPackedBits := by
  intro s writes hs hbw hn hwrites
  have hopen := exec_bwOpen_ok hs hbw hn.next
  obtain ⟨t, hrun, hsnk, hresp⟩ := runAll_writes (s := s.writerOpened) hs rfl (s.writerOpened_accepted hn) hwrites
  refine ⟨t, (runAll_cons_of_next hopen).trans hrun, hsnk, ?_⟩
  rw [List.cons_append, responses_cons hopen, hresp]
  rfl

end Sys2Proof.Machine
end

