-- ==== Sys2Proof/Proofs/UnitCommands.lean ====
section
/-! PROOF. The queue's insertion and extraction (R92, R93), nodes made by hand (R101, R102) and the seeding commands (R130,
R131, R135): each is one update of its unit. -/

namespace Sys2Proof.Machine

variable {s t : State} {i : Instr}

/-! ### The queue (R92, R93) -/

theorem pqInsertChecks_of_created {item : BitVec 64} (hq : s.pq.created = true) (hitem : item.toNat < s.huf.nodes.length)
    (hroom : s.params.pqCap.all (s.pq.heap.length < ·) = true) : firstFailed (pqInsertChecks item s) = none := by
  rw [← hasRoom_eq_all] at hroom
  simp [pqInsertChecks, needQueue, argItem, needHeapRoom, firstFailed, Huffman.nnodes, Queue.size, hq, hitem, hroom]

/-- Settles O35: the heap functions add and remove one element. -/
theorem queueAddsAndRemoves : Obligations.QueueAddsAndRemoves := by
  refine ⟨fun s item hs hq hcmp hitem hroom => ?_, fun s m rest hs hq hcmp hh => ?_⟩
  · exact ⟨_, exec_pqInsert_ok hs hcmp (pqInsertChecks_of_created hq hitem hroom), heapInsert_perm _ _ _, rfl⟩
  · exact ⟨_, exec_pqExtractMin_ok hs hq hcmp hh, heapRemoveRoot_perm _ m rest, rfl⟩

/-- Settles O38: the heaps left are those of the two heap functions, whose loops run to their ends. -/
theorem siftLoopsRunToTheirEnd : Obligations.SiftLoopsRunToTheirEnd := by
  refine ⟨fun s item hs hq hcmp hitem hroom => ?_, fun s m last mid hs hq hcmp hh => ?_, fun s m hs hq hcmp hh => ?_,
    heapInsert_siftsUp, heapRemoveRoot_siftsDown⟩
  · exact ⟨_, exec_pqInsert_ok hs hcmp (pqInsertChecks_of_created hq hitem hroom), rfl, heapInsert_siftsUp _ _ _⟩
  · exact ⟨_, exec_pqExtractMin_ok hs hq hcmp hh, rfl, heapRemoveRoot_siftsDown _ m last mid⟩
  · exact ⟨_, exec_pqExtractMin_ok hs hq hcmp hh, rfl, rfl⟩

/-! ### Nodes by hand (R101, R102) -/

/-- The first precondition that fails (R174), in the form a command's refusal is used in. -/
theorem exec_refused {cause info : Byte} (hs : Ready s)
    (h : (preconditions i s).find? (fun p => !p.1) = some (false, cause, info)) :
    exec i s = .next (s.refused i.opcode cause info) := by
  obtain ⟨-, before, after, hrows, hbefore⟩ := List.find?_eq_some_iff_append.mp h
  exact firstFailedPrecondition i s before after cause info hs hrows fun p hp => by simpa using hbefore p hp

theorem weightAt_of_getElem? {k : Nat} {n : Node} (h : s.huf.nodes[k]? = some n) : weightAt s k = n.weight := by
  simp [weightAt, h]

theorem exec_hufMkLeaf_ok {byte : BitVec 8} {weight : BitVec 64} (hs : Ready s)
    (hfits : s.params.freqW.all (weight.toNat < 2 ^ ·) = true)
    (hroom : s.params.nodeCap.all (s.huf.nodes.length < ·) = true) :
    exec (.hufMkLeaf byte weight) s =
      .next { s with huf := { s.huf with nodes := s.huf.nodes ++ [Node.mk (.leaf byte) weight.toNat] },
                     rsp := packRsp 0x00 (BitVec.ofNat 64 s.huf.nodes.length) } := by
  rw [← fitsFreq_eq_all] at hfits
  rw [← hasRoom_eq_all] at hroom
  have hc : firstFailed (hufMkLeafChecks weight s) = none := by
    simp [hufMkLeafChecks, argWeight, needArenaRoom, firstFailed, Huffman.nnodes, hfits, hroom]
  have hb : hufMkLeafBody byte weight s = .ok (result s.huf.nodes.length) { s with
      huf := { s.huf with nodes := s.huf.nodes ++ [Node.mk (.leaf byte) weight.toNat] } } := by
    simp only [hufMkLeafBody, mkLeaf, bind_apply, allocNode_ok _ hroom, pure_apply]
  exact (command_returns (op := 0x41) hs.1 hc hb :)

theorem exec_hufMkNode_ok {left right : BitVec 16} {nl nr : Node} (hs : Ready s)
    (hl : s.huf.nodes[left.toNat]? = some nl) (hr : s.huf.nodes[right.toNat]? = some nr)
    (hfits : s.params.freqW.all (nl.weight + nr.weight < 2 ^ ·) = true)
    (hroom : s.params.nodeCap.all (s.huf.nodes.length < ·) = true) :
    exec (.hufMkNode 0 left right) s =
      .next { s with huf := { s.huf with nodes := s.huf.nodes ++
                                [Node.mk (.internal left.toNat right.toNat) (nl.weight + nr.weight)] },
                     rsp := packRsp 0x00 (BitVec.ofNat 64 s.huf.nodes.length) } := by
  have hlt : left.toNat < s.huf.nodes.length := (List.getElem?_eq_some_iff.mp hl).1
  have hrt : right.toNat < s.huf.nodes.length := (List.getElem?_eq_some_iff.mp hr).1
  rw [← fitsFreq_eq_all] at hfits
  rw [← hasRoom_eq_all] at hroom
  have hwl := weightAt_of_getElem? hl
  have hwr := weightAt_of_getElem? hr
  have hc : firstFailed (hufMkNodeChecks 0 left right s) = none := by
    simp [hufMkNodeChecks, argChildren, argSum, needArenaRoom, firstFailed, Huffman.nnodes, hlt, hrt, hwl, hwr, hfits, hroom]
  have hmk : mkNode left.toNat right.toNat s = allocNode ⟨.internal left.toNat right.toNat, nl.weight + nr.weight⟩ s := by
    simp [mkNode, hwl, hwr, hfits]
  have hb : hufMkNodeBody left right s = .ok (result s.huf.nodes.length) { s with
      huf := { s.huf with nodes := s.huf.nodes ++
        [Node.mk (.internal left.toNat right.toNat) (nl.weight + nr.weight)] } } := by
    simp only [hufMkNodeBody, bind_apply, hmk, allocNode_ok _ hroom, pure_apply]
  exact (command_returns (op := 0x42) hs.1 hc hb :)

/-- Settles O40: the refusals are the preconditions in their order, and a node is allocated when none fails. -/
theorem makeNodesByHand : Obligations.MakeNodesByHand := by
  refine ⟨fun s byte weight hs => ⟨fun hfits => ?_, fun hfits hroom => ?_, fun hfits hroom => exec_hufMkLeaf_ok hs hfits hroom⟩,
    fun s upper left right hs => ⟨fun hrange => ?_, fun nl nr hupper hl hr => ?_⟩⟩
  · exact exec_refused hs (by simp [preconditions, hfits])
  · exact exec_refused hs (by simp [preconditions, hfits, hroom])
  · have hbad : (decide (upper.toNat = 0) && decide (left.toNat < s.huf.nodes.length) &&
        decide (right.toNat < s.huf.nodes.length)) = false := by
      rw [← bitVec_beq_zero]
      rcases hrange with h | h | h
      · rw [beq_eq_false_iff_ne.mpr h, Bool.false_and, Bool.false_and]
      · simp [Nat.not_lt.mpr h]
      · simp [Nat.not_lt.mpr h]
    exact exec_refused hs (by simp [preconditions, hbad])
  · subst hupper
    have hlt : left.toNat < s.huf.nodes.length := (List.getElem?_eq_some_iff.mp hl).1
    have hrt : right.toNat < s.huf.nodes.length := (List.getElem?_eq_some_iff.mp hr).1
    have hwl := weightAt_of_getElem? hl
    have hwr := weightAt_of_getElem? hr
    refine ⟨fun hfits => ?_, fun hfits hroom => ?_, fun hfits hroom => exec_hufMkNode_ok hs hl hr hfits hroom⟩
    · exact exec_refused hs (by simp [preconditions, hlt, hrt, hwl, hwr, hfits])
    · exact exec_refused hs (by simp [preconditions, hlt, hrt, hwl, hwr, hfits, hroom])

/-! ### The seeded dictionaries (R130, R131, R135) -/

theorem seedDictionary_getElem? (b : Byte) : seedDictionary[b.toNat]? = some [b] := by
  simp [seedDictionary, allBytes, b.isLt]

/-- Settles O54: each command is one update of its half of the codec. -/
theorem seedDictionaries : Obligations.SeedDictionaries := by
  refine ⟨fun s hs => ⟨?_, ?_⟩, seedDictionary_length, seedDictionary_getElem?⟩
  · exact command_returns (op := 0x60) (checks := lzwEncResetChecks) hs.1 rfl (lzwEncResetBody_apply s)
  · exact command_returns (op := 0x63) (checks := lzwDecResetChecks) hs.1 rfl (lzwDecResetBody_apply s)

end Sys2Proof.Machine
end

