-- ==== Sys2Proof/Proofs/SafeRuns.lean ====
section
/-! PROOF. Runs that keep a property and reach no stop of the model. `Safe P m Q`: from a state with `P`, the operation `m`
reaches no stop, and when it returns, what it returns and the state reached have `Q`; nothing is said of a raise. -/

namespace Sys2Proof.Machine

variable {s t : State} {f : List Cell} {α β : Type}

structure Safe (P : State → Prop) (m : M α) (Q : α → State → Prop) : Prop where
  ok : ∀ {s a t}, P s → m s = .ok a t → Q a t
  notStuck : ∀ {s why t}, P s → m s ≠ .error (.stuck why) t

namespace Safe

variable {P P' R : State → Prop} {m : M α} {k : α → M β} {Q Q' : α → State → Prop} {T : β → State → Prop}

theorem bind (hm : Safe P m Q) (hk : ∀ a, Safe (Q a) (k a) T) : Safe P (m >>= k) T := by
  refine ⟨fun {s b u} hs h => ?_, fun {s why u} hs h => ?_⟩ <;> rw [bind_apply] at h <;> split at h <;> rename_i hms
  · exact (hk _).ok (hm.ok hs hms) h
  · cases h
  · exact (hk _).notStuck (hm.ok hs hms) h
  · cases h
    exact hm.notStuck hs hms

theorem mono (hm : Safe P m Q) (hP : ∀ s, P' s → P s) (hQ : ∀ a t, Q a t → Q' a t) : Safe P' m Q' :=
  ⟨fun hs h => hQ _ _ (hm.ok (hP _ hs) h), fun hs => hm.notStuck (hP _ hs)⟩

theorem pre (hm : Safe P m Q) (hP : ∀ s, P' s → P s) : Safe P' m Q := hm.mono hP fun _ _ h => h

theorem post (hm : Safe P m Q) (hQ : ∀ a t, Q a t → Q' a t) : Safe P m Q' := hm.mono (fun _ h => h) hQ

theorem pure {a : α} (h : ∀ s, P s → Q a s) : Safe P (pure a) Q :=
  ⟨by rintro s _ _ hs ⟨⟩; exact h s hs, by rintro s _ _ - ⟨⟩⟩

theorem change {v : State → State} {Q : Unit → State → Prop} (h : ∀ s, P s → Q () (v s)) : Safe P (change v) Q :=
  ⟨by rintro s _ _ hs ⟨⟩; exact h s hs, by rintro s _ _ - ⟨⟩⟩

theorem raise {kind : CauseKind} {info : Byte} : Safe P (raise kind info) Q :=
  ⟨by rintro s _ _ - ⟨⟩, by rintro s _ _ - ⟨⟩⟩

/-- A branch that is not taken. -/
theorem unreached (h : ∀ s, ¬ P s) : Safe P m Q := ⟨fun hs => absurd hs (h _), fun hs => absurd hs (h _)⟩

/-- What was looked up is known afterwards. -/
theorem look_bind {v : State → α} (hk : ∀ a, Safe (fun s => P s ∧ v s = a) (k a) T) : Safe P (look v >>= k) T :=
  ⟨fun {s _ _} hs h => (hk (v s)).ok ⟨hs, rfl⟩ h, fun {s _ _} hs h => (hk (v s)).notStuck ⟨hs, rfl⟩ h⟩

theorem ite {p : Prop} [Decidable p] {a b : M α} (ha : p → Safe P a Q) (hb : ¬ p → Safe P b Q) :
    Safe P (if p then a else b) Q := by
  split
  · exact ha ‹_›
  · exact hb ‹_›

/-- What a state has beforehand can be named. -/
theorem named (v : State → β) (h : ∀ b, Safe (fun s => P s ∧ v s = b) m Q) : Safe P m Q :=
  ⟨fun {s _ _} hs hm => (h (v s)).ok ⟨hs, rfl⟩ hm, fun {s _ _} hs hm => (h (v s)).notStuck ⟨hs, rfl⟩ hm⟩

/-- An operation whose footprint has no stop. -/
theorem of_acts (ha : Acts f m) (hf : .stops ∉ f) (h : ∀ s a t, P s → m s = .ok a t → Q a t) : Safe P m Q :=
  ⟨fun hs hm => h _ _ _ hs hm, fun _ hm => hf (ha.stopped hm)⟩

/-- A property that the operation's footprint cannot touch. -/
theorem of_within {Q : State → Prop} (ha : Acts f m) (hf : .stops ∉ f) (h : ∀ s t, P s → Within f s t → Q t) :
    Safe P m fun _ t => Q t :=
  of_acts ha hf fun s _ t hs hm => h s t hs (ha.ok hm)

/-- The frame rule: what the footprint cannot touch holds on. -/
theorem frame (hm : Safe P m Q) (ha : Acts f m) (hR : ∀ s t, Within f s t → R s → R t) :
    Safe (fun s => P s ∧ R s) m fun a t => Q a t ∧ R t :=
  ⟨fun hs h => ⟨hm.ok hs.1 h, hR _ _ (ha.ok h) hs.2⟩, fun hs => hm.notStuck hs.1⟩

end Safe

theorem srcNext_some {b : Byte} (h : srcNext s = .ok (some b) t) :
    s.mem.srcPos < s.mem.srcData.length ∧ s.mem.srcData[s.mem.srcPos]? = some b ∧
      t = { s with answers := s.answers.tail, mem := { s.mem with srcPos := s.mem.srcPos + 1 } } := by
  by_cases hok : NextAnswerOk s
  · rcases hb : s.mem.srcData[s.mem.srcPos]? with _ | c
    · rw [srcNext_eof hok hb] at h
      cases h
    · rw [srcNext_byte hok hb] at h
      cases h
      exact ⟨(List.getElem?_eq_some_iff.mp hb).1, rfl, rfl⟩
  · rw [srcNext_fail (not_not.mp hok)] at h
    cases h

theorem srcNext_none (h : srcNext s = .ok none t) :
    s.mem.srcData.length ≤ s.mem.srcPos ∧ t = { s with answers := s.answers.tail } := by
  by_cases hok : NextAnswerOk s
  · rcases hb : s.mem.srcData[s.mem.srcPos]? with _ | c
    · rw [srcNext_eof hok hb] at h
      cases h
      exact ⟨List.getElem?_eq_none_iff.mp hb, rfl⟩
    · rw [srcNext_byte hok hb] at h
      cases h
  · rw [srcNext_fail (not_not.mp hok)] at h
    cases h

/-! ### The loop over the source (R100, R107, R139) -/

/-- The loop's bound suffices: each turn takes a byte of the source. -/
theorem forEachSourceByte_safe {I : State → Prop} {op : Byte → M Unit} (hop : ∀ b, Safe I (op b) fun _ t => I t)
    (hacts : ∀ b, Acts f (op b)) (hpos : .srcPos ∉ f) (hI : ∀ s t, Within [.ports, .srcPos] s t → I s → I t) (fuel : Nat) :
    Safe (fun s => I s ∧ sourceBudget s ≤ fuel) (forEachSourceByte op fuel) fun _ t => I t := by
  induction fuel with
  | zero => exact .unreached fun s hs => absurd hs.2 (by simp [sourceBudget])
  | succ fuel ih =>
    refine .bind (Q := fun v s => I s ∧ ∀ b, v = some b → sourceBudget s ≤ fuel)
      (.of_acts Acts.srcNext (by decide) fun s v t hs h => ⟨hI _ _ (Acts.srcNext.ok h) hs.1, ?_⟩) fun v => ?_
    · rintro b rfl
      obtain ⟨hlt, -, rfl⟩ := srcNext_some h
      simp only [sourceBudget] at hs ⊢
      omega
    · cases v with
      | none => exact .pure fun s hs => hs.1
      | some b =>
        refine (Safe.bind ((hop b).frame (hacts b) (R := fun s => sourceBudget s ≤ fuel) fun s t hu hs => ?_)
          fun _ => ih).pre fun s hs => ⟨hs.1, hs.2 b rfl⟩
        have hsame : t.mem.srcPos = s.mem.srcPos := hu.same .srcPos hpos
        simpa [sourceBudget, hu.srcData, hsame] using hs

/-! ### The queue (R92, R93) and the arena (R101, R102) -/

theorem comparator_safe (Q : (Nat → Nat → Bool) → State → Prop) :
    Safe (fun s => s.pq.cmp = 0 ∧ Q (precedes s) s) comparator Q := by
  refine ⟨fun {s _ t} hs h => ?_, fun {s _ t} hs h => ?_⟩ <;> rw [comparator_ok hs.1] at h <;> cases h
  exact hs.2

theorem pqInsert_safe (item : Nat) (Q : State → Prop) :
    Safe (fun s => s.pq.cmp = 0 ∧ Q { s with pq := { s.pq with heap := heapInsert (precedes s) s.pq.heap item } })
      (pqInsert item) fun _ t => Q t := by
  refine .look_bind fun room => .ite (fun _ => ?_) fun _ => .raise
  exact (Safe.bind (comparator_safe fun lt s => Q { s with pq := { s.pq with heap := heapInsert lt s.pq.heap item } })
    fun lt => .change fun s hs => hs).pre fun s hs => hs.1

theorem pqExtractMin_safe (Q : Nat → State → Prop) :
    Safe (fun s => s.pq.cmp = 0 ∧ ∀ m rest, s.pq.heap = m :: rest →
      Q m { s with pq := { s.pq with heap := heapRemoveRoot (precedes s) (m :: rest) } }) pqExtractMin Q := by
  refine .look_bind fun h => ?_
  cases h with
  | nil => exact .raise
  | cons m rest =>
    exact (Safe.bind
      (comparator_safe fun lt s => Q m { s with pq := { s.pq with heap := heapRemoveRoot lt (m :: rest) } })
      fun lt => .bind (.change (Q := fun _ t => Q m t) fun s hs => hs) fun _ => .pure fun s hs => hs).pre
      fun s hs => ⟨hs.1.1, hs.1.2 m rest hs.2⟩

theorem allocNode_safe (n : Node) (Q : Nat → State → Prop) :
    Safe (fun s => Q s.huf.nodes.length { s with huf := { s.huf with nodes := s.huf.nodes ++ [n] } }) (allocNode n) Q := by
  refine .look_bind fun i => .look_bind fun room => .ite (fun _ => .bind (.change (Q := fun _ t => Q i t) ?_) fun _ =>
    .pure fun s hs => hs) fun _ => .raise
  rintro s ⟨⟨hs, rfl⟩, -⟩
  exact hs

theorem mkNode_safe (l r : Nat) (Q : Nat → State → Prop) :
    Safe (fun s => Q s.huf.nodes.length
        { s with huf := { s.huf with nodes := s.huf.nodes ++ [⟨.internal l r, weightAt s l + weightAt s r⟩] } })
      (mkNode l r) Q := by
  refine .look_bind fun w => .look_bind fun fits => .ite (fun _ => (allocNode_safe _ Q).pre ?_) fun _ => .raise
  rintro s ⟨⟨hs, rfl⟩, -⟩
  exact hs

end Sys2Proof.Machine
end

