-- ==== Sys2Proof/Proofs/BuildInvariant.lean ====
section
/-! PROOF. The invariant of the loops of `HUF.BUILD` (R103, R104). The queue holds exactly the nodes that are no node's
child, in heap order; and every internal node was made of the two lightest nodes then in the queue. Since a node's weight
never changes and a child comes before its parent, what held when a node was made holds on. -/

namespace Sys2Proof.Machine

variable {s t : State} {nodes : List Node} {heap : List Nat} {n l r w m : Nat}

/-! ### Nodes still in the queue -/

/-- Node `m` is no child of a node of the list. -/
def NoChild (nodes : List Node) (m : Nat) : Prop :=
  ∀ (k l r w : Nat), nodes[k]? = some (Node.mk (.internal l r) w) → m ≠ l ∧ m ≠ r

theorem noChild_append_singleton {node : Node} :
    NoChild (nodes ++ [node]) m ↔ NoChild nodes m ∧ ∀ l r, node.kind = .internal l r → m ≠ l ∧ m ≠ r := by
  constructor
  · intro h
    refine ⟨fun k l r w hk => h k l r w ?_, fun l r hkind => h nodes.length l r node.weight ?_⟩
    · rw [List.getElem?_append_left (List.getElem?_eq_some_iff.mp hk).1, hk]
    · rw [List.getElem?_concat_length, ← hkind]
  · rintro ⟨h, hnode⟩ k l r w hk
    rcases Nat.lt_or_ge k nodes.length with hlt | hge
    · exact h k l r w (by rwa [List.getElem?_append_left hlt] at hk)
    · obtain rfl : k = nodes.length := by
        have := (List.getElem?_eq_some_iff.mp hk).1
        simp only [List.length_append, List.length_singleton] at this
        omega
      rw [List.getElem?_concat_length, Option.some.injEq] at hk
      exact hnode l r (by rw [hk])

/-- Only the nodes made before `n` decide what was in the queue when `n` was made. -/
theorem stillQueued_iff_take : StillQueued nodes n m ↔ m < n ∧ NoChild (nodes.take n) m := by
  unfold StillQueued NoChild
  constructor
  · rintro ⟨hm, h⟩
    refine ⟨hm, fun k l r w hk => ?_⟩
    obtain ⟨hlt, -⟩ := List.getElem?_eq_some_iff.mp hk
    have hkn : k < n := by simp only [List.length_take] at hlt; omega
    exact h k l r w hkn (by rwa [List.getElem?_take_of_lt hkn] at hk)
  · rintro ⟨hm, h⟩
    exact ⟨hm, fun k l r w hkn hk => h k l r w (by rwa [List.getElem?_take_of_lt hkn])⟩

theorem stillQueued_append {more : List Node} (hn : n ≤ nodes.length) :
    StillQueued (nodes ++ more) n m ↔ StillQueued nodes n m := by
  rw [stillQueued_iff_take, stillQueued_iff_take, List.take_append_of_le_length hn]

/-- The internal node `n` was made of the two lightest nodes then in the queue, the lighter as its left child. -/
structure Merged (s : State) (nodes : List Node) (n l r w : Nat) : Prop where
  weight : w = weightAt s l + weightAt s r
  left : StillQueued nodes n l
  right : StillQueued nodes n r
  ne : l ≠ r
  left_le : ∀ m, StillQueued nodes n m → weightAt s l ≤ weightAt s m
  right_le : ∀ m, StillQueued nodes n m → m ≠ l → weightAt s r ≤ weightAt s m

theorem Merged.congr (h : Merged s nodes n l r w) (hweight : weightAt t = weightAt s) : Merged t nodes n l r w := by
  obtain ⟨hw, hl, hr, hne, hll, hrl⟩ := h
  rw [← hweight] at hw hll hrl
  exact ⟨hw, hl, hr, hne, hll, hrl⟩

/-- Nodes made later change none of it. -/
theorem Merged.append {more : List Node} (h : Merged s nodes n l r w) (hn : n ≤ nodes.length)
    (hweight : ∀ m, m < n → weightAt t m = weightAt s m) : Merged t (nodes ++ more) n l r w := by
  have hl := hweight l h.left.1
  have hr := hweight r h.right.1
  refine ⟨by rw [hl, hr]; exact h.weight, (stillQueued_append hn).mpr h.left, (stillQueued_append hn).mpr h.right, h.ne,
    fun m hm => ?_, fun m hm hne => ?_⟩
  · rw [hl, hweight m hm.1]
    exact h.left_le m ((stillQueued_append hn).mp hm)
  · rw [hr, hweight m hm.1]
    exact h.right_le m ((stillQueued_append hn).mp hm) hne

/-! ### The invariant -/

/-- Between turns of the loops of R103. -/
structure Building (s : State) : Prop where
  cmp : s.pq.cmp = 0
  nodup : s.pq.heap.Nodup
  queued : ∀ m, m ∈ s.pq.heap ↔ m < s.huf.nodes.length ∧ NoChild s.huf.nodes m
  ordered : HeapArray s s.pq.heap
  merged : ∀ n l r w : Nat, s.huf.nodes[n]? = some (Node.mk (.internal l r) w) → Merged s s.huf.nodes n l r w

theorem Building.arenaOrdered (h : Building s) : ArenaOrdered s.huf.nodes := fun n l r w hn =>
  ⟨(h.merged n l r w hn).left.1, (h.merged n l r w hn).right.1⟩

theorem building_empty (hcmp : s.pq.cmp = 0) (hheap : s.pq.heap = []) (hnodes : s.huf.nodes = []) : Building s :=
  ⟨hcmp, by simp [hheap], by simp [hheap, hnodes], fun k _ hk => by simp [hheap] at hk, fun n l r w h => by simp [hnodes] at h⟩

theorem weightAt_append {more : List Node} (hm : m < s.huf.nodes.length) (ht : t.huf.nodes = s.huf.nodes ++ more) :
    weightAt t m = weightAt s m := by
  rw [weightAt, weightAt, ht, List.getElem?_append_left hm, List.getElem?_eq_getElem hm]

/-- The heap order sees the weights of the elements only. -/
theorem HeapArray.congr (h : HeapArray s heap) (hweight : ∀ m ∈ heap, weightAt t m = weightAt s m) : HeapArray t heap := by
  have hplace : ∀ k, k < heap.length → placeWeight t heap k = placeWeight s heap k := fun k hk => by
    rw [placeWeight, placeWeight, hweight _ (by rw [List.getD_eq_getElem _ _ hk]; exact List.getElem_mem hk)]
  intro k hk hlt
  rw [hplace k hlt, hplace ((k - 1) / 2) (by omega)]
  exact h k hk hlt

/-- The state with a node allocated and put into the queue `heap`. -/
def State.grown (s : State) (heap : List Nat) (node : Node) : State :=
  { s with huf := { s.huf with nodes := s.huf.nodes ++ [node] }, pq := { s.pq with heap := heap } }

/-- A turn: the new node's children leave the queue, the new node enters it. -/
theorem Building.grow {node : Node} (h : Building s) (hnodup : heap.Nodup)
    (hmem : ∀ m, m ∈ heap ↔ m ∈ s.pq.heap ∧ ∀ l r, node.kind = .internal l r → m ≠ l ∧ m ≠ r) (hordered : HeapArray s heap)
    (hmerged : ∀ l r, node.kind = .internal l r → Merged s s.huf.nodes s.huf.nodes.length l r node.weight) :
    Building { s.grown heap node with
      pq := { s.pq with heap := heapInsert (precedes (s.grown heap node)) heap s.huf.nodes.length } } := by
  have hlt : ∀ m ∈ heap, m < s.huf.nodes.length := fun m hm => ((h.queued m).mp ((hmem m).mp hm).1).1
  have hperm := heapInsert_perm (precedes (s.grown heap node)) heap s.huf.nodes.length
  have hweight : ∀ m, m < s.huf.nodes.length → weightAt (s.grown heap node) m = weightAt s m := fun m hm =>
    weightAt_append hm rfl
  refine ⟨h.cmp, ?_, fun m => ?_, ?_, fun n l r w hn => ?_⟩
  · exact hperm.nodup_iff.mpr (List.nodup_cons.mpr ⟨fun hin => absurd (hlt _ hin) (Nat.lt_irrefl _), hnodup⟩)
  · show m ∈ heapInsert (precedes (s.grown heap node)) heap s.huf.nodes.length ↔
      m < (s.huf.nodes ++ [node]).length ∧ NoChild (s.huf.nodes ++ [node]) m
    rw [hperm.mem_iff, List.mem_cons, noChild_append_singleton, hmem, h.queued, List.length_append, List.length_singleton]
    constructor
    · rintro (rfl | ⟨⟨hm, hno⟩, hnot⟩)
      · refine ⟨Nat.lt_succ_self _, fun k l r w hk => ?_, fun l r hkind => ?_⟩
        · have := (h.arenaOrdered k l r w hk)
          have := (List.getElem?_eq_some_iff.mp hk).1
          omega
        · have := (hmerged l r hkind).left.1
          have := (hmerged l r hkind).right.1
          omega
      · exact ⟨Nat.lt_succ_of_lt hm, hno, hnot⟩
    · rintro ⟨hm, hno, hnot⟩
      rcases Nat.lt_succ_iff_lt_or_eq.mp hm with hm | rfl
      · exact .inr ⟨⟨hm, hno⟩, hnot⟩
      · exact .inl rfl
  · exact HeapArray.heapInsert (s := s.grown heap node) (hordered.congr fun m hm => hweight m (hlt m hm)) _
  · change (s.huf.nodes ++ [node])[n]? = some _ at hn
    rcases Nat.lt_or_ge n s.huf.nodes.length with hlt' | hge
    · rw [List.getElem?_append_left hlt'] at hn
      exact (h.merged n l r w hn).append (Nat.le_of_lt hlt') fun m hm => hweight m (by omega)
    · obtain rfl : n = s.huf.nodes.length := by
        have := (List.getElem?_eq_some_iff.mp hn).1
        simp only [List.length_append, List.length_singleton] at this
        omega
      rw [List.getElem?_concat_length, Option.some.injEq] at hn
      subst hn
      exact (hmerged l r rfl).append (Nat.le_refl _) hweight

/-- The nodes still in the queue for the node to come are those in it now. -/
theorem Building.stillQueued_iff (h : Building s) : StillQueued s.huf.nodes s.huf.nodes.length m ↔ m ∈ s.pq.heap := by
  rw [stillQueued_iff_take, List.take_length, h.queued]

/-- Two extractions give the two lightest, the lighter first (R96, R103). -/
theorem Building.merged_of_roots {a c : Nat} {rest rest' : List Nat} (h : Building s) (hheap : s.pq.heap = a :: rest)
    (hheap' : heapRemoveRoot (precedes s) (a :: rest) = c :: rest') :
    Merged s s.huf.nodes s.huf.nodes.length a c (weightAt s a + weightAt s c) := by
  have hperm := heapRemoveRoot_perm (precedes s) a rest
  have hord := h.ordered
  have hnodup := h.nodup
  rw [hheap] at hord hnodup
  have hord' := hord.heapRemoveRoot
  rw [hheap'] at hord' hperm
  have hc : c ∈ rest := hperm.mem_iff.mp List.mem_cons_self
  refine ⟨rfl, h.stillQueued_iff.mpr (by simp [hheap]), h.stillQueued_iff.mpr (by simp [hheap, hc]), ?_, fun m hm => ?_,
    fun m hm hne => ?_⟩
  · rintro rfl
    exact (List.nodup_cons.mp hnodup).1 hc
  · rw [h.stillQueued_iff, hheap] at hm
    exact precedes_eq_false_iff.mp (hord.root_not_preceded hm)
  · rw [h.stillQueued_iff, hheap, List.mem_cons] at hm
    exact precedes_eq_false_iff.mp (hord'.root_not_preceded (hperm.mem_iff.mpr (hm.resolve_left hne)))

/-! ### The loops -/

/-- The leaves `insertLeaves` makes for the bytes given (R103). -/
def leafNodes (freq : Table Nat) (bs : List Byte) : List Node :=
  (bs.filter fun b => 0 < Table.at freq b).map fun b => ⟨.leaf b, Table.at freq b⟩

/-- In the first loop, after the bytes `done`. -/
structure Planting (done : List Byte) (s : State) : Prop where
  building : Building s
  leaves : s.huf.nodes = leafNodes s.huf.freq done
  length_eq : s.pq.heap.length = s.huf.nodes.length

theorem insertLeaves_safe (bs done : List Byte) :
    Safe (Planting done) (insertLeaves bs) fun _ t => Planting (done ++ bs) t := by
  induction bs generalizing done with
  | nil => exact .pure fun s hs => by rwa [List.append_nil]
  | cons b bs ih =>
    have hsplit : done ++ b :: bs = (done ++ [b]) ++ bs := by simp
    rw [hsplit]
    refine .look_bind fun f => .ite (fun hf => ?_) fun hf => ?_
    · refine (Safe.bind (allocNode_safe _ _) fun i => .bind (pqInsert_safe i _) fun _ => ih (done ++ [b])).pre ?_
      rintro s ⟨h, rfl⟩
      have hgrow := h.building.grow (heap := s.pq.heap) (node := ⟨.leaf b, Table.at s.huf.freq b⟩) h.building.nodup
        (fun m => by simp) h.building.ordered (fun l r hkind => nomatch hkind)
      refine ⟨h.building.cmp, hgrow, ?_, ?_⟩
      · simp [h.leaves, leafNodes, hf]
      · have hlen := (heapInsert_perm (precedes (s.grown s.pq.heap ⟨.leaf b, Table.at s.huf.freq b⟩)) s.pq.heap
          s.huf.nodes.length).length_eq
        refine hlen.trans ?_
        simp [h.length_eq]
    · refine (ih (done ++ [b])).pre ?_
      rintro s ⟨h, rfl⟩
      exact ⟨h.building, by simp [h.leaves, leafNodes, hf], h.length_eq⟩

/-- In the second loop: the leaves stand first in the arena, and each turn adds a node and leaves one element fewer. -/
structure Merging (leaves : List Node) (total : Nat) (s : State) : Prop where
  building : Building s
  leaves : leaves <+: s.huf.nodes
  total : s.huf.nodes.length + s.pq.heap.length = total

theorem mergeTwo_safe (leaves : List Node) (total k : Nat) :
    Safe (fun s => Merging leaves total s ∧ s.pq.heap.length ≤ k + 1) mergeTwo
      fun _ t => Merging leaves total t ∧ t.pq.heap.length ≤ k := by
  refine (Safe.bind (pqExtractMin_safe _) fun a => .bind (pqExtractMin_safe _) fun c =>
    .bind (mkNode_safe a c _) fun n => pqInsert_safe n _).pre ?_
  rintro s ⟨h, hk⟩
  refine ⟨h.building.cmp, fun a rest hheap => ⟨h.building.cmp, fun c rest' hheap' => ⟨h.building.cmp, ?_⟩⟩⟩
  have hmerged := h.building.merged_of_roots hheap hheap'
  have hperm := heapRemoveRoot_perm (precedes s) a rest
  rw [show heapRemoveRoot (precedes s) (a :: rest) = c :: rest' from hheap'] at hperm
  have hperm' := heapRemoveRoot_perm (precedes s) c rest'
  have hnodup := h.building.nodup
  rw [hheap] at hnodup
  obtain ⟨hna, hnrest⟩ := List.nodup_cons.mp hnodup
  obtain ⟨hnc, hnrest'⟩ := List.nodup_cons.mp (hperm.nodup_iff.mpr hnrest)
  have hord := h.building.ordered
  rw [hheap] at hord
  have hord' := hord.heapRemoveRoot
  rw [show heapRemoveRoot (precedes s) (a :: rest) = c :: rest' from hheap'] at hord'
  have hgrow := h.building.grow (node := ⟨.internal a c, weightAt s a + weightAt s c⟩) (hperm'.nodup_iff.mpr hnrest')
    (fun m => ?_) hord'.heapRemoveRoot (fun l r hkind => by cases hkind; exact hmerged)
  · have hlen := (heapInsert_perm (precedes (s.grown (heapRemoveRoot (precedes s) (c :: rest'))
      ⟨.internal a c, weightAt s a + weightAt s c⟩)) (heapRemoveRoot (precedes s) (c :: rest')) s.huf.nodes.length).length_eq
    have hcount : s.pq.heap.length = rest'.length + 2 := by rw [hheap, List.length_cons, ← hperm.length_eq, List.length_cons]
    rw [List.length_cons, hperm'.length_eq] at hlen
    refine ⟨⟨hgrow, h.leaves.trans (List.prefix_append _ _), ?_⟩, ?_⟩
    · have htotal := h.total
      refine Eq.trans (congrArg₂ (· + ·) List.length_append hlen) ?_
      simp only [List.length_singleton]
      omega
    · exact le_trans (le_of_eq hlen) (by omega)
  · rw [hperm'.mem_iff, hheap, List.mem_cons, ← hperm.mem_iff, List.mem_cons]
    constructor
    · intro hm
      refine ⟨.inr (.inr hm), fun l r hkind => ?_⟩
      cases hkind
      exact ⟨fun h => hna (hperm.mem_iff.mp (List.mem_cons_of_mem _ (h ▸ hm))), fun h => hnc (h ▸ hm)⟩
    · rintro ⟨rfl | rfl | hm, hnot⟩
      · exact absurd rfl (hnot _ _ rfl).1
      · exact absurd rfl (hnot _ _ rfl).2
      · exact hm

theorem mergeAll_safe (leaves : List Node) (total fuel : Nat) :
    Safe (fun s => Merging leaves total s ∧ s.pq.heap.length ≤ fuel + 1) (mergeAll fuel)
      fun _ t => Merging leaves total t ∧ t.pq.heap.length ≤ 1 := by
  induction fuel with
  | zero => exact .pure fun s hs => hs
  | succ fuel ih =>
    refine .look_bind fun n => .ite (fun _ => (Safe.bind (mergeTwo_safe leaves total (fuel + 1)) fun _ => ih).pre
      fun s hs => hs.1) fun hn => .pure ?_
    rintro s ⟨⟨h, -⟩, rfl⟩
    exact ⟨h, Nat.not_lt.mp hn⟩

/-- What `HUF.BUILD` leaves (R103, R104). -/
structure Built (s : State) : Prop where
  building : Building { s with pq := { s.pq with heap := [s.huf.root] } }
  leaves : leafNodes s.huf.freq allBytes <+: s.huf.nodes
  length_add : s.huf.nodes.length + 1 = 2 * (leafNodes s.huf.freq allBytes).length
  heap : s.pq.heap = []
  treeOk : s.huf.treeOk = true
  derived : s.huf.derived = false

theorem hufBuildBody_safe : Safe (fun _ => True) hufBuildBody fun _ t => Built t := by
  refine .bind (Q := fun _ s => s.huf.nodes = [] ∧ s.huf.derived = false) (.change fun _ _ => ⟨rfl, rfl⟩) fun _ =>
    .bind (Q := fun _ s => Planting [] s ∧ s.huf.derived = false)
      (.change fun s hs => ⟨⟨building_empty rfl rfl hs.1, hs.1, by rw [hs.1]; rfl⟩, hs.2⟩) fun _ =>
    .bind ((insertLeaves_safe allBytes []).frame (Acts.insertLeaves _) fun s t hu (hs : s.huf.derived = false) =>
      Eq.trans (hu.same .derived (by decide)) hs) fun _ => .look_bind fun n =>
    .named (fun s => s.huf.freq) fun freq => ?_
  refine .bind ((((mergeAll_safe (leafNodes freq allBytes) (2 * (leafNodes freq allBytes).length) n).frame
    (Acts.mergeAll n) (R := fun s => s.huf.freq = freq ∧ s.huf.derived = false) fun s t hu hs =>
      ⟨Eq.trans (hu.same .freq (by decide)) hs.1, Eq.trans (hu.same .derived (by decide)) hs.2⟩)).pre ?_) fun _ => ?_
  · rintro s ⟨⟨⟨h, hderived⟩, hn⟩, rfl⟩
    have hleaves : s.huf.nodes = leafNodes s.huf.freq allBytes := h.leaves
    have hlen : s.pq.heap.length = s.huf.nodes.length := h.length_eq
    refine ⟨⟨⟨h.building, by rw [hleaves], ?_⟩, ?_⟩, rfl, hderived⟩
    · rw [hlen, hleaves]
      omega
    · exact le_trans (le_of_eq hn) (Nat.le_succ n)
  refine (Safe.bind (pqExtractMin_safe _) fun root => .bind (.change (Q := fun _ t => Built t) fun s hs => hs) fun _ =>
    .pure fun s hs => hs).pre ?_
  rintro s ⟨⟨h, hone⟩, rfl, hderived⟩
  refine ⟨h.building.cmp, fun m rest hheap => ?_⟩
  obtain rfl : rest = [] := by
    rw [hheap, List.length_cons] at hone
    exact List.length_eq_zero_iff.mp (by omega)
  have htotal := h.total
  rw [hheap] at htotal
  have hb := h.building
  refine ⟨?_, h.leaves, htotal, rfl, rfl, hderived⟩
  exact ⟨hb.cmp, by simp, fun k => by simpa [hheap] using hb.queued k, fun k _ hk => by simp at hk; omega,
    fun n l r w hn => (hb.merged n l r w hn).congr rfl⟩

end Sys2Proof.Machine
end

