-- ==== Sys2Proof/Proofs/BuildCommand.lean ====
section
/-! PROOF. `HUF.BUILD` (R103, R104) on a counted table: the tree it makes, and the order in which it merges. -/

namespace Sys2Proof.Machine

variable {s t : State}

theorem leafNodes_allBytes (freq : Table Nat) :
    leafNodes freq allBytes = (countedBytes freq).map fun b => ⟨.leaf b, Table.at freq b⟩ := rfl

theorem leafNodes_getElem? {freq : Table Nat} {k : Nat} {b : Byte} (h : (countedBytes freq)[k]? = some b) :
    (leafNodes freq allBytes)[k]? = some ⟨.leaf b, Table.at freq b⟩ := by
  rw [leafNodes_allBytes, List.getElem?_map, h]
  rfl

theorem Built.length_eq (h : Built s) : s.huf.nodes.length = 2 * (countedBytes s.huf.freq).length - 1 := by
  have hlen := h.length_add
  rw [leafNodes_allBytes, List.length_map] at hlen
  omega

/-- The last node made is no node's child, so it is the one left in the queue. -/
theorem Built.root_add_one (h : Built s) : s.huf.root + 1 = s.huf.nodes.length := by
  have hpos := ((h.building.queued s.huf.root).mp List.mem_cons_self).1
  change s.huf.root < s.huf.nodes.length at hpos
  have hlast : s.huf.nodes.length - 1 ∈ [s.huf.root] := (h.building.queued _).mpr ⟨by simp; omega, fun k l r w hk => by
    have hlt := h.building.arenaOrdered k l r w hk
    have hk := (List.getElem?_eq_some_iff.mp hk).1
    simp only at hk
    omega⟩
  have := List.mem_singleton.mp hlast
  omega

theorem Built.leaf_getElem? (h : Built s) {k : Nat} {b : Byte} (hk : (countedBytes s.huf.freq)[k]? = some b) :
    s.huf.nodes[k]? = some ⟨.leaf b, Table.at s.huf.freq b⟩ := by
  have hleaf := leafNodes_getElem? hk
  obtain ⟨more, hmore⟩ := h.leaves
  rw [← hmore, List.getElem?_append_left (List.getElem?_eq_some_iff.mp hleaf).1, hleaf]

theorem Built.merged (h : Built s) {n l r w : Nat} (hn : s.huf.nodes[n]? = some (Node.mk (.internal l r) w)) :
    Merged s s.huf.nodes n l r w :=
  (h.building.merged n l r w hn).congr rfl

theorem hufBuildChecks_of_counted (hcounted : s.huf.counted = true) (hne : countedBytes s.huf.freq ≠ []) :
    firstFailed (hufBuildChecks s) = none := by
  have hinput : (needInput s).1 = true := by
    obtain ⟨b, hb⟩ := List.exists_mem_of_ne_nil _ hne
    exact List.any_eq_true.mpr ⟨b, List.mem_of_mem_filter hb, (List.mem_filter.mp hb).2⟩
  simp [hufBuildChecks, firstFailed_eq_none, needCounted, hcounted, hinput]

theorem eq_leaf_of_leafBytes {T : Tree} {b : Byte} (h : T.leafBytes.Perm [b]) : T = .leaf b := by
  cases T with
  | leaf c =>
    rw [Tree.leafBytes_leaf, List.singleton_perm_singleton] at h
    rw [h]
  | node l r =>
    have hlen := h.length_eq
    rw [Tree.leafBytes_length, Tree.leaves, List.length_singleton] at hlen
    have := l.leaves_pos
    have := r.leaves_pos
    omega

/-- What `HUF.BUILD` answers and leaves. -/
theorem exec_hufBuild_built (hs : Ready s) (hcounted : s.huf.counted = true) (hwf : Params.wf s.params = true)
    (hfits : Params.fitsFreq s.params (totalCount s.huf.freq) = true) (hne : countedBytes s.huf.freq ≠ []) :
    ∃ t T, exec .hufBuild s = .next t ∧ t.huf.tree = some T ∧ T.leafBytes.Perm (countedBytes s.huf.freq) ∧ Built t ∧
      t = { s with huf := { s.huf with nodes := t.huf.nodes, root := t.huf.root, treeOk := true, derived := false },
                   pq := { created := true, cmp := 0, heap := [] },
                   rsp := packRsp 0x00 (BitVec.ofNat 64 t.huf.root) } := by
  obtain ⟨nodes, root, T, hin, hperm, hleaves, hrun⟩ := hufBuildBody_ok hwf hfits hne
  have hx := (exec_hufBuild s).trans (command_returns hs.1 (hufBuildChecks_of_counted hcounted hne) hrun)
  have hbuilt := hufBuildBody_safe.ok trivial hrun
  refine ⟨_, T, hx, hin.treeAt hleaves, hperm, ?_, rfl⟩
  obtain ⟨⟨hcmp, hnodup, hqueued, hordered, hmerged⟩, hpre, hadd, hheap, htree, hderived⟩ := hbuilt
  exact ⟨⟨hcmp, hnodup, hqueued, hordered, fun n l r w hn => (hmerged n l r w hn).congr rfl⟩, hpre, hadd, hheap, htree,
    hderived⟩

/-- Settles O41: the invariant of the two loops gives the arena's shape, the forest invariant the tree. -/
theorem buildMakesTheTree : Obligations.BuildMakesTheTree := by
  intro s hs hcounted hwf hfits hne
  obtain ⟨t, T, hx, htree, hperm, hbuilt, ht⟩ := exec_hufBuild_built hs hcounted hwf hfits hne
  have hfreq : t.huf.freq = s.huf.freq := by rw [ht]
  refine ⟨t, T, hx, htree, hperm, hfreq ▸ hbuilt.length_eq, hbuilt.root_add_one, fun k b hk => ?_,
    fun n l r w hn => (hbuilt.merged hn).weight, fun b hb => eq_leaf_of_leafBytes (hb ▸ hperm), ht⟩
  rw [← hfreq] at hk ⊢
  exact hbuilt.leaf_getElem? hk

/-- Settles O42: the invariant says of every internal node what was in the queue when it was made. -/
theorem buildMergesTheLightest : Obligations.BuildMergesTheLightest := by
  intro s t hs hcounted hwf hfits hne hx n l r w hn
  obtain ⟨u, T, hu, -, -, hbuilt, -⟩ := exec_hufBuild_built hs hcounted hwf hfits hne
  obtain rfl : u = t := by simpa [hu] using hx
  obtain ⟨-, hleft, hright, hlr, hleast, hleast'⟩ := hbuilt.merged hn
  exact ⟨hleft, hright, hlr, hleast, hleast'⟩

end Sys2Proof.Machine
end

