-- ==== Sys2Proof/Proofs/SafeChannels.lean ====
section
/-! PROOF. Reading and writing bits keeps the channels' invariants (R12, R14), whatever the ports answer. The idea: an
operation that returns met no failing access, so it does the same with no answers to come at all, where the laws of
`Laws.Channel` say what it does. -/

namespace Sys2Proof.Machine

variable {s t u : State} {α β : Type}

/-! ### Runs from two states -/

/-- What the operation does when it returns is what it does from the state changed by `g`, but for `g`. -/
structure Follows (g : State → State) (m : M α) : Prop where
  ok : ∀ {s a t}, m s = .ok a t → m (g s) = .ok a (g t)

namespace Follows

variable {g : State → State} {m : M α} {k : α → M β}

theorem bind (hm : Follows g m) (hk : ∀ a, Follows g (k a)) : Follows g (m >>= k) := by
  refine ⟨fun {s b u} h => ?_⟩
  obtain ⟨a, t, hms, hkt⟩ := bind_eq_ok.mp h
  exact (bind_ok (hm.ok hms)).trans ((hk a).ok hkt)

theorem pure (a : α) : Follows g (pure a : M α) :=
  ⟨by rintro s _ _ ⟨⟩; rfl⟩

theorem look {v : State → α} (hv : ∀ s : State, v (g s) = v s := by exact fun _ => rfl) : Follows g (look v) :=
  ⟨by rintro s _ _ ⟨⟩; rw [look_apply, hv]⟩

theorem change {v : State → State} (hv : ∀ s : State, v (g s) = g (v s) := by exact fun _ => rfl) :
    Follows g (change v) :=
  ⟨by rintro s _ _ ⟨⟩; rw [change_apply, hv]⟩

theorem raise {kind : CauseKind} {info : Byte} : Follows g (raise kind info : M α) :=
  ⟨by rintro s _ _ ⟨⟩⟩

theorem ite {p : Prop} [Decidable p] {a b : M α} (ha : Follows g a) (hb : Follows g b) :
    Follows g (if p then a else b) := by
  split
  · exact ha
  · exact hb

theorem runIf (p : Bool) {m : M Unit} (hm : Follows g m) : Follows g (runIf p m) := ite hm (pure ())

end Follows

/-- The state with every port access to come succeeding: an operation that returns met no access that fails. -/
def State.easy (s : State) : State := { s with answers := [] }

theorem State.easy_noIoFail (s : State) : NoIoFail s.easy := fun _ h => nomatch h

namespace Follows

theorem portAccess (info : Byte) : Follows State.easy (portAccess info) := by
  refine ⟨fun {s a t} h => ?_⟩
  rw [portAccess_ok info (s.easy_noIoFail).next]
  by_cases hok : NextAnswerOk s
  · rw [portAccess_ok info hok] at h
    cases h
    rfl
  · rw [portAccess_fail info (not_not.mp hok)] at h
    cases h

theorem srcNext : Follows State.easy srcNext := by
  refine bind (portAccess 2) fun _ => bind look fun b => ?_
  cases b with
  | none => exact pure none
  | some b => exact bind change fun _ => pure _

theorem fetchLookahead : Follows State.easy fetchLookahead := by
  refine bind srcNext fun b => ?_
  cases b <;> exact change

theorem takeLookahead : Follows State.easy takeLookahead :=
  bind look fun _ => bind fetchLookahead fun _ => bind look fun _ =>
    bind (ite (ite raise (pure _)) (pure _)) fun _ => runIf _ change

theorem refill : Follows State.easy refill :=
  bind look fun _ => bind (runIf _ fetchLookahead) fun _ => bind look fun _ => runIf _ takeLookahead

theorem readBit : Follows State.easy readBit :=
  bind look fun _ => bind (runIf _ refill) fun _ => bind look fun _ => ite (bind change fun _ => pure _) (pure _)

theorem sinkPut (b : Byte) : Follows State.easy (sinkPut b) := bind (portAccess 4) fun _ => change

theorem writeBit (b : Bool) : Follows State.easy (writeBit b) :=
  bind change fun _ => bind look fun _ => ite (bind (sinkPut _) fun _ => change) change

end Follows

/-! ### The reader -/

/-- The invariant of an open reader (R13, R14), in a memory that has the form. -/
structure Reading (s : State) : Prop where
  cursor : CursorInv s.br
  lookahead : LookaheadInv s
  wf : s.mem.wf = true

/-- A reader that has fetched. -/
def Fetched (s : State) : Prop := LookaheadInv s ∧ s.br.laSt ≠ .none

theorem fetchLookahead_safe : Safe (fun s => s.mem.wf = true) fetchLookahead fun _ t => Fetched t := by
  refine ⟨fun {s _ t} hs h => ?_, fun _ h => absurd (Acts.fetchLookahead.stopped h) (by decide)⟩
  obtain ⟨v, u, hv, hchange⟩ := bind_eq_ok.mp h
  cases v with
  | none =>
    obtain ⟨hend, rfl⟩ := srcNext_none hv
    cases hchange
    have hle : s.mem.srcPos ≤ s.mem.srcData.length := by simpa [Memory.wf] using hs
    exact ⟨le_antisymm hle hend, by simp⟩
  | some b =>
    obtain ⟨-, hb, rfl⟩ := srcNext_some hv
    cases hchange
    exact ⟨⟨Nat.le_add_left 1 _, hb⟩, by simp⟩

/-- Registers that a fetch leaves do not count. -/
theorem Fetched.congr (h : Fetched s) (hmem : t.mem = s.mem) (hst : t.br.laSt = s.br.laSt) (hla : t.br.la = s.br.la) :
    Fetched t := by
  obtain ⟨hlook, hne⟩ := h
  refine ⟨?_, hst ▸ hne⟩
  unfold LookaheadInv at hlook ⊢
  rw [hst, hla, hmem]
  cases hs : s.br.laSt with
  | none => exact absurd hs hne
  | byte => rwa [hs] at hlook
  | eof => rwa [hs] at hlook

theorem takeLookahead_safe : Safe (fun s => s.mem.wf = true) takeLookahead fun _ t => Fetched t := by
  refine .bind (Q := fun _ s => s.mem.wf = true) (.of_within (Acts.look _) (by decide) fun _ _ hs hu => hu.wf hs) fun c =>
    .bind fetchLookahead_safe fun _ => .bind (Q := fun _ s => Fetched s)
      (.of_acts (Acts.look _) (by decide) fun _ _ _ hs h => by cases h; exact hs) fun st =>
    .bind (Q := fun _ s => Fetched s) (.ite (fun _ => .ite (fun _ => .raise) fun _ => .pure fun _ hs => hs) fun _ =>
      .pure fun _ hs => hs) fun lim => .ite (fun _ => .change fun s hs => hs.congr rfl rfl rfl) fun _ => .pure fun _ hs => hs

theorem refill_safe : Safe (fun s => LookaheadInv s ∧ s.mem.wf = true) refill fun _ t => Fetched t := by
  refine .look_bind fun st => .bind (Q := fun _ s => Fetched s ∧ s.mem.wf = true) (.ite (fun _ => ?_) fun hst => ?_) fun _ =>
    .look_bind fun st => .ite (fun _ => takeLookahead_safe.pre fun s hs => hs.1.2) fun _ => .pure fun s hs => hs.1.1
  · exact ((fetchLookahead_safe.frame Acts.fetchLookahead (R := fun s => s.mem.wf = true) fun _ _ hu hs => hu.wf hs)).pre
      fun s hs => ⟨hs.1.2, hs.1.2⟩
  · refine .pure fun s hs => ⟨⟨hs.1.1, fun h => hst ?_⟩, hs.1.2⟩
    rw [← hs.2, h]
    rfl

theorem fetched_of_hasBits (h : LookaheadInv s) (hbits : s.br.hasBits = true) : Fetched s := by
  refine ⟨h, fun hnone => ?_⟩
  unfold LookaheadInv at h
  rw [hnone, hbits] at h
  exact absurd h.1 (by decide)

theorem Fetched.advance (h : Fetched s) : Fetched { s with br := s.br.advance } :=
  h.congr rfl (by simp only [BitReader.advance]; split <;> rfl) (by simp only [BitReader.advance]; split <;> rfl)

theorem readBit_fetches : Safe (fun s => LookaheadInv s ∧ s.mem.wf = true) readBit fun _ t => Fetched t := by
  refine .look_bind fun has => .bind (Q := fun _ s => Fetched s)
    (.ite (fun _ => refill_safe.pre fun s hs => hs.1) fun hhas => .pure fun s hs =>
      fetched_of_hasBits hs.1.1 (by simpa [hs.2] using hhas)) fun _ => .look_bind fun r => .ite (fun _ => ?_) fun _ =>
    .pure fun s hs => hs.1
  refine .bind (Q := fun _ s => Fetched s) (.change fun s hs => ?_) fun _ => .pure fun s hs => hs
  obtain ⟨hf, rfl⟩ := hs
  exact hf.advance

/-- `ReadBit()` (R73) keeps the reader's invariant; and a bit read is one bit fewer to read. -/
theorem readBit_safe (n : Nat) : Safe (fun s => Reading s ∧ s.bitsToRead.length ≤ n) readBit
    fun v t => Reading t ∧ t.bitsToRead.length + v.toList.length ≤ n := by
  refine ⟨fun {s v t} hs h => ?_, fun {s why t} _ h => absurd (Acts.readBit.stopped h) (by decide)⟩
  obtain ⟨⟨hcursor, hlook, hwf⟩, hn⟩ := hs
  have hlook' := (readBit_fetches.ok ⟨hlook, hwf⟩ h).1
  have hwf' := (Acts.readBit.ok h).wf hwf
  have heasy := Follows.readBit.ok h
  have hspec := readBit_spec s.easy_noIoFail (s := s.easy) hcursor
  have hbits : s.easy.bitsToRead = s.bitsToRead := rfl
  rw [hbits] at hspec
  cases hb : s.bitsToRead with
  | nil =>
    rw [hb] at hspec
    dsimp only at hspec
    split at hspec
    · obtain ⟨u, hu, -⟩ := hspec
      cases heasy.symm.trans hu
    · obtain ⟨u, hu, -, hcursor', hnil, -⟩ := hspec
      cases heasy.symm.trans hu
      have hnil' : t.bitsToRead = [] := hnil
      exact ⟨⟨hcursor', hlook', hwf'⟩, by simp [hnil']⟩
  | cons b rest =>
    rw [hb] at hspec hn
    obtain ⟨u, hu, -, hcursor', hrest, -⟩ := hspec
    cases heasy.symm.trans hu
    have hrest' : t.bitsToRead = rest := hrest
    exact ⟨⟨hcursor', hlook', hwf'⟩, by simpa [hrest'] using hn⟩

/-- `ReadBits` (R74); a value read was of as many bits. -/
theorem readBitsFrom_safe (k g v n : Nat) : Safe (fun s => Reading s ∧ s.bitsToRead.length ≤ n) (readBitsFrom k g v)
    fun r t => Reading t ∧ t.bitsToRead.length ≤ n ∧ ∀ w, r = .value w → t.bitsToRead.length + k ≤ n := by
  induction k generalizing g v n with
  | zero => exact .pure fun s hs => ⟨hs.1, hs.2, fun _ _ => hs.2⟩
  | succ k ih =>
    refine .bind (readBit_safe n) fun b => ?_
    cases b with
    | none => exact .pure fun s hs => ⟨hs.1, hs.2, fun _ h => nomatch h⟩
    | some b =>
      cases n with
      | zero => exact .unreached fun s hs => absurd hs.2 (by simp)
      | succ n =>
        refine (ih (g + 1) (shiftIn v b) n).mono (fun s hs => ⟨hs.1, by simpa using hs.2⟩) fun r t ht =>
          ⟨ht.1, Nat.le_succ_of_le ht.2.1, fun w hw => ?_⟩
        have hlen := ht.2.2 w hw
        omega

theorem readBits_safe (k n : Nat) : Safe (fun s => Reading s ∧ s.bitsToRead.length ≤ n) (readBits k)
    fun r t => Reading t ∧ t.bitsToRead.length ≤ n ∧ ∀ w, r = .value w → t.bitsToRead.length + k ≤ n :=
  readBitsFrom_safe k 0 0 n

theorem readBit_reading : Safe Reading readBit fun _ t => Reading t :=
  .named (fun s => s.bitsToRead.length) fun n => (readBit_safe n).mono (fun _ hs => ⟨hs.1, hs.2.le⟩) fun _ _ ht => ht.1

theorem readBits_reading (k : Nat) : Safe Reading (readBits k) fun _ t => Reading t :=
  .named (fun s => s.bitsToRead.length) fun n => (readBits_safe k n).mono (fun _ hs => ⟨hs.1, hs.2.le⟩) fun _ _ ht => ht.1

/-! ### The writer -/

theorem writeBit_safe (b : Bool) : Safe (fun s => AccInv s.bw) (writeBit b) fun _ t => AccInv t.bw := by
  refine .of_acts (Acts.writeBit b) (by decide) fun s _ t hs h => ?_
  obtain ⟨u, hu, -, hacc, -⟩ := writeBit_spec b s.easy_noIoFail (s := s.easy) hs
  cases ((Follows.writeBit b).ok h).symm.trans hu
  exact hacc

theorem writeBitList_safe (bs : List Bool) : Safe (fun s => AccInv s.bw) (writeBitList bs) fun _ t => AccInv t.bw := by
  induction bs with
  | nil => exact .pure fun _ hs => hs
  | cons b bs ih => exact .bind (writeBit_safe b) fun _ => ih

end Sys2Proof.Machine
end

