-- ==== Sys2Proof/Proofs/SafeTrees.lean ====
section
/-! PROOF. The tree commands keep the codec's invariants and reach no stop (R18 to R20, R105 to R109): in an arena whose
children come before their parents every allocated node is the root of a tree, and a loop that takes a bit at every turn
ends before its bound. -/

namespace Sys2Proof.Machine

variable {s t : State} {nodes : List Node}

/-! ### The arena (R18, R19) -/

theorem arenaOrdered_append_singleton {node : Node} (h : ArenaOrdered nodes)
    (hnode : ∀ l r, node.kind = .internal l r → l < nodes.length ∧ r < nodes.length) : ArenaOrdered (nodes ++ [node]) := by
  intro k l r w hk
  rcases Nat.lt_trichotomy k nodes.length with hlt | rfl | hgt
  · exact h k l r w (by rwa [List.getElem?_append_left hlt] at hk)
  · rw [List.getElem?_concat_length, Option.some.injEq] at hk
    exact hnode l r (by rw [hk])
  · have := (List.getElem?_eq_some_iff.mp hk).1
    simp only [List.length_append, List.length_singleton] at this
    omega

/-- Every allocated node is the root of a tree. -/
theorem exists_treeAt (h : ArenaOrdered nodes) {fuel n : Nat} (hn : n < nodes.length) (hfuel : n < fuel) :
    ∃ T, treeAt nodes fuel n = some T := by
  induction fuel generalizing n with
  | zero => exact absurd hfuel (Nat.not_lt_zero n)
  | succ fuel ih =>
    obtain ⟨⟨kind, w⟩, hnode⟩ : ∃ node, nodes[n]? = some node := ⟨_, List.getElem?_eq_getElem hn⟩
    cases kind with
    | leaf b => exact ⟨.leaf b, by simp only [treeAt, hnode]⟩
    | internal l r =>
      obtain ⟨hl, hr⟩ := h n l r w hnode
      obtain ⟨L, hL⟩ := ih (hl.trans hn) (by omega)
      obtain ⟨R, hR⟩ := ih (hr.trans hn) (by omega)
      exact ⟨.node L R, by simp only [treeAt, hnode, hL, hR]⟩

/-- A tree held is a tree. -/
theorem HuffmanInv.exists_tree (h : HuffmanInv s.huf) (htree : s.huf.treeOk = true) : ∃ T, s.huf.tree = some T :=
  exists_treeAt h.1 (h.2.1 htree) (h.2.1 htree)

theorem heldTree_safe (P : State → Prop) (hP : ∀ s, P s → ∃ T, s.huf.tree = some T) : Safe P heldTree fun _ t => P t := by
  refine .look_bind fun T => ?_
  cases T with
  | some T => exact .pure fun s hs => hs.1
  | none =>
    refine .unreached fun s ⟨hs, hnone⟩ => ?_
    obtain ⟨T, hT⟩ := hP s hs
    rw [hnone] at hT
    cases hT

/-! ### Reading a tree (R108) -/

/-- Reading nodes: at most `n` bits are still to come, and the arena has `N` nodes or more, in order. -/
structure ReadingNodes (n N : Nat) (s : State) : Prop where
  reading : Reading s
  bits : s.bitsToRead.length ≤ n
  ordered : ArenaOrdered s.huf.nodes
  length : N ≤ s.huf.nodes.length

theorem ReadingNodes.mono {n n' N N' : Nat} (h : ReadingNodes n N s) (hn : n ≤ n') (hN : N' ≤ N) : ReadingNodes n' N' s :=
  ⟨h.reading, h.bits.trans hn, h.ordered, hN.trans h.length⟩

theorem allocRead_safe (kind : NodeKind) (n N : Nat) (hkind : ∀ l r, kind = .internal l r → l < N ∧ r < N) :
    Safe (ReadingNodes n N) (allocRead kind) fun i t => ReadingNodes n N t ∧ i < t.huf.nodes.length := by
  refine .bind (Q := fun _ s => ReadingNodes n N s)
    (.of_acts Acts.freeWeight (by decide) fun s w t hs h => ?_) fun w => (allocNode_safe _ _).pre fun s hs => ?_
  · cases h
    exact ⟨⟨hs.reading.cursor, hs.reading.lookahead, hs.reading.wf⟩, hs.bits, hs.ordered, hs.length⟩
  · refine ⟨⟨⟨hs.reading.cursor, hs.reading.lookahead, hs.reading.wf⟩, hs.bits, ?_, ?_⟩, ?_⟩
    · exact arenaOrdered_append_singleton hs.ordered fun l r h =>
        ⟨(hkind l r h).1.trans_le hs.length, (hkind l r h).2.trans_le hs.length⟩
    · exact hs.length.trans (by simp)
    · simp

theorem readBit_readingNodes (n N : Nat) : Safe (ReadingNodes n N) readBit
    fun v t => ReadingNodes n N t ∧ t.bitsToRead.length + v.toList.length ≤ n := by
  refine ((readBit_safe n).frame Acts.readBit (R := fun s => ArenaOrdered s.huf.nodes ∧ N ≤ s.huf.nodes.length)
    fun s t hu hs => ?_).mono (fun s hs => ⟨⟨hs.reading, hs.bits⟩, hs.ordered, hs.length⟩) fun v t ht =>
      ⟨⟨ht.1.1, (Nat.le_add_right _ _).trans ht.1.2, ht.2.1, ht.2.2⟩, ht.1.2⟩
  have hnodes : t.huf.nodes = s.huf.nodes := hu.same .nodes (by decide)
  rwa [hnodes]

theorem readBits_readingNodes (k n N : Nat) : Safe (ReadingNodes n N) (readBits k) fun _ t => ReadingNodes n N t := by
  refine ((readBits_safe k n).frame (Acts.readBits k) (R := fun s => ArenaOrdered s.huf.nodes ∧ N ≤ s.huf.nodes.length)
    fun s t hu hs => ?_).mono (fun s hs => ⟨⟨hs.reading, hs.bits⟩, hs.ordered, hs.length⟩) fun v t ht =>
      ⟨ht.1.1, ht.1.2.1, ht.2.1, ht.2.2⟩
  have hnodes : t.huf.nodes = s.huf.nodes := hu.same .nodes (by decide)
  rwa [hnodes]

/-- Every call of `des()` takes a bit first, so the bound on its depth is not met. -/
theorem deserialize_safe (fuel : Nat) {n : Nat} (hn : n < fuel) (N : Nat) :
    Safe (ReadingNodes n N) (deserialize fuel) fun i t => ReadingNodes n N t ∧ i < t.huf.nodes.length := by
  induction fuel generalizing n N with
  | zero => exact absurd hn (Nat.not_lt_zero n)
  | succ fuel ih =>
    refine .bind (readBit_readingNodes n N) fun b => ?_
    cases b with
    | none => exact .raise
    | some b =>
      cases b with
      | true =>
        refine .bind ((readBits_readingNodes leafW n N).pre fun s hs => hs.1) fun v => ?_
        cases v with
        | eos g => exact .raise
        | value v => exact allocRead_safe _ n N fun l r h => nomatch h
      | false =>
        obtain _ | n := n
        · exact .unreached fun s hs => absurd hs.2 (by simp)
        have hfuel : n < fuel := Nat.lt_of_succ_lt_succ hn
        refine .bind ((ih hfuel N).pre fun s hs => ⟨hs.1.reading, by simpa using hs.2, hs.1.ordered, hs.1.length⟩)
          fun l => .bind ((ih hfuel (max N (l + 1))).pre fun s hs =>
            ⟨hs.1.reading, hs.1.bits, hs.1.ordered, max_le hs.1.length hs.2⟩) fun r =>
          (allocRead_safe (.internal l r) n (max (max N (l + 1)) (r + 1)) ?_).mono (fun s hs =>
            ⟨hs.1.reading, hs.1.bits, hs.1.ordered, max_le hs.1.length hs.2⟩) fun i t ht =>
            ⟨ht.1.mono (Nat.le_succ n) (by omega), ht.2⟩
        rintro _ _ ⟨⟩
        exact ⟨by omega, by omega⟩

/-! ### Decoding (R109) -/

/-- Putting bytes does not disturb a reader. -/
theorem Reading.of_sinkPut {b : Byte} (h : Reading s) (hput : sinkPut b s = .ok () t) :
    Reading t ∧ t.bitsToRead = s.bitsToRead := by
  obtain ⟨_, u, hport, hchange⟩ := bind_eq_ok.mp hput
  by_cases hok : NextAnswerOk s
  · rw [portAccess_ok 4 hok] at hport
    cases hport
    cases hchange
    exact ⟨⟨h.cursor, h.lookahead, h.wf⟩, rfl⟩
  · rw [portAccess_fail 4 (not_not.mp hok)] at hport
    cases hport

theorem sinkPut_reading (b : Byte) (n : Nat) : Safe (fun s => Reading s ∧ s.bitsToRead.length ≤ n) (sinkPut b)
    fun _ t => Reading t ∧ t.bitsToRead.length ≤ n :=
  .of_acts (Acts.sinkPut b) (by decide) fun s _ t hs h => by
    obtain ⟨hreading, hbits⟩ := hs.1.of_sinkPut h
    exact ⟨hreading, hbits ▸ hs.2⟩

theorem decodeDegenerate_safe (b : Byte) (fuel : Nat) {n : Nat} (hn : n < fuel) :
    Safe (fun s => Reading s ∧ s.bitsToRead.length ≤ n) (decodeDegenerate b fuel) fun _ t => Reading t := by
  induction fuel generalizing n with
  | zero => exact absurd hn (Nat.not_lt_zero n)
  | succ fuel ih =>
    refine .bind (readBit_safe n) fun bit => ?_
    cases bit with
    | none => exact .pure fun s hs => hs.1
    | some bit =>
      obtain _ | n := n
      · exact .unreached fun s hs => absurd hs.2 (by simp)
      exact .bind ((sinkPut_reading b n).pre fun s hs => ⟨hs.1, by simpa using hs.2⟩) fun _ =>
        ih (Nat.lt_of_succ_lt_succ hn)

theorem decodeLoop_safe (L R : Tree) (fuel : Nat) {n : Nat} (hn : n < fuel) (l r : Tree) (atRoot : Bool) :
    Safe (fun s => Reading s ∧ s.bitsToRead.length ≤ n) (decodeLoop (.node L R) fuel (.node l r) atRoot)
      fun _ t => Reading t := by
  induction fuel generalizing n l r atRoot with
  | zero => exact absurd hn (Nat.not_lt_zero n)
  | succ fuel ih =>
    refine .bind (readBit_safe n) fun bit => ?_
    cases bit with
    | none => exact .ite (fun _ => .pure fun s hs => hs.1) fun _ => .raise
    | some bit =>
      obtain _ | n := n
      · exact .unreached fun s hs => absurd hs.2 (by simp)
      have hfuel : n < fuel := Nat.lt_of_succ_lt_succ hn
      dsimp only
      cases (if bit then r else l) with
      | leaf v => exact .bind ((sinkPut_reading v n).pre fun s hs => ⟨hs.1, by simpa using hs.2⟩) fun _ => ih hfuel L R true
      | node l' r' => exact (ih hfuel l' r' false).pre fun s hs => ⟨hs.1, by simpa using hs.2⟩

theorem decodeWith_safe (T : Tree) (fuel : Nat) :
    Safe (fun s => Reading s ∧ s.bitsToRead.length < fuel) (decodeWith T fuel) fun _ t => Reading t := by
  obtain _ | n := fuel
  · exact .unreached fun s hs => absurd hs.2 (Nat.not_lt_zero _)
  cases T with
  | leaf b => exact (decodeDegenerate_safe b (n + 1) (Nat.lt_succ_self n)).pre fun s hs => ⟨hs.1, Nat.lt_succ_iff.mp hs.2⟩
  | node l r =>
    exact (decodeLoop_safe l r (n + 1) (Nat.lt_succ_self n) l r true).pre fun s hs => ⟨hs.1, Nat.lt_succ_iff.mp hs.2⟩

/-! ### The code table (R20, R105) -/

theorem CodesInv.put {b : Byte} {path : List Bool} (h : CodesInv s)
    (hpath : s.params.codeLen8 = true → path.length ≤ 255) :
    CodesInv { s with huf := { s.huf with code := Table.put s.huf.code b (some path) } } := by
  intro h8 b' c hc
  change Table.at (Table.put s.huf.code b (some path)) b' = some c at hc
  rw [Table.at_put] at hc
  split at hc
  · cases hc
    exact hpath h8
  · exact h h8 b' c hc

theorem putCode_safe (b : Byte) (path : List Bool) : Safe CodesInv (putCode b path) fun _ t => CodesInv t := by
  refine .look_bind fun tooLong => .ite (fun _ => .raise) fun hfit => .change fun s hs => hs.1.put fun h8 => ?_
  rw [← hs.2, h8] at hfit
  simpa using hfit

theorem visit_safe (T : Tree) (path : List Bool) : Safe CodesInv (visit T path) fun _ t => CodesInv t := by
  induction T generalizing path with
  | leaf b => exact putCode_safe b path
  | node l r ihl ihr => exact .bind (ihl _) fun _ => ihr _

theorem putCodes_safe (T : Tree) : Safe CodesInv (putCodes T) fun _ t => CodesInv t := by
  cases T with
  | leaf b => exact putCode_safe b _
  | node l r => exact visit_safe _ _

end Sys2Proof.Machine
end

