-- ==== Sys2Proof/Proofs/SafeLzw.lean ====
section
/-! PROOF. The LZW commands keep the dictionaries' invariants (R22, R23, R134) and reach no stop: every look-up of the
encoder finds its key, and every code the decoder accepts stands for a sequence that is not empty. -/

namespace Sys2Proof.Machine

variable {s t : State} {dict dtab : List (List Byte)} {prev : Option (List Byte)} {buf q : List Byte} {c n : Nat}

/-- The cells of the LZW codec. -/
def lzwCells : List Cell := [.edict, .buf, .eready, .dtab, .prev, .dready]

theorem Within.lzw {f : List Cell} (hu : Within f s t) (hf : ∀ c ∈ lzwCells, c ∉ f) : t.lzw = s.lzw := by
  have hedict := hu.same .edict (hf _ (by decide))
  have hbuf := hu.same .buf (hf _ (by decide))
  have heready := hu.same .eready (hf _ (by decide))
  have hdtab := hu.same .dtab (hf _ (by decide))
  have hprev := hu.same .prev (hf _ (by decide))
  have hdready := hu.same .dready (hf _ (by decide))
  calc t.lzw = ⟨t.lzw.edict, t.lzw.buf, t.lzw.eready, t.lzw.dtab, t.lzw.prev, t.lzw.dready⟩ := rfl
    _ = ⟨s.lzw.edict, s.lzw.buf, s.lzw.eready, s.lzw.dtab, s.lzw.prev, s.lzw.dready⟩ := by
      rw [hedict, hbuf, heready, hdtab, hprev, hdready]

/-! ### Dictionaries -/

theorem length_of_mem_seedDictionary (h : q ∈ seedDictionary) : q.length = 1 := by
  obtain ⟨b, -, rfl⟩ := List.mem_map.mp h
  rfl

theorem dictionaryInv_seedDictionary : DictionaryInv seedDictionary :=
  ⟨seedDictionary_length.ge, seedDictionary_length.trans_le (by decide), List.take_of_length_le seedDictionary_length.le⟩

theorem nodup_seedDictionary : seedDictionary.Nodup :=
  allBytes_nodup.map fun _ _ h => (List.cons.inj h).1

theorem prefixClosed_seedDictionary : PrefixClosed seedDictionary := fun i t ht hlen => by
  rw [length_of_mem_seedDictionary (List.mem_of_getElem? ht)] at hlen
  omega


theorem DictionaryInv.getElem?_lt (h : DictionaryInv dict) (hc : c < 256) : dict[c]? = seedDictionary[c]? := by
  rw [← h.2.2, List.getElem?_take_of_lt (show c < dictInit from hc)]

theorem DictionaryInv.singleton_mem (h : DictionaryInv dict) (b : Byte) : [b] ∈ dict :=
  List.mem_of_mem_take (h.2.2.symm ▸ singleton_mem_seedDictionary b : [b] ∈ dict.take dictInit)

theorem DictionaryInv.registerEntry (h : DictionaryInv dict) (prev : Option (List Byte)) (first : Byte) :
    DictionaryInv (registerEntry dict prev first) := by
  obtain ⟨hmin, hmax, hseed⟩ := h
  refine ⟨?_, registerEntry_length_le hmax, ?_⟩ <;> unfold Machine.registerEntry <;> split
  · exact hmin
  · split
    · rw [List.length_append]
      exact hmin.trans (Nat.le_add_right _ _)
    · exact hmin
  · exact hseed
  · split
    · rw [List.take_append_of_le_length hmin, hseed]
    · exact hseed

/-! ### The encoder (R132 to R134) -/

/-- The invariant of a seeded encoder. -/
structure EncoderOk (z : Lzw) : Prop where
  dictionary : DictionaryInv z.edict
  nodup : z.edict.Nodup
  prefixClosed : PrefixClosed z.edict
  buf : z.buf = [] ∨ z.buf ∈ z.edict

theorem encoderInv_iff {z : Lzw} : EncoderInv z ↔ (z.eready = true → EncoderOk z) :=
  ⟨fun h hr => ⟨(h hr).1, (h hr).2.1, (h hr).2.2.1, (h hr).2.2.2⟩,
    fun h hr => ⟨(h hr).dictionary, (h hr).nodup, (h hr).prefixClosed, (h hr).buf⟩⟩

theorem encoderOk_seed {z : Lzw} : EncoderOk { z with edict := seedDictionary, buf := [], eready := true } :=
  ⟨dictionaryInv_seedDictionary, nodup_seedDictionary, prefixClosed_seedDictionary, .inl rfl⟩

/-- The match buffer is in the dictionary unless a byte more is. -/
theorem EncoderOk.buf_mem {z : Lzw} {b : Byte} (h : EncoderOk z) (hb : z.buf ++ [b] ∉ z.edict) : z.buf ∈ z.edict :=
  h.buf.resolve_left fun hnil => hb (by rw [hnil]; exact h.dictionary.singleton_mem b)

theorem PrefixClosed.registerEntry {b : Byte} (h : PrefixClosed dict) (hbuf : buf ∈ dict) :
    PrefixClosed (registerEntry dict (some buf) b) := by
  intro i t ht hlen
  have hkeep : ∀ {j : Nat} {u : List Byte}, dict[j]? = some u → (Machine.registerEntry dict (some buf) b)[j]? = some u := by
    intro j u hj
    unfold Machine.registerEntry
    dsimp only
    split
    · rw [List.getElem?_append_left (List.getElem?_eq_some_iff.mp hj).1, hj]
    · exact hj
  rcases registerEntry_getElem? ht with hold | ⟨rfl, p, hp, rfl⟩
  · obtain ⟨j, hj, hdrop⟩ := h i t hold hlen
    exact ⟨j, hj, hkeep hdrop⟩
  · cases hp
    obtain ⟨j, hj⟩ := List.mem_iff_getElem?.mp hbuf
    exact ⟨j, (List.getElem?_eq_some_iff.mp hj).1, by rw [List.dropLast_concat]; exact hkeep hj⟩

theorem nodup_registerEntry {b : Byte} (h : dict.Nodup) (hb : buf ++ [b] ∉ dict) :
    (registerEntry dict (some buf) b).Nodup := by
  unfold registerEntry
  dsimp only
  split
  · exact List.nodup_append.mpr ⟨h, by simp, fun x hx y hy => by rintro rfl; exact hb (List.mem_singleton.mp hy ▸ hx)⟩
  · exact h

theorem emitMatch_safe : Safe (fun s => AccInv s.bw ∧ s.lzw.buf ∈ s.lzw.edict) emitMatch fun _ t => AccInv t.bw := by
  refine .look_bind fun code => ?_
  cases code with
  | some code => exact (writeBitList_safe _).pre fun s hs => hs.1.1
  | none =>
    refine .unreached fun s ⟨⟨_, hmem⟩, hnone⟩ => ?_
    have hsome := codeOf_isSome_iff.mpr hmem
    rw [hnone] at hsome
    cases hsome

/-- `EncByte(b)` keeps the encoder's and the writer's invariants. -/
theorem encByte_safe (b : Byte) : Safe (fun s => EncoderOk s.lzw ∧ AccInv s.bw) (encByte b)
    fun _ t => EncoderOk t.lzw ∧ AccInv t.bw := by
  refine .look_bind fun known => .ite (fun hknown => .change fun s hs => ?_) fun hknown => ?_
  · obtain ⟨⟨hz, hacc⟩, rfl⟩ := hs
    exact ⟨⟨hz.dictionary, hz.nodup, hz.prefixClosed, .inr (codeOf_isSome_iff.mp hknown)⟩, hacc⟩
  · refine (Safe.bind (emitMatch_safe.frame Acts.emitMatch
      (R := fun s => EncoderOk s.lzw ∧ s.lzw.buf ++ [b] ∉ s.lzw.edict) fun s t hu hs => ?_) fun _ =>
      .change fun s hs => ?_).pre fun s hs => ?_
    · have hlzw := hu.lzw (by decide)
      rwa [hlzw]
    · obtain ⟨hacc, hz, hmem⟩ := hs
      have hsingle : [b] ∈ registerEntry s.lzw.edict (some s.lzw.buf) b :=
        mem_registerEntry (hz.dictionary.singleton_mem b)
      exact ⟨⟨hz.dictionary.registerEntry (some s.lzw.buf) b, nodup_registerEntry hz.nodup hmem,
        hz.prefixClosed.registerEntry (hz.buf_mem hmem), .inr hsingle⟩, hacc⟩
    · obtain ⟨⟨hz, hacc⟩, rfl⟩ := hs
      have hmem : s.lzw.buf ++ [b] ∉ s.lzw.edict := fun h => hknown (codeOf_isSome_iff.mpr h)
      exact ⟨⟨hacc, hz.buf_mem hmem⟩, hz, hmem⟩

/-! ### The decoder (R135, R136) -/

/-- The invariant of a seeded decoder. -/
structure DecoderOk (z : Lzw) : Prop where
  dictionary : DictionaryInv z.dtab
  entries : ∀ q ∈ z.dtab, q ≠ []
  prev : z.prev ≠ some []

theorem decoderInv_iff {z : Lzw} : DecoderInv z ↔ (z.dready = true → DecoderOk z) :=
  ⟨fun h hr => ⟨(h hr).1, (h hr).2.1, (h hr).2.2⟩, fun h hr => ⟨(h hr).dictionary, (h hr).entries, (h hr).prev⟩⟩

theorem decoderOk_seed {z : Lzw} : DecoderOk { z with dtab := seedDictionary, prev := none, dready := true } :=
  ⟨dictionaryInv_seedDictionary, fun q hq hnil => absurd (length_of_mem_seedDictionary hq) (by simp [hnil]), nofun⟩

/-- Every code the rule accepts stands for a sequence, and that is not empty. -/
theorem DecoderOk.sequenceOf_ok {z : Lzw} {r : Option (List Byte)} (h : DecoderOk z)
    (hr : sequenceOf z.dtab z.prev c = .ok r) : ∃ q, r = some q ∧ q ≠ [] := by
  have hentry : c < z.dtab.length → ∃ q, z.dtab[c]? = some q ∧ q ≠ [] := fun hc =>
    ⟨_, List.getElem?_eq_getElem hc, h.entries _ (List.getElem_mem hc)⟩
  unfold sequenceOf at hr
  split at hr
  · split at hr
    · cases hr
    · rename_i hc
      cases hr
      exact hentry (lt_of_lt_of_le (not_le.mp hc) h.dictionary.1)
  · rename_i p hp
    split at hr
    · rename_i hc
      cases hr
      exact hentry hc
    · split at hr
      · cases hr
        cases p with
        | nil => exact absurd hp h.prev
        | cons first p => exact ⟨_, rfl, by simp⟩
      · cases hr

theorem sinkPutAll_reading (bs : List Byte) (n : Nat) : Safe (fun s => Reading s ∧ s.bitsToRead.length ≤ n) (sinkPutAll bs)
    fun _ t => Reading t ∧ t.bitsToRead.length ≤ n := by
  induction bs with
  | nil => exact .pure fun s hs => hs
  | cons b bs ih => exact .bind (sinkPut_reading b n) fun _ => ih

/-- In the decoder's loop, with at most `n` bits still to come. -/
structure DecodingCodes (n : Nat) (s : State) : Prop where
  decoder : DecoderOk s.lzw
  reading : Reading s
  bits : s.bitsToRead.length ≤ n

theorem emitSequence_safe (hq : q ≠ []) (n : Nat) : Safe (DecodingCodes n) (emitSequence q) fun _ t => DecodingCodes n t := by
  cases q with
  | nil => exact absurd rfl hq
  | cons first q =>
    refine (Safe.bind ((sinkPutAll_reading (first :: q) n).frame (Acts.sinkPutAll _) (R := fun s => DecoderOk s.lzw)
      fun s t hu hs => ?_) fun _ => .change fun s hs => ?_).pre fun s hs => ⟨⟨hs.reading, hs.bits⟩, hs.decoder⟩
    · have hlzw := hu.lzw (by decide)
      rwa [hlzw]
    · obtain ⟨⟨hreading, hbits⟩, hz⟩ := hs
      refine ⟨⟨hz.dictionary.registerEntry _ _, fun q' hq' => ?_, by simp⟩,
        ⟨hreading.cursor, hreading.lookahead, hreading.wf⟩, hbits⟩
      obtain ⟨i, hi⟩ := List.mem_iff_getElem?.mp hq'
      rcases registerEntry_getElem? hi with hold | ⟨-, p, -, rfl⟩
      · exact hz.entries q' (List.mem_of_getElem? hold)
      · simp

/-- `DecCode()` keeps the decoder's and the reader's invariants, and takes bits when it answers a code. -/
theorem decCode_safe (n : Nat) : Safe (DecodingCodes n) decCode
    fun c t => DecodingCodes n t ∧ (c ≠ none → t.bitsToRead.length < n) := by
  refine .bind (Q := fun v s => DecodingCodes n s ∧ ∀ w, v = .value w → s.bitsToRead.length + codeW ≤ n)
    (((readBits_safe codeW n).frame (Acts.readBits _) (R := fun s => DecoderOk s.lzw) fun s t hu hs => ?_).mono
      (fun s hs => ⟨⟨hs.reading, hs.bits⟩, hs.decoder⟩) fun v t ht => ⟨⟨ht.2, ht.1.1, ht.1.2.1⟩, ht.1.2.2⟩) fun v => ?_
  · have hlzw := hu.lzw (by decide)
    rwa [hlzw]
  cases v with
  | eos g => exact .ite (fun _ => .pure fun s hs => ⟨hs.1, fun h => absurd rfl h⟩) fun _ => .raise
  | value c =>
    refine .look_bind fun r => ?_
    cases r with
    | error info => exact .raise
    | ok r =>
      by_cases hr : (∃ q, r = some q ∧ q ≠ []) ∧ codeW ≤ n
      · obtain ⟨⟨q, rfl, hq⟩, hn⟩ := hr
        refine Safe.bind ((emitSequence_safe hq (n - codeW)).pre fun s hs =>
          ⟨hs.1.1.decoder, hs.1.1.reading, Nat.le_sub_of_add_le (hs.1.2 c rfl)⟩) fun _ => .pure fun s hs =>
          ⟨⟨hs.decoder, hs.reading, hs.bits.trans (Nat.sub_le _ _)⟩, fun _ => lt_of_le_of_lt hs.bits ?_⟩
        exact Nat.sub_lt (lt_of_lt_of_le (by decide) hn) (by decide)
      · exact .unreached fun s hs => hr ⟨hs.1.1.decoder.sequenceOf_ok hs.2, (Nat.le_add_left _ _).trans (hs.1.2 c rfl)⟩

theorem decCode_decoding : Safe (fun s => DecoderOk s.lzw ∧ Reading s) decCode fun _ t => DecoderOk t.lzw ∧ Reading t :=
  .named (fun s => s.bitsToRead.length) fun n => (decCode_safe n).mono (fun _ hs => ⟨hs.1.1, hs.1.2, hs.2.le⟩)
    fun _ _ ht => ⟨ht.1.decoder, ht.1.reading⟩

/-- The loop of R140 ends before its bound: every code takes bits. -/
theorem decodeAllCodes_safe (fuel : Nat) {n : Nat} (hn : n < fuel) : Safe (DecodingCodes n) (decodeAllCodes fuel)
    fun _ t => DecoderOk t.lzw ∧ Reading t := by
  induction fuel generalizing n with
  | zero => exact absurd hn (Nat.not_lt_zero n)
  | succ fuel ih =>
    refine .bind (decCode_safe n) fun c => ?_
    cases c with
    | none => exact .pure fun s hs => ⟨hs.1.decoder, hs.1.reading⟩
    | some c =>
      obtain _ | n := n
      · exact .unreached fun s hs => absurd (hs.2 nofun) (Nat.not_lt_zero _)
      · exact (ih (Nat.lt_of_succ_lt_succ hn)).pre fun s hs =>
          ⟨hs.1.decoder, hs.1.reading, Nat.lt_succ_iff.mp (hs.2 nofun)⟩

end Sys2Proof.Machine
end

