-- ==== Sys2Proof/Proofs/Invariants.lean ====
section
/-! PROOF. Every command keeps the invariants of the units and reaches no stop (R12, R14, R19, R20, R23, R134, R154). What a
command's footprint does not touch keeps its invariant by itself; what it touches is the concern of the operation's own
rule. An entry point is a chain of commands that do. -/

namespace Sys2Proof.Machine

variable {s t u : State} {f : List Cell} {α β : Type} {checks : State → Checks} {i : Instr}

/-! ### The invariants, cell by cell -/

/-- The invariants of the units, and the memory's form. -/
structure Good (s : State) : Prop where
  writer : WriterInv s
  reader : ReaderInv s
  queue : QueueInv s
  huffman : HuffmanInv s.huf
  codes : CodesInv s
  encoder : s.lzw.eready = true → EncoderOk s.lzw
  decoder : s.lzw.dready = true → DecoderOk s.lzw
  wf : s.mem.wf = true

theorem good_iff : Good s ↔ UnitsInv s ∧ s.mem.wf = true :=
  ⟨fun h => ⟨⟨h.writer, h.reader, h.queue, h.huffman, h.codes, encoderInv_iff.mpr h.encoder, decoderInv_iff.mpr h.decoder⟩,
    h.wf⟩, fun ⟨⟨hw, hr, hq, hh, hc, he, hd⟩, hwf⟩ => ⟨hw, hr, hq, hh, hc, encoderInv_iff.mp he, decoderInv_iff.mp hd, hwf⟩⟩

theorem Within.bw (hu : Within f s t) (hf : ∀ c ∈ [Cell.writer, .writerOpen], c ∉ f) : t.bw = s.bw := by
  obtain ⟨hacc, hk⟩ := hu.same .writer (hf _ (by decide))
  have hopen := hu.same .writerOpen (hf _ (by decide))
  calc t.bw = ⟨t.bw.isOpen, t.bw.acc, t.bw.k⟩ := rfl
    _ = ⟨s.bw.isOpen, s.bw.acc, s.bw.k⟩ := by rw [hacc, hk, hopen]

theorem Within.br (hu : Within f s t) (hf : ∀ c ∈ [Cell.reader, .readerOpen], c ∉ f) : t.br = s.br := by
  have hreader := hu.same .reader (hf _ (by decide))
  have hopen := hu.same .readerOpen (hf _ (by decide))
  calc t.br = { { t.br with isOpen := false } with isOpen := t.br.isOpen } := rfl
    _ = { { s.br with isOpen := false } with isOpen := s.br.isOpen } := by rw [hreader, hopen]
    _ = s.br := rfl

theorem ReaderInv.of_within (h : ReaderInv s) (hu : Within f s t)
    (hf : ∀ c ∈ [Cell.reader, .readerOpen, .srcPos], c ∉ f) : ReaderInv t := by
  have hbr := hu.br fun c hc => hf c (by simp at hc ⊢; tauto)
  have hpos : t.mem.srcPos = s.mem.srcPos := hu.same .srcPos (hf _ (by decide))
  unfold ReaderInv LookaheadInv at h ⊢
  rwa [hbr, hpos, hu.srcData]

theorem HuffmanInv.of_within (h : HuffmanInv s.huf) (hu : Within f s t) (hf : ∀ c ∈ treeCells, c ∉ f) :
    HuffmanInv t.huf := by
  have hnodes := hu.same .nodes (hf _ (by decide))
  have hroot := hu.same .root (hf _ (by decide))
  have htree := hu.same .treeOk (hf _ (by decide))
  have hderived := hu.same .derived (hf _ (by decide))
  unfold HuffmanInv at h ⊢
  rwa [hnodes, hroot, htree, hderived]

theorem CodesInv.of_within (h : CodesInv s) (hu : Within f s t) (hf : .code ∉ f) : CodesInv t := by
  have hcode := hu.same .code hf
  unfold CodesInv at h ⊢
  rwa [hcode, hu.params]

theorem EncoderOk.of_within (h : s.lzw.eready = true → EncoderOk s.lzw) (hu : Within f s t)
    (hf : ∀ c ∈ [Cell.edict, .buf, .eready], c ∉ f) : t.lzw.eready = true → EncoderOk t.lzw := by
  have hedict := hu.same .edict (hf _ (by decide))
  have hbuf := hu.same .buf (hf _ (by decide))
  have heready := hu.same .eready (hf _ (by decide))
  rw [heready]
  intro hr
  obtain ⟨hd, hn, hp, hb⟩ := h hr
  rw [← hedict] at hd hn hp
  rw [← hbuf, ← hedict] at hb
  exact ⟨hd, hn, hp, hb⟩

theorem DecoderOk.of_within (h : s.lzw.dready = true → DecoderOk s.lzw) (hu : Within f s t)
    (hf : ∀ c ∈ [Cell.dtab, .prev, .dready], c ∉ f) : t.lzw.dready = true → DecoderOk t.lzw := by
  have hdtab := hu.same .dtab (hf _ (by decide))
  have hprev := hu.same .prev (hf _ (by decide))
  have hdready := hu.same .dready (hf _ (by decide))
  rw [hdready]
  intro hr
  obtain ⟨hd, he, hp⟩ := h hr
  rw [← hdtab] at hd he
  rw [← hprev] at hp
  exact ⟨hd, he, hp⟩

/-- An invariant whose cells the footprint leaves is kept; the others have to be shown. -/
theorem Good.of_within (h : Good s) (hu : Within f s t)
    (writer : (∀ c ∈ [Cell.writer, .writerOpen], c ∉ f) ∨ WriterInv t := by exact .inl (by decide))
    (reader : (∀ c ∈ [Cell.reader, .readerOpen, .srcPos], c ∉ f) ∨ ReaderInv t := by exact .inl (by decide))
    (queue : .pqMode ∉ f ∨ QueueInv t := by exact .inl (by decide))
    (huffman : (∀ c ∈ treeCells, c ∉ f) ∨ HuffmanInv t.huf := by exact .inl (by decide))
    (codes : .code ∉ f ∨ CodesInv t := by exact .inl (by decide))
    (encoder : (∀ c ∈ [Cell.edict, .buf, .eready], c ∉ f) ∨ (t.lzw.eready = true → EncoderOk t.lzw) := by
      exact .inl (by decide))
    (decoder : (∀ c ∈ [Cell.dtab, .prev, .dready], c ∉ f) ∨ (t.lzw.dready = true → DecoderOk t.lzw) := by
      exact .inl (by decide)) : Good t where
  writer := writer.elim (fun hf => by
    have hbw := hu.bw hf
    have hw := h.writer
    unfold WriterInv at hw ⊢
    rwa [hbw]) id
  reader := reader.elim (h.reader.of_within hu) id
  queue := queue.elim (fun hf => by
    obtain ⟨hcreated, hcmp⟩ := hu.same .pqMode hf
    have hq := h.queue
    unfold QueueInv at hq ⊢
    rwa [hcreated, hcmp]) id
  huffman := huffman.elim (h.huffman.of_within hu) id
  codes := codes.elim (h.codes.of_within hu) id
  encoder := encoder.elim (EncoderOk.of_within h.encoder hu) id
  decoder := decoder.elim (DecoderOk.of_within h.decoder hu) id
  wf := hu.wf h.wf

/-! ### Commands that keep them -/

/-- Once its preconditions hold, the pseudocode keeps the invariants and reaches no stop. -/
def Sound (checks : State → Checks) (body : M α) : Prop :=
  Safe (fun s => Good s ∧ firstFailed (checks s) = none) body fun _ t => Good t

theorem holds_of_checks {check : Bool × Cause} {cs : Checks} (h : firstFailed cs = none) (hmem : check ∈ cs) :
    check.1 = true :=
  (firstFailed_eq_none cs).mp h check hmem

namespace Safe

variable {P Q' : State → Prop} {m : M α} {Q T : α → State → Prop}

/-- What an operation ensures, with what its footprint says. -/
theorem since (hm : Safe P m Q) (ha : Acts f m) (h : ∀ s a t, P s → Within f s t → Q a t → T a t) : Safe P m T :=
  ⟨fun hs hok => h _ _ _ hs (ha.ok hok) (hm.ok hs hok), hm.notStuck⟩

theorem ensuring (hm : Safe P m Q) (he : Ensures Q' m) : Safe P m fun a t => Q a t ∧ Q' t :=
  ⟨fun hs hok => ⟨hm.ok hs hok, he _ _ _ hok⟩, hm.notStuck⟩

theorem done (hm : Safe P m fun _ t => Q' t) {v : β} : Safe P (m >>= fun _ => Pure.pure v) fun _ t => Q' t :=
  .bind hm fun _ => .pure fun _ ht => ht

end Safe

/-- A command without stops, by its footprint. -/
theorem Sound.of_acts {m : M α} (ha : Acts f m) (hf : .stops ∉ f)
    (h : ∀ s a t, Good s → firstFailed (checks s) = none → m s = .ok a t → Within f s t → Good t) : Sound checks m :=
  Safe.of_acts ha hf fun s a t hs hm => h s a t hs.1 hs.2 hm (ha.ok hm)

/-- A command that touches no cell of an invariant. -/
theorem Sound.of_within {m : M α} (ha : Acts f m) (hf : .stops ∉ f) (h : ∀ s t, Good s → Within f s t → Good t) :
    Sound checks m :=
  .of_acts ha hf fun s _ t hs _ _ hu => h s t hs hu

/-! ### The bit channel -/

theorem Good.reading (hs : Good s) (hopen : s.br.isOpen = true) : Reading s :=
  ⟨(hs.reader hopen).1, (hs.reader hopen).2, hs.wf⟩

theorem Reading.readerInv (h : Reading s) : ReaderInv s := fun _ => ⟨h.cursor, h.lookahead⟩

theorem readerInv_of_closed (h : s.br.isOpen = false) : ReaderInv s := fun hopen => by
  rw [h] at hopen
  cases hopen

theorem writerInv_of_acc (h : AccInv s.bw) : WriterInv s := fun _ => h

theorem brOpen_sound : Sound brOpenChecks brOpenBody := by
  refine .of_acts Acts.brOpenBody (by decide) fun s a t hs _ hm hu => hs.of_within hu (reader := .inr fun _ => ?_)
  obtain ⟨_, s₁, -, h₁⟩ := bind_eq_ok.mp hm
  cases h₁
  exact ⟨⟨nofun, fun _ => rfl⟩, rfl, rfl⟩

/-- A command that reads bits. -/
theorem Sound.of_reading {m : M α} (ha : Acts readerCells m) (hm : Safe Reading m fun _ t => Reading t)
    (hopen : ∀ s, firstFailed (checks s) = none → s.br.isOpen = true) : Sound checks m :=
  (hm.pre fun s (hs : Good s ∧ firstFailed (checks s) = none) => hs.1.reading (hopen s hs.2)).since ha
    fun _ _ _ hs hu ht => hs.1.of_within hu (reader := .inr ht.readerInv)

theorem brReadBit_sound : Sound brReadBitChecks brReadBitBody := by
  refine .of_reading Acts.brReadBitBody (.bind readBit_reading fun b => ?_) fun s hc => holds_of_checks hc (.head _)
  cases b <;> exact .pure fun _ hs => hs

theorem brReadBits_sound (n : BitVec 8) : Sound (brReadBitsChecks n) (brReadBitsBody n) := by
  refine .of_reading (Acts.brReadBitsBody n) (.bind (readBits_reading _) fun v => ?_) fun s hc => holds_of_checks hc (.head _)
  cases v <;> exact .pure fun _ hs => hs

theorem brClose_sound : Sound brCloseChecks brCloseBody :=
  .of_acts Acts.brCloseBody (by decide) fun s a t hs _ hm hu =>
    hs.of_within hu (reader := .inr (readerInv_of_closed (brCloseBody_ensures s a t hm)))

theorem bwOpen_sound : Sound bwOpenChecks bwOpenBody := by
  refine .of_acts Acts.bwOpenBody (by decide) fun s a t hs _ hm hu => hs.of_within hu (writer := .inr fun _ => ?_)
  obtain ⟨_, s₁, -, h₁⟩ := bind_eq_ok.mp hm
  cases h₁
  show (0 : Byte).toNat < 2 ^ (0 : BitVec 3).toNat
  decide

theorem Good.acc (hs : Good s) (hopen : s.bw.isOpen = true) : AccInv s.bw := hs.writer hopen

/-- A command that writes bits. -/
theorem Sound.of_writing {m : M α} (ha : Acts f m) (hm : Safe (fun s => AccInv s.bw) m fun _ t => AccInv t.bw)
    (hopen : ∀ s, firstFailed (checks s) = none → s.bw.isOpen = true)
    (hf : f ⊆ .stops :: writerCells := by decide) : Sound checks m :=
  (hm.pre fun s (hs : Good s ∧ firstFailed (checks s) = none) => hs.1.acc (hopen s hs.2)).since (ha.mono hf)
    fun _ _ _ hs hu ht => hs.1.of_within hu (writer := .inr (writerInv_of_acc ht))

theorem bwWriteBit_sound (bit : BitVec 8) : Sound (bwWriteBitChecks bit) (bwWriteBitBody bit) :=
  .of_writing (Acts.bwWriteBitBody bit) (writeBit_safe _).done fun s hc => holds_of_checks hc (.head _)

theorem bwWriteBits_sound (n : BitVec 8) (value : BitVec 64) : Sound (bwWriteBitsChecks n value) (bwWriteBitsBody n value) :=
  .of_writing (Acts.bwWriteBitsBody n value) (writeBitList_safe _).done fun s hc => holds_of_checks hc (.head _)

theorem bwClose_sound : Sound bwCloseChecks bwCloseBody :=
  .of_acts Acts.bwCloseBody (by decide) fun s a t hs _ hm hu => hs.of_within hu (writer := .inr fun hopen => by
    rw [bwCloseBody_ensures s a t hm] at hopen
    cases hopen)

/-! ### The queue -/

theorem pqCreate_sound (cmp : BitVec 8) : Sound (pqCreateChecks cmp) (pqCreateBody cmp) := by
  refine .of_acts (Acts.pqCreateBody cmp) (by decide) fun s a t hs hc hm hu => hs.of_within hu (queue := .inr fun _ => ?_)
  cases hm
  exact beq_iff_eq.mp (holds_of_checks hc (.head _))

theorem pqInsert_sound (item : BitVec 64) : Sound (pqInsertChecks item) (pqInsertBody item) :=
  (((pqInsert_safe item.toNat fun _ => True).done (v := done)).pre fun _ hs =>
    ⟨hs.1.queue (holds_of_checks hs.2 (.head _)), trivial⟩).since (Acts.pqInsertBody item) fun _ _ _ hs hu _ =>
      hs.1.of_within hu

theorem pqExtractMin_sound : Sound pqExtractMinChecks pqExtractMinBody :=
  ((Safe.bind (pqExtractMin_safe fun _ _ => True) fun _ => .pure (Q := fun _ _ => True) fun _ _ => trivial).pre fun _ hs =>
    ⟨hs.1.queue (holds_of_checks hs.2 (.head _)), fun _ _ _ => trivial⟩).since Acts.pqExtractMinBody fun _ _ _ hs hu _ =>
      hs.1.of_within hu

theorem pqSize_sound : Sound pqSizeChecks pqSizeBody :=
  .of_within Acts.pqSizeBody (by decide) fun _ _ hs hu => hs.of_within hu

theorem pqIsEmpty_sound : Sound pqIsEmptyChecks pqIsEmptyBody :=
  .of_within Acts.pqIsEmptyBody (by decide) fun _ _ hs hu => hs.of_within hu

/-! ### The tree commands -/

/-- A port access, or a move of the source position, disturbs no writer. -/
theorem AccInv.of_source (hu : Within [.ports, .srcPos] s t) (h : AccInv s.bw) : AccInv t.bw := by
  rwa [hu.bw (by decide)]

theorem hufCount_sound : Sound hufCountChecks hufCountBody := by
  have hloop : ∀ n, Safe (fun s => True ∧ sourceBudget s ≤ n) (forEachSourceByte countByte n) fun _ _ => True := fun n =>
    forEachSourceByte_safe (fun b => .of_within (Acts.countByte b) (by decide) fun _ _ _ _ => trivial) Acts.countByte
      (by decide) (fun _ _ _ _ => trivial) n
  refine Safe.since (Q := fun _ t => t.huf.treeOk = false ∧ t.huf.derived = false)
    (.bind (Q := fun _ _ => True) (.of_within (Acts.portAccess 1) (by decide) fun _ _ _ _ => trivial) fun _ =>
    .bind (Q := fun _ _ => True) (.change fun _ _ => trivial) fun _ =>
    .bind (Q := fun _ _ => True) (.change fun _ _ => trivial) fun _ => .look_bind fun n =>
    .bind ((hloop n).pre fun s hs => ⟨trivial, hs.2.le⟩) fun _ =>
    .bind (Q := fun _ _ => True) (.of_within (Acts.portAccess 1) (by decide) fun _ _ _ _ => trivial) fun _ =>
    (Safe.change fun _ _ => ⟨rfl, rfl⟩).done) Acts.hufCountBody fun s _ t hs hu ht => ?_
  have hclosed : s.br.isOpen = false := by simpa [needSourceFree] using holds_of_checks hs.2 (.head _)
  have hnodes : t.huf.nodes = s.huf.nodes := hu.same .nodes (by decide)
  refine hs.1.of_within hu (reader := .inr (readerInv_of_closed (Eq.trans (hu.same .readerOpen (by decide)) hclosed)))
    (huffman := .inr ⟨hnodes ▸ hs.1.huffman.1, fun h => ?_, fun h => ?_⟩)
  · rw [ht.1] at h
    cases h
  · rw [ht.2] at h
    cases h

theorem HuffmanInv.alloc {h : Huffman} {node : Node} (hh : HuffmanInv h)
    (hnode : ∀ l r, node.kind = .internal l r → l < h.nodes.length ∧ r < h.nodes.length) :
    HuffmanInv { h with nodes := h.nodes ++ [node] } :=
  ⟨arenaOrdered_append_singleton hh.1 hnode, fun ht => (hh.2.1 ht).trans_le (by simp), hh.2.2⟩

theorem hufMkLeaf_sound (byte : BitVec 8) (weight : BitVec 64) :
    Sound (hufMkLeafChecks weight) (hufMkLeafBody byte weight) :=
  ((Safe.bind (allocNode_safe _ fun _ t => HuffmanInv t.huf) fun _ => .pure fun _ ht => ht).pre fun _ hs =>
    hs.1.huffman.alloc fun _ _ h => nomatch h).since (Acts.hufMkLeafBody byte weight) fun _ _ _ hs hu ht =>
      hs.1.of_within hu (huffman := .inr ht)

theorem hufMkNode_sound (upper : BitVec 32) (left right : BitVec 16) :
    Sound (hufMkNodeChecks upper left right) (hufMkNodeBody left right) := by
  refine ((Safe.bind (mkNode_safe _ _ fun _ t => HuffmanInv t.huf) fun _ => .pure fun _ ht => ht).pre fun s hs => ?_).since
    (Acts.hufMkNodeBody left right) fun _ _ _ hs hu ht => hs.1.of_within hu (huffman := .inr ht)
  have hchildren := holds_of_checks hs.2 (.head _)
  simp only [argChildren, Bool.and_eq_true, decide_eq_true_eq] at hchildren
  obtain ⟨⟨-, hl⟩, hr⟩ := hchildren
  refine hs.1.huffman.alloc fun l r h => ?_
  cases h
  exact ⟨hl, hr⟩

theorem Built.huffmanInv (h : Built s) : HuffmanInv s.huf :=
  ⟨h.building.arenaOrdered, fun _ => by have := h.root_add_one; omega, fun _ => h.treeOk⟩

theorem hufBuild_sound : Sound hufBuildChecks hufBuildBody :=
  (hufBuildBody_safe.pre fun _ _ => trivial).since Acts.hufBuildBody fun _ _ _ hs hu ht =>
    hs.1.of_within hu (huffman := .inr ht.huffmanInv) (queue := .inr fun _ => ht.building.cmp)

theorem hufDerive_sound : Sound hufDeriveChecks hufDeriveBody := by
  refine Safe.since (Q := fun _ t => CodesInv t ∧ HuffmanInv t.huf)
    (.bind (Q := fun _ s => CodesInv s ∧ HuffmanInv s.huf ∧ s.huf.treeOk = true) (.change fun s hs => ?_) fun _ =>
    .bind (heldTree_safe _ fun s hs => hs.2.1.exists_tree hs.2.2) fun T =>
    .bind ((putCodes_safe T).frame (Acts.putCodes T) (R := fun s => HuffmanInv s.huf ∧ s.huf.treeOk = true)
      fun s t hu hs => ?_) fun _ => (Safe.change fun s hs => ?_).done)
    Acts.hufDeriveBody fun _ _ _ hs hu ht => hs.1.of_within hu (huffman := .inr ht.2) (codes := .inr ht.1)
  · refine ⟨fun _ b c hc => ?_, hs.1.huffman, holds_of_checks hs.2 (.head _)⟩
    simp [Table.at] at hc
  · exact ⟨hs.1.of_within hu (by decide), Eq.trans (hu.same .treeOk (by decide)) hs.2⟩
  · obtain ⟨hcodes, ⟨hord, hroot, -⟩, htree⟩ := hs
    exact ⟨hcodes, hord, hroot, fun _ => htree⟩

theorem serialize_safe (T : Tree) : Safe (fun s => AccInv s.bw) (serialize T) fun _ t => AccInv t.bw := by
  induction T with
  | leaf b => exact .bind (writeBit_safe _) fun _ => writeBitList_safe _
  | node l r ihl ihr => exact .bind (writeBit_safe _) fun _ => .bind ihl fun _ => ihr

theorem hufSerialize_sound : Sound hufSerializeChecks hufSerializeBody :=
  ((Safe.bind (heldTree_safe (fun s => AccInv s.bw ∧ ∃ T, s.huf.tree = some T) fun _ hs => hs.2) fun T =>
    ((serialize_safe T).pre fun _ hs => hs.1).done).pre fun _ hs =>
      ⟨hs.1.acc (holds_of_checks hs.2 (.tail _ (.head _))), hs.1.huffman.exists_tree (holds_of_checks hs.2 (.head _))⟩).since
    Acts.hufSerializeBody fun _ _ _ hs hu ht => hs.1.of_within hu (writer := .inr (writerInv_of_acc ht))

theorem encodeByte_safe (b : Byte) : Safe (fun s => AccInv s.bw) (encodeByte b) fun _ t => AccInv t.bw := by
  refine .look_bind fun code => ?_
  cases code with
  | none => exact .raise
  | some bits => exact (writeBitList_safe bits).pre fun _ hs => hs.1

theorem hufEncode_sound : Sound hufEncodeChecks hufEncodeBody := by
  refine Safe.since (Q := fun _ t => AccInv t.bw)
    (.bind (Q := fun _ s => AccInv s.bw) (.of_within ((Acts.portAccess 1).mono (by decide)) (by decide) fun s t hs hu =>
      AccInv.of_source hu (hs.1.acc (holds_of_checks hs.2 (.tail _ (.head _))))) fun _ =>
    .bind (Q := fun _ s => AccInv s.bw) (.change fun _ hs => hs) fun _ => .look_bind fun n =>
    .bind ((forEachSourceByte_safe encodeByte_safe Acts.encodeByte (by decide) (fun _ _ => AccInv.of_source) n).pre
      fun s hs => ⟨hs.1, hs.2.le⟩) fun _ =>
    (Safe.of_within ((Acts.portAccess 1).mono (by decide)) (by decide) fun s t hs hu => AccInv.of_source hu hs).done)
    Acts.hufEncodeBody fun s _ t hs hu ht => ?_
  have hclosed : s.br.isOpen = false := by
    simpa [needSourceFree] using holds_of_checks hs.2 (.tail _ (.tail _ (.head _)))
  exact hs.1.of_within hu (writer := .inr (writerInv_of_acc ht))
    (reader := .inr (readerInv_of_closed (Eq.trans (hu.same .readerOpen (by decide)) hclosed)))

theorem hufDeserialize_sound : Sound hufDeserializeChecks hufDeserializeBody := by
  refine Safe.since (Q := fun _ t => Reading t ∧ HuffmanInv t.huf)
    (.bind (Q := fun _ s => Reading s ∧ s.huf.nodes = []) (.change fun s hs => ?_) fun _ => .look_bind fun n =>
    .bind (Q := fun i s => Reading s ∧ ArenaOrdered s.huf.nodes ∧ i < s.huf.nodes.length) ?_ fun root =>
    (Safe.change fun s hs => ?_).done) Acts.hufDeserializeBody fun _ _ _ hs hu ht =>
      hs.1.of_within hu (reader := .inr ht.1.readerInv) (huffman := .inr ht.2)
  · have hreading := hs.1.reading (holds_of_checks hs.2 (.head _))
    exact ⟨⟨hreading.cursor, hreading.lookahead, hreading.wf⟩, rfl⟩
  · obtain _ | n := n
    · exact .unreached fun s hs => by simpa [hs.2] using bitsToRead_length_lt_bitBudget s
    · refine (deserialize_safe (n + 1) (Nat.lt_succ_self n) 0).mono (fun s hs => ?_) fun i t ht =>
        ⟨ht.1.reading, ht.1.ordered, ht.2⟩
      obtain ⟨⟨hreading, hnil⟩, hn⟩ := hs
      exact ⟨hreading, Nat.lt_succ_iff.mp (lt_of_lt_of_eq (bitsToRead_length_lt_bitBudget s) hn), fun i l r w hi => by simp [hnil] at hi,
        Nat.zero_le _⟩
  · exact ⟨⟨hs.1.cursor, hs.1.lookahead, hs.1.wf⟩, hs.2.1, fun _ => hs.2.2, fun _ => rfl⟩

theorem hufDecode_sound : Sound hufDecodeChecks hufDecodeBody :=
  ((Safe.bind (heldTree_safe (fun s => Reading s ∧ ∃ T, s.huf.tree = some T) fun _ hs => hs.2) fun T =>
    .look_bind fun n => ((decodeWith_safe T n).pre
      fun s (hs : (Reading s ∧ ∃ T, s.huf.tree = some T) ∧ bitBudget s = n) =>
      ⟨hs.1.1, lt_of_lt_of_eq (bitsToRead_length_lt_bitBudget s) hs.2⟩).done).pre fun _ hs =>
      ⟨hs.1.reading (holds_of_checks hs.2 (.tail _ (.head _))), hs.1.huffman.exists_tree (holds_of_checks hs.2 (.head _))⟩).since
    Acts.hufDecodeBody fun _ _ _ hs hu ht => hs.1.of_within hu (reader := .inr ht.readerInv)

/-! ### The LZW commands -/

theorem lzwEncReset_sound : Sound lzwEncResetChecks lzwEncResetBody :=
  .of_acts Acts.lzwEncResetBody (by decide) fun s a t hs _ hm hu => hs.of_within hu (encoder := .inr fun _ => by
    cases hm
    exact encoderOk_seed)

theorem lzwDecReset_sound : Sound lzwDecResetChecks lzwDecResetBody :=
  .of_acts Acts.lzwDecResetBody (by decide) fun s a t hs _ hm hu => hs.of_within hu (decoder := .inr fun _ => by
    cases hm
    exact decoderOk_seed)

theorem lzwEncByte_sound (y : BitVec 64) : Sound (lzwEncByteChecks y) (lzwEncByteBody y) :=
  ((encByte_safe (byteOperand y)).done.pre fun _ hs =>
    ⟨hs.1.encoder (holds_of_checks hs.2 (.head _)), hs.1.acc (holds_of_checks hs.2 (.tail _ (.head _)))⟩).since
    (Acts.lzwEncByteBody y) fun _ _ _ hs hu ht =>
      hs.1.of_within hu (writer := .inr (writerInv_of_acc ht.2)) (encoder := .inr fun _ => ht.1)

theorem lzwEncFlush_safe : Safe (fun s => EncoderOk s.lzw ∧ AccInv s.bw) lzwEncFlushBody
    fun _ t => EncoderOk t.lzw ∧ AccInv t.bw := by
  refine .look_bind fun buf => .bind (Q := fun _ s => EncoderOk s.lzw ∧ AccInv s.bw) (.ite (fun hbuf => ?_) fun _ =>
    .pure fun _ hs => hs.1) fun _ => (Safe.change fun s hs =>
      ⟨⟨hs.1.dictionary, hs.1.nodup, hs.1.prefixClosed, .inl rfl⟩, hs.2⟩).done
  refine (emitMatch_safe.frame Acts.emitMatch (R := fun s => EncoderOk s.lzw) fun s t hu hs => ?_).mono (fun s hs => ?_)
    fun _ _ ht => ⟨ht.2, ht.1⟩
  · have hlzw := hu.lzw (by decide)
    rwa [hlzw]
  · obtain ⟨⟨hz, hacc⟩, rfl⟩ := hs
    exact ⟨⟨hacc, hz.buf.resolve_left (by simpa using hbuf)⟩, hz⟩

theorem lzwEncFlush_sound : Sound lzwEncFlushChecks lzwEncFlushBody :=
  (lzwEncFlush_safe.pre fun _ hs =>
    ⟨hs.1.encoder (holds_of_checks hs.2 (.head _)), hs.1.acc (holds_of_checks hs.2 (.tail _ (.head _)))⟩).since
    Acts.lzwEncFlushBody fun _ _ _ hs hu ht =>
      hs.1.of_within hu (writer := .inr (writerInv_of_acc ht.2)) (encoder := .inr fun _ => ht.1)

theorem lzwDecCode_sound : Sound lzwDecCodeChecks lzwDecCodeBody := by
  refine ((Safe.bind decCode_decoding fun c => ?_).pre fun _ hs =>
    ⟨hs.1.decoder (holds_of_checks hs.2 (.head _)), hs.1.reading (holds_of_checks hs.2 (.tail _ (.head _)))⟩).since
    (Q := fun _ t => DecoderOk t.lzw ∧ Reading t) Acts.lzwDecCodeBody fun _ _ _ hs hu ht =>
      hs.1.of_within hu (reader := .inr ht.2.readerInv) (decoder := .inr fun _ => ht.1)
  cases c <;> exact .pure fun _ hs => hs

end Sys2Proof.Machine
end

