-- ==== Sys2Proof/Proofs/StepInvariant.lean ====
section
/-! PROOF. The invariant of the block over a step, and that every step ends (R26, R152 to R154, R175, R176). A command of a
block that is not held is refused, or returns from a run that kept the invariants, or raises; the last two record a fault,
after which the unit state is not specified. -/

namespace Sys2Proof.Machine

variable {s t u : State} {f : List Cell} {α β : Type} {checks : State → Checks} {i : Instr}

/-! ### The entry points -/

theorem Good.inPhase (h : Good s) (p : Phase) : Good (s.inPhase p) :=
  ⟨h.writer, h.reader, h.queue, h.huffman, h.codes, h.encoder, h.decoder, h.wf⟩

/-- A step of an entry point tests its preconditions itself. -/
theorem Sound.substep {m : M α} (h : Sound checks m) (p : Phase) : Safe Good (substep p checks m) fun _ t => Good t := by
  refine .bind (Q := fun _ s => Good s) (.change fun s hs => hs.inPhase p) fun _ => .look_bind fun c => ?_
  cases c with
  | none => exact h
  | some c => exact .raise

theorem endMacro_safe : Safe Good endMacro fun _ t => Good t :=
  (Safe.change (Q := fun _ t => Good t) fun _ hs => hs.inPhase .idle).done

theorem portAccess_good (info : Byte) : Safe Good (portAccess info) fun _ t => Good t :=
  .of_within (Acts.portAccess info) (by decide) fun _ _ hs hu => hs.of_within hu

theorem sinkOpen_good : Safe Good sinkOpen fun _ t => Good t :=
  .of_within Acts.sinkOpen (by decide) fun _ _ hs hu => hs.of_within hu

theorem hufCompress_sound : Sound hufCompressChecks hufCompressBody :=
  (Safe.bind (hufCount_sound.substep _) fun _ => .bind (hufBuild_sound.substep _) fun _ =>
    .bind (hufDerive_sound.substep _) fun _ => .bind (bwOpen_sound.substep _) fun _ =>
    .bind (hufSerialize_sound.substep _) fun _ => .bind (hufEncode_sound.substep _) fun _ =>
    .bind (bwClose_sound.substep _) fun _ => endMacro_safe).pre fun _ hs => hs.1

theorem hufDecompress_sound : Sound hufDecompressChecks hufDecompressBody :=
  (Safe.bind (brOpen_sound.substep _) fun _ => .bind sinkOpen_good fun _ => .bind (hufDeserialize_sound.substep _) fun _ =>
    .bind (hufDecode_sound.substep _) fun _ => .bind (brClose_sound.substep _) fun _ => .bind (portAccess_good 3) fun _ =>
    endMacro_safe).pre fun _ hs => hs.1

/-- In `LZW.COMPRESS`: the writer is open, and the source is not the reader's. -/
structure Compressing (s : State) : Prop where
  good : Good s
  writer : s.bw.isOpen = true
  reader : s.br.isOpen = false

theorem Compressing.of_within (h : Compressing s) (hu : Within f s t) (hgood : Good t)
    (hf : ∀ c ∈ [Cell.writerOpen, .readerOpen], c ∉ f := by decide) : Compressing t :=
  ⟨hgood, Eq.trans (hu.same .writerOpen (hf _ (by decide))) h.writer,
    Eq.trans (hu.same .readerOpen (hf _ (by decide))) h.reader⟩

theorem encByte_compressing (b : Byte) : Safe (fun s => Compressing s ∧ s.lzw.eready = true) (encByte b)
    fun _ t => Compressing t ∧ t.lzw.eready = true := by
  refine ((encByte_safe b).pre fun s hs => ⟨hs.1.good.encoder hs.2, hs.1.good.acc hs.1.writer⟩).since (Acts.encByte b)
    fun s _ t hs hu ht => ⟨hs.1.of_within hu (hs.1.good.of_within hu (writer := .inr (writerInv_of_acc ht.2))
      (encoder := .inr fun _ => ht.1)), Eq.trans (hu.same .eready (by decide)) hs.2⟩

theorem readerClosed_good (h : Good s) (hclosed : s.br.isOpen = false) (hu : Within [.ports, .srcPos] s t) : Good t :=
  h.of_within hu (reader := .inr (readerInv_of_closed (Eq.trans (hu.same .readerOpen (by decide)) hclosed)))

/-- An operation of the port leaves a compression as it is. -/
theorem port_compressing {m : M α} (ha : Acts [.ports, .srcPos] m) : Safe Compressing m fun _ t => Compressing t :=
  .of_within ha (by decide) fun _ _ hs hu => hs.of_within hu (readerClosed_good hs.good hs.reader hu)

theorem bwOpenBody_ensures : Ensures (fun t => t.bw.isOpen = true) bwOpenBody :=
  .bind fun _ => by rintro s _ _ ⟨⟩; rfl

theorem lzwEncResetBody_ensures : Ensures (fun t => t.lzw.eready = true) lzwEncResetBody := by
  rintro s _ _ ⟨⟩
  rfl

theorem lzwCompress_begins : Safe (fun s => Good s ∧ s.br.isOpen = false) (substep .opening bwOpenChecks bwOpenBody)
    fun _ t => Compressing t :=
  (((bwOpen_sound.substep .opening).ensuring (bwOpenBody_ensures.substep _ _)).pre
    fun _ (hs : Good _ ∧ _ = false) => hs.1).since (Acts.substep _ _ (fun _ => rfl) Acts.bwOpenBody) fun _ _ _ hs hu ht =>
      ⟨ht.1, ht.2, Eq.trans (hu.same .readerOpen (by decide)) hs.2⟩

theorem lzwEncReset_compressing : Safe Compressing (substep .lEncode lzwEncResetChecks lzwEncResetBody)
    fun _ t => Compressing t ∧ t.lzw.eready = true :=
  (((lzwEncReset_sound.substep .lEncode).ensuring (lzwEncResetBody_ensures.substep _ _)).pre
    fun _ (hs : Compressing _) => hs.good).since (Acts.substep _ _ (fun _ => rfl) Acts.lzwEncResetBody)
      fun _ _ _ hs hu ht => ⟨hs.of_within hu ht.1, ht.2⟩

theorem encodeLoop_compressing (n : Nat) :
    Safe (fun s => (Compressing s ∧ s.lzw.eready = true) ∧ sourceBudget s ≤ n) (forEachSourceByte encByte n)
      fun _ t => Compressing t ∧ t.lzw.eready = true :=
  forEachSourceByte_safe encByte_compressing Acts.encByte (by decide) (fun _ _ hu hs =>
    ⟨hs.1.of_within hu (readerClosed_good hs.1.good hs.1.reader hu), Eq.trans (hu.same .eready (by decide)) hs.2⟩) n

theorem lzwCompress_sound : Sound lzwCompressChecks lzwCompressBody := by
  refine (Safe.bind lzwCompress_begins fun _ => .bind (port_compressing ((Acts.portAccess 1).mono (by decide))) fun _ =>
    .bind (port_compressing (Acts.srcRewind.mono (by decide))) fun _ => .bind lzwEncReset_compressing fun _ =>
    .look_bind fun n => .bind ((encodeLoop_compressing n).pre fun _ hs => ⟨hs.1, hs.2.le⟩) fun _ =>
    .bind ((lzwEncFlush_sound.substep _).pre fun _ hs => hs.1.good) fun _ =>
    .bind (Sound.substep (Sound.of_within (Acts.portAccess 1) (by decide) fun _ _ hs hu => hs.of_within hu) _) fun _ =>
    .bind (bwClose_sound.substep _) fun _ => endMacro_safe).pre fun s hs => ⟨hs.1, ?_⟩
  have hfree := holds_of_checks hs.2 (.head _)
  simp only [needPortsFree, Bool.and_eq_true, Bool.not_eq_true'] at hfree
  exact hfree.1

/-- In `LZW.DECOMPRESS`: the reader is open. -/
structure Decompressing (s : State) : Prop where
  good : Good s
  reader : s.br.isOpen = true

theorem brOpenBody_ensures : Ensures (fun t => t.br.isOpen = true) brOpenBody :=
  .bind fun _ => by rintro s _ _ ⟨⟩; rfl

theorem lzwDecResetBody_ensures : Ensures (fun t => t.lzw.dready = true) lzwDecResetBody := by
  rintro s _ _ ⟨⟩
  rfl

theorem lzwDecReset_decompressing : Safe Decompressing (substep .lDecode lzwDecResetChecks lzwDecResetBody)
    fun _ t => Decompressing t ∧ t.lzw.dready = true :=
  (((lzwDecReset_sound.substep .lDecode).ensuring (lzwDecResetBody_ensures.substep _ _)).pre
    fun _ (hs : Decompressing _) => hs.good).since (Acts.substep _ _ (fun _ => rfl) Acts.lzwDecResetBody)
      fun _ _ _ hs hu ht => ⟨⟨ht.1, Eq.trans (hu.same .readerOpen (by decide)) hs.reader⟩, ht.2⟩

theorem decodeLoop_decompressing (n : Nat) :
    Safe (fun s => (Decompressing s ∧ s.lzw.dready = true) ∧ bitBudget s = n) (decodeAllCodes n) fun _ t => Good t := by
  obtain _ | n := n
  · exact .unreached fun s hs => by simpa [hs.2] using bitsToRead_length_lt_bitBudget s
  refine ((decodeAllCodes_safe (n + 1) (Nat.lt_succ_self n)).pre fun s hs => ?_).since (Acts.decodeAllCodes (n + 1))
    fun s _ t hs hu ht => hs.1.1.good.of_within hu (reader := .inr ht.2.readerInv) (decoder := .inr fun _ => ht.1)
  obtain ⟨⟨hd, hready⟩, hn⟩ := hs
  exact ⟨hd.good.decoder hready, hd.good.reading hd.reader,
    Nat.lt_succ_iff.mp (lt_of_lt_of_eq (bitsToRead_length_lt_bitBudget s) hn)⟩

theorem lzwDecompress_sound : Sound lzwDecompressChecks lzwDecompressBody :=
  (Safe.bind ((brOpen_sound.substep .opening).ensuring (brOpenBody_ensures.substep _ _)) fun _ =>
    .bind (Safe.since (Q := fun _ t => Good t) (sinkOpen_good.pre fun _ hs => hs.1) Acts.sinkOpen fun _ _ _ hs hu ht =>
      (⟨ht, Eq.trans (hu.same .readerOpen (by decide)) hs.2⟩ : Decompressing _)) fun _ =>
    .bind lzwDecReset_decompressing fun _ => .look_bind fun n => .bind (decodeLoop_decompressing n) fun _ =>
    .bind (brClose_sound.substep _) fun _ => .bind (portAccess_good 3) fun _ => endMacro_safe).pre fun _ hs => hs.1

/-! ### The dispatch -/

theorem exec_sound (hreset : i ≠ .sysReset) (hstatus : i ≠ .sysStatus) :
    ∃ checks body, (∀ s, exec i s = command i.opcode checks body s) ∧ Sound checks body := by
  cases i
  case sysReset => exact absurd rfl hreset
  case sysStatus => exact absurd rfl hstatus
  case brOpen => exact ⟨_, _, fun _ => rfl, brOpen_sound⟩
  case brReadBit => exact ⟨_, _, fun _ => rfl, brReadBit_sound⟩
  case brReadBits n => exact ⟨_, _, fun _ => rfl, brReadBits_sound n⟩
  case brClose => exact ⟨_, _, fun _ => rfl, brClose_sound⟩
  case bwOpen => exact ⟨_, _, fun _ => rfl, bwOpen_sound⟩
  case bwWriteBit bit => exact ⟨_, _, fun _ => rfl, bwWriteBit_sound bit⟩
  case bwWriteBits n value => exact ⟨_, _, fun _ => rfl, bwWriteBits_sound n value⟩
  case bwClose => exact ⟨_, _, fun _ => rfl, bwClose_sound⟩
  case pqCreate cmp => exact ⟨_, _, fun _ => rfl, pqCreate_sound cmp⟩
  case pqInsert item => exact ⟨_, _, fun _ => rfl, pqInsert_sound item⟩
  case pqExtractMin => exact ⟨_, _, fun _ => rfl, pqExtractMin_sound⟩
  case pqSize => exact ⟨_, _, fun _ => rfl, pqSize_sound⟩
  case pqIsEmpty => exact ⟨_, _, fun _ => rfl, pqIsEmpty_sound⟩
  case hufCount => exact ⟨_, _, fun _ => rfl, hufCount_sound⟩
  case hufMkLeaf byte weight => exact ⟨_, _, fun _ => rfl, hufMkLeaf_sound byte weight⟩
  case hufMkNode upper left right => exact ⟨_, _, fun _ => rfl, hufMkNode_sound upper left right⟩
  case hufBuild => exact ⟨_, _, fun _ => rfl, hufBuild_sound⟩
  case hufDerive => exact ⟨_, _, fun _ => rfl, hufDerive_sound⟩
  case hufSerialize => exact ⟨_, _, fun _ => rfl, hufSerialize_sound⟩
  case hufEncode => exact ⟨_, _, fun _ => rfl, hufEncode_sound⟩
  case hufDeserialize => exact ⟨_, _, fun _ => rfl, hufDeserialize_sound⟩
  case hufDecode => exact ⟨_, _, fun _ => rfl, hufDecode_sound⟩
  case hufCompress => exact ⟨_, _, fun _ => rfl, hufCompress_sound⟩
  case hufDecompress => exact ⟨_, _, fun _ => rfl, hufDecompress_sound⟩
  case lzwEncReset => exact ⟨_, _, fun _ => rfl, lzwEncReset_sound⟩
  case lzwEncByte y => exact ⟨_, _, fun _ => rfl, lzwEncByte_sound y⟩
  case lzwEncFlush => exact ⟨_, _, fun _ => rfl, lzwEncFlush_sound⟩
  case lzwDecReset => exact ⟨_, _, fun _ => rfl, lzwDecReset_sound⟩
  case lzwDecCode => exact ⟨_, _, fun _ => rfl, lzwDecCode_sound⟩
  case lzwCompress => exact ⟨_, _, fun _ => rfl, lzwCompress_sound⟩
  case lzwDecompress => exact ⟨_, _, fun _ => rfl, lzwDecompress_sound⟩

/-- A command of a block that is not held ends with a next state. -/
theorem command_ends {op : Byte} {body : M Response} (h : Sound checks body) (hs : Good s) (hheld : s.held = false) :
    ∃ t, command op checks body s = .next t := by
  cases hc : firstFailed (checks s) with
  | some c => exact ⟨_, command_refused hheld hc⟩
  | none =>
    rcases hb : body s with ⟨v, u⟩ | ⟨c | why, u⟩
    · exact ⟨_, command_returns hheld hc hb⟩
    · exact ⟨_, command_raises hheld hc hb⟩
    · exact absurd hb (h.notStuck ⟨hs, hc⟩)

theorem command_keeps_good {op : Byte} {body : M Response} (h : Sound checks body) (hs : Good s) (hheld : s.held = false)
    (hx : command op checks body s = .next t) (hstatus : (rspStatus t.rsp).toNat < 0x80) : Good t := by
  rcases command_next_cases hheld hx with ⟨c, -, rfl⟩ | ⟨v, u, hc, hb, rfl⟩ | ⟨c, u, -, -, rfl⟩
  · have hk := c.kind.code_ge
    rw [State.faultEntry_rsp, rspStatus_packRsp] at hstatus
    omega
  · have hu := h.ok ⟨hs, hc⟩ hb
    exact ⟨hu.writer, hu.reader, hu.queue, hu.huffman, hu.codes, hu.encoder, hu.decoder, hu.wf⟩
  · have hk := c.kind.code_ge
    rw [State.faultEntry_rsp, rspStatus_packRsp] at hstatus
    omega

theorem CommandFrame.phase_eq (h : CommandFrame i s t) (hreset : i ≠ .sysReset) : t.phase = s.phase := by
  cases i
  case sysReset => exact absurd rfl hreset
  all_goals exact (congrArg State.phase h :)

/-! ### The invariant -/

theorem inv_respond (h : Inv s) (c : Byte) (r : Wide) : Inv (s.respond c r) := h

theorem faultEntry_held (s : State) (op : Byte) (c : Cause) (e : Bool) (h : s.held = false) :
    (s.faultEntry op c e).held = true := by
  rw [State.held, State.faultEntry_faultReg, h]
  exact faultValid_packFault _ _ _ _

/-- After a fault entry the unit state is not specified (R176). -/
theorem inv_faultEntry (hheld : s.held = false) (hwf : s.mem.wf = true) (op : Byte) (c : Cause) (e : Bool) :
    Inv (s.faultEntry op c e) := by
  have hheld' := faultEntry_held s op c e hheld
  refine ⟨rfl, ⟨?_, fun h => ?_⟩, by rw [State.faultEntry_mem]; exact hwf, fun h => ?_⟩
  · rw [State.faultEntry_faultReg, hheld]
    exact faultReserved_packFault _ _ _ _
  · rw [hheld'] at h
    cases h
  · rw [hheld'] at h
    cases h

theorem Inv.good (h : Inv s) (hheld : s.held = false) : Good s := good_iff.mpr ⟨h.2.2.2 hheld, h.2.2.1⟩

/-- The reset values meet the invariants, whatever the environment's side is (R29, R181). -/
theorem inv_resetBlock (hwf : s.mem.wf = true) : Inv s.resetBlock := by
  refine ⟨rfl, ⟨show faultReserved 0 = 0 by decide, fun _ => rfl⟩, hwf, fun _ => ⟨nofun, nofun, nofun, ⟨?_, nofun, nofun⟩, fun _ b c hc => ?_, nofun, nofun⟩⟩
  · exact fun k l r w hk => absurd hk (by simp [State.resetBlock, State.reset, Huffman.reset])
  · simp [State.resetBlock, State.reset, Huffman.reset, Table.at] at hc

theorem exec_keeps_inv (h : Inv s) (hx : exec i s = .next t) : Inv t := by
  rcases eq_or_ne i .sysReset with rfl | hreset
  · cases hx
    exact inv_respond (inv_resetBlock h.2.2.1) _ _
  rcases eq_or_ne i .sysStatus with rfl | hstatus
  · cases hx
    exact inv_respond h _ _
  cases hheld : s.held with
  | true =>
    rw [exec_of_held hheld hreset hstatus] at hx
    cases hx
    exact inv_respond h 0x8F 0
  | false =>
    rcases exec_next_cases hreset hstatus hheld hx with ⟨c, -, rfl⟩ | ⟨v, u, hu, rfl⟩ | ⟨c, u, hu, -, rfl⟩
    · exact inv_faultEntry hheld h.2.2.1 _ _ _
    · have hcode : (rspStatus (u.respond v.status.code v.value).rsp).toNat < 0x80 := by
        rw [State.respond_rsp, rspStatus_packRsp]
        exact v.status.code_lt
      obtain ⟨checks, body, hexec, hsound⟩ := exec_sound hreset hstatus
      have hgood := command_keeps_good hsound (h.good hheld) hheld ((hexec s).symm.trans hx) hcode
      have hphase := (commandsWriteOnlyTheirState i s _ ⟨hheld, h.1⟩ hx hcode).phase_eq hreset
      have hfault : (u.respond v.status.code v.value).faultReg = s.faultReg := hu.faultReg
      obtain ⟨hunits, hwf⟩ := good_iff.mp hgood
      refine ⟨hphase.trans h.1, ?_, hwf, fun _ => hunits⟩
      unfold FaultInv State.held
      rw [hfault]
      exact h.2.1
    · exact inv_faultEntry (by rw [State.held, hu.faultReg]; exact hheld) (hu.wf h.2.2.1) _ _ _

theorem exec_ends (h : Inv s) (i : Instr) : ∃ t, exec i s = .next t := by
  rcases eq_or_ne i .sysReset with rfl | hreset
  · exact ⟨_, rfl⟩
  rcases eq_or_ne i .sysStatus with rfl | hstatus
  · exact ⟨_, rfl⟩
  cases hheld : s.held with
  | true => exact ⟨_, exec_of_held hheld hreset hstatus⟩
  | false =>
    obtain ⟨checks, body, hexec, hsound⟩ := exec_sound hreset hstatus
    rw [hexec]
    exact command_ends hsound (h.good hheld) hheld

theorem inv_rejectWord (h : Inv s) (w : CmdWord) (why : Reject) : Inv (rejectWord w why s) := by
  unfold rejectWord
  split
  · exact inv_respond h _ _
  · exact inv_faultEntry (by simpa using ‹¬ s.held = true›) h.2.2.1 _ _ _

/-- Settles O15: the input is taken first, which no invariant sees, and what is done with it keeps them. -/
theorem everyStepKeepsInv : Obligations.EveryStepKeepsInv := by
  intro s t h hstep
  rcases step_next_cases hstep with ⟨-, rfl⟩ | ⟨rest, -, rfl⟩ | ⟨w, rest, why, -, -, rfl⟩ | ⟨w, rest, i, -, -, hx⟩
  · exact h
  · exact inv_respond (inv_resetBlock (s := { s with host := rest }) h.2.2.1) _ _
  · exact inv_rejectWord (s := { s with host := rest, cmd := w }) h w why
  · exact exec_keeps_inv (s := { s with host := rest, cmd := w }) h hx

/-- Settles O16: no command of a block that meets the invariants reaches a stop of the model. -/
theorem everyCommandEnds : Obligations.EveryCommandEnds := by
  intro s h
  match hhost : s.host with
  | [] => exact ⟨s, by simp only [step, takeInput, hhost]⟩
  | .reset :: rest => exact ⟨_, step_reset hhost⟩
  | .command w :: rest =>
    cases hd : decode w with
    | error why => exact ⟨_, step_rejected hhost hd⟩
    | ok i =>
      rw [step_decoded hhost hd]
      exact exec_ends (s := { s with host := rest, cmd := w }) h i

/-- Settles O17: the reset of the reset state is the reset state. -/
theorem invAtReset : Obligations.InvAtReset := inv_resetBlock (s := State.reset) reset_mem_wf

end Sys2Proof.Machine
end

