-- ==== Sys2Proof/Proofs/HuffmanWriting.lean ====
section
/-! PROOF. `HUF.COUNT`, `HUF.DERIVE`, `HUF.SERIALIZE` and `HUF.ENCODE` (R100, R105 to R107): what they answer and leave,
and how they fail; and the codes of a tree are prefix-free (R64). -/

namespace Sys2Proof.Machine

variable {s t u : State} {f : List Cell} {bits : List Bool}

/-! ### A loop over the source, to its end or to its failure -/

/-- The loop ends only at the end of the source. -/
theorem forEachSourceByte_ensures (op : Byte → M Unit) (n : Nat) :
    Ensures (fun t => t.mem.srcData.length ≤ t.mem.srcPos) (forEachSourceByte op n) := by
  induction n with
  | zero => exact fun s a t h => nomatch h
  | succ n ih =>
    intro s a t h
    obtain ⟨v, u, hv, h⟩ := bind_eq_ok.mp h
    cases v with
    | none =>
      obtain ⟨hend, rfl⟩ := srcNext_none hv
      cases h
      exact hend
    | some b =>
      obtain ⟨_, u', -, h⟩ := bind_eq_ok.mp h
      exact ih _ _ _ h

/-- A loop over the source, and steps that leave the position, leave it read to its end. -/
theorem srcPos_of_loop {α : Type} {g : List Cell} {op : Byte → M Unit} {n : Nat} {m : M α} {a : Unit} {b : α}
    (hop : ∀ v, Acts f (op v)) (hwf : s.mem.wf = true) (hloop : forEachSourceByte op n s = .ok a t) (hm : Acts g m)
    (hg : .srcPos ∉ g) (hrest : m t = .ok b u) : u.mem.srcPos = u.mem.srcData.length := by
  have hend := forEachSourceByte_ensures op n _ _ _ hloop
  have hle : t.mem.srcPos ≤ t.mem.srcData.length := by
    simpa [Memory.wf] using ((Acts.forEachSourceByte hop n).ok hloop).wf hwf
  have hu := hm.ok hrest
  have hpos : u.mem.srcPos = t.mem.srcPos := hu.same .srcPos hg
  rw [hpos, hu.srcData]
  exact le_antisymm hle hend

theorem srcRewind_ensures : Ensures (fun s => s.mem.wf = true) srcRewind := by
  rintro s _ _ ⟨⟩
  simp [Memory.wf]

/-- A loop that cannot reach the end of the source ends in the error of a turn. -/
theorem forEachSourceByte_error {op : Byte → M Unit} {e : Stop} (Inv : List Byte → State → Prop)
    (hinv : ∀ bytes s, Inv bytes s → NoIoFail s ∧ s.mem.srcData.drop s.mem.srcPos = bytes) (hend : ∀ s, ¬ Inv [] s)
    (hturn : ∀ b bytes s, Inv (b :: bytes) s → (∃ t, op b s.tookByte = .ok () t ∧ Inv bytes t) ∨
      ∃ t, op b s.tookByte = .error e t) {bytes : List Byte} {fuel : Nat} (h : Inv bytes s) (hfuel : bytes.length < fuel) :
    ∃ t, forEachSourceByte op fuel s = .error e t := by
  obtain ⟨fuel, rfl⟩ : ∃ n, fuel = n + 1 := ⟨fuel - 1, by omega⟩
  induction bytes generalizing s fuel with
  | nil => exact absurd h (hend s)
  | cons b bytes ih =>
    obtain ⟨hn, hdrop⟩ := hinv _ s h
    have hnext : s.mem.srcData[s.mem.srcPos]? = some b := by rw [← List.head?_drop, hdrop]; rfl
    rcases hturn b bytes s h with ⟨u, hop, hu⟩ | ⟨u, hop⟩
    · obtain ⟨fuel, rfl⟩ : ∃ n, fuel = n + 1 := ⟨fuel - 1, by simp at hfuel; omega⟩
      obtain ⟨t, hrun⟩ := ih hu fuel (by simp at hfuel ⊢; omega)
      exact ⟨t, (bind_ok (srcNext_byte hn.next hnext)).trans ((bind_ok hop).trans hrun)⟩
    · exact ⟨u, (bind_ok (srcNext_byte hn.next hnext)).trans (bind_error hop)⟩

/-- The state in which the loop over the source begins (R100, R107). -/
def State.rewound (s : State) : State := { s with mem := { s.mem with srcPos := 0 }, answers := s.answers.tail }

theorem NoIoFail.rewound (h : NoIoFail s) : NoIoFail s.rewound := h.mono (List.tail_suffix _)

theorem NoIoFail.tookByte (h : NoIoFail s) : NoIoFail s.tookByte := h.mono (List.tail_suffix _)

theorem drop_tookByte {b : Byte} {bytes : List Byte} (h : s.mem.srcData.drop s.mem.srcPos = b :: bytes) :
    s.tookByte.mem.srcData.drop s.tookByte.mem.srcPos = bytes := by
  rw [State.tookByte, ← List.tail_drop, h, List.tail_cons]

/-! ### `HUF.COUNT` (R100) -/

theorem hufCountBody_ensures : Ensures (fun t => t.mem.srcPos = t.mem.srcData.length) hufCountBody := by
  refine .bind fun _ => srcRewind_ensures.then fun _ s b t hwf h => ?_
  obtain ⟨_, s₁, h₁, h⟩ := bind_eq_ok.mp h
  have hwf₁ : s₁.mem.wf = true := by
    cases h₁
    exact hwf
  obtain ⟨n, _, ⟨⟩, h⟩ := bind_eq_ok.mp h
  obtain ⟨_, s₂, hloop, h⟩ := bind_eq_ok.mp h
  obtain ⟨_, s₃, hclose, h⟩ := bind_eq_ok.mp h
  have hend := srcPos_of_loop Acts.countByte hwf₁ hloop (Acts.portAccess 1) (by decide) hclose
  cases h
  exact hend

/-- In the loop of `HUF.COUNT`, the count of `b` so far fits its counter, and with what is to come it would not. -/
structure Overflowing (p : Params) (b : Byte) (total : Nat) (bytes : List Byte) (s : State) : Prop where
  noIoFail : NoIoFail s
  toCome : s.mem.srcData.drop s.mem.srcPos = bytes
  params : s.params = p
  fits : Params.fitsFreq p (Table.at s.huf.freq b) = true
  total : Table.at s.huf.freq b + bytes.count b = total

theorem fitsFreq_succ {p : Params} {n : Nat} (h : Params.fitsFreq p n = true) (hfull : counterFull p n = false) :
    Params.fitsFreq p (n + 1) = true := by
  unfold Params.fitsFreq at h ⊢
  unfold counterFull at hfull
  cases hw : p.freqW with
  | none => rfl
  | some w =>
    simp only [hw, decide_eq_true_eq, decide_eq_false_iff_not] at h hfull ⊢
    omega

theorem countByte_of_full {c : Byte} (h : counterFull s.params (Table.at s.huf.freq c) = true) :
    countByte c s = .error (.raise ⟨.capacityExceeded, 3⟩) s := by
  simp only [countByte, bind_apply, look_apply, h, if_true]
  rfl

theorem countByte_of_not_full {c : Byte} (h : counterFull s.params (Table.at s.huf.freq c) = false) : countByte c s =
    .ok () { s with huf := { s.huf with freq := Table.put s.huf.freq c (Table.at s.huf.freq c + 1) } } := by
  simp only [countByte, bind_apply, look_apply, h, Bool.false_eq_true, if_false]
  rfl

theorem Overflowing.turn {p : Params} {b c : Byte} {total : Nat} {bytes : List Byte} (h : Overflowing p b total (c :: bytes) s) :
    (∃ t, countByte c s.tookByte = .ok () t ∧ Overflowing p b total bytes t) ∨
      ∃ t, countByte c s.tookByte = .error (.raise ⟨.capacityExceeded, 3⟩) t := by
  obtain ⟨hn, hdrop, hp, hfits, htotal⟩ := h
  cases hfull : counterFull s.tookByte.params (Table.at s.tookByte.huf.freq c) with
  | true => exact .inr ⟨_, countByte_of_full hfull⟩
  | false =>
    refine .inl ⟨_, countByte_of_not_full hfull, hn.tookByte, drop_tookByte hdrop, hp, ?_, ?_⟩ <;>
      rw [Table.at_put] <;> split
    · rename_i hbc
      subst hbc
      exact fitsFreq_succ hfits (hp ▸ hfull)
    · exact hfits
    · rename_i hbc
      subst hbc
      rw [List.count_cons_self] at htotal
      simp only [State.tookByte]
      omega
    · rename_i hbc
      rwa [List.count_cons_of_ne (Ne.symm hbc)] at htotal

theorem hufCountBody_overflows {b : Byte} (hn : NoIoFail s)
    (hfull : Params.fitsFreq s.params (s.mem.srcData.count b) = false) :
    ∃ t, hufCountBody s = .error (.raise ⟨.capacityExceeded, 3⟩) t := by
  let s₀ : State := { s.rewound with huf := { s.huf with freq := Vector.replicate 256 0 } }
  have hinit : Overflowing s.params b (s.mem.srcData.count b) s.mem.srcData s₀ :=
    ⟨hn.rewound, rfl, rfl, by simp [Params.fitsFreq, s₀]; split <;> simp, by simp [s₀]⟩
  obtain ⟨t, hloop⟩ := forEachSourceByte_error (op := countByte) (Overflowing s.params b (s.mem.srcData.count b))
    (fun _ _ h => ⟨h.noIoFail, h.toCome⟩) (fun u h => by
      have htotal := h.total
      rw [List.count_nil, Nat.add_zero] at htotal
      rw [← htotal, h.fits] at hfull
      cases hfull) (fun c _ u h => h.turn) hinit (fuel := sourceBudget s₀) (by simp [sourceBudget, s₀, State.rewound])
  have hbegin : hufCountBody s = (forEachSourceByte countByte (sourceBudget s₀) >>= fun _ => do
      srcClose
      changeHuf fun h => { h with counted := true, treeOk := false, derived := false }
      pure done) s₀ := by
    simp only [hufCountBody, srcOpen, srcRewind, changeHuf, bind_apply, portAccess_ok 1 hn.next, change_apply, look_apply]
    rfl
  exact ⟨t, hbegin.trans (bind_error hloop)⟩

/-- Settles O39: the loop counts every byte to come; and a count that cannot fit stops it. -/
theorem countCountsBytes : Obligations.CountCountsBytes := by
  intro s hs hbr hn
  refine ⟨fun hfits => ?_, fun b hfull => ?_⟩
  · obtain ⟨freq, pos, answers, hcounts, -, hb⟩ := hufCountBody_ok hn fun b => (fitsFreq_eq_all _ _).trans (hfits b)
    have hpos : pos = s.mem.srcData.length := hufCountBody_ensures _ _ _ hb
    subst hpos
    exact ⟨_, (exec_hufCount s).trans (command_returns hs.1 (hufCountChecks_of_closed hbr) hb), hcounts, rfl⟩
  · obtain ⟨u, hb⟩ := hufCountBody_overflows hn ((fitsFreq_eq_all _ _).trans hfull)
    obtain ⟨t, hx, hfails, hmem⟩ := (Acts.hufCountBody.fails (op := 0x40) (by decide) hs (hufCountChecks_of_closed hbr) hb :)
    exact ⟨t, hx, hfails, by rw [hmem]; exact Acts.hufCountBody.snkData_of_error (by decide) hb⟩

/-! ### `HUF.DERIVE` (R105) -/

theorem Within.mem (h : Within f s t) (hf : ∀ c ∈ [Cell.srcPos, .sink], c ∉ f) : t.mem = s.mem := by
  have hpos := h.same .srcPos (hf _ (by decide))
  have hsink := h.same .sink (hf _ (by decide))
  calc t.mem = ⟨t.mem.srcData, t.mem.srcPos, t.mem.snkData⟩ := rfl
    _ = ⟨s.mem.srcData, s.mem.srcPos, s.mem.snkData⟩ := by rw [h.srcData, hpos, hsink]

variable {T : Tree} {path : List Bool} {code : Table (Option (List Bool))}

theorem putCode_tooLong {b : Byte} (h : ¬ CodesFit s.params [(b, path)]) :
    putCode b path s = .error (.raise ⟨.capacityExceeded, 2⟩) s := by
  have hlong : (s.params.codeLen8 && decide (255 < path.length)) = true := by
    simpa [CodesFit] using h
  simp only [putCode, bind_apply, look_apply, hlong, if_true]
  rfl

theorem codesFit_append {p : Params} {xs ys : List (Byte × List Bool)} :
    CodesFit p (xs ++ ys) ↔ CodesFit p xs ∧ CodesFit p ys := by
  simp only [CodesFit, List.forall_mem_append, ← forall_and]

/-- The first code that is too long ends the visit. -/
theorem visit_tooLong (h : ¬ CodesFit s.params (T.paths path)) :
    ∃ t, visit T path (s.withCode code) = .error (.raise ⟨.capacityExceeded, 2⟩) t := by
  induction T generalizing path code with
  | leaf b => exact ⟨_, putCode_tooLong (s := s.withCode code) h⟩
  | node l r ihl ihr =>
    by_cases hl : CodesFit s.params (l.paths (path ++ [false]))
    · obtain ⟨t, ht⟩ := ihr fun hr => h (codesFit_append.mpr ⟨hl, hr⟩)
      exact ⟨t, (bind_ok (visit_ok hl)).trans ht⟩
    · obtain ⟨t, ht⟩ := ihl hl
      exact ⟨t, bind_error ht⟩

theorem hufDeriveBody_tooLong (htree : s.huf.tree = some T) (h : ¬ CodesFit s.params T.codes) :
    ∃ t, hufDeriveBody s = .error (.raise ⟨.capacityExceeded, 2⟩) t := by
  have hput : ∃ t, putCodes T (s.withCode (Vector.replicate 256 none)) = .error (.raise ⟨.capacityExceeded, 2⟩) t := by
    cases T with
    | leaf b => exact ⟨_, putCode_tooLong (s := s.withCode _) h⟩
    | node l r => exact visit_tooLong h
  obtain ⟨t, ht⟩ := hput
  have hheld : heldTree (s.withCode (Vector.replicate 256 none)) = .ok T (s.withCode (Vector.replicate 256 none)) := by
    have hsame : (s.withCode (Vector.replicate 256 none)).huf.tree = some T := htree
    simp only [heldTree, bind_apply, look_apply, hsame, pure_apply]
  exact ⟨t, (bind_ok (m := changeHuf _) rfl).trans ((bind_ok hheld).trans (bind_error ht))⟩

/-- Settles O44: the codes that fit are written in pre-order; the first that does not ends the command. -/
theorem deriveWritesThePaths : Obligations.DeriveWritesThePaths := by
  intro s T hs hok htree
  refine ⟨fun hfit => ?_, fun h8 ⟨p, hp, hlong⟩ => ?_⟩
  · exact (exec_hufDerive s).trans (command_returns hs.1 (hufDeriveChecks_of_tree hok) (hufDeriveBody_ok htree hfit))
  · obtain ⟨u, hb⟩ := hufDeriveBody_tooLong htree fun hfit => absurd (hfit h8 p hp) (by omega)
    obtain ⟨t, hx, hfails, hmem⟩ := (Acts.hufDeriveBody.fails (op := 0x44) (by decide) hs (hufDeriveChecks_of_tree hok) hb :)
    exact ⟨t, hx, hfails, hmem.trans ((Acts.hufDeriveBody.error hb).mem (by decide))⟩

/-! ### Prefix-free codes (R64) -/

/-- A leaf's path is no beginning of another leaf's. -/
theorem Tree.paths_prefixFree {b b' : Byte} {p p' : List Bool} (h : (b, p) ∈ T.paths []) (h' : (b', p') ∈ T.paths [])
    (hpre : p <+: p') : b = b' := by
  induction T generalizing p p' with
  | leaf v =>
    obtain ⟨rfl, rfl⟩ : b = v ∧ p = [] := by simpa [Tree.paths] using h
    obtain ⟨rfl, rfl⟩ : b' = b ∧ p' = [] := by simpa [Tree.paths] using h'
    rfl
  | node l r ihl ihr =>
    obtain ⟨bit, rest, rfl, hrest⟩ := Tree.mem_paths_node h
    obtain ⟨bit', rest', rfl, hrest'⟩ := Tree.mem_paths_node h'
    obtain ⟨rfl, hpre'⟩ := List.cons_prefix_cons.mp hpre
    cases bit with
    | false => exact ihl hrest hrest' hpre'
    | true => exact ihr hrest hrest' hpre'

/-- Settles O45: the code table holds paths of the tree's leaves, which end at different leaves. -/
theorem codesArePrefixFree : Obligations.CodesArePrefixFree := by
  intro T hT
  obtain ⟨l, r, rfl⟩ : ∃ l r, T = .node l r := by
    cases T with
    | leaf b => exact absurd hT (by simp [Tree.leaves])
    | node l r => exact ⟨l, r, rfl⟩
  refine ⟨fun b => codeTable_at_ne_none_iff, fun b c hc hnil => ?_, fun b b' c c' hne hc hc' hpre => ?_⟩
  · obtain ⟨bit, rest, hpath, -⟩ := Tree.mem_paths_node (codeTable_at_some hc)
    rw [hnil] at hpath
    cases hpath
  · exact hne (Tree.paths_prefixFree (codeTable_at_some hc) (codeTable_at_some hc') hpre)

/-! ### `HUF.SERIALIZE` and `HUF.ENCODE` (R106, R107) -/

theorem exec_hufSerialize (s : State) :
    exec .hufSerialize s = command 0x45 hufSerializeChecks hufSerializeBody s := rfl

theorem exec_hufEncode (s : State) : exec .hufEncode s = command 0x46 hufEncodeChecks hufEncodeBody s := rfl

/-- Settles O46: the writer accepts the serialization behind the bits before. -/
theorem serializeAppendsTheTree : Obligations.SerializeAppendsTheTree := by
  refine ⟨fun s T hs hok htree hopen hw hn => ?_, Tree.ser_length⟩
  obtain ⟨t, hb, -, ha⟩ := hufSerializeBody_ok htree ⟨hn, hw hopen, rfl⟩
  have hx := (exec_hufSerialize s).trans (command_returns hs.1 (hufSerializeChecks_of_open hok hopen) hb)
  have hans : Answers (t.respond Status.ok.code done.value) 0x00 0 := rfl
  exact ⟨_, hx, hans, fun _ => ha.acc, ha.bits, hans.frame hs hx⟩

theorem hufEncodeBody_ensures : Ensures (fun t => t.mem.srcPos = t.mem.srcData.length) hufEncodeBody := by
  refine .bind fun _ => srcRewind_ensures.then fun _ s b t hwf h => ?_
  obtain ⟨n, _, ⟨⟩, h⟩ := bind_eq_ok.mp h
  obtain ⟨_, s₂, hloop, h⟩ := bind_eq_ok.mp h
  obtain ⟨_, s₃, hclose, h⟩ := bind_eq_ok.mp h
  have hend := srcPos_of_loop Acts.encodeByte hwf hloop (Acts.portAccess 1) (by decide) hclose
  cases h
  exact hend

/-- In the loop of `HUF.ENCODE`, with a byte still to come that has no code. -/
structure MissingCode (code : Table (Option (List Bool))) (bytes : List Byte) (s : State) : Prop where
  accepted : ∃ bits, Accepted s bits
  toCome : s.mem.srcData.drop s.mem.srcPos = bytes
  table : s.huf.code = code
  missing : codeBits code bytes = none

theorem MissingCode.turn {b : Byte} {bytes : List Byte} (h : MissingCode code (b :: bytes) s) :
    (∃ t, encodeByte b s.tookByte = .ok () t ∧ MissingCode code bytes t) ∨
      ∃ t, encodeByte b s.tookByte = .error (.raise ⟨.illegalState, 12⟩) t := by
  obtain ⟨⟨bits, ha⟩, hdrop, hcode, hmissing⟩ := h
  have hcode' : s.tookByte.huf.code = code := hcode
  cases hc : Table.at code b with
  | none => exact .inr ⟨_, by simp only [encodeByte, bind_apply, look_apply, hcode', hc]; rfl⟩
  | some c =>
    obtain ⟨t, ht, hf, hat⟩ := ha.tookByte.writeBitList c
    have hmem : t.mem.srcData.drop t.mem.srcPos = s.tookByte.mem.srcData.drop s.tookByte.mem.srcPos := by rw [hf.1]
    refine .inl ⟨t, by simp only [encodeByte, bind_apply, look_apply, hcode', hc]; exact ht, ⟨_, hat⟩,
      hmem.trans (drop_tookByte hdrop), by rw [hf.1]; exact hcode, ?_⟩
    rw [codeBits, hc] at hmissing
    cases hrest : codeBits code bytes with
    | none => rfl
    | some cs =>
      rw [hrest] at hmissing
      cases hmissing

theorem hufEncodeBody_missing (h : Accepted s bits) (hmissing : codeBits s.huf.code s.mem.srcData = none) :
    ∃ t, hufEncodeBody s = .error (.raise ⟨.illegalState, 12⟩) t := by
  have hinit : MissingCode s.huf.code s.mem.srcData s.rewound :=
    ⟨⟨bits, h.noIoFail.rewound, h.acc, h.bits⟩, rfl, rfl, hmissing⟩
  obtain ⟨t, hloop⟩ := forEachSourceByte_error (op := encodeByte) (MissingCode s.huf.code)
    (fun _ _ hu => ⟨by obtain ⟨_, ha⟩ := hu.accepted; exact ha.noIoFail, hu.toCome⟩)
    (fun u hu => by cases hu.missing) (fun c _ u hu => hu.turn) hinit (fuel := sourceBudget s.rewound)
    (by simp [sourceBudget, State.rewound])
  have hbegin : hufEncodeBody s = (forEachSourceByte encodeByte (sourceBudget s.rewound) >>= fun _ => do
      srcClose
      pure done) s.rewound := by
    simp only [hufEncodeBody, srcOpen, srcRewind, bind_apply, portAccess_ok 1 h.noIoFail.next, change_apply, look_apply]
    rfl
  exact ⟨t, hbegin.trans (bind_error hloop)⟩

/-- Settles O47: the writer accepts the codes of the source's bytes in order, as far as there are codes. -/
theorem encodeAppendsTheCodes : Obligations.EncodeAppendsTheCodes := by
  intro s hs hderived hopen hbr hw hn
  have hacc : Accepted s s.bitsWritten := ⟨hn, hw hopen, rfl⟩
  have hchecks := hufEncodeChecks_of_open hderived hopen hbr
  refine ⟨fun bits hcodes => ?_, fun hmissing => ?_⟩
  · obtain ⟨t, hb, -, ha⟩ := hufEncodeBody_ok hacc hcodes
    have hx := (exec_hufEncode s).trans (command_returns hs.1 hchecks hb)
    have hans : Answers (t.respond Status.ok.code done.value) 0x00 0 := rfl
    have hpos : t.mem.srcPos = t.mem.srcData.length := hufEncodeBody_ensures _ _ _ hb
    rw [(Acts.hufEncodeBody.ok hb).srcData] at hpos
    exact ⟨_, hx, hans, fun _ => ha.acc, ha.bits, hpos, hans.frame hs hx⟩
  · obtain ⟨u, hb⟩ := hufEncodeBody_missing hacc hmissing
    obtain ⟨t, hx, hfails, hmem⟩ := (Acts.hufEncodeBody.fails (op := 0x46) (by decide) hs hchecks hb :)
    exact ⟨t, hx, hfails, by rw [hmem]; exact (Acts.hufEncodeBody.error hb).sink_grows (by decide)⟩

end Sys2Proof.Machine
end

