-- ==== Sys2Proof/Proofs/HuffmanReading.lean ====
section
/-! PROOF. `HUF.DESERIALIZE` and `HUF.DECODE` (R108, R109): what they answer and leave, and how they fail when the arena is
full, when the stream holds no tree, when it ends inside a path, and when its last byte is `0xFF`. -/

namespace Sys2Proof.Machine

variable {s t u : State} {bits rest left : List Bool} {corrupt : Bool} {T root l r : Tree} {out : List Byte}

/-! ### A tree too large for the arena (R108) -/

theorem roomFor_one_of_hasRoom (h : hasRoom s.params.nodeCap s.huf.nodes.length = true) : RoomFor s 1 := by
  rwa [hasRoom_eq_all] at h

theorem allocNode_full (n : Node) (h : hasRoom s.params.nodeCap s.huf.nodes.length = false) :
    allocNode n s = .error (.raise ⟨.capacityExceeded, 2⟩) s := by
  simp only [allocNode, bind_apply, look_apply, Huffman.nnodes, h, Bool.false_eq_true, if_false]
  rfl

theorem allocRead_full (kind : NodeKind) (h : ¬ RoomFor s 1) :
    ∃ t, allocRead kind s = .error (.raise ⟨.capacityExceeded, 2⟩) t := by
  have hroom : hasRoom s.params.nodeCap s.huf.nodes.length = false := by
    simpa using mt roomFor_one_of_hasRoom h
  exact ⟨_, (bind_ok (m := freeWeight) rfl).trans (allocNode_full _ hroom)⟩

/-- The node that finds no room ends the reading of the tree. -/
theorem deserialize_full {fuel : Nat} (h : Delivers s (T.ser ++ rest) corrupt) (hfuel : (T.ser ++ rest).length < fuel)
    (hroom : ¬ RoomFor s (2 * T.leaves - 1)) :
    ∃ t, deserialize fuel s = .error (.raise ⟨.capacityExceeded, 2⟩) t := by
  induction T generalizing fuel s rest with
  | leaf b =>
    obtain ⟨fuel, rfl⟩ : ∃ n, fuel = n + 1 := ⟨fuel - 1, by omega⟩
    obtain ⟨s₁, hbit, hf₁, hd₁⟩ := Delivers.readBit_cons h
    obtain ⟨s₂, hbyte, hf₂, hd₂⟩ := hd₁.readBits_append
    have hframe := (hf₁.trans hf₂).allocates
    have hfull : ¬ RoomFor s₂ 1 := fun hone =>
      hroom (hone.mono hframe.params_eq.symm (by simp [hframe.nodes_eq, Tree.leaves]))
    obtain ⟨t, ht⟩ := allocRead_full (.leaf b) hfull
    refine ⟨t, ?_⟩
    rw [byteBits_length] at hbyte
    rw [deserialize, bind_ok hbit]
    simp only [leafW, bind_apply, hbyte, val_byteBits, BitVec.ofNat_toNat, BitVec.setWidth_eq]
    exact ht
  | node l r ihl ihr =>
    obtain ⟨fuel, rfl⟩ : ∃ n, fuel = n + 1 := ⟨fuel - 1, by omega⟩
    have hl := l.leaves_pos
    have hr := r.leaves_pos
    simp only [Tree.leaves] at hroom
    simp only [Tree.ser, List.cons_append, List.append_assoc] at h hfuel
    have hlen : (l.ser ++ (r.ser ++ rest)).length < fuel := Nat.lt_of_succ_lt_succ hfuel
    obtain ⟨s₁, hbit, hf₁, hd₁⟩ := h.readBit_cons
    by_cases hroom₁ : RoomFor s₁ (2 * l.leaves - 1)
    · obtain ⟨i, s₂, xs, hi, hf₂, hd₂, hxs, -⟩ := deserialize_ok hd₁ hlen hroom₁
      have hframe₂ := hf₁.allocates.trans hf₂
      have hlen₂ : (r.ser ++ rest).length < fuel := by simp at hlen ⊢; omega
      by_cases hroom₂ : RoomFor s₂ (2 * r.leaves - 1)
      · obtain ⟨j, s₃, ys, hj, hf₃, -, hys, -⟩ := deserialize_ok (fuel := fuel) hd₂ hlen₂ hroom₂
        have hframe₃ := hframe₂.trans hf₃
        have hfull : ¬ RoomFor s₃ 1 := fun hone =>
          hroom (hone.mono hframe₃.params_eq.symm (by simp [hframe₃.nodes_eq, hxs, hys]; omega))
        obtain ⟨t, ht⟩ := allocRead_full (.internal i j) hfull
        exact ⟨t, (bind_ok hbit).trans ((bind_ok hi).trans ((bind_ok hj).trans ht))⟩
      · obtain ⟨t, ht⟩ := ihr (fuel := fuel) hd₂ hlen₂ hroom₂
        exact ⟨t, (bind_ok hbit).trans ((bind_ok hi).trans (bind_error ht))⟩
    · obtain ⟨t, ht⟩ := ihl hd₁ hlen hroom₁
      exact ⟨t, (bind_ok hbit).trans (bind_error ht)⟩

/-! ### A stream with no whole tree (R108) -/

theorem roomFor_of_unbounded (h : s.params.nodeCap = none) (n : Nat) : RoomFor s n := by
  rw [RoomFor, h]
  rfl

/-- The bits begin with a serialized tree. -/
def HasTree (bits : List Bool) : Prop := ∃ (T : Tree) (rest : List Bool), bits = T.ser ++ rest

theorem hasTree_of_leaf (h : 8 ≤ bits.length) : HasTree (true :: bits) := by
  refine ⟨.leaf (BitVec.ofNat 8 (val (bits.take 8))), bits.drop 8, ?_⟩
  rw [Tree.ser, byteBits_ofNat_val _ (by simp [h]), List.cons_append, List.take_append_drop]

theorem deserialize_noTree (fuel : Nat) (h : Delivers s bits corrupt) (hfuel : bits.length < fuel)
    (hcap : s.params.nodeCap = none) (hno : ¬ HasTree bits) :
    ∃ t, deserialize fuel s = .error (.raise ⟨.malformedInput, endInfo corrupt 4⟩) t := by
  induction fuel generalizing s bits with
  | zero => exact absurd hfuel (Nat.not_lt_zero _)
  | succ fuel ih =>
    rcases bits with _ | ⟨_ | _, bits⟩
    · exact deserialize_nil h
    · -- an internal node: one of the subtrees is missing
      obtain ⟨s₁, hbit, hf₁, hd₁⟩ := h.readBit_cons
      have hcap₁ : s₁.params.nodeCap = none := by rw [hf₁.allocates.params_eq, hcap]
      have hlen : bits.length < fuel := Nat.lt_of_succ_lt_succ hfuel
      by_cases hleft : HasTree bits
      · obtain ⟨L, rest, rfl⟩ := hleft
        obtain ⟨i, s₂, xs, hi, hf₂, hd₂, -, -⟩ := deserialize_ok hd₁ hlen (roomFor_of_unbounded hcap₁ _)
        have hright : ¬ HasTree rest := fun ⟨R, rest', hrest⟩ => hno ⟨.node L R, rest', by simp [Tree.ser, hrest]⟩
        obtain ⟨t, ht⟩ := ih hd₂ (by simp at hlen; omega) (by rw [hf₂.params_eq, hcap₁]) hright
        exact ⟨t, (bind_ok hbit).trans ((bind_ok hi).trans (bind_error ht))⟩
      · obtain ⟨t, ht⟩ := ih hd₁ hlen hcap₁ hleft
        exact ⟨t, (bind_ok hbit).trans (bind_error ht)⟩
    · -- a leaf: its byte is cut
      obtain ⟨s₁, hbit, -, hd₁⟩ := h.readBit_cons
      have hshort : s₁.bitsToRead.length < leafW := by
        rw [hd₁.bits]
        exact not_le.mp fun hlen => hno (hasTree_of_leaf hlen)
      cases corrupt with
      | true =>
        obtain ⟨t, ht, -⟩ := readBits_corrupt hd₁.noIoFail hd₁.cursor hshort hd₁.corrupt
        exact ⟨t, (bind_ok hbit).trans (bind_error ht)⟩
      | false =>
        obtain ⟨t, ht, -⟩ := readBits_eos hd₁.noIoFail hd₁.cursor hshort hd₁.corrupt
        exact ⟨t, (bind_ok hbit).trans (bind_ok ht)⟩

/-! ### `HUF.DESERIALIZE` -/

/-- The state in which `HUF.DESERIALIZE` begins to read. -/
def State.noNodes (s : State) : State := { s with huf := { s.huf with nodes := [], treeOk := false, derived := false } }

theorem hufDeserializeBody_error {e : Stop} (h : deserialize (bitBudget s) s.noNodes = .error e t) :
    hufDeserializeBody s = .error e t :=
  (bind_ok (m := changeHuf _) rfl).trans ((bind_ok (m := look bitBudget) rfl).trans (bind_error h))

theorem hufDeserializeBody_nodes {v : Response} (h : Delivers s (T.ser ++ rest) corrupt) (harena : ArenaHolds s.params T)
    (hb : hufDeserializeBody s = .ok v t) : t.huf.nodes.length + 1 = 2 * T.leaves := by
  have hd₀ : Delivers s.noNodes _ _ := h.withHuf _
  obtain ⟨i, u, more, hrun, hf, -, hmore, -⟩ := deserialize_ok hd₀ hd₀.length_lt_bitBudget (.of_arenaHolds harena rfl)
  have hb' : hufDeserializeBody s = .ok (result i) { u with huf := { u.huf with root := i, treeOk := true } } :=
    (bind_ok (m := changeHuf _) rfl).trans ((bind_ok (m := look bitBudget) rfl).trans (bind_ok hrun))
  cases hb.symm.trans hb'
  have hpos := T.leaves_pos
  show u.huf.nodes.length + 1 = _
  rw [hf.nodes_eq, List.length_append, hmore]
  simp only [State.noNodes, List.length_nil]
  omega

theorem exec_hufDeserialize_fails {kind : CauseKind} {info : Byte} (hs : Ready s) (hbr : s.br.isOpen = true)
    (h : ∃ u, deserialize (bitBudget s) s.noNodes = .error (.raise ⟨kind, info⟩) u) :
    ∃ t, exec .hufDeserialize s = .next t ∧ FailedDuring s t 0 0x47 kind.code info ∧ t.mem.snkData = s.mem.snkData := by
  obtain ⟨u, hu⟩ := h
  have hb := hufDeserializeBody_error hu
  obtain ⟨t, hx, hfails, hmem⟩ := (Acts.hufDeserializeBody.fails (op := 0x47) (by decide) hs
    (hufDeserializeChecks_of_open hbr) hb :)
  exact ⟨t, hx, hfails, by rw [hmem]; exact Acts.hufDeserializeBody.snkData_of_error (by decide) hb⟩

/-- Settles O48, by whether the bits begin with a tree, and whether the arena has room for it. -/
theorem deserializeRebuildsTheTree : Obligations.DeserializeRebuildsTheTree := by
  intro s hs hbr hcur hn
  refine ⟨fun T rest hbits harena => ?_, fun T rest hbits harena => ?_, fun hno hcap => ?_⟩
  · have hd : Delivers s (T.ser ++ rest) s.readEndsCorrupt := ⟨hn, hcur, hbits, rfl⟩
    obtain ⟨i, t, hb, hd', htree, hframe⟩ := hufDeserializeBody_ok hd harena
    have hx := (exec_hufDeserialize s).trans (command_returns hs.1 (hufDeserializeChecks_of_open hbr) hb)
    have hroot : t.huf.root = i := congrArg (·.huf.root) hframe
    have hnodes := hufDeserializeBody_nodes hd harena hb
    have hans : Answers (t.respond Status.ok.code (result i).value) 0x00 i := rfl
    exact ⟨_, hx, htree, congrArg (·.huf.treeOk) hframe, congrArg (·.huf.derived) hframe,
      hnodes, hroot.symm ▸ hans, hd'.bits, hd'.corrupt, hd'.cursor, hans.frame hs hx⟩
  · have hd₀ : Delivers s.noNodes (T.ser ++ rest) s.readEndsCorrupt := Delivers.withHuf ⟨hn, hcur, hbits, rfl⟩ _
    have hfull : ¬ RoomFor s.noNodes (2 * T.leaves - 1) := fun hroom => harena (by
      simpa only [RoomFor, ArenaHolds, State.noNodes, List.length_nil, Nat.zero_add] using hroom)
    exact (exec_hufDeserialize_fails hs hbr (deserialize_full hd₀ hd₀.length_lt_bitBudget hfull) :)
  · have hd₀ : Delivers s.noNodes s.bitsToRead s.readEndsCorrupt := Delivers.withHuf ⟨hn, hcur, rfl, rfl⟩ _
    exact (exec_hufDeserialize_fails hs hbr (deserialize_noTree _ hd₀ hd₀.length_lt_bitBudget hcap
      fun ⟨T, rest, h⟩ => hno T rest h) :)

/-! ### Following paths to the end of the bits (R109) -/

/-- A single leaf puts its byte once for each bit. -/
theorem decodeDegenerate_bits {b : Byte} (h : Delivers s bits corrupt) (fuel : Nat) :
    ∃ t, decodeDegenerate b (bits.length + fuel) s = decodeDegenerate b fuel t ∧
      Emits s t (List.replicate bits.length b) ∧ Delivers t [] corrupt := by
  induction bits generalizing s with
  | nil => exact ⟨s, by rw [List.length_nil, Nat.zero_add], .refl s, h⟩
  | cons bit bits ih =>
    obtain ⟨s₁, hbit, hf₁, hd₁⟩ := h.readBit_cons
    obtain ⟨s₂, hput, hf₂, hd₂⟩ := hd₁.sinkPut b
    obtain ⟨t, hrun, hf, hd⟩ := ih hd₂
    refine ⟨t, ?_, (hf₁.emits.trans hf₂).trans hf, hd⟩
    rw [List.length_cons, Nat.add_right_comm, decodeDegenerate, bind_ok hbit]
    exact (bind_ok hput).trans hrun

/-- Bits inside a path lead to a node inside the tree. -/
theorem decodeLoop_inside {b : Byte} {path : List Bool} (hmem : (b, path) ∈ (Tree.node l r).paths [])
    (hleft : left <+: path) (hne : left ≠ path) (h : Delivers s left corrupt) (fuel : Nat) (atRoot : Bool) :
    ∃ t l' r', decodeLoop root (left.length + fuel) (.node l r) atRoot s =
        decodeLoop root fuel (.node l' r') (atRoot && left.isEmpty) t ∧ ReaderFrame s t ∧ Delivers t [] corrupt := by
  induction left generalizing s l r path atRoot with
  | nil => exact ⟨s, l, r, by rw [List.length_nil, Nat.zero_add, List.isEmpty_nil, Bool.and_true], ReaderFrame.refl s, h⟩
  | cons bit left ih =>
    obtain ⟨bit', path, rfl, hchild⟩ := Tree.mem_paths_node hmem
    obtain ⟨rfl, hleft'⟩ := List.cons_prefix_cons.mp hleft
    have hne' : left ≠ path := fun h => hne (h ▸ rfl)
    obtain ⟨s₁, hbit, hf₁, hd₁⟩ := h.readBit_cons
    rw [List.length_cons, Nat.add_right_comm, decodeLoop, bind_ok hbit]
    simp only
    cases hc : (if bit then r else l) with
    | leaf v =>
      obtain ⟨-, rfl⟩ : b = v ∧ path = [] := by simpa [hc, Tree.paths] using hchild
      exact absurd (List.prefix_nil.mp hleft') hne'
    | node l' r' =>
      obtain ⟨t, l'', r'', hrun, hf, hd⟩ := ih (hc ▸ hchild) hleft' hne' hd₁ false
      exact ⟨t, l'', r'', by simpa using hrun, hf₁.trans hf, hd⟩

/-- Whole paths put the bytes of their leaves. -/
theorem decodeLoop_paths {syms : List (Byte × List Bool)} (hsyms : ∀ p ∈ syms, p ∈ (Tree.node l r).paths [])
    (h : Delivers s (syms.flatMap Prod.snd ++ rest) corrupt) (fuel : Nat) :
    ∃ t, decodeLoop (.node l r) ((syms.flatMap Prod.snd).length + fuel) (.node l r) true s =
        decodeLoop (.node l r) fuel (.node l r) true t ∧ Emits s t (syms.map Prod.fst) ∧ Delivers t rest corrupt := by
  induction syms generalizing s with
  | nil => exact ⟨s, by rw [List.flatMap_nil, List.length_nil, Nat.zero_add], .refl s, h⟩
  | cons p syms ih =>
    obtain ⟨hp, hsyms⟩ := List.forall_mem_cons.mp hsyms
    rw [List.flatMap_cons, List.append_assoc] at h
    obtain ⟨s₁, hrun₁, hf₁, hd₁⟩ := decodeLoop_path (root := .node l r) hp h ((syms.flatMap Prod.snd).length + fuel) true
    obtain ⟨t, hrun, hf, hd⟩ := ih hsyms hd₁
    exact ⟨t, by rw [List.flatMap_cons, List.length_append, Nat.add_assoc, hrun₁, hrun], hf₁.trans hf, hd⟩

/-- `HUF.DECODE` has put `out` and has no bit left to read; it is at the root, or inside a path. -/
structure Decoded (s t : State) (out : List Byte) (atRoot corrupt : Bool) : Prop where
  emits : Emits s t out
  delivers : Delivers t [] corrupt
  ends : ∀ {u}, readBit t = .ok none u → hufDecodeBody s =
    ((if atRoot then pure () else raise .malformedInput 5 : M Unit) >>= fun _ => pure done) u
  fails : ∀ {e u}, readBit t = .error e u → hufDecodeBody s = .error e u

theorem hufDecodeBody_eq (htree : s.huf.tree = some T) : hufDecodeBody s =
    (decodeWith T (bitBudget s) >>= fun _ => pure done) s := by
  simp only [hufDecodeBody, heldTree, bind_apply, look_apply, htree, pure_apply]

theorem bitBudget_eq_add (h : Delivers s bits corrupt) : ∃ fuel, bitBudget s = bits.length + (fuel + 1) := by
  have hbudget := h.length_lt_bitBudget
  exact ⟨bitBudget s - bits.length - 1, by omega⟩

theorem decoded_leaf {b : Byte} (htree : s.huf.tree = some (.leaf b)) (h : Delivers s bits corrupt) :
    ∃ t, Decoded s t (List.replicate bits.length b) true corrupt := by
  obtain ⟨fuel, hfuel⟩ := bitBudget_eq_add h
  obtain ⟨t, hrun, hf, hd⟩ := decodeDegenerate_bits (b := b) h (fuel + 1)
  have hbody : hufDecodeBody s = (decodeDegenerate b (fuel + 1) >>= fun _ => pure done) t := by
    rw [hufDecodeBody_eq htree, hfuel, bind_apply, bind_apply, ← hrun]
    rfl
  refine ⟨t, hf, hd, fun hend => ?_, fun herr => hbody.trans (bind_error (bind_error herr))⟩
  rw [hbody, bind_apply, bind_apply, decodeDegenerate, bind_ok hend]
  rfl

theorem decoded_paths {syms : List (Byte × List Bool)} (hT : 2 ≤ T.leaves) (htree : s.huf.tree = some T)
    (hsyms : ∀ p ∈ syms, p ∈ T.paths []) (h : Delivers s (syms.flatMap Prod.snd ++ left) corrupt)
    (hleft : left = [] ∨ ∃ p ∈ T.paths [], left <+: p.2 ∧ left ≠ p.2) :
    ∃ t, Decoded s t (syms.map Prod.fst) left.isEmpty corrupt := by
  obtain ⟨l, r, rfl⟩ : ∃ l r, T = .node l r := by
    cases T with
    | leaf b => exact absurd hT (by simp [Tree.leaves])
    | node l r => exact ⟨l, r, rfl⟩
  obtain ⟨fuel, hfuel⟩ := bitBudget_eq_add h
  obtain ⟨s₁, hrun₁, hf₁, hd₁⟩ := decodeLoop_paths hsyms h (left.length + (fuel + 1))
  have hinside : ∃ t l' r', decodeLoop (.node l r) (left.length + (fuel + 1)) (.node l r) true s₁ =
      decodeLoop (.node l r) (fuel + 1) (.node l' r') left.isEmpty t ∧ ReaderFrame s₁ t ∧ Delivers t [] corrupt := by
    rcases hleft with rfl | ⟨⟨b, path⟩, hp, hpre, hne⟩
    · exact ⟨s₁, l, r, by rw [List.length_nil, Nat.zero_add, List.isEmpty_nil], ReaderFrame.refl s₁, hd₁⟩
    · simpa using decodeLoop_inside (root := .node l r) hp hpre hne hd₁ (fuel + 1) true
  obtain ⟨t, l', r', hrun, hf, hd⟩ := hinside
  have hbody : hufDecodeBody s =
      (decodeLoop (.node l r) (fuel + 1) (.node l' r') left.isEmpty >>= fun _ => pure done) t := by
    rw [hufDecodeBody_eq htree, hfuel, List.length_append, Nat.add_assoc, decodeWith, bind_apply, bind_apply, hrun₁, hrun]
  refine ⟨t, by simpa using hf₁.trans hf.emits, hd, fun hend => ?_, fun herr => hbody.trans (bind_error (bind_error herr))⟩
  rw [hbody, bind_apply, bind_apply, decodeLoop, bind_ok hend]

theorem Decoded.ok (h : Decoded s t out true false) :
    ∃ u, hufDecodeBody s = .ok done u ∧ Emits s u out ∧ Delivers u [] false := by
  obtain ⟨u, hu, hf, hd⟩ := h.delivers.readBit_end
  exact ⟨u, h.ends hu, by simpa using h.emits.trans hf.emits, hd⟩

theorem Emits.snkData (h : Emits s t out) : t.mem.snkData = s.mem.snkData ++ out := congrArg (·.mem.snkData) h

theorem Decoded.cut (h : Decoded s t out false false) :
    ∃ u, hufDecodeBody s = .error (.raise ⟨.malformedInput, 5⟩) u ∧ u.mem.snkData = s.mem.snkData ++ out := by
  obtain ⟨u, hu, hf, -⟩ := h.delivers.readBit_end
  exact ⟨u, h.ends hu, by simpa using (h.emits.trans hf.emits).snkData⟩

theorem Decoded.endsCorrupt {atRoot : Bool} (h : Decoded s t out atRoot true) :
    ∃ u, hufDecodeBody s = .error (.raise ⟨.malformedInput, 7⟩) u ∧ u.mem.snkData = s.mem.snkData ++ out := by
  obtain ⟨u, hu⟩ := h.delivers.readBit_corrupt
  exact ⟨u, h.fails hu, (Acts.readBit.snkData_of_error (by decide) hu).trans h.emits.snkData⟩

/-! ### `HUF.DECODE` -/

theorem exec_hufDecode_returns (hs : Ready s) (hc : firstFailed (hufDecodeChecks s) = none)
    (h : ∃ u, hufDecodeBody s = .ok done u ∧ Emits s u out ∧ Delivers u [] false) :
    ∃ t, exec .hufDecode s = .next t ∧ Answers t 0x00 0 ∧ t.bitsToRead = [] ∧
      t.mem.snkData = s.mem.snkData ++ out ∧ CommandFrame .hufDecode s t := by
  obtain ⟨u, hb, hf, hd⟩ := h
  have hx := (exec_hufDecode s).trans (command_returns hs.1 hc hb)
  have hans : Answers (u.respond Status.ok.code done.value) 0x00 0 := rfl
  exact ⟨_, hx, hans, hd.bits, hf.snkData, hans.frame hs hx⟩

theorem exec_hufDecode_fails {info : Byte} (hs : Ready s) (hc : firstFailed (hufDecodeChecks s) = none)
    (h : ∃ u, hufDecodeBody s = .error (.raise ⟨.malformedInput, info⟩) u ∧ u.mem.snkData = s.mem.snkData ++ out) :
    ∃ t, exec .hufDecode s = .next t ∧ FailedDuring s t 0 0x48 0x82 info ∧ t.mem.snkData = s.mem.snkData ++ out := by
  obtain ⟨u, hb, hsnk⟩ := h
  obtain ⟨t, hx, hfails, hmem⟩ := (Acts.hufDecodeBody.fails (op := 0x48) (by decide) hs hc hb :)
  exact ⟨t, hx, hfails, by rw [hmem, hsnk]⟩

/-- Settles O49, by where the bits end: at the root or inside a path, and with a last byte `0xFF` or not. -/
theorem decodeEmitsTheLeaves : Obligations.DecodeEmitsTheLeaves := by
  intro s T hs hok htree hbr hbw hcur hn
  have hc := hufDecodeChecks_of_open hok hbr hbw
  refine ⟨fun b hT hcor => ?_, fun b hT hcor => ?_, fun syms left hT hsyms hbits hleft => ?_⟩
  · obtain ⟨t, hd⟩ := decoded_leaf (hT ▸ htree) ⟨hn, hcur, rfl, hcor⟩
    exact exec_hufDecode_returns hs hc hd.ok
  · obtain ⟨t, hd⟩ := decoded_leaf (hT ▸ htree) ⟨hn, hcur, rfl, hcor⟩
    exact exec_hufDecode_fails hs hc hd.endsCorrupt
  · obtain ⟨t, hd⟩ := decoded_paths hT htree hsyms ⟨hn, hcur, hbits, rfl⟩ hleft
    refine ⟨fun hnil hcor => ?_, fun hne hcor => ?_, fun hcor => ?_⟩ <;> rw [hcor] at hd
    · rw [List.isEmpty_iff.mpr hnil] at hd
      exact exec_hufDecode_returns hs hc hd.ok
    · rw [List.isEmpty_eq_false_iff.mpr hne] at hd
      exact exec_hufDecode_fails hs hc hd.cut
    · exact exec_hufDecode_fails hs hc hd.endsCorrupt

end Sys2Proof.Machine
end

