-- ==== Sys2Proof/Proofs/HuffmanEntryPoints.lean ====
section
/-! PROOF. `HUF.COMPRESS` and `HUF.DECOMPRESS` (R110, R111). The entry point builds the tree the two commands `HUF.COUNT`
and `HUF.BUILD` make: the build sees the table, the queue and the arena only, not the phase, the ports or the response. -/

namespace Sys2Proof.Machine

variable {s t u : State} {f : List Cell} {bits payload : List Bool} {T : Tree} {out : List Byte} {op : Byte}
  {checks : State → Checks} {body : M Response}

/-! ### The build does not see where it runs -/

/-- The state with the phase, the ports, the memory and the response of another. -/
def State.at (u s : State) : State := { s with phase := u.phase, rsp := u.rsp, answers := u.answers, mem := u.mem }

namespace Follows

theorem comparator : Follows u.at comparator := by
  refine ⟨fun {s a t} h => ?_⟩
  unfold Machine.comparator at h ⊢
  split at h <;> cases h
  rename_i hcmp
  exact if_pos (show (u.at s).pq.cmp = 0 from hcmp)

theorem pqInsert (item : Nat) : Follows u.at (pqInsert item) :=
  bind look fun _ => ite (bind comparator fun _ => change) raise

theorem pqExtractMin : Follows u.at pqExtractMin := by
  refine bind look fun h => ?_
  cases h with
  | nil => exact raise
  | cons m rest => exact bind comparator fun _ => bind change fun _ => pure m

theorem allocNode (n : Node) : Follows u.at (allocNode n) :=
  bind look fun _ => bind look fun _ => ite (bind change fun _ => pure _) raise

theorem mkNode (l r : Nat) : Follows u.at (mkNode l r) :=
  bind look fun _ => bind look fun _ => ite (allocNode _) raise

theorem insertLeaves (bs : List Byte) : Follows u.at (insertLeaves bs) := by
  induction bs with
  | nil => exact pure ()
  | cons b bs ih => exact bind look fun _ => ite (bind (allocNode _) fun _ => bind (pqInsert _) fun _ => ih) ih

theorem mergeAll (n : Nat) : Follows u.at (mergeAll n) := by
  induction n with
  | zero => exact pure ()
  | succ n ih =>
    exact bind look fun _ => ite (bind (bind pqExtractMin fun _ => bind pqExtractMin fun _ => bind (mkNode _ _) fun _ =>
      pqInsert _) fun _ => ih) (pure ())

theorem hufBuildBody : Follows u.at hufBuildBody :=
  bind change fun _ => bind change fun _ => bind (insertLeaves _) fun _ => bind look fun n => bind (mergeAll n) fun _ =>
    bind pqExtractMin fun _ => bind change fun _ => pure _

end Follows

theorem table_ext {α : Type} {a b : Table α} (h : ∀ v, Table.at a v = Table.at b v) : a = b := by
  refine Vector.ext fun i hi => ?_
  have hv := h (BitVec.ofNat 8 i)
  simp only [Table.at, BitVec.toNat_ofNat, Nat.mod_eq_of_lt (show i < 2 ^ 8 from hi)] at hv
  exact hv

/-! ### A raise in a step -/

theorem Acts.fails_inPhase {c : Cause} (p : Phase) (hacts : Acts f body) (hs : Ready s)
    (hc : firstFailed (checks s) = none) (hb : body s = .error (.raise c) u) (hphase : u.phase = p) :
    ∃ t, command op checks body s = .next t ∧ FailedDuring s t p.code op c.kind.code c.info ∧ t.mem = u.mem := by
  have hu := hacts.error hb
  obtain ⟨t, hx, hfails⟩ := command_fails_inPhase (op := op) p hs.1 hc hb
    ⟨hu.faultReg, hphase, hu.cmd, hu.host, hu.params, hu.srcData⟩
  rw [command_raises hs.1 hc hb, Host.Outcome.next.injEq] at hx
  exact ⟨t, by rw [← hx, command_raises hs.1 hc hb], hfails, by rw [← hx]; exact u.faultEntry_mem _ _ _⟩

/-! ### `HUF.COMPRESS` (R110) -/

theorem Acts.compressOutput : Acts (.stops :: .srcPos :: .writerOpen :: .lostBytes :: .draws :: .phase :: writerCells)
    compressOutput :=
  (bind (substep .opening bwOpenChecks (fun _ => rfl) bwOpenBody) fun _ =>
    bind (substep .hSerialize hufSerializeChecks (fun _ => rfl) hufSerializeBody) fun _ =>
    bind (substep .hEncode hufEncodeChecks (fun _ => rfl) hufEncodeBody) fun _ =>
    bind (substep .closing bwCloseChecks (fun _ => rfl) bwCloseBody) fun _ => endMacro).mono (by decide)

theorem compressOutput_ensures : Ensures (fun t => t.mem.srcPos = t.mem.srcData.length) compressOutput := by
  refine .bind fun _ => .bind fun _ => (hufEncodeBody_ensures.substep _ _).then fun _ s b t hend h => ?_
  have hu := ((Acts.bind (Acts.substep .closing bwCloseChecks (fun _ => rfl) Acts.bwCloseBody) fun _ =>
    Acts.endMacro).ok h)
  have hpos : t.mem.srcPos = s.mem.srcPos := hu.same .srcPos (by decide)
  rw [hpos, hu.srcData]
  exact hend

theorem compress_builds (hs : Ready s) (hbr : s.br.isOpen = false) (hn : NoIoFail s) (hwf : Params.wf s.params = true)
    (hfits : Params.fitsFreq s.params s.mem.srcData.length = true) (hne : s.mem.srcData ≠ []) :
    ∃ t u v T, hufCompressBody s = compressOutput t ∧ exec .hufCount s = .next u ∧ exec .hufBuild u = .next v ∧
      v.huf.tree = some T ∧ TreeOf s.mem.srcData T ∧ v.huf.treeOk = true ∧ NoIoFail t ∧
      t = { s with huf := { v.huf with code := codeTable T, derived := true }, pq := v.pq, phase := t.phase,
                   mem := { s.mem with srcPos := t.mem.srcPos }, answers := t.answers } := by
  -- the same counts, in the entry point and in the command
  obtain ⟨freq, pos, answers, hcounts, hanswers, hcount⟩ := hufCountBody_ok (hn.inPhase .hCount) (fitsFreq_count hfits)
  obtain ⟨freq', pos', answers', hcounts', -, hcount'⟩ := hufCountBody_ok hn (fitsFreq_count hfits)
  obtain rfl : freq' = freq := table_ext fun b => (hcounts' b).trans (hcounts b).symm
  have h₁ := substep_ok .hCount (hufCountChecks_of_closed hbr) hcount
  have hx₁ := (exec_hufCount s).trans (command_returns hs.1 (hufCountChecks_of_closed hbr) hcount')
  set s₁ : State := { s.inPhase .hCount with huf := _, mem := _, answers := _ } with hs₁
  set u : State := State.respond _ _ _ with hu
  -- the same build
  obtain ⟨nodes, root, T, htree, hT, hbuild⟩ := hufBuildBody_ok_of_counts (s := s₁.inPhase .hBuild) hwf hfits hcounts hne
  have hat : u.at (s₁.inPhase .hBuild) = u := rfl
  have hbuild' := (Follows.hufBuildBody (u := u)).ok hbuild
  rw [hat] at hbuild'
  have h₂ := substep_ok .hBuild (s := s₁) (hufBuildChecks_of_counts rfl hcounts hne) hbuild
  have hx₂ := (exec_hufBuild u).trans (command_returns hs.1 (hufBuildChecks_of_counts rfl hcounts hne) hbuild')
  set s₂ : State := { s₁.inPhase .hBuild with huf := _, pq := _ }
  have h₃ := substep_ok .hDerive (s := s₂) (hufDeriveChecks_of_tree rfl) (hufDeriveBody_ok htree (hT.codesFit _))
  exact ⟨_, u, _, T, (bind_ok h₁).trans ((bind_ok h₂).trans (bind_ok h₃)), hx₁, hx₂, htree, hT, rfl, hn.mono hanswers, rfl⟩

/-- `HUF.COMPRESS` of an empty source runs into the build's precondition. -/
theorem hufCompressBody_empty (hn : NoIoFail s) (hbr : s.br.isOpen = false) (hempty : s.mem.srcData = []) :
    ∃ t, hufCompressBody s = .error (.raise ⟨.emptyInput, 0⟩) t ∧ t.phase = .hBuild ∧
      t.mem.snkData = s.mem.snkData := by
  obtain ⟨freq, pos, answers, hcounts, -, hcount⟩ := hufCountBody_ok (hn.inPhase .hCount) fun b => by
    rw [show (s.inPhase .hCount).mem.srcData.count b = 0 by simp [State.inPhase, hempty]]
    unfold Params.fitsFreq
    split <;> simp
  have h₁ := substep_ok .hCount (hufCountChecks_of_closed hbr) hcount
  set s₁ : State := { s.inPhase .hCount with huf := _, mem := _, answers := _ }
  have hinput : (needInput (s₁.inPhase .hBuild)).1 = false := by
    rw [← Bool.not_eq_true, needInput_of_counts (s := s₁.inPhase .hBuild) hcounts]
    exact not_not.mpr hempty
  have hc : firstFailed (hufBuildChecks (s₁.inPhase .hBuild)) = some ⟨.emptyInput, 0⟩ := by
    have hcounted : (s₁.inPhase .hBuild).huf.counted = true := rfl
    rw [hufBuildChecks, needCounted, firstFailed_cons, if_pos hcounted, firstFailed, hinput]
    rfl
  exact ⟨_, (bind_ok h₁).trans (bind_error (substep_refused .hBuild hc)), rfl, rfl⟩

/-- Settles O51: the steps are those of the commands, and what they leave is what the close packs. -/
theorem huffmanCompress : Obligations.HuffmanCompress := by
  intro s hs hbr hbw hn hwf hfits
  have hchecks := hufCompressChecks_of_closed hbr hbw
  refine ⟨fun hne => ?_, fun hempty => ?_⟩
  · obtain ⟨s₁, u, v, T, hbuilds, hcount, hbuild, htree, hT, hok, hn₁, hframe⟩ :=
      compress_builds hs hbr hn hwf hfits hne
    obtain ⟨bits, hbits⟩ := hT.exists_codeBits
    have hhuf₁ : s₁.huf = { v.huf with code := codeTable T, derived := true } := congrArg (·.huf) hframe
    have hsrc₁ : s₁.mem.srcData = s.mem.srcData := congrArg (·.mem.srcData) hframe
    obtain ⟨t, hout, hhuf, hsnk⟩ := compressOutput_ok (T := T) hn₁ ((congrArg (·.br.isOpen) hframe).trans hbr)
      ((congrArg (·.bw.isOpen) hframe).trans hbw) (by rw [hhuf₁]; exact htree) (by rw [hhuf₁]; exact hok) (by rw [hhuf₁])
      (by rw [hhuf₁, hsrc₁]; exact hbits)
    have hrun := hbuilds.trans hout
    have hx := (exec_hufCompress s).trans (command_returns hs.1 hchecks hrun)
    have hans : Answers (t.respond Status.ok.code done.value) 0x00 0 := rfl
    have hu := Acts.compressOutput.ok hout
    have hpq : t.pq = s₁.pq := by
      obtain ⟨hcreated, hcmp⟩ := hu.same .pqMode (by decide)
      have hheap := hu.same .heap (by decide)
      calc t.pq = ⟨t.pq.created, t.pq.cmp, t.pq.heap⟩ := rfl
        _ = ⟨s₁.pq.created, s₁.pq.cmp, s₁.pq.heap⟩ := by rw [hcreated, hcmp, hheap]
    have hpos : t.mem.srcPos = t.mem.srcData.length := compressOutput_ensures _ _ _ hout
    rw [hu.srcData, hsrc₁] at hpos
    exact ⟨_, u, v, T, bits, hx, hans, hcount, hbuild, htree, hbits,
      hsnk.trans (by rw [show s₁.params = s.params from congrArg (·.params) hframe]), hhuf.trans hhuf₁,
      hpq.trans (congrArg (·.pq) hframe), (hufCompressBody_ensures _ _ _ hrun).2, hpos, hans.frame hs hx⟩
  · obtain ⟨u, hb, hphase, hsnk⟩ := hufCompressBody_empty hn hbr hempty
    obtain ⟨t, hx, hfails, hmem⟩ := (Acts.hufCompressBody.fails_inPhase (op := 0x4E) .hBuild hs hchecks hb hphase :)
    exact ⟨t, hx, hfails, by rw [hmem, hsnk]⟩

/-! ### `HUF.DECOMPRESS` (R111) -/

theorem hufDecompressChecks_of_closed (hbr : s.br.isOpen = false) (hbw : s.bw.isOpen = false) :
    firstFailed (hufDecompressChecks s) = none := by
  simp [hufDecompressChecks, needPortsFree, firstFailed_cons, hbr, hbw]

/-- The bits of a payload, with the tree held, make `HUF.DECODE` put `out`. -/
def DecodesTo (T : Tree) (payload : List Bool) (out : List Byte) : Prop :=
  ∀ s : State, s.huf.tree = some T → Delivers s payload false →
    ∃ u, hufDecodeBody s = .ok done u ∧ Emits s u out ∧ Delivers u [] false

theorem exec_hufDecompress_of_decodes (hs : Ready s) (hbr : s.br.isOpen = false) (hbw : s.bw.isOpen = false)
    (hn : NoIoFail s) (harena : ArenaHolds s.params T) (hbits : validBits s.mem.srcData = T.ser ++ payload)
    (hcorrupt : endsCorrupt s.mem.srcData = false) (hdecodes : DecodesTo T payload out) :
    ∃ t, exec .hufDecompress s = .next t ∧ Answers t 0x00 0 ∧ t.huf.tree = some T ∧ t.mem.snkData = out ∧
      t.br.isOpen = false ∧ CommandFrame .hufDecompress s t := by
  obtain ⟨s₁, hopens, hd₁, hopen₁, hbw₁, hparams₁, hsnk₁⟩ := hufDecompressBody_opens hn hbr
  rw [hbits, hcorrupt] at hd₁
  obtain ⟨s₂, h₂, hd₂, htree₂, hok₂, hopen₂, hbw₂, hsnk₂⟩ := decompressInput_tree hd₁ hopen₁ (hparams₁ ▸ harena)
  have hclosed₂ : s₂.bw.isOpen = false := by rw [hbw₂, hbw₁, hbw]
  obtain ⟨s₃, hbody₃, hemits, hd₃⟩ := hdecodes (s₂.inPhase .hDecode) htree₂ (hd₂.inPhase _)
  have h₃ := substep_ok .hDecode (hufDecodeChecks_of_open hok₂ hopen₂ hclosed₂) hbody₃
  have hopen₃ : s₃.br.isOpen = true := (congrArg (·.br.isOpen) hemits).trans hopen₂
  have h₄ := substep_ok .closing (brCloseChecks_of_open hopen₃) (brCloseBody_ok (hd₃.noIoFail.inPhase _).next)
  have h₅ := portAccess_ok 3 (s := { s₃.inPhase .closing with
      br := { (Config.freeUnits s₃.draws).br with isOpen := false }, answers := s₃.answers.tail, draws := s₃.draws + 1 })
    (hd₃.noIoFail.mono (List.tail_suffix _)).next
  have hrun : hufDecompressBody s = _ :=
    hopens.trans ((bind_ok h₂).trans ((bind_ok h₃).trans ((bind_ok h₄).trans ((bind_ok h₅).trans (endMacro_apply _)))))
  have hx := (exec_hufDecompress s).trans (command_returns hs.1 (hufDecompressChecks_of_closed hbr hbw) hrun)
  have hsnk₃ : s₃.mem.snkData = s₂.mem.snkData ++ out := hemits.snkData
  rw [hsnk₂, hsnk₁] at hsnk₃
  have htree₃ : s₃.huf.tree = some T := (congrArg (·.huf.tree) hemits).trans htree₂
  refine ⟨_, hx, ?_, htree₃, hsnk₃, rfl, ?_⟩
  · rfl
  · exact Answers.frame (r := 0) rfl hs hx

theorem decodesTo_leaf (b : Byte) (payload : List Bool) :
    DecodesTo (.leaf b) payload (List.replicate payload.length b) := fun _ htree hd => by
  obtain ⟨t, hdecoded⟩ := decoded_leaf htree hd
  exact hdecoded.ok

theorem decodesTo_paths {syms : List (Byte × List Bool)} (hT : 2 ≤ T.leaves) (hsyms : ∀ p ∈ syms, p ∈ T.paths []) :
    DecodesTo T (syms.flatMap Prod.snd) (syms.map Prod.fst) := fun _ htree hd => by
  rw [← List.append_nil (syms.flatMap Prod.snd)] at hd
  obtain ⟨t, hdecoded⟩ := decoded_paths hT htree hsyms hd (.inl rfl)
  exact hdecoded.ok

/-- `HUF.DECOMPRESS` of an empty source finds no tree. -/
theorem hufDecompressBody_empty (hn : NoIoFail s) (hbr : s.br.isOpen = false) (hempty : s.mem.srcData = []) :
    ∃ t, hufDecompressBody s = .error (.raise ⟨.malformedInput, 4⟩) t ∧ t.phase = .hDeserialize ∧
      t.mem.snkData = [] := by
  obtain ⟨s₁, hopens, hd₁, hopen₁, -, -, hsnk₁⟩ := hufDecompressBody_opens hn hbr
  rw [hempty] at hd₁
  have hd₀ : Delivers (s₁.inPhase .hDeserialize).noNodes [] false := (hd₁.inPhase _).withHuf _
  obtain ⟨u, hu⟩ := deserialize_nil (fuel := bitBudget (s₁.inPhase .hDeserialize) - 1) hd₀
  have hbudget : bitBudget (s₁.inPhase .hDeserialize) - 1 + 1 = bitBudget (s₁.inPhase .hDeserialize) := by
    simp [bitBudget]
  rw [hbudget] at hu
  have hb := hufDeserializeBody_error hu
  have h₂ := substep_error .hDeserialize (hufDeserializeChecks_of_open hopen₁) hb
  have hwithin := Acts.hufDeserializeBody.error hb
  exact ⟨u, hopens.trans (bind_error h₂), hwithin.same .phase (by decide),
    Eq.trans (hwithin.same .sink (by decide)) hsnk₁⟩

/-- Settles O52: the steps read the tree, decode the payload and close the reader. -/
theorem huffmanDecompress : Obligations.HuffmanDecompress := by
  intro s hs hbr hbw hn
  refine ⟨fun T syms hT harena hsyms hbits hcor => ?_, fun b payload harena hbits hcor => ?_, fun hempty => ?_⟩
  · exact exec_hufDecompress_of_decodes hs hbr hbw hn harena hbits hcor (decodesTo_paths hT hsyms)
  · exact exec_hufDecompress_of_decodes hs hbr hbw hn harena hbits hcor (decodesTo_leaf b payload)
  · obtain ⟨u, hb, hphase, hsnk⟩ := hufDecompressBody_empty hn hbr hempty
    obtain ⟨t, hx, hfails, hmem⟩ := (Acts.hufDecompressBody.fails_inPhase (op := 0x4F) .hDeserialize hs
      (hufDecompressChecks_of_closed hbr hbw) hb hphase :)
    exact ⟨t, hx, hfails, by rw [hmem, hsnk]⟩

end Sys2Proof.Machine
end

