-- ==== Sys2Proof/Proofs/LzwCommands.lean ====
section
/-! PROOF. `LZW.ENC_BYTE`, `LZW.ENC_FLUSH`, `LZW.DEC_CODE` and the two entry points (R132, R133, R136, R139, R140): what they
answer and leave, and every way in which the decoding of one code fails. -/

namespace Sys2Proof.Machine

variable {s t u : State} {bits rest : List Bool} {corrupt : Bool} {dtab : List (List Byte)} {prev : Option (List Byte)}
  {q : List Byte} {c n : Nat} {codes : List Nat}

/-! ### The encoder's commands (R132, R133) -/

theorem exec_lzwEncByte (y : BitVec 64) (s : State) :
    exec (.lzwEncByte y) s = command 0x61 (lzwEncByteChecks y) (lzwEncByteBody y) s := rfl

theorem exec_lzwEncFlush (s : State) : exec .lzwEncFlush s = command 0x62 lzwEncFlushChecks lzwEncFlushBody s := rfl

theorem byteOperand_setWidth (b : Byte) : byteOperand (b.setWidth 64) = b := by
  simp [byteOperand]

theorem lzwEncByteChecks_of_open {b : Byte} (hready : s.lzw.eready = true) (h : s.bw.isOpen = true) :
    firstFailed (lzwEncByteChecks (b.setWidth 64) s) = none := by
  have hle : (b.setWidth 64).toNat ≤ 255 := by
    rw [BitVec.toNat_setWidth_of_le (by decide)]
    exact Nat.le_of_lt_succ b.isLt
  simp only [lzwEncByteChecks, needEncoder, needWriterOpen, argByte, firstFailed_cons, hready, h, decide_eq_true hle, if_true]
  rfl

theorem lzwEncByteBody_ok {b : Byte} (h : encByte b s = .ok () t) : lzwEncByteBody (b.setWidth 64) s = .ok done t := by
  rw [lzwEncByteBody, byteOperand_setWidth]
  exact bind_ok h

/-- A sequence in the dictionary has a code, which is written whole. -/
theorem Accepted.emitMatch_of_mem (h : Accepted s bits) (hmem : s.lzw.buf ∈ s.lzw.edict) :
    ∃ c t, s.lzw.edict[c]? = some s.lzw.buf ∧ Machine.emitMatch s = .ok () t ∧ t.lzw = s.lzw ∧ Accepted t (bits ++ bitsOf codeW c) := by
  obtain ⟨c, hc⟩ := Option.isSome_iff_exists.mp (codeOf_isSome_iff.mpr hmem)
  obtain ⟨t, ht, hf, ha⟩ := h.emitMatch hc
  exact ⟨c, t, codeOf_eq_some hc, ht, congrArg (·.lzw) hf.1, ha⟩

/-- Settles O55, by whether the dictionary has the longer match; when it has not, it has the match so far. -/
theorem encodeOneByte : Obligations.EncodeOneByte := by
  intro s b hs hready hinv hopen hw hn
  have hchecks := lzwEncByteChecks_of_open (b := b) hready hopen
  refine ⟨fun hmem => ?_, fun hmem => ?_⟩
  · rw [exec_lzwEncByte, command_returns hs.1 hchecks (lzwEncByteBody_ok (encByte_of_mem hmem))]
    rfl
  · obtain ⟨c, u, hc, hu, hlzw, ha⟩ := Accepted.emitMatch_of_mem ⟨hn, hw hopen, rfl⟩
      ((encoderInv_iff.mp hinv hready).buf_mem hmem)
    have hx := (exec_lzwEncByte _ s).trans
      (command_returns hs.1 hchecks (lzwEncByteBody_ok (encByte_of_not_mem hmem hu)))
    set t : State := State.respond _ _ _ with ht
    have hans : Answers t 0x00 0 := rfl
    refine ⟨t, c, hx, hans, hc, fun _ => ha.acc, ha.bits, ?_, hans.frame hs hx⟩
    rw [ht, hlzw]
    rfl

/-- Settles O56, by whether there is a match to flush. -/
theorem flushTheMatch : Obligations.FlushTheMatch := by
  intro s hs hready hinv hopen hw hn
  have hchecks := lzwEncFlushChecks_of_open hready hopen
  refine ⟨fun hnil => ?_, fun hne => ?_⟩
  · have hb : lzwEncFlushBody s = .ok done s := by
      have hsame : ({ s with lzw := { s.lzw with buf := [] } } : State) = s := by rw [← hnil]
      simp [lzwEncFlushBody, runIf, hnil, changeLzw, hsame]
    rw [exec_lzwEncFlush, command_returns hs.1 hchecks hb]
    rfl
  · obtain ⟨c, u, hc, hu, hlzw, ha⟩ := Accepted.emitMatch_of_mem ⟨hn, hw hopen, rfl⟩
      ((encoderInv_iff.mp hinv hready).buf.resolve_left hne)
    have hb : lzwEncFlushBody s = .ok done { u with lzw := { u.lzw with buf := [] } } := by
      simp [lzwEncFlushBody, runIf, hne, hu, changeLzw]
    have hx := (exec_lzwEncFlush s).trans (command_returns hs.1 hchecks hb)
    set t : State := State.respond _ _ _ with ht
    have hans : Answers t 0x00 0 := rfl
    refine ⟨t, c, hx, hans, hc, fun _ => ha.acc, ha.bits, ?_, hans.frame hs hx⟩
    rw [ht, hlzw]
    rfl

/-! ### `LZW.DEC_CODE` (R136) -/

theorem exec_lzwDecCode (s : State) : exec .lzwDecCode s = command 0x64 lzwDecCodeChecks lzwDecCodeBody s := rfl

theorem lzwDecCodeChecks_of_open (hready : s.lzw.dready = true) (hbr : s.br.isOpen = true) (hbw : s.bw.isOpen = false) :
    firstFailed (lzwDecCodeChecks s) = none := by
  simp [lzwDecCodeChecks, needDecoder, needReaderOpen, needSinkFree, firstFailed_cons, hready, hbr, hbw]

/-- Twelve bits are those of the code they spell. -/
theorem bitsOf_val_take (h : 12 ≤ bits.length) : bitsOf codeW (val (bits.take 12)) ++ bits.drop 12 = bits := by
  have hlen : (bits.take 12).length = codeW := by simp [h, codeW]
  rw [← hlen, bitsOf_val, List.take_append_drop]

theorem val_take_lt (bits : List Bool) : val (bits.take 12) < dictCap :=
  (val_lt _).trans_le (Nat.pow_le_pow_right (by decide) (List.length_take_le 12 bits))

/-- What the rule says a code stands for (R136). -/
theorem sequenceOf_eq_ok (h : prev = none ∧ c < 256 ∧ dtab[c]? = some q ∨ ∃ p, prev = some p ∧ (dtab[c]? = some q ∨
    c = dtab.length ∧ ∃ first, p.head? = some first ∧ q = p ++ [first])) : sequenceOf dtab prev c = .ok (some q) := by
  rcases h with ⟨rfl, hc, hq⟩ | ⟨p, rfl, hq | ⟨rfl, first, hp, rfl⟩⟩
  · simp only [sequenceOf, if_neg (not_le.mpr hc), hq]
  · have hlt := (List.getElem?_eq_some_iff.mp hq).1
    simp only [sequenceOf, if_pos hlt, hq]
  · simp [sequenceOf, hp]

theorem sequenceOf_first_error (hprev : prev = none) (hc : 256 ≤ c) : sequenceOf dtab prev c = .error 1 := by
  subst hprev
  exact if_pos hc

theorem sequenceOf_unknown_error (hprev : prev ≠ none) (hc : dtab.length < c) : sequenceOf dtab prev c = .error 2 := by
  obtain ⟨p, rfl⟩ := Option.ne_none_iff_exists'.mp hprev
  simp only [sequenceOf, if_neg (Nat.not_lt.mpr hc.le), if_neg hc.ne']

/-- A code the rule has no sequence for. -/
theorem Delivers.decCode_unknown {info : Byte} (h : Delivers s (bitsOf codeW c ++ rest) corrupt) (hc : c < dictCap)
    (hq : sequenceOf s.lzw.dtab s.lzw.prev c = .error info) :
    ∃ t, Machine.decCode s = .error (.raise ⟨.malformedInput, info⟩) t ∧ ReaderFrame s t := by
  obtain ⟨t, hread, hf, -⟩ := h.readBits_append
  rw [bitsOf_length, val_bitsOf, Nat.mod_eq_of_lt (show c < 2 ^ codeW from hc)] at hread
  have hlzw : t.lzw = s.lzw := congrArg (·.lzw) hf.1
  refine ⟨t, ?_, hf⟩
  simp only [Machine.decCode, bind_apply, hread, look_apply, hlzw, hq]
  rfl

/-- Fewer than twelve bits, with the last byte of the source not to be trusted. -/
theorem Delivers.decCode_corrupt (h : Delivers s bits true) (hlen : bits.length < codeW) :
    ∃ t, Machine.decCode s = .error (.raise ⟨.malformedInput, 7⟩) t ∧ ReaderFrame s t := by
  obtain ⟨t, ht, hf⟩ := readBits_corrupt h.noIoFail h.cursor (h.bits ▸ hlen) h.corrupt
  exact ⟨t, bind_error ht, hf⟩

theorem exec_lzwDecCode_of_error {info : Byte} (hs : Ready s) (hc : firstFailed (lzwDecCodeChecks s) = none)
    (h : ∃ u, decCode s = .error (.raise ⟨.malformedInput, info⟩) u ∧ ReaderFrame s u) :
    ∃ t, exec .lzwDecCode s = .next t ∧ FailedDuring s t 0 0x64 0x82 info ∧
      t.mem.snkData = s.mem.snkData := by
  obtain ⟨u, hu, hf⟩ := h
  obtain ⟨t, hx, hfails, hmem⟩ := (Acts.lzwDecCodeBody.fails (op := 0x64) (by decide) hs hc (bind_error hu) :)
  exact ⟨t, hx, hfails, by rw [hmem, hf.1]⟩

/-- A code that stands for a sequence: it is put, and the table and the previous sequence follow the rule. -/
theorem exec_lzwDecCode_of_sequence (hs : Ready s) (hchecks : firstFailed (lzwDecCodeChecks s) = none)
    (hz : DecoderOk s.lzw) (hd : Delivers s (bitsOf codeW c ++ rest) corrupt) (hc : c < dictCap)
    (hq : sequenceOf s.lzw.dtab s.lzw.prev c = .ok (some q)) :
    ∃ t, exec .lzwDecCode s = .next t ∧ Answers t 0x00 c ∧ t.mem.snkData = s.mem.snkData ++ q ∧ Delivers t rest corrupt ∧
      t.lzw.prev = some q ∧ (∀ first, q.head? = some first → t.lzw.dtab = registerEntry s.lzw.dtab s.lzw.prev first) ∧
      CommandFrame .lzwDecCode s t := by
  obtain ⟨_, ⟨⟩, hne⟩ := hz.sequenceOf_ok hq
  obtain ⟨first, tail, rfl⟩ := List.exists_cons_of_ne_nil hne
  obtain ⟨u, hu, hf, hdu, hdtab, hprev⟩ := hd.decCode hc hq
  have hx := (exec_lzwDecCode s).trans (command_returns hs.1 hchecks (bind_ok hu))
  set t : State := State.respond _ _ _ with ht
  have hans : Answers t 0x00 c := rfl
  exact ⟨t, hx, hans, congrArg (·.mem.snkData) hf, ⟨hdu.noIoFail, hdu.cursor, hdu.bits, hdu.corrupt⟩, hprev,
    fun v hv => by cases hv; exact hdtab, hans.frame hs hx⟩

/-- Settles O57, by the bits to deliver and by what the rule says of the code they spell. -/
theorem decodeOneCode : Obligations.DecodeOneCode := by
  intro s hs hready hinv hbr hbw hcur hn
  have hz := decoderInv_iff.mp hinv hready
  have hchecks := lzwDecCodeChecks_of_open hready hbr hbw
  have hd : Delivers s s.bitsToRead s.readEndsCorrupt := ⟨hn, hcur, rfl, rfl⟩
  have hwhole (hlen : 12 ≤ s.bitsToRead.length) :
      Delivers s (bitsOf codeW (val (s.bitsToRead.take 12)) ++ s.bitsToRead.drop 12) s.readEndsCorrupt := by
    rwa [bitsOf_val_take hlen]
  refine ⟨fun c q hlen hc hrule => ?_, fun c hlen hc => ⟨fun hprev h256 => ?_, fun hprev hnext => ?_⟩,
    fun hlen hcor => ?_, fun hnil hcor => ?_, fun hpos hlen hcor => ?_⟩
  · subst hc
    obtain ⟨t, hx, hans, hsnk, hdt, hprev, hdtab, hframe⟩ :=
      exec_lzwDecCode_of_sequence hs hchecks hz (hwhole hlen) (val_take_lt _) (sequenceOf_eq_ok hrule)
    refine ⟨t, hx, hans, hsnk, hdt.bits, hdt.corrupt, hdt.cursor, hprev, fun hnone => ?_, fun p first hp hfirst => ?_, hframe⟩
    · obtain ⟨_, ⟨⟩, hne⟩ := hz.sequenceOf_ok (sequenceOf_eq_ok hrule)
      rw [hdtab _ (List.head?_eq_some_head hne), hnone]
      rfl
    · rw [hdtab first hfirst, hp]
      rfl
  · subst hc
    exact exec_lzwDecCode_of_error hs hchecks
      ((hwhole hlen).decCode_unknown (val_take_lt _) (sequenceOf_first_error hprev h256))
  · subst hc
    exact exec_lzwDecCode_of_error hs hchecks
      ((hwhole hlen).decCode_unknown (val_take_lt _) (sequenceOf_unknown_error hprev hnext))
  · rw [hcor] at hd
    exact exec_lzwDecCode_of_error hs hchecks (hd.decCode_corrupt hlen)
  · rw [hnil, hcor] at hd
    obtain ⟨u, hu, hf, -⟩ := hd.decCode_end
    have hx := (exec_lzwDecCode s).trans (command_returns hs.1 hchecks (bind_ok hu))
    set t : State := State.respond _ _ _ with ht
    have hans : Answers t 0x01 0 := rfl
    exact ⟨t, hx, hans, congrArg (·.lzw) hf.1, congrArg (·.mem.snkData) hf.1, hans.frame hs hx⟩
  · rw [hcor] at hd
    exact exec_lzwDecCode_of_error hs hchecks (hd.decCode_cut (List.length_pos_iff.mp hpos) hlen)

/-! ### The entry points (R139, R140) -/

/-- After the encoder's loop no step moves the source position. -/
theorem compressSeeded_srcPos {v : Response} (hwf : s.mem.wf = true) (h : compressSeeded s = .ok v t) :
    t.mem.srcPos = t.mem.srcData.length := by
  obtain ⟨n, _, ⟨⟩, h⟩ := bind_eq_ok.mp h
  obtain ⟨_, s₁, hloop, h⟩ := bind_eq_ok.mp h
  exact srcPos_of_loop Acts.encByte hwf hloop
    (Acts.bind (Acts.substep .lEncode lzwEncFlushChecks (fun _ => rfl) Acts.lzwEncFlushBody) fun _ =>
      Acts.bind (Acts.substep .closing (fun _ => []) (fun _ => rfl) (Acts.portAccess 1)) fun _ =>
      Acts.bind (Acts.substep .closing bwCloseChecks (fun _ => rfl) Acts.bwCloseBody) fun _ => Acts.endMacro)
    (by decide) h

/-- Settles O58: the loop and the flush write the bits of the codes, and the close packs them. -/
theorem lzwCompress : Obligations.LzwCompress := by
  intro s hs hbr hbw hn
  obtain ⟨codes, hcodes⟩ := exists_lzwCodes (dict := seedDictionary) (buf := []) (bytes := s.mem.srcData)
    singleton_mem_seedDictionary (.inl rfl)
  have hcap := lzwCodes_lt (by rw [seedDictionary_length]; decide) hcodes
  obtain ⟨s₁, hseeds, ha, hopen, hready, hdict, hbuf, hsrc, hpos, hparams⟩ := lzwCompressBody_seeds hn hbw
  obtain ⟨u, hrun, hsnk⟩ := compressSeeded_ok ha hopen hready hpos (by rwa [hdict, hbuf, hsrc])
  have hb := hseeds.trans hrun
  have hx := (exec_lzwCompress s).trans (command_returns hs.1 (lzwCompressChecks_of_closed hbr hbw) hb)
  have hans : Answers (u.respond Status.ok.code done.value) 0x00 0 := rfl
  have hend := compressSeeded_srcPos (by simp [Memory.wf, hpos]) hrun
  rw [(Acts.lzwCompressBody.ok hb).srcData] at hend
  exact ⟨_, codes, hx, hans, hcodes, hcap, by rw [State.respond_mem, hsnk, hparams],
    (lzwCompressBody_ensures _ _ _ hb).2, hend, hans.frame hs hx⟩

/-- Settles O59: the codes of the encoder stand for the bytes by the decoder's rule. -/
theorem lzwDecoderMirrorsEncoder : Obligations.LzwDecoderMirrorsEncoder := by
  intro s bytes codes hs hbr hbw hn hcodes hbits hcorrupt
  have hcap := lzwCodes_lt (by rw [seedDictionary_length]; decide) hcodes
  obtain ⟨t, hx, hans, hsnk⟩ := exec_lzwDecompress_ok hs hbr hbw hn hcap (decodes_lzwCodes_seedDictionary hcodes) hbits
    hcorrupt
  have hframe := hans.frame hs hx
  have hclosed : t.br.isOpen = false := congrArg (·.br.isOpen) hframe
  exact ⟨t, hx, hans, hsnk, hclosed, hframe⟩

end Sys2Proof.Machine
end
